-- ==== Sys2Proof/Word.lean ====
section
/-! DEFINITION. The widths the manual works with and the shape of a table keyed by numbers. -/

namespace Sys2Proof

/-- One byte of memory. -/
abbrev Byte := BitVec 8
/-- A 32-bit register (R79). -/
abbrev Word := BitVec 32
/-- A 64-bit value: a register pair, an instruction word, a clause header (R4, R41). -/
abbrev DWord := BitVec 64
/-- A sparse table keyed by numbers, kept in rising order of the keys. -/
abbrev Tab (α : Type) := List (Nat × α)

/-- Bytes by address (the cells of `Host.Cell`), rising, no entry equal to what an unlisted address reads as (log 1: zero). -/
abbrev Mem := List (Nat × BitVec 8)

end Sys2Proof
end

