-- ==== Sys2Proof/Machine/Bits.lean ====
section
/-! DEFINITION. Bit fields, extension and byte order (R3, R4, R9). -/

namespace Sys2Proof.Machine

/-- The `len` bits of `w` from bit `lo` upward. -/
def fld {n : Nat} (w : BitVec n) (lo len : Nat) : BitVec len := w.extractLsb' lo len

/-- Bit `i` of a number. -/
def bitN (x i : Nat) : Bool := x.testBit i

/-- A Boolean as a number. -/
def b2n (b : Bool) : Nat := if b then 1 else 0

/-- A Boolean as a bit. -/
def b2b (b : Bool) : BitVec 1 := if b then 1 else 0

/-- `x` as a `w`-bit two's-complement value (SEXT of R9). -/
def sextN (w x : Nat) : Int :=
  let m := x % 2 ^ w
  if w ≠ 0 ∧ 2 ^ (w - 1) ≤ m then (m : Int) - 2 ^ w else m

/-- An exact integer narrowed to `w` bits (two's complement). -/
def wrapN (w : Nat) (v : Int) : Nat := (v % (2 ^ w : Int)).toNat

/-- Clamp to a range. -/
def clampI (lo hi v : Int) : Int := if v < lo then lo else if hi < v then hi else v

/-- The 64-bit value of an even-odd pair (R4). -/
def pairVal (lo hi : Word) : DWord := hi ++ lo
/-- Even half of a 64-bit value. -/
def loHalf (x : DWord) : Word := fld x 0 32
/-- Odd half of a 64-bit value. -/
def hiHalf (x : DWord) : Word := fld x 32 32

/-- floor(log2 x); 0 for 0. -/
def log2 (x : Nat) : Nat := x.log2

/-- Rounded-up quotient. -/
def ceilDiv (a b : Nat) : Nat := (a + b - 1) / b

/-- `a` rounded up to a multiple of `m`. -/
def roundUp (a m : Nat) : Nat := ceilDiv a m * m

/-- Bytes of a little-endian number, lowest first (R4). -/
def leBytes : Nat → Nat → List Byte
  | 0, _ => []
  | n + 1, v => BitVec.ofNat 8 v :: leBytes n (v / 256)

/-- The little-endian number of a byte list (R4). -/
def leVal : List Byte → Nat
  | [] => 0
  | b :: r => b.toNat + 256 * leVal r

/-- The little-endian number of `n` bytes of a list from an offset. -/
def leAt (l : List Byte) (off n : Nat) : Nat := leVal ((l.drop off).take n)

/-- One bits among the low `n` bits of `x`. -/
def popN : Nat → Nat → Nat
  | 0, _ => 0
  | n + 1, x => b2n (bitN x n) + popN n x

/-- Zero bits above the highest one bit of the low `n` bits. -/
def clzN : Nat → Nat → Nat
  | 0, _ => 0
  | n + 1, x => if bitN x n then 0 else 1 + clzN n x

/-- Bit `i` of an `n`-bit value moved to bit `n - 1 - i`. -/
def revN (n x : Nat) : Nat := (List.range n).foldl (fun r i => if bitN x i then r + 2 ^ (n - 1 - i) else r) 0

/-- The number whose bit `i` is `f i`, for `i < n`. -/
def ofBits (n : Nat) (f : Nat → Bool) : Nat := (List.range n).foldl (fun r i => if f i then r + 2 ^ i else r) 0

/-- Positions of the one bits of `x` below `n`, rising. -/
def onesOf (n x : Nat) : List Nat := (List.range n).filter (bitN x)

/-- The number with a one at each listed position. -/
def maskOf (l : List Nat) : Nat := l.foldl (fun r i => r ||| 2 ^ i) 0

/-- Complement inside `n` bits. -/
def notN (n x : Nat) : Nat := (2 ^ n - 1) ^^^ (x % 2 ^ n)

/-- Bits of `x` that are not in `y`. -/
def andNot (x y : Nat) : Nat := x ^^^ (x &&& y)

end Sys2Proof.Machine
end

