-- ==== Sys2Proof/Machine/Tables.lean ====
section
/-! DEFINITION. Sparse tables, and memory as canonical byte lists (log 1). -/

namespace Sys2Proof.Machine

/-- The entry of a key. -/
def tget {α : Type} : Tab α → Nat → Option α
  | [], _ => none
  | (j, a) :: r, k => if j = k then some a else tget r k

/-- Write the entry of a key, keeping the keys in rising order. -/
def tset {α : Type} : Tab α → Nat → α → Tab α
  | [], k, a => [(k, a)]
  | (j, b) :: r, k, a =>
    if j = k then (k, a) :: r else if k < j then (k, a) :: (j, b) :: r else (j, b) :: tset r k a

/-- Remove a key. -/
def tdel {α : Type} (t : Tab α) (k : Nat) : Tab α := t.filter fun e => e.1 != k

/-- The entry of a key, or a default. -/
def tgetD {α : Type} (t : Tab α) (k : Nat) (d : α) : α := (tget t k).getD d

/-- Change the entry of a key where there is one. -/
def tmod {α : Type} (t : Tab α) (k : Nat) (f : α → α) : Tab α :=
  match tget t k with
  | some a => tset t k (f a)
  | none => t

/-- The lowest number from `n` upward that is no key; the fuel is the table's length plus one. -/
def tfreshFrom {α : Type} (t : Tab α) : Nat → Nat → Nat
  | 0, n => n
  | f + 1, n => if (tget t n).isSome then tfreshFrom t f (n + 1) else n

/-- A key that the table does not use. -/
def tfresh {α : Type} (t : Tab α) : Nat := tfreshFrom t (t.length + 1) 0

/-- A byte of memory; an unlisted address reads 0 (log 1). -/
def mget : Mem → Nat → Byte
  | [], _ => 0
  | (j, b) :: r, k => if j = k then b else mget r k

/-- Remove an address of a rising list. -/
def mdel : Mem → Nat → Mem
  | [], _ => []
  | (j, b) :: r, k => if j = k then mdel r k else (j, b) :: mdel r k

/-- Write a byte, keeping the canonical form. -/
def mset (m : Mem) (k : Nat) (b : Byte) : Mem := if b = 0 then mdel m k else tset m k b

/-- `n` bytes from address `a`, lowest first. -/
def mbytes (m : Mem) (a : Nat) : Nat → List Byte
  | 0 => []
  | n + 1 => mget m a :: mbytes m (a + 1) n

/-- The little-endian value of `n` bytes (R4). -/
def mread (m : Mem) (a n : Nat) : Nat := leVal (mbytes m a n)

/-- Write a list of bytes from address `a` upward. -/
def mputs (m : Mem) (a : Nat) : List Byte → Mem
  | [] => m
  | b :: r => mputs (mset m a b) (a + 1) r

/-- Write the `n` low bytes of a value (R4). -/
def mwrite (m : Mem) (a n v : Nat) : Mem := mputs m a (leBytes n v)

/-- All keys of `m` are at least `lo`, rise strictly, and no entry is 0. -/
def memWfFrom : Nat → Mem → Bool
  | _, [] => true
  | lo, (k, b) :: r => decide (lo ≤ k) && decide (b ≠ 0) && memWfFrom (k + 1) r

/-- The canonical form of memory: addresses strictly rising, no entry equal to what an unlisted address reads. -/
def Memory.wf (m : Mem) : Bool := memWfFrom 0 m

/-- Insert into a list sorted by `lt`, after equal elements. -/
def insertBy {α : Type} (lt : α → α → Bool) (x : α) : List α → List α
  | [] => [x]
  | y :: r => if lt x y then x :: y :: r else y :: insertBy lt x r

/-- A stable sort. -/
def sortBy {α : Type} (lt : α → α → Bool) (l : List α) : List α := l.foldl (fun r x => insertBy lt x r) []

/-- Replace element `i` of a list. -/
def setAt {α : Type} : List α → Nat → α → List α
  | [], _, _ => []
  | _ :: r, 0, a => a :: r
  | x :: r, i + 1, a => x :: setAt r i a

/-- Elements without repeats, first occurrences kept. -/
def dedupN (l : List Nat) : List Nat := l.foldl (fun r x => if r.contains x then r else r ++ [x]) []

end Sys2Proof.Machine
end

