-- ==== Sys2Proof/Syntax.lean ====
section
/-! DEFINITION. The steps of the module: one constructor of `Instr` for each row of the table of operations and
events. Instruction rows carry the operands of their 64-bit word (R52-R58); event rows carry the numbers that name
the unit, line, block or job they are about. -/

namespace Sys2Proof

/-- The guard of an instruction word: predicate number and negation (R52). -/
structure Guard where
  pg : BitVec 3
  pn : Bool
  deriving DecidableEq, Repr

/-- Last-use and keep bits of the three sources of format F-R (R53). -/
structure Use where
  la : Bool
  lb : Bool
  lc : Bool
  ka : Bool
  kb : Bool
  kc : Bool
  deriving DecidableEq, Repr

/-- Register operands of format F-R (R53). -/
structure RR where
  g : Guard
  d : BitVec 8
  a : BitVec 8
  b : BitVec 8
  c : BitVec 8
  u : Use
  deriving DecidableEq, Repr

/-- Operands of format F-I (R55). -/
structure RI where
  g : Guard
  d : BitVec 8
  a : BitVec 8
  imm : BitVec 32
  la : Bool
  ka : Bool
  deriving DecidableEq, Repr

/-- SIZE of format F-M (R56). -/
inductive Size where
  | b8 | b16 | b32 | b64 | b128
  deriving DecidableEq, Repr

/-- SCOPE of format F-M (R56, R266). -/
inductive Scope where
  | relaxed | blk | clu | die | dev | sys
  deriving DecidableEq, Repr

/-- ORDER of format F-M (R56). -/
inductive Order where
  | plain | acq | rel | ar
  deriving DecidableEq, Repr

/-- Operands of format F-M (R56). -/
structure RM where
  g : Guard
  d : BitVec 8
  a : BitVec 8
  b : BitVec 8
  off : BitVec 16
  size : Size
  scope : Scope
  order : Order
  hint : BitVec 2
  la : Bool
  lb : Bool
  deriving DecidableEq, Repr

/-- OPER of the operator form of F-M (R71), in the order of the table: 0x01 to 0x0F. -/
inductive Oper where
  | add | addF32 | addF16x2 | addx | minS | minN | minF | maxS | maxN | maxF | and | or | xor | exch | cas
  deriving DecidableEq, Repr

/-- Operands of the operator form of F-M (R71). -/
structure RO where
  g : Guard
  d : BitVec 8
  a : BitVec 8
  b : BitVec 8
  op : Oper
  win : BitVec 8
  size : Size
  scope : Scope
  order : Order
  hint : BitVec 2
  la : Bool
  lb : Bool
  deriving DecidableEq, Repr

/-- Operands of format F-B (R57). -/
structure RB where
  g : Guard
  d : BitVec 8
  a : BitVec 8
  off : BitVec 32
  deriving DecidableEq, Repr

/-- Operands of format F-X (R58). -/
structure RX where
  g : Guard
  d : BitVec 8
  a : BitVec 8
  b : BitVec 8
  c : BitVec 8
  e : BitVec 8
  fa : BitVec 4
  fb : BitVec 4
  flags : BitVec 4
  deriving DecidableEq, Repr

/-- Integer TYPE codes 0-3 (R54, R96). -/
inductive IntTy where
  | s32 | n32 | s64 | n64
  deriving DecidableEq, Repr

/-- The fixed vector types (R96), TYPE codes 0-8. -/
inductive VTy where
  | s32 | n32 | s64 | n64 | b32 | f16 | bf16 | f32 | f64
  deriving DecidableEq, Repr

/-- Rounding modes of RND (R54, R102). -/
inductive Rnd where
  | rne | rz | ru | rd
  deriving DecidableEq, Repr

/-- Comparison codes of SUB (R120). -/
inductive Cmp where
  | eq | ne | lt | le | gt | ge | ord | unord
  deriving DecidableEq, Repr

/-- Shuffle modes of SHFL (R148). -/
inductive ShflMode where
  | idx | up | down | xor
  deriving DecidableEq, Repr

/-- Operators of the cohort reductions (R151). -/
inductive RedOp where
  | add | min | max | and | or | xor
  deriving DecidableEq, Repr

/-- Types of the cohort reductions (R151). -/
inductive RedTy where
  | int (t : IntTy) | b32 | f32
  deriving DecidableEq, Repr

/-- Operators of a host core's AMO (R275). -/
inductive HostAmo where
  | add | swap | and | or | xor | min | max | minu | maxu
  deriving DecidableEq, Repr

/-- One access of a host core to memory that the device can see (R275). -/
inductive HostOp where
  | load | store (data : BitVec 64)
  /-- with the bits .aq and .rl -/
  | amo (f : HostAmo) (data : BitVec 64) (aq rl : Bool)
  | lr (aq rl : Bool) | sc (data : BitVec 64) (aq rl : Bool)
  | fence
  deriving DecidableEq, Repr

/-- The steps of the module, one constructor for each row of the table. -/
inductive Instr where
  -- the host cores
  | hostCoreAccess (hart address size : Nat) (op : HostOp)
  -- the Mint and results
  | bundleForm (core : Nat)
  | groupAged (blk tid : Nat)
  | resultWriteback (job : Nat)
  | blockRetry (blk : Nat)
  -- control flow and joins
  | bra (r : RB) | brx (r : RB) | call (r : RB) | callx (r : RB) | ret (r : RB)
  | exit (r : RR) | yieldHint (r : RR) | nop (r : RR)
  | jarm (r : RR) | jwait (r : RR) | jdrop (r : RR) | jget (r : RR) | jset (r : RR)
  -- registers
  | mov (r : RR) (pair : Bool)
  | moviB32 (r : RI) | moviS64 (r : RI) | moviN64 (r : RI)
  | kmovToK (r : RR) | kmovFromK (r : RR)
  | srd (r : RI) | swr (r : RI)
  | vget (r : RR) | vset (r : RR) | givereg (r : RR) | claimreg (r : RR)
  | sel (r : RR) (pair : Bool) | plop (r : RR) (tbl : BitVec 8)
  -- integer, logic and bit fields
  | iadd (r : RR) (t : IntTy) (sat : Bool) | isub (r : RR) (t : IntTy) (sat : Bool)
  | imul (r : RR) (t : IntTy) (sat : Bool) | imulh (r : RR) (t : IntTy)
  | imad (r : RR) (t : IntTy) (sat : Bool) | imin (r : RR) (t : IntTy) | imax (r : RR) (t : IntTy)
  | iabs (r : RR) (wide sat : Bool)
  | shl (r : RR) (wide : Bool) | shr (r : RR) (wide : Bool) | sar (r : RR) (wide : Bool)
  | and (r : RR) | or (r : RR) | xor (r : RR) | lut3 (r : RR) (tbl : BitVec 8)
  | popc (r : RR) | clz (r : RR) | brev (r : RR) | bfx (r : RR) (signed : Bool) | bfi (r : RR)
  | icmp (r : RR) (c : Cmp) (t : IntTy) | lea (r : RR) (sh : BitVec 3)
  | iaddImm (r : RI) | andImm (r : RI) | orImm (r : RI) | xorImm (r : RI)
  | shlImm (r : RI) | shrImm (r : RI) | sarImm (r : RI)
  -- floating point
  | fadd (r : RR) (m : Rnd) | fmul (r : RR) (m : Rnd) | ffma (r : RR) (m : Rnd)
  | fmin (r : RR) | fmax (r : RR) | fcmp (r : RR) (c : Cmp) | fclass (r : RR)
  | frnd (r : RR) (m : Rnd) | fsqrt (r : RR) (m : Rnd)
  | hadd2 (r : RR) (bf : Bool) (m : Rnd) | hmul2 (r : RR) (bf : Bool) (m : Rnd)
  | hfma2 (r : RR) (bf : Bool) (m : Rnd) | hmin2 (r : RR) (bf : Bool) | hmax2 (r : RR) (bf : Bool)
  | dadd (r : RR) (m : Rnd) | dmul (r : RR) (m : Rnd) | dfma (r : RR) (m : Rnd) | dcmp (r : RR) (c : Cmp)
  | frcp (r : RR) | frsq (r : RR) | fexp2 (r : RR) | flog2 (r : RR) | fsin (r : RR) | fcos (r : RR) | ftanh (r : RR)
  -- conversions
  | cvt (r : RR) (dst src : VTy) (m : Rnd) (sat : Bool)
  | cvtfEnc (r : RX) | cvtfDec (r : RX) | keyord (r : RR) (wide nantop : Bool)
  | idiv (payload : BitVec 56)
  -- cohort operations
  | shfl (r : RR) (m : ShflMode)
  | voteAll (r : RR) | voteAny (r : RR) | voteBallot (r : RR) | voteEq (r : RR)
  | matchBits (r : RR) (wide : Bool)
  | cred (r : RR) (op : RedOp) (t : RedTy) | cscan (r : RR) (op : RedOp) (t : RedTy) (excl : Bool)
  | segred (r : RR) (op : RedOp) (t : RedTy) | segscan (r : RR) (op : RedOp) (t : RedTy) (excl : Bool)
  | bqnt (r : RX) | selhist (r : RR) | selcut (r : RR) | selpack (r : RR) | selmerge (r : RR)
  -- scratchpad, slice and tiles
  | lds (r : RM) | sts (r : RM) | windowStoreAck (job : Nat) | ldl (r : RM) | stl (r : RM) | atoms (r : RO)
  | tdecl (r : RX) | tfill (r : RX) | tfillIdent (r : RX) | tfillEnd (job : Nat)
  | tscan (r : RX) | tscanEnd (job : Nat) | tqry (r : RX) | tfree (r : RX) | tmarkDemote (r : RX) | tmarkRetype (r : RX)
  -- matrix unit and epilogue
  | mma (r : RX) | mmax (r : RX) | matrixPass (core : Nat) | octetOperationComplete (core : Nat)
  | slotz (r : RX) | slotrd (r : RX) | slotwr (r : RX) | epi (r : RX) | epiq (r : RX)
  | epilogueDrain (core : Nat) | epilogueComplete (core : Nat) | ringDeadlock (blk : Nat)
  -- barriers
  | barv (r : RX) | barw (r : RX) | barx (r : RX) | bart (r : RX) | bartOvf (r : RX) | bars (r : RX)
  -- global memory
  | ldg (r : RM) | stg (r : RM) | stgw (r : RM) | pref (r : RM) | atom (r : RO) | red (r : RO)
  | fence (r : RM) | fenceSc (r : RM) | mwatch (r : RM) | mwait (r : RM)
  | cctlL1inv (r : RM) | cctlL1all (r : RM) | cctlPub (r : RM) | wrq (r : RX) | wrqComplete (job : Nat)
  -- caches, homes and links to memory outside
  | sliceStore (core entry : Nat) | writeUpdate (core : Nat) | l1Invalidate (core line : Nat)
  | gets (line : Nat) | getm (line : Nat) | getw (line : Nat) | getu (line : Nat)
  | writeBackData (die line : Nat) | writeBackPartial (die line : Nat) | cleanEviction (die line : Nat)
  | writeBackAck (die line : Nat) | grant (die line : Nat)
  | forwardShare (die line : Nat) | forwardOwn (die line : Nat) | invalidate (die line : Nat) | recall (die line : Nat)
  | releaseNote (core entry : Nat) | publishNow (core entry : Nat) | publishRequest (line : Nat) | publishReply (die line : Nat)
  | snpData (line half : Nat) | snpInv (line half : Nat)
  | hostHdmAccess (line half : Nat) (data : Option (BitVec 512))
  | translationRequest (core load : Nat)
  -- engines
  | tcopy (r : RX) | bcopy (r : RX) | gath (r : RX) | gathTile (r : RX) | scat (r : RX)
  | engineCommandStart (gather : Bool) (unit : Nat) | gatherGroup (die cmd home : Nat)
  | copyEngineDelivery (core cmd : Nat) | engineCommandComplete (gather : Bool) (unit cmd : Nat)
  | acp (r : RX) | acpComplete (job : Nat) | acpwait (r : RI) (tag : BitVec 2)
  | engqFree (r : RX) | engqLast (r : RX) | engqMark (r : RX)
  -- stage graphs
  | emit (r : RX) | emita (r : RX) | emitc (r : RX) | emitcCancel (r : RX) | launch (r : RX) | done (r : RX) | confirm (r : RX)
  | qstatPool (r : RX) | qstatNode (r : RX) | qstatFail (r : RX) | qstatLive (r : RX)
  -- traps and system
  | trap (r : RI) | eret (r : RR) | frld (r : RR) (n : BitVec 4) | frst (r : RR) (n : BitVec 4)
  | invva (r : RR) | cntcfg (r : RX) | cntrd (r : RX) | cntrdCfg (r : RX) | halt (r : RR)
  -- the supervisor
  | supervisorPostRetry (die : Nat)
  | resolved (die token : Nat) | unresolved (die token : Nat) | retry (die token : Nat) | next (die token : Nat)
  | setreg (die token reg : Nat) (value : DWord) | setpred (die token reg : Nat) (value : DWord)
  | endBlock (die token : Nat) | grow (die token : Nat) (value : DWord) | abort (die token : Nat)
  | resume (die token : Nat) | ack (die token : Nat)
  | watchdog (blk : Nat) | tileEntryExhaustion (die : Nat) | queuePoolExhausted (launch : Nat)
  -- launches
  | cardTake (queue : Nat) | launchStart (launch : Nat) | clusterPlace (launch : Nat) | starvationPreempt (launch : Nat)
  | preempt (cluster : Nat) | resumeBlock (cluster : Nat) | blockComplete (blk : Nat) | launchComplete (launch : Nat)
  | seedChunk (launch : Nat) | launcherTimer (launch house node : Nat) | batchLaunch (launch house node : Nat)
  | steal (launch house : Nat) | qreqSet (stack : Nat)
  -- host control space
  | qtailWrite (queue : Nat) (value : Word) | qsizeWrite (queue : Nat) (value : Word)
  | featselCommit (size : Nat) (value : DWord) | routeWrite (device : Nat) (value : DWord) | merrClear (value : Word)
  | plimWrite (value : Word) | qreqClear (stack : Nat)
  | hmaskWrite (stack : Nat) (value : Word) | hplaceWrite (value : DWord) | werrClear (stack : Nat) (value : Word)
  | wdlogWrite (die : Nat) (value : Word) | cmderrClear (die : Nat) (value : Word)
  | sdgoWrite (die : Nat) (value : Word) | pegoWrite (die : Nat) (value : Word) | cxlroleWrite (die : Nat) (value : Word)
  | counterCfgWrite (die counter : Nat) (value : Word) | controlRegisterWrite (address size : Nat) (value : DWord)
  -- boot, management, links and power
  | powerOnBoot (key image signature : List Byte) (version : Word)
  | spdmGetMeasurements (port : Nat) | mctpPacket (kind : Nat) (body : List Byte)
  | cxlLinkDown (port : Nat) | wofortFlit (port src dst address kind : Nat) (data : Option (BitVec 512))
  | powerControlTick
  | cxlResponse (port line half : Nat) (data : BitVec 512) | cxlLinkTrained (die : Nat) | wofortPortTrained (port : Nat)
  deriving DecidableEq, Repr

end Sys2Proof
end

