-- ==== Sys2Proof/Machine/Operands.lean ====
section
/-! DEFINITION. Operand forms: what each register field of each instruction names (R53-R60, R78), which F-M and F-X
field values an instruction accepts (R69-R73, R218), its opcode and class (R44). -/

namespace Sys2Proof
open Sys2Proof.Machine

/-- What an 8-bit register field names. -/
inductive Role where
  /-- unused: holds 0xFF (R59) -/
  | unused
  /-- a run of `n` source registers -/
  | src (n : Nat)
  /-- a run of `n` destination registers -/
  | dst (n : Nat)
  /-- a destination run, or 0xFF for none -/
  | opt (n : Nat)
  /-- a run that is read and written -/
  | both (n : Nat)
  | psrc | pdst
  | jreg | kreg
  /-- exactly this value -/
  | lit (v : Nat)
  deriving DecidableEq, Repr

/-- One field with its last-use and keep bits. -/
structure Opnd where
  reg : Nat
  role : Role
  la : Bool := false
  ka : Bool := false
  deriving DecidableEq, Repr

/-- What the block adds to the operand rules: W = 64 (R140), the histogram run (R155), containers per word (R128). -/
structure OpCtx where
  w64 : Bool := false
  hist : Nat := 2
  cont : Nat := 1
  deriving DecidableEq, Repr

def rr (r : RR) (d a b c : Role) : List Opnd :=
  [⟨r.d.toNat, d, false, false⟩, ⟨r.a.toNat, a, r.u.la, r.u.ka⟩, ⟨r.b.toNat, b, r.u.lb, r.u.kb⟩,
   ⟨r.c.toNat, c, r.u.lc, r.u.kc⟩]
def ri (r : RI) (d a : Role) : List Opnd := [⟨r.d.toNat, d, false, false⟩, ⟨r.a.toNat, a, r.la, r.ka⟩]
def rm (r : RM) (d a b : Role) : List Opnd :=
  [⟨r.d.toNat, d, false, false⟩, ⟨r.a.toNat, a, r.la, false⟩, ⟨r.b.toNat, b, r.lb, false⟩]
def ro (r : RO) (d a b : Role) : List Opnd :=
  [⟨r.d.toNat, d, false, false⟩, ⟨r.a.toNat, a, r.la, false⟩, ⟨r.b.toNat, b, r.lb, false⟩]
def rb (r : RB) (d a : Role) : List Opnd := [⟨r.d.toNat, d, false, false⟩, ⟨r.a.toNat, a, false, false⟩]
def rx (r : RX) (d a b c : Role) : List Opnd :=
  [⟨r.d.toNat, d, false, false⟩, ⟨r.a.toNat, a, false, false⟩, ⟨r.b.toNat, b, false, false⟩,
   ⟨r.c.toNat, c, false, false⟩]

/-- Width in registers of a type. -/
def IntTy.wide : IntTy → Bool
  | .s64 => true | .n64 => true | _ => false
def IntTy.regs (t : IntTy) : Nat := if t.wide then 2 else 1
def VTy.wide : VTy → Bool
  | .s64 => true | .n64 => true | .f64 => true | _ => false
def VTy.regs (t : VTy) : Nat := if t.wide then 2 else 1
def RedTy.wide : RedTy → Bool
  | .int t => t.wide | _ => false
def RedTy.regs (t : RedTy) : Nat := if t.wide then 2 else 1
def regsIf (wide : Bool) : Nat := if wide then 2 else 1

/-- Bytes of an access size (R56). -/
def Size.bytes : Size → Nat
  | .b8 => 1 | .b16 => 2 | .b32 => 4 | .b64 => 8 | .b128 => 16

/-- Number of a scope (R56). -/
def Scope.num : Scope → Nat
  | .relaxed => 0 | .blk => 1 | .clu => 2 | .die => 3 | .dev => 4 | .sys => 5

def Order.isAcq : Order → Bool
  | .acq => true | .ar => true | _ => false
def Order.isRel : Order → Bool
  | .rel => true | .ar => true | _ => false

/-- Registers of a data run by access size (R219). -/
def Size.regs : Size → Nat
  | .b64 => 2 | .b128 => 4 | _ => 1

/-- The register fields of each instruction; events have none. -/
def Instr.fields (o : OpCtx) : Instr → List Opnd
  | .bra r => rb r .unused .unused
  | .brx r => rb r .unused (.src 2)
  | .call r => rb r (.dst 2) .unused
  | .callx r => rb r (.dst 2) (.src 2)
  | .ret r => rb r .unused (.src 2)
  | .exit r | .yieldHint r | .nop r | .eret r | .halt r => rr r .unused .unused .unused .unused
  | .jarm r | .jwait r | .jdrop r => rr r .jreg .unused .unused .unused
  | .jget r => rr r (.dst (regsIf o.w64)) .jreg .unused .unused
  | .jset r => rr r .jreg (.src (regsIf o.w64)) .unused .unused
  | .mov r p => rr r (.dst (regsIf p)) (.src (regsIf p)) .unused .unused
  | .moviB32 r => ri r (.dst 1) .unused
  | .moviS64 r | .moviN64 r => ri r (.dst 2) .unused
  | .kmovToK r => rr r .kreg (.src 2) .unused .unused
  | .kmovFromK r => rr r (.dst 2) .kreg .unused .unused
  | .srd r => ri r (.dst (if r.imm = 0x18 ∨ (0x19 ≤ r.imm ∧ r.imm ≤ 0x1C) ∨ r.imm = 0x40 then 2 else 1)) .unused
  | .swr r => ri r .unused (.src 1)
  | .vget r => rr r (.dst 1) (.src 1) .unused .unused
  | .vset r => rr r .unused (.src 1) (.src 1) .unused
  | .givereg r | .claimreg r => rr r (.dst 1) (.src 1) .unused .unused
  | .sel r p => rr r (.dst (regsIf p)) (.src (regsIf p)) (.src (regsIf p)) .psrc
  | .plop r _ => rr r .pdst .psrc .psrc .psrc
  | .iadd r t _ | .isub r t _ | .imul r t _ | .imulh r t | .imin r t | .imax r t =>
    rr r (.dst t.regs) (.src t.regs) (.src t.regs) .unused
  | .imad r t _ => rr r (.dst t.regs) (.src t.regs) (.src t.regs) (.src t.regs)
  | .iabs r w _ => rr r (.dst (regsIf w)) (.src (regsIf w)) .unused .unused
  | .shl r w | .shr r w | .sar r w => rr r (.dst (regsIf w)) (.src (regsIf w)) (.src 1) .unused
  | .and r | .or r | .xor r => rr r (.dst 1) (.src 1) (.src 1) .unused
  | .lut3 r _ | .bfi r => rr r (.dst 1) (.src 1) (.src 1) (.src 1)
  | .popc r | .clz r | .brev r => rr r (.dst 1) (.src 1) .unused .unused
  | .bfx r _ => rr r (.dst 1) (.src 1) (.src 1) .unused
  | .icmp r _ t => rr r .pdst (.src t.regs) (.src t.regs) .psrc
  | .lea r _ => rr r (.dst 2) (.src 2) (.src 1) .unused
  | .iaddImm r | .andImm r | .orImm r | .xorImm r | .shlImm r | .shrImm r | .sarImm r => ri r (.dst 1) (.src 1)
  | .fadd r _ | .fmul r _ | .fmin r | .fmax r | .hadd2 r _ _ | .hmul2 r _ _ | .hmin2 r _ | .hmax2 r _ =>
    rr r (.dst 1) (.src 1) (.src 1) .unused
  | .ffma r _ | .hfma2 r _ _ => rr r (.dst 1) (.src 1) (.src 1) (.src 1)
  | .fcmp r _ => rr r .pdst (.src 1) (.src 1) .psrc
  | .fclass r | .frnd r _ | .fsqrt r _ | .frcp r | .frsq r | .fexp2 r | .flog2 r | .fsin r | .fcos r | .ftanh r =>
    rr r (.dst 1) (.src 1) .unused .unused
  | .dadd r _ | .dmul r _ => rr r (.dst 2) (.src 2) (.src 2) .unused
  | .dfma r _ => rr r (.dst 2) (.src 2) (.src 2) (.src 2)
  | .dcmp r _ => rr r .pdst (.src 2) (.src 2) .psrc
  | .cvt r d s _ _ => rr r (.dst d.regs) (.src s.regs) .unused .unused
  | .cvtfEnc r => rx r (.dst 1) (.src o.cont) (if r.flags.getLsbD 2 then .src o.cont else .unused) .unused
  | .cvtfDec r => rx r (.dst o.cont) (.src 1) .unused .unused
  | .keyord r w _ => rr r (.dst (regsIf w)) (.src (regsIf w)) .unused .unused
  | .idiv _ => []
  | .shfl r _ => rr r (.dst 1) (.src 1) (.src 1) .unused
  | .voteAll r | .voteAny r => rr r .pdst .psrc .unused .unused
  | .voteBallot r => rr r (.dst (regsIf o.w64)) .psrc .unused .unused
  | .voteEq r => rr r .pdst (.src 1) .unused .unused
  | .matchBits r w => rr r (.dst (regsIf o.w64)) (.src (regsIf w)) .unused .unused
  | .cred r _ t | .cscan r _ t _ => rr r (.dst t.regs) (.src t.regs) .unused .unused
  | .segred r _ t | .segscan r _ t _ => rr r (.dst t.regs) (.src t.regs) .unused .psrc
  | .bqnt r => rx r (.dst 2) (.src 1) .unused .unused
  | .selhist r => rr r (.both o.hist) (.src 1) (.src 1) .unused
  | .selcut r => rr r (.dst 1) (.src o.hist) (.src 1) .unused
  | .selpack r => rr r (.dst 4) (.src 2) (.src 1) (.src 1)
  | .selmerge r => rr r (.dst 4) (.src 2) (.src 2) (.src 1)
  | .lds r | .ldl r => rm r (.dst r.size.regs) (.src 1) .unused
  | .sts r | .stl r => rm r (.src r.size.regs) (.src 1) .unused
  | .atoms r => ro r (if r.op = .cas then .both r.size.regs else .opt r.size.regs) (.src 1) (.src r.size.regs)
  | .tdecl r => rx r .unused (.src 1) (.src 1) .unused
  | .tfill r => rx r (.dst 1) (.src 1) .unused .unused
  | .tfillIdent r => rx r (.dst 1) .unused .unused .unused
  | .tscan r => rx r (.dst 1) .unused .unused .unused
  | .tqry r => rx r (.dst 4) .unused .unused .unused
  | .tfree r | .tmarkDemote r | .tmarkRetype r => rx r .unused .unused .unused .unused
  | .mma r => rx r (.src 1) (.src 16) .unused .unused
  | .mmax r => rx r (.src 1) (.src 16) (.src 2) (.src 1)
  | .slotz r => rx r .unused (.src 1) .unused .unused
  | .slotrd r => rx r (.dst 4) (.src 1) .unused .unused
  | .slotwr r => rx r .unused (.src 1) (.src 4) .unused
  | .epi r | .epiq r => rx r (.dst 1) (.src 1) .unused .unused
  | .barv r => rx r (.dst 1) .unused .unused .unused
  | .barw r => rx r .unused (.src 1) .unused .unused
  | .barx r => rx r (.dst 1) (.src 1) .unused .unused
  | .bart r => rx r .pdst (.src 1) .unused .unused
  | .bartOvf r => rx r .pdst .unused .unused .unused
  | .bars r => rx r .unused .unused .unused .unused
  | .ldg r | .mwatch r => rm r (.dst r.size.regs) (.src 2) .unused
  | .stg r => rm r (.src r.size.regs) (.src 2) .unused
  | .stgw r => rm r (.src r.size.regs) (.src 2) (.src 1)
  | .pref r => rm r .unused (.src 2) .unused
  | .atom r => ro r (if r.op = .cas then .both r.size.regs else .opt r.size.regs) (.src 2) (.src r.size.regs)
  | .red r => ro r .unused (.src 2) (.src r.size.regs)
  | .fence r | .fenceSc r => rm r .unused .unused .unused
  | .mwait r => rm r (.dst 1) .unused .unused
  | .cctlL1inv r => rm r .unused (.src 2) (.lit 0)
  | .cctlL1all r => rm r .unused .unused (.lit 1)
  | .cctlPub r => rm r .unused (.src 2) (.lit 2)
  | .wrq r => rx r .pdst (.src 2) (.src 1) (.src 2)
  | .tcopy r | .bcopy r | .gath r | .gathTile r | .scat r => rx r (.dst 1) (.src 2) .unused .unused
  | .acp r => rx r (.src 1) (.src 2) (.src 1) .unused
  | .acpwait r _ => ri r .unused .unused
  | .engqFree r | .engqLast r | .engqMark r => rx r (.dst 1) .unused .unused .unused
  | .emit r => rx r .pdst (.src 1) .unused .unused
  | .emita r => rx r (.dst 1) .unused .unused .unused
  | .emitc r => rx r .pdst (.src 1) (.src 1) .unused
  | .emitcCancel r => rx r .pdst (.src 1) .unused .unused
  | .launch r => rx r (.dst 1) (.src 2) .unused .unused
  | .done r => rx r .unused (.src 1) .unused .unused
  | .confirm r => rx r .unused .unused .unused .unused
  | .qstatPool r | .qstatFail r | .qstatLive r => rx r (.dst 1) .unused .unused .unused
  | .qstatNode r => rx r (.dst 1) (.src 1) .unused .unused
  | .trap r => ri r .unused .unused
  | .frld r _ => rr r (.dst 2) .unused .unused .unused
  | .frst r _ => rr r .unused (.src 2) .unused .unused
  | .invva r => rr r .unused (.src 2) (.src 1) (.src 1)
  | .cntcfg r => rx r (.dst 1) (.src 1) .unused .unused
  | .cntrd r | .cntrdCfg r => rx r (.dst 2) .unused .unused .unused
  | _ => []

/-- Registers a field names, v255 left out. -/
def Opnd.regs (o : Opnd) : List Nat :=
  match o.role with
  | .src n | .dst n | .both n | .opt n =>
    if o.reg = 255 then [] else (List.range n).map (o.reg + ·)
  | _ => []

/-- The constraints of R59 and R219 on one field, the register limit aside. -/
def Opnd.ok (o : Opnd) : Bool :=
  let run (n : Nat) := n == 1 || (o.reg % (if n = 16 then 8 else n) == 0 && decide (o.reg + n ≤ 255))
  let use := !(o.la && o.ka)
  let noUse := !o.la && !o.ka
  match o.role with
  | .unused => o.reg == 255 && noUse
  | .src n | .dst n | .both n => run n && use
  | .opt n => (o.reg == 255 || run n) && use
  | .psrc => decide (o.reg < 8) && noUse
  | .pdst => decide (o.reg < 7) && noUse
  | .jreg => decide (o.reg < 16) && use
  | .kreg => decide (o.reg < 64) && use
  | .lit v => o.reg == v && noUse

/-- The register limit (R78). -/
def Opnd.inLimit (limit : Nat) (o : Opnd) : Bool := o.regs.all fun r => decide (r < limit)

/-- Registers, and predicates, that an instruction reads or writes (R47). -/
def Instr.regsUsed (o : OpCtx) (i : Instr) : List Nat := (i.fields o).flatMap Opnd.regs
def Instr.predsUsed (o : OpCtx) (i : Instr) : List Nat :=
  (i.fields o).filterMap fun f => match f.role with
    | .psrc | .pdst => some f.reg
    | _ => none
/-- Predicates that an instruction reads as sources. -/
def Instr.predSources (o : OpCtx) (i : Instr) : List Nat :=
  (i.fields o).filterMap fun f => match f.role with
    | .psrc => some f.reg
    | _ => none
/-- Registers that an instruction reads, and of these the ones it marks to be kept (R47, R84). -/
def Instr.sources (o : OpCtx) (i : Instr) : List Nat :=
  (i.fields o).flatMap fun f => match f.role with
    | .src _ | .both _ => f.regs
    | _ => []
def Instr.keeps (o : OpCtx) (i : Instr) : List Nat :=
  (i.fields o).flatMap fun f => match f.role with
    | .src _ | .both _ => if f.ka then f.regs else []
    | _ => []
/-- Registers ended by last-use bits (R60). -/
def Instr.kills (o : OpCtx) (i : Instr) : List Nat :=
  (i.fields o).flatMap fun f => match f.role with
    | .src _ | .both _ => if f.la then f.regs else []
    | _ => []

/-- The guard of an instruction; events and IDIV have none that matters (R46). -/
def Instr.guard? : Instr → Option Guard
  | .bra r | .brx r | .call r | .callx r | .ret r => some r.g
  | .exit r | .yieldHint r | .nop r | .jarm r | .jwait r | .jdrop r | .jget r | .jset r | .kmovToK r | .kmovFromK r
  | .vget r | .vset r | .givereg r | .claimreg r | .and r | .or r | .xor r | .popc r | .clz r | .brev r | .bfi r
  | .fmin r | .fmax r | .fclass r | .frcp r | .frsq r | .fexp2 r | .flog2 r | .fsin r | .fcos r | .ftanh r
  | .voteAll r | .voteAny r | .voteBallot r | .voteEq r | .selhist r | .selcut r | .selpack r | .selmerge r
  | .eret r | .invva r | .halt r => some r.g
  | .mov r _ | .sel r _ | .plop r _ | .imulh r _ | .imin r _ | .imax r _ | .shl r _ | .shr r _ | .sar r _ | .lut3 r _
  | .bfx r _ | .lea r _ | .fadd r _ | .fmul r _ | .ffma r _ | .fcmp r _ | .frnd r _ | .fsqrt r _ | .hmin2 r _
  | .hmax2 r _ | .dadd r _ | .dmul r _ | .dfma r _ | .dcmp r _ | .shfl r _ | .matchBits r _ | .frld r _ | .frst r _ =>
    some r.g
  | .iadd r _ _ | .isub r _ _ | .imul r _ _ | .imad r _ _ | .iabs r _ _ | .icmp r _ _ | .hadd2 r _ _ | .hmul2 r _ _
  | .hfma2 r _ _ | .keyord r _ _ | .cred r _ _ | .segred r _ _ => some r.g
  | .cscan r _ _ _ | .segscan r _ _ _ => some r.g
  | .cvt r _ _ _ _ => some r.g
  | .moviB32 r | .moviS64 r | .moviN64 r | .srd r | .swr r | .iaddImm r | .andImm r | .orImm r | .xorImm r | .shlImm r
  | .shrImm r | .sarImm r | .trap r => some r.g
  | .acpwait r _ => some r.g
  | .lds r | .sts r | .ldl r | .stl r | .ldg r | .stg r | .stgw r | .pref r | .fence r | .fenceSc r | .mwatch r
  | .mwait r | .cctlL1inv r | .cctlL1all r | .cctlPub r => some r.g
  | .atoms r | .atom r | .red r => some r.g
  | .cvtfEnc r | .cvtfDec r | .bqnt r | .tdecl r | .tfill r | .tfillIdent r | .tscan r | .tqry r | .tfree r
  | .tmarkDemote r | .tmarkRetype r | .mma r | .mmax r | .slotz r | .slotrd r | .slotwr r | .epi r | .epiq r
  | .barv r | .barw r | .barx r | .bart r | .bartOvf r | .bars r | .wrq r | .tcopy r | .bcopy r | .gath r | .gathTile r
  | .scat r | .acp r | .engqFree r | .engqLast r | .engqMark r | .emit r | .emita r | .emitc r | .emitcCancel r
  | .launch r | .done r | .confirm r | .qstatPool r | .qstatNode r | .qstatFail r | .qstatLive r | .cntcfg r
  | .cntrd r | .cntrdCfg r => some r.g
  | _ => none

/-- Accepted SIZE, SCOPE, ORDER, HINT and OFF16 values of the F-M instructions (R163, R167, R218, R229, R230); a
breach is subcode 8. -/
def Instr.fmOk : Instr → Bool
  | .ldg r => pairOk .acq r
  | .mwatch r => pairOk .acq r && r.size != .b128 && r.hint == 0
  | .stg r | .stgw r => pairOk .rel r
  | .pref r => r.size == .b8 && r.scope == .relaxed && r.order == .plain
  | .fence r => r.size == .b8 && r.scope != .relaxed && r.order != .plain && r.off == 0 && r.hint == 0
  | .fenceSc r => r.size == .b8 && r.scope != .relaxed && r.order == .ar && r.off == 0 && r.hint == 0
  | .mwait r => r.size == .b8 && r.scope == .relaxed && r.order == .plain && r.off == 0 && r.hint == 0
  | .cctlL1all r => r.size == .b8 && r.scope == .relaxed && r.order == .plain && r.off == 0 && r.hint == 0
  | .cctlL1inv r | .cctlPub r => r.size == .b8 && r.scope == .relaxed && r.order == .plain && r.hint == 0
  | .lds r => pairOk .acq r && r.scope != .sys && r.hint == 0
  | .sts r => pairOk .rel r && r.scope != .sys && r.hint == 0
  | .ldl r | .stl r => r.scope == .relaxed && r.order == .plain && r.hint == 0
  | .atom r => r.op != .addx && r.win == 0 && sizeOk r && r.hint == 0 &&
      (r.scope != .relaxed || r.order == .plain)
  | .atoms r => r.op != .addx && r.op != .addF16x2 && r.win == 0 && sizeOk r && r.hint == 0 && r.scope != .sys &&
      ((r.scope == .relaxed && r.order == .plain) || (r.scope != .relaxed && r.order != .plain))
  | .red r => r.op != .exch && r.op != .cas && (r.op == .addx || r.win == 0) && sizeOk r && r.hint == 0 &&
      ((r.scope == .relaxed && r.order == .plain) || (r.scope != .relaxed && r.order == .rel))
  | _ => true
where
  pairOk (o : Order) (r : RM) : Bool :=
    (r.scope == .relaxed && r.order == .plain) || (r.scope != .relaxed && r.order == o)
  sizeOk (r : RO) : Bool :=
    match r.op with
    | .addF32 | .addF16x2 | .addx | .minF | .maxF => r.size == .b32
    | _ => r.size == .b32 || r.size == .b64

/-- Accepted E, FA, FB and FLAGS values of the F-X instructions, as far as the word alone decides; a breach is
subcode 9. -/
def Instr.fxOk : Instr → Bool
  | .cvtfEnc r => r.e == 0 && r.fb == 0 && !r.flags.getLsbD 3 && (!r.flags.getLsbD 2 || fld r.flags 0 2 == 0)
  | .cvtfDec r => r.e == 0 && r.fb == 0 && r.flags.getLsbD 3 && !r.flags.getLsbD 2
  | .bqnt r => r.e == 0 && r.fb == 0 && decide (r.flags.toNat < 2) && decide (2 ≤ r.fa.toNat) && decide (r.fa.toNat < 8)
  | .tdecl r => r.fb == 0 && decide (r.flags.toNat < 3)
  | .tfill r => r.fa == 0 && r.fb == 0 && r.flags == 0
  | .tfillIdent r => r.fa == 0 && r.fb == 0 && r.flags == 1
  | .tscan r | .tqry r | .tfree r => r.fa == 0 && r.fb == 0 && r.flags == 0
  | .tmarkDemote r => r.fa == 0 && r.fb == 0 && r.flags == 0
  | .tmarkRetype r => r.fb == 0 && r.flags == 1
  | .mma r => !r.flags.getLsbD 3
  | .slotz r | .slotrd r | .slotwr r => zero r
  | .epi r => zero r
  | .epiq r => r.e == 0 && r.fa == 0 && r.fb == 0 && decide (r.flags.toNat < 2)
  | .barv r | .barw r | .barx r | .bars r | .bart r => bar r && fld r.flags 2 2 == 0
  | .bartOvf r => bar r && fld r.flags 2 2 == 1
  | .wrq r => decide (1 ≤ r.e.toNat) && decide (r.e.toNat ≤ 32) && r.fa == 0 && r.fb == 0 && decide (r.flags.toNat < 2)
  | .tcopy r => r.fa == 0 && r.fb == 0 && r.flags == 0
  | .bcopy r | .scat r | .gath r => zero r
  | .gathTile r => r.fa == 0 && r.fb == 0 && r.flags == 1
  | .acp r => decide (r.e.toNat < 4) && r.fa == 0 && r.fb == 0 && decide (r.flags.toNat < 4)
  | .engqFree r => r.e == 0 && r.fa == 0 && r.fb == 0 && r.flags == 0
  | .engqLast r => r.e == 0 && r.fa == 0 && r.fb == 0 && r.flags == 1
  | .engqMark r => r.e == 0 && r.fa == 0 && r.fb == 0 && r.flags == 2
  | .emit r | .emita r => decide (r.e.toNat < 64) && r.fa == 0 && r.fb == 0 && r.flags == 0
  | .emitc r | .launch r | .done r | .confirm r => zero r
  | .emitcCancel r => r.e == 0 && r.fa == 0 && r.fb == 0 && r.flags == 1
  | .qstatPool r => zero r
  | .qstatNode r => r.e == 0 && r.fa == 0 && r.fb == 0 && r.flags == 1
  | .qstatFail r => r.e == 0 && r.fa == 0 && r.fb == 0 && r.flags == 2
  | .qstatLive r => r.e == 0 && r.fa == 0 && r.fb == 0 && r.flags == 3
  | .cntcfg r | .cntrd r => ctr r && r.flags == 0
  | .cntrdCfg r => ctr r && r.flags == 1
  | _ => true
where
  zero (r : RX) : Bool := r.e == 0 && r.fa == 0 && r.fb == 0 && r.flags == 0
  bar (r : RX) : Bool :=
    let l := (fld r.flags 0 2).toNat
    r.fa == 0 && r.fb == 0 && decide (l < 3) && decide (r.e.toNat < (if l = 0 then 16 else if l = 1 then 8 else 4))
  ctr (r : RX) : Bool :=
    r.fa == 0 && r.fb == 0 && (decide (r.e.toNat < 8) || (decide (64 ≤ r.e.toNat) && decide (r.e.toNat < 96)))

/-- Special-register numbers that SRD accepts (R85, R361). -/
def srdOk (n : Nat) : Bool :=
  decide (n ≤ 0x11) || (decide (0x18 ≤ n) && decide (n ≤ 0x1C)) || (decide (0x20 ≤ n) && decide (n ≤ 0x22)) ||
    (decide (0x30 ≤ n) && decide (n ≤ 0x4F))
/-- Special-register numbers that SWR accepts: the rows marked RW. -/
def swrOk (n : Nat) : Bool :=
  n == 0x20 || n == 0x21 || (decide (0x38 ≤ n) && decide (n ≤ 0x3F)) || n == 0x41

/-- Constraints of subcode 10 that the fields' roles do not say: immediates and particular registers. -/
def Instr.immOk : Instr → Bool
  | .shlImm r | .shrImm r | .sarImm r => decide (r.imm.toNat < 32)
  | .srd r => srdOk r.imm.toNat
  | .swr r => swrOk r.imm.toNat && !r.la && !r.ka
  | .givereg r | .claimreg r => decide (r.d.toNat < 8) || r.d == 255
  | .acpwait r _ => decide (r.imm.toNat < 64)
  | .atom r | .atoms r => r.op != .cas || r.d != 255
  | .cctlL1all r => r.off == 0
  | _ => true

/-- Variable-latency instructions (R47, R112, R145, R166, R199, R212, R217, R334, R335, R364). -/
def Instr.varLat : Instr → Bool
  | .fsqrt _ _ | .frcp _ | .frsq _ | .fexp2 _ | .flog2 _ | .fsin _ | .fcos _ | .ftanh _ | .selhist _ | .selcut _
  | .selpack _ | .selmerge _ | .lds _ | .ldl _ | .atoms _ | .tfill _ | .tfillIdent _ | .tscan _ | .slotrd _ | .barv _
  | .barx _ | .ldg _ | .mwatch _ | .wrq _ | .emit _ | .emita _ | .emitc _ | .emitcCancel _ | .launch _ | .frld _ _ => true
  | .atom r => r.d != 255
  | _ => false

end Sys2Proof
end

