-- ==== Sys2Proof/WellFormed.lean ====
section
/-! DEFINITION. Well-formed instructions: the constraints that the word alone decides (R59, R69-R73). What the block
and the thread add (register limit, format entries, counts, W) is checked at issue. -/

namespace Sys2Proof

/-- Fields of F-M and F-X are accepted (subcodes 8 and 9), operands obey R59 (subcode 10). -/
def Instr.operandsOk (i : Instr) : Bool := i.immOk && (i.fields {}).all Opnd.ok

/-- A source type equal to the destination type, a float-only SAT, or another pair that R127 reserves. -/
def Instr.typesOk : Instr → Bool
  | .cvt _ d s _ sat => d != s && (!sat || d == .s32 || d == .n32 || d == .s64 || d == .n64)
  | .icmp _ c _ => c != .ord && c != .unord
  | .cred _ op t | .segred _ op t | .cscan _ op t _ | .segscan _ op t _ => redOk op t
  | _ => true
where
  redOk (op : RedOp) (t : RedTy) : Bool :=
    match t with
    | .b32 => op == .and || op == .or || op == .xor
    | _ => op == .add || op == .min || op == .max

/-- The well-formed instructions: those a word can hold without raising illegal-instruction by itself. -/
def Instr.wf (i : Instr) : Bool := i.typesOk && i.fmOk && i.fxOk && i.operandsOk

end Sys2Proof
end

