-- ==== Sys2Proof/Decode.lean ====
section
/-! DEFINITION. The decoder, total on every word and rejecting by subcode (R41-R58, R68-R74), and the encoder. -/

namespace Sys2Proof
open Sys2Proof.Machine

/-! ## Codes -/

def IntTy.code : IntTy → BitVec 4
  | .s32 => 0 | .n32 => 1 | .s64 => 2 | .n64 => 3
def intTy? (t : Nat) : Option IntTy :=
  match t with | 0 => some .s32 | 1 => some .n32 | 2 => some .s64 | 3 => some .n64 | _ => none
def VTy.code : VTy → Nat
  | .s32 => 0 | .n32 => 1 | .s64 => 2 | .n64 => 3 | .b32 => 4 | .f16 => 5 | .bf16 => 6 | .f32 => 7 | .f64 => 8
def vTy? (t : Nat) : Option VTy :=
  match t with
  | 0 => some .s32 | 1 => some .n32 | 2 => some .s64 | 3 => some .n64 | 4 => some .b32 | 5 => some .f16
  | 6 => some .bf16 | 7 => some .f32 | 8 => some .f64 | _ => none
def Rnd.code : Rnd → BitVec 2
  | .rne => 0 | .rz => 1 | .ru => 2 | .rd => 3
def rndOf (x : BitVec 2) : Rnd :=
  match x.toNat with | 0 => .rne | 1 => .rz | 2 => .ru | _ => .rd
def Cmp.code : Cmp → Nat
  | .eq => 0 | .ne => 1 | .lt => 2 | .le => 3 | .gt => 4 | .ge => 5 | .ord => 6 | .unord => 7
def cmp? (x : Nat) : Option Cmp :=
  match x with
  | 0 => some .eq | 1 => some .ne | 2 => some .lt | 3 => some .le | 4 => some .gt | 5 => some .ge | 6 => some .ord
  | 7 => some .unord | _ => none
def ShflMode.code : ShflMode → Nat
  | .idx => 0 | .up => 1 | .down => 2 | .xor => 3
def shfl? (x : Nat) : Option ShflMode :=
  match x with | 0 => some .idx | 1 => some .up | 2 => some .down | 3 => some .xor | _ => none
def RedOp.code : RedOp → Nat
  | .add => 0 | .min => 1 | .max => 2 | .and => 3 | .or => 4 | .xor => 5
def redOp? (x : Nat) : Option RedOp :=
  match x with
  | 0 => some .add | 1 => some .min | 2 => some .max | 3 => some .and | 4 => some .or | 5 => some .xor | _ => none
def RedTy.code : RedTy → BitVec 4
  | .int t => t.code | .b32 => 4 | .f32 => 7
/-- The type a reduction accepts with its operator (R151). -/
def redTy? (op : RedOp) (t : Nat) : Option RedTy :=
  match op with
  | .and | .or | .xor => if t = 4 then some .b32 else none
  | _ => if t = 7 then some .f32 else (intTy? t).map .int
def Size.code : Size → BitVec 3
  | .b8 => 0 | .b16 => 1 | .b32 => 2 | .b64 => 3 | .b128 => 4
def size? (x : Nat) : Option Size :=
  match x with
  | 0 => some .b8 | 1 => some .b16 | 2 => some .b32 | 3 => some .b64 | 4 => some .b128 | _ => none
def Scope.code : Scope → BitVec 3
  | .relaxed => 0 | .blk => 1 | .clu => 2 | .die => 3 | .dev => 4 | .sys => 5
def scope? (x : Nat) : Option Scope :=
  match x with
  | 0 => some .relaxed | 1 => some .blk | 2 => some .clu | 3 => some .die | 4 => some .dev | 5 => some .sys | _ => none
def Order.code : Order → BitVec 2
  | .plain => 0 | .acq => 1 | .rel => 2 | .ar => 3
def orderOf (x : BitVec 2) : Order :=
  match x.toNat with | 0 => .plain | 1 => .acq | 2 => .rel | _ => .ar
def Oper.code : Oper → BitVec 8
  | .add => 1 | .addF32 => 2 | .addF16x2 => 3 | .addx => 4 | .minS => 5 | .minN => 6 | .minF => 7 | .maxS => 8
  | .maxN => 9 | .maxF => 10 | .and => 11 | .or => 12 | .xor => 13 | .exch => 14 | .cas => 15
def oper? (x : Nat) : Option Oper :=
  match x with
  | 1 => some .add | 2 => some .addF32 | 3 => some .addF16x2 | 4 => some .addx | 5 => some .minS | 6 => some .minN
  | 7 => some .minF | 8 => some .maxS | 9 => some .maxN | 10 => some .maxF | 11 => some .and | 12 => some .or
  | 13 => some .xor | 14 => some .exch | 15 => some .cas | _ => none

/-! ## Formats (R53-R58, R71) -/

/-- The MOD field of F-R (R54). -/
def modOf (t : BitVec 4) (m : Rnd) (sat x : Bool) : BitVec 8 := t ++ m.code ++ b2b sat ++ b2b x

def encR (op : BitVec 8) (r : RR) (sub : BitVec 6) (mod : BitVec 8) : DWord :=
  op ++ r.g.pg ++ b2b r.g.pn ++ r.d ++ r.a ++ r.b ++ r.c ++ b2b r.u.la ++ b2b r.u.lb ++ b2b r.u.lc ++
    b2b r.u.ka ++ b2b r.u.kb ++ b2b r.u.kc ++ sub ++ mod
def encI (op : BitVec 8) (r : RI) (sub : BitVec 2) : DWord :=
  op ++ r.g.pg ++ b2b r.g.pn ++ r.d ++ r.a ++ r.imm ++ b2b r.la ++ b2b r.ka ++ sub
def encM (op : BitVec 8) (r : RM) : DWord :=
  op ++ r.g.pg ++ b2b r.g.pn ++ r.d ++ r.a ++ r.b ++ r.off ++ r.size.code ++ r.scope.code ++ r.order.code ++ r.hint ++
    b2b r.la ++ b2b r.lb
def encO (op : BitVec 8) (r : RO) : DWord :=
  op ++ r.g.pg ++ b2b r.g.pn ++ r.d ++ r.a ++ r.b ++ r.op.code ++ r.win ++ r.size.code ++ r.scope.code ++
    r.order.code ++ r.hint ++ b2b r.la ++ b2b r.lb
def encB (op : BitVec 8) (r : RB) : DWord :=
  op ++ r.g.pg ++ b2b r.g.pn ++ r.d ++ r.a ++ r.off ++ (0 : BitVec 4)
def encX (op : BitVec 8) (r : RX) : DWord :=
  op ++ r.g.pg ++ b2b r.g.pn ++ r.d ++ r.a ++ r.b ++ r.c ++ r.e ++ r.fa ++ r.fb ++ r.flags

def guardOf (w : DWord) : Guard := ⟨fld w 53 3, w.getLsbD 52⟩
def rrOf (w : DWord) : RR :=
  ⟨guardOf w, fld w 44 8, fld w 36 8, fld w 28 8, fld w 20 8,
   ⟨w.getLsbD 19, w.getLsbD 18, w.getLsbD 17, w.getLsbD 16, w.getLsbD 15, w.getLsbD 14⟩⟩
def riOf (w : DWord) : RI := ⟨guardOf w, fld w 44 8, fld w 36 8, fld w 4 32, w.getLsbD 3, w.getLsbD 2⟩
def rbOf (w : DWord) : RB := ⟨guardOf w, fld w 44 8, fld w 36 8, fld w 4 32⟩
def rxOf (w : DWord) : RX :=
  ⟨guardOf w, fld w 44 8, fld w 36 8, fld w 28 8, fld w 20 8, fld w 12 8, fld w 8 4, fld w 4 4, fld w 0 4⟩
def subOf (w : DWord) : Nat := (fld w 8 6).toNat
def tyOf (w : DWord) : Nat := (fld w 4 4).toNat
def rmodeOf (w : DWord) : Rnd := rndOf (fld w 2 2)
def satOf (w : DWord) : Bool := w.getLsbD 1
def xOf (w : DWord) : Bool := w.getLsbD 0

/-- Subcode `n` unless the condition holds. -/
def need (c : Bool) (n : Nat) (k : Except Nat Instr) : Except Nat Instr := if c then k else .error n
/-- Subcode `n` where there is no value. -/
def needS {α : Type} (o : Option α) (n : Nat) (k : α → Except Nat Instr) : Except Nat Instr :=
  match o with
  | some a => k a
  | none => .error n

/-- F-R with SUB 0 and MOD 0. -/
def dR (w : DWord) (f : RR → Instr) : Except Nat Instr :=
  need (subOf w == 0) 6 (need (fld w 0 8 == 0) 7 (.ok (f (rrOf w))))
/-- F-R with SUB 0 and one of two TYPE codes, the rest of MOD 0. -/
def dR2 (w : DWord) (narrow wide : Nat) (f : RR → Bool → Instr) : Except Nat Instr :=
  need (subOf w == 0) 6 (need ((tyOf w == narrow || tyOf w == wide) && fld w 0 4 == 0) 7
    (.ok (f (rrOf w) (tyOf w == wide))))
/-- F-R with SUB 0 and a fixed TYPE, the rest of MOD 0. -/
def dR1 (w : DWord) (t : Nat) (f : RR → Instr) : Except Nat Instr :=
  need (subOf w == 0) 6 (need (tyOf w == t && fld w 0 4 == 0) 7 (.ok (f (rrOf w))))
/-- F-R with SUB 0, an integer TYPE, and SAT where `s`. -/
def dRT (w : DWord) (s : Bool) (f : RR → IntTy → Bool → Instr) : Except Nat Instr :=
  need (subOf w == 0) 6 (needS (intTy? (tyOf w)) 7 fun t =>
    need (fld w 2 2 == 0 && (s || !satOf w) && !xOf w) 7 (.ok (f (rrOf w) t (satOf w))))
/-- F-R with SUB 0, a fixed TYPE and a rounding mode. -/
def dRR (w : DWord) (t : Nat) (f : RR → Rnd → Instr) : Except Nat Instr :=
  need (subOf w == 0) 6 (need (tyOf w == t && fld w 0 2 == 0) 7 (.ok (f (rrOf w) (rmodeOf w))))
/-- F-R with SUB 0, TYPE 5 or 6 and a rounding mode. -/
def dRH (w : DWord) (f : RR → Bool → Rnd → Instr) : Except Nat Instr :=
  need (subOf w == 0) 6 (need ((tyOf w == 5 || tyOf w == 6) && fld w 0 2 == 0) 7
    (.ok (f (rrOf w) (tyOf w == 6) (rmodeOf w))))
/-- F-R with a truth table spread over opcode, SUB and MOD (R91, R116). -/
def dTbl (w : DWord) (f : RR → BitVec 8 → Instr) : Except Nat Instr :=
  need (tyOf w == 4 && fld w 1 3 == 0) 7 (.ok (f (rrOf w) (fld w 56 1 ++ fld w 0 1 ++ fld w 8 6)))
/-- Comparisons (R120). -/
def dCmp (w : DWord) (t : Nat) (f : RR → Cmp → Instr) : Except Nat Instr :=
  needS (cmp? (subOf w)) 6 fun c => need (tyOf w == t && fld w 0 4 == 0) 7 (.ok (f (rrOf w) c))
/-- Reductions and scans (R151); `x` tells that the exclusive form exists. -/
def dRed (w : DWord) (x : Bool) (f : RR → RedOp → RedTy → Bool → Instr) : Except Nat Instr :=
  needS (redOp? (subOf w)) 6 fun op => needS (redTy? op (tyOf w)) 7 fun t =>
    need (fld w 1 3 == 0 && (x || !xOf w)) 7 (.ok (f (rrOf w) op t (xOf w)))
/-- F-I with SUB 0. -/
def dI (w : DWord) (f : RI → Instr) : Except Nat Instr := need (fld w 0 2 == 0) 6 (.ok (f (riOf w)))
/-- F-B with SUB 0. -/
def dB (w : DWord) (f : RB → Instr) : Except Nat Instr := need (fld w 0 4 == 0) 6 (.ok (f (rbOf w)))
/-- F-M: a reserved SIZE or SCOPE, or a value the instruction does not accept, is subcode 8. -/
def dM (w : DWord) (f : RM → Instr) : Except Nat Instr :=
  needS (size? (fld w 9 3).toNat) 8 fun sz => needS (scope? (fld w 6 3).toNat) 8 fun sc =>
    let i := f ⟨guardOf w, fld w 44 8, fld w 36 8, fld w 28 8, fld w 12 16, sz, sc, orderOf (fld w 4 2), fld w 2 2,
      w.getLsbD 1, w.getLsbD 0⟩
    need i.fmOk 8 (.ok i)
/-- The operator form of F-M (R71). -/
def dO (w : DWord) (f : RO → Instr) : Except Nat Instr :=
  needS (size? (fld w 9 3).toNat) 8 fun sz => needS (scope? (fld w 6 3).toNat) 8 fun sc =>
    needS (oper? (fld w 20 8).toNat) 8 fun op =>
      let i := f ⟨guardOf w, fld w 44 8, fld w 36 8, fld w 28 8, op, fld w 12 8, sz, sc, orderOf (fld w 4 2), fld w 2 2,
        w.getLsbD 1, w.getLsbD 0⟩
      need i.fmOk 8 (.ok i)
/-- F-X: a value the instruction does not accept is subcode 9. -/
def dX (w : DWord) (f : RX → Instr) : Except Nat Instr :=
  let i := f (rxOf w)
  need i.fxOk 9 (.ok i)

/-- CCTL.L1ALL, whose register and offset rules are operand constraints (R237). -/
def cctlAll (w : DWord) : Instr :=
  .cctlL1all ⟨guardOf w, fld w 44 8, fld w 36 8, fld w 28 8, fld w 12 16, .b8, .relaxed, .plain, fld w 2 2,
    w.getLsbD 1, w.getLsbD 0⟩

/-! ## The opcode map (R68-R73) -/

/-- The instruction a word holds, or the lowest of subcodes 1-4 and 6-9 that the word alone decides; operand
constraints (subcode 10) are left to `Instr.wf`. -/
def decodeLoose (w : DWord) : Except Nat Instr :=
  match (fld w 56 8).toNat with
  | 0x00 => .error 1
  | 0x01 => dB w .bra
  | 0x02 => dB w .brx
  | 0x03 => dB w .call
  | 0x04 => dB w .callx
  | 0x05 => dB w .ret
  | 0x06 => dR w .exit
  | 0x07 => dR w .yieldHint
  | 0x08 => dR w .nop
  | 0x09 => dR w .jarm
  | 0x0A => dR w .jwait
  | 0x0B => dR w .jdrop
  | 0x0C => dR w .jget
  | 0x0D => dR w .jset
  | 0x10 => dR2 w 4 3 .mov
  | 0x11 => match (fld w 0 2).toNat with
    | 0 => .ok (.moviB32 (riOf w)) | 1 => .ok (.moviS64 (riOf w)) | 2 => .ok (.moviN64 (riOf w)) | _ => .error 6
  | 0x12 => need (decide (subOf w < 2)) 6 (need (fld w 0 8 == 0) 7
      (.ok (if subOf w = 0 then .kmovToK (rrOf w) else .kmovFromK (rrOf w))))
  | 0x13 => dI w .srd
  | 0x14 => dI w .swr
  | 0x15 => dR w .vget
  | 0x16 => dR w .vset
  | 0x17 => dR w .givereg
  | 0x18 => dR w .claimreg
  | 0x19 => dR2 w 4 3 .sel
  | 0x1A => dTbl w .plop
  | 0x1B => dTbl w .plop
  | 0x20 => dRT w true .iadd
  | 0x21 => dRT w true .isub
  | 0x22 => dRT w true .imul
  | 0x24 => dRT w true .imad
  | 0x23 => dRT w false fun r t _ => .imulh r t
  | 0x25 => dRT w false fun r t _ => .imin r t
  | 0x26 => dRT w false fun r t _ => .imax r t
  | 0x27 => need (subOf w == 0) 6 (need ((tyOf w == 0 || tyOf w == 2) && fld w 2 2 == 0 && !xOf w) 7
      (.ok (.iabs (rrOf w) (tyOf w == 2) (satOf w))))
  | 0x28 => dR2 w 1 3 .shl
  | 0x29 => dR2 w 1 3 .shr
  | 0x2A => dR2 w 0 2 .sar
  | 0x2B => dR1 w 4 .and
  | 0x2C => dR1 w 4 .or
  | 0x2D => dR1 w 4 .xor
  | 0x2E => dTbl w .lut3
  | 0x2F => dTbl w .lut3
  | 0x30 => dR1 w 4 .popc
  | 0x31 => dR1 w 4 .clz
  | 0x32 => dR1 w 4 .brev
  | 0x33 => dR2 w 1 0 .bfx
  | 0x34 => dR1 w 4 .bfi
  | 0x35 => needS (cmp? (subOf w)) 6 fun c => need (decide (subOf w < 6)) 6 (needS (intTy? (tyOf w)) 7 fun t =>
      need (fld w 0 4 == 0) 7 (.ok (.icmp (rrOf w) c t)))
  | 0x36 => need (decide (subOf w < 8)) 6 (need (tyOf w == 3 && fld w 0 4 == 0) 7 (.ok (.lea (rrOf w) (fld w 8 3))))
  | 0x38 => dI w .iaddImm
  | 0x39 => dI w .andImm
  | 0x3A => dI w .orImm
  | 0x3B => dI w .xorImm
  | 0x3C => match (fld w 0 2).toNat with
    | 0 => .ok (.shlImm (riOf w)) | 1 => .ok (.shrImm (riOf w)) | 2 => .ok (.sarImm (riOf w)) | _ => .error 6
  | 0x40 => dRR w 7 .fadd
  | 0x41 => dRR w 7 .fmul
  | 0x42 => dRR w 7 .ffma
  | 0x43 => dR1 w 7 .fmin
  | 0x44 => dR1 w 7 .fmax
  | 0x45 => dCmp w 7 .fcmp
  | 0x46 => dR1 w 7 .fclass
  | 0x47 => dRR w 7 .frnd
  | 0x48 => dRR w 7 .fsqrt
  | 0x50 => dRH w .hadd2
  | 0x51 => dRH w .hmul2
  | 0x52 => dRH w .hfma2
  | 0x53 => dR2 w 5 6 .hmin2
  | 0x54 => dR2 w 5 6 .hmax2
  | 0x60 => dRR w 8 .dadd
  | 0x61 => dRR w 8 .dmul
  | 0x62 => dRR w 8 .dfma
  | 0x63 => dCmp w 8 .dcmp
  | 0x68 => dR1 w 7 .frcp
  | 0x69 => dR1 w 7 .frsq
  | 0x6A => dR1 w 7 .fexp2
  | 0x6B => dR1 w 7 .flog2
  | 0x6C => dR1 w 7 .fsin
  | 0x6D => dR1 w 7 .fcos
  | 0x6E => dR1 w 7 .ftanh
  | 0x70 => needS (vTy? (subOf w)) 6 fun s => needS (vTy? (tyOf w)) 7 fun d =>
      need (d != s) 6 (need ((!satOf w || decide (d.code < 4)) && !xOf w) 7 (.ok (.cvt (rrOf w) d s (rmodeOf w) (satOf w))))
  | 0x71 => if w.getLsbD 3 then dX w .cvtfDec else dX w .cvtfEnc
  | 0x72 => need (subOf w == 0) 6 (need ((tyOf w == 7 || tyOf w == 8) && fld w 1 3 == 0) 7
      (.ok (.keyord (rrOf w) (tyOf w == 8) (xOf w))))
  | 0x80 => needS (shfl? (subOf w)) 6 fun m => need (tyOf w == 4 && fld w 0 4 == 0) 7 (.ok (.shfl (rrOf w) m))
  | 0x81 => need (decide (subOf w < 4)) 6 (need (tyOf w == 4 && fld w 0 4 == 0) 7 (.ok (match subOf w with
      | 0 => .voteAll (rrOf w) | 1 => .voteAny (rrOf w) | 2 => .voteBallot (rrOf w) | _ => .voteEq (rrOf w))))
  | 0x82 => dR2 w 4 3 .matchBits
  | 0x83 => dRed w false fun r o t _ => .cred r o t
  | 0x85 => dRed w false fun r o t _ => .segred r o t
  | 0x84 => dRed w true .cscan
  | 0x86 => dRed w true .segscan
  | 0x87 => dX w .bqnt
  | 0x88 => dR1 w 1 .selhist
  | 0x89 => dR1 w 1 .selcut
  | 0x8A => dR1 w 1 .selpack
  | 0x8B => dR1 w 1 .selmerge
  | 0x90 => dM w .lds
  | 0x91 => dM w .sts
  | 0x92 => dM w .ldl
  | 0x93 => dM w .stl
  | 0x94 => dO w .atoms
  | 0x98 => dX w .tdecl
  | 0x99 => if w.getLsbD 0 then dX w .tfillIdent else dX w .tfill
  | 0x9A => dX w .tqry
  | 0x9B => dX w .tscan
  | 0x9C => dX w .tfree
  | 0x9D => if w.getLsbD 0 then dX w .tmarkRetype else dX w .tmarkDemote
  | 0xA0 => dX w .mma
  | 0xA1 => dX w .mmax
  | 0xA2 => dX w .slotz
  | 0xA3 => dX w .slotrd
  | 0xA4 => dX w .slotwr
  | 0xA5 => dX w .epi
  | 0xA6 => dX w .epiq
  | 0xB0 => dX w .barv
  | 0xB1 => dX w .barw
  | 0xB2 => dX w .barx
  | 0xB4 => dX w .bars
  | 0xB3 => if w.getLsbD 2 then dX w .bartOvf else dX w .bart
  | 0xC0 => dM w .ldg
  | 0xC1 => dM w .stg
  | 0xC2 => dM w .stgw
  | 0xC3 => dM w .pref
  | 0xC4 => dO w .atom
  | 0xC5 => dO w .red
  | 0xC6 => dM w .fence
  | 0xC7 => dM w .fenceSc
  | 0xC8 => dM w .mwatch
  | 0xC9 => dM w .mwait
  | 0xCA => match dM w .cctlL1inv with
    | .error n => .error n
    | .ok _ => (match (fld w 28 8).toNat with
      | 0 => dM w .cctlL1inv | 1 => .ok (cctlAll w) | 2 => dM w .cctlPub | _ => .error 10)
  | 0xCB => dX w .wrq
  | 0xD0 => dX w .tcopy
  | 0xD1 => dX w .bcopy
  | 0xD2 => dX w .acp
  | 0xD3 => .ok (.acpwait (riOf w) (fld w 0 2))
  | 0xD4 => if w.getLsbD 0 then dX w .gathTile else dX w .gath
  | 0xD5 => dX w .scat
  | 0xD6 => match (fld w 0 2).toNat with
    | 0 => dX w .engqFree | 1 => dX w .engqLast | 2 => dX w .engqMark | _ => .error 9
  | 0xD8 => dX w .emit
  | 0xD9 => dX w .emita
  | 0xDA => if w.getLsbD 0 then dX w .emitcCancel else dX w .emitc
  | 0xDB => dX w .launch
  | 0xDC => dX w .done
  | 0xDD => dX w .confirm
  | 0xDE => match (fld w 0 2).toNat with
    | 0 => dX w .qstatPool | 1 => dX w .qstatNode | 2 => dX w .qstatFail | _ => dX w .qstatLive
  | 0xE0 => dI w .trap
  | 0xE1 => dR w .eret
  | 0xE2 => need (decide (subOf w < 16)) 6 (need (fld w 0 8 == 0) 7 (.ok (.frld (rrOf w) (fld w 8 4))))
  | 0xE3 => need (decide (subOf w < 16)) 6 (need (fld w 0 8 == 0) 7 (.ok (.frst (rrOf w) (fld w 8 4))))
  | 0xE4 => dR w .invva
  | 0xE5 => dX w .cntcfg
  | 0xE6 => if w.getLsbD 0 then dX w .cntrdCfg else dX w .cntrd
  | 0xE7 => dR w .halt
  | 0xF1 => .ok (.idiv (fld w 0 56))
  | 0xFE | 0xFF => .error 2
  | n => if 0xF0 ≤ n ∧ n ≤ 0xFD then .error 4 else .error 3

/-- The decoder: an instruction every thread may execute as far as the word decides, or the subcode (R73). IDIV is an
instruction of the table whose meaning is subcode 4 (R72). -/
def decode (w : DWord) : Except Nat Instr :=
  match decodeLoose w with
  | .ok i => if i.wf then .ok i else .error 10
  | .error n => .error n

/-- The word of an instruction; an event has none. -/
def encode : Instr → Option DWord
  | .bra r => some (encB 0x01 r)
  | .brx r => some (encB 0x02 r)
  | .call r => some (encB 0x03 r)
  | .callx r => some (encB 0x04 r)
  | .ret r => some (encB 0x05 r)
  | .exit r => some (encR 0x06 r 0 0)
  | .yieldHint r => some (encR 0x07 r 0 0)
  | .nop r => some (encR 0x08 r 0 0)
  | .jarm r => some (encR 0x09 r 0 0)
  | .jwait r => some (encR 0x0A r 0 0)
  | .jdrop r => some (encR 0x0B r 0 0)
  | .jget r => some (encR 0x0C r 0 0)
  | .jset r => some (encR 0x0D r 0 0)
  | .mov r p => some (encR 0x10 r 0 (if p then 0x30 else 0x40))
  | .moviB32 r => some (encI 0x11 r 0)
  | .moviS64 r => some (encI 0x11 r 1)
  | .moviN64 r => some (encI 0x11 r 2)
  | .kmovToK r => some (encR 0x12 r 0 0)
  | .kmovFromK r => some (encR 0x12 r 1 0)
  | .srd r => some (encI 0x13 r 0)
  | .swr r => some (encI 0x14 r 0)
  | .vget r => some (encR 0x15 r 0 0)
  | .vset r => some (encR 0x16 r 0 0)
  | .givereg r => some (encR 0x17 r 0 0)
  | .claimreg r => some (encR 0x18 r 0 0)
  | .sel r p => some (encR 0x19 r 0 (if p then 0x30 else 0x40))
  | .plop r t => some (encR (0x1A + (fld t 7 1).setWidth 8) r (fld t 0 6) (0x40 + (fld t 6 1).setWidth 8))
  | .iadd r t s => some (encR 0x20 r 0 (modOf t.code .rne s false))
  | .isub r t s => some (encR 0x21 r 0 (modOf t.code .rne s false))
  | .imul r t s => some (encR 0x22 r 0 (modOf t.code .rne s false))
  | .imad r t s => some (encR 0x24 r 0 (modOf t.code .rne s false))
  | .imulh r t => some (encR 0x23 r 0 (modOf t.code .rne false false))
  | .imin r t => some (encR 0x25 r 0 (modOf t.code .rne false false))
  | .imax r t => some (encR 0x26 r 0 (modOf t.code .rne false false))
  | .iabs r wd s => some (encR 0x27 r 0 (modOf (if wd then 2 else 0) .rne s false))
  | .shl r wd => some (encR 0x28 r 0 (if wd then 0x30 else 0x10))
  | .shr r wd => some (encR 0x29 r 0 (if wd then 0x30 else 0x10))
  | .sar r wd => some (encR 0x2A r 0 (if wd then 0x20 else 0x00))
  | .and r => some (encR 0x2B r 0 0x40)
  | .or r => some (encR 0x2C r 0 0x40)
  | .xor r => some (encR 0x2D r 0 0x40)
  | .lut3 r t => some (encR (0x2E + (fld t 7 1).setWidth 8) r (fld t 0 6) (0x40 + (fld t 6 1).setWidth 8))
  | .popc r => some (encR 0x30 r 0 0x40)
  | .clz r => some (encR 0x31 r 0 0x40)
  | .brev r => some (encR 0x32 r 0 0x40)
  | .bfx r sg => some (encR 0x33 r 0 (if sg then 0x00 else 0x10))
  | .bfi r => some (encR 0x34 r 0 0x40)
  | .icmp r c t => some (encR 0x35 r (BitVec.ofNat 6 c.code) (modOf t.code .rne false false))
  | .lea r sh => some (encR 0x36 r (sh.setWidth 6) 0x30)
  | .iaddImm r => some (encI 0x38 r 0)
  | .andImm r => some (encI 0x39 r 0)
  | .orImm r => some (encI 0x3A r 0)
  | .xorImm r => some (encI 0x3B r 0)
  | .shlImm r => some (encI 0x3C r 0)
  | .shrImm r => some (encI 0x3C r 1)
  | .sarImm r => some (encI 0x3C r 2)
  | .fadd r m => some (encR 0x40 r 0 (modOf 7 m false false))
  | .fmul r m => some (encR 0x41 r 0 (modOf 7 m false false))
  | .ffma r m => some (encR 0x42 r 0 (modOf 7 m false false))
  | .fmin r => some (encR 0x43 r 0 0x70)
  | .fmax r => some (encR 0x44 r 0 0x70)
  | .fcmp r c => some (encR 0x45 r (BitVec.ofNat 6 c.code) 0x70)
  | .fclass r => some (encR 0x46 r 0 0x70)
  | .frnd r m => some (encR 0x47 r 0 (modOf 7 m false false))
  | .fsqrt r m => some (encR 0x48 r 0 (modOf 7 m false false))
  | .hadd2 r b m => some (encR 0x50 r 0 (modOf (if b then 6 else 5) m false false))
  | .hmul2 r b m => some (encR 0x51 r 0 (modOf (if b then 6 else 5) m false false))
  | .hfma2 r b m => some (encR 0x52 r 0 (modOf (if b then 6 else 5) m false false))
  | .hmin2 r b => some (encR 0x53 r 0 (if b then 0x60 else 0x50))
  | .hmax2 r b => some (encR 0x54 r 0 (if b then 0x60 else 0x50))
  | .dadd r m => some (encR 0x60 r 0 (modOf 8 m false false))
  | .dmul r m => some (encR 0x61 r 0 (modOf 8 m false false))
  | .dfma r m => some (encR 0x62 r 0 (modOf 8 m false false))
  | .dcmp r c => some (encR 0x63 r (BitVec.ofNat 6 c.code) 0x80)
  | .frcp r => some (encR 0x68 r 0 0x70)
  | .frsq r => some (encR 0x69 r 0 0x70)
  | .fexp2 r => some (encR 0x6A r 0 0x70)
  | .flog2 r => some (encR 0x6B r 0 0x70)
  | .fsin r => some (encR 0x6C r 0 0x70)
  | .fcos r => some (encR 0x6D r 0 0x70)
  | .ftanh r => some (encR 0x6E r 0 0x70)
  | .cvt r d s m t => some (encR 0x70 r (BitVec.ofNat 6 s.code) (modOf (BitVec.ofNat 4 d.code) m t false))
  | .cvtfEnc r => some (encX 0x71 r)
  | .cvtfDec r => some (encX 0x71 r)
  | .keyord r wd x => some (encR 0x72 r 0 (modOf (if wd then 8 else 7) .rne false x))
  | .shfl r m => some (encR 0x80 r (BitVec.ofNat 6 m.code) 0x40)
  | .voteAll r => some (encR 0x81 r 0 0x40)
  | .voteAny r => some (encR 0x81 r 1 0x40)
  | .voteBallot r => some (encR 0x81 r 2 0x40)
  | .voteEq r => some (encR 0x81 r 3 0x40)
  | .matchBits r wd => some (encR 0x82 r 0 (if wd then 0x30 else 0x40))
  | .cred r o t => some (encR 0x83 r (BitVec.ofNat 6 o.code) (modOf t.code .rne false false))
  | .segred r o t => some (encR 0x85 r (BitVec.ofNat 6 o.code) (modOf t.code .rne false false))
  | .cscan r o t x => some (encR 0x84 r (BitVec.ofNat 6 o.code) (modOf t.code .rne false x))
  | .segscan r o t x => some (encR 0x86 r (BitVec.ofNat 6 o.code) (modOf t.code .rne false x))
  | .bqnt r => some (encX 0x87 r)
  | .selhist r => some (encR 0x88 r 0 0x10)
  | .selcut r => some (encR 0x89 r 0 0x10)
  | .selpack r => some (encR 0x8A r 0 0x10)
  | .selmerge r => some (encR 0x8B r 0 0x10)
  | .lds r => some (encM 0x90 r)
  | .sts r => some (encM 0x91 r)
  | .ldl r => some (encM 0x92 r)
  | .stl r => some (encM 0x93 r)
  | .atoms r => some (encO 0x94 r)
  | .tdecl r => some (encX 0x98 r)
  | .tfill r => some (encX 0x99 r)
  | .tfillIdent r => some (encX 0x99 r)
  | .tqry r => some (encX 0x9A r)
  | .tscan r => some (encX 0x9B r)
  | .tfree r => some (encX 0x9C r)
  | .tmarkDemote r => some (encX 0x9D r)
  | .tmarkRetype r => some (encX 0x9D r)
  | .mma r => some (encX 0xA0 r)
  | .mmax r => some (encX 0xA1 r)
  | .slotz r => some (encX 0xA2 r)
  | .slotrd r => some (encX 0xA3 r)
  | .slotwr r => some (encX 0xA4 r)
  | .epi r => some (encX 0xA5 r)
  | .epiq r => some (encX 0xA6 r)
  | .barv r => some (encX 0xB0 r)
  | .barw r => some (encX 0xB1 r)
  | .barx r => some (encX 0xB2 r)
  | .bars r => some (encX 0xB4 r)
  | .bart r => some (encX 0xB3 r)
  | .bartOvf r => some (encX 0xB3 r)
  | .ldg r => some (encM 0xC0 r)
  | .stg r => some (encM 0xC1 r)
  | .stgw r => some (encM 0xC2 r)
  | .pref r => some (encM 0xC3 r)
  | .atom r => some (encO 0xC4 r)
  | .red r => some (encO 0xC5 r)
  | .fence r => some (encM 0xC6 r)
  | .fenceSc r => some (encM 0xC7 r)
  | .mwatch r => some (encM 0xC8 r)
  | .mwait r => some (encM 0xC9 r)
  | .cctlL1inv r => some (encM 0xCA r)
  | .cctlL1all r => some (encM 0xCA r)
  | .cctlPub r => some (encM 0xCA r)
  | .wrq r => some (encX 0xCB r)
  | .tcopy r => some (encX 0xD0 r)
  | .bcopy r => some (encX 0xD1 r)
  | .acp r => some (encX 0xD2 r)
  | .acpwait r t => some (encI 0xD3 r t)
  | .gath r => some (encX 0xD4 r)
  | .gathTile r => some (encX 0xD4 r)
  | .scat r => some (encX 0xD5 r)
  | .engqFree r => some (encX 0xD6 r)
  | .engqLast r => some (encX 0xD6 r)
  | .engqMark r => some (encX 0xD6 r)
  | .emit r => some (encX 0xD8 r)
  | .emita r => some (encX 0xD9 r)
  | .emitc r => some (encX 0xDA r)
  | .emitcCancel r => some (encX 0xDA r)
  | .launch r => some (encX 0xDB r)
  | .done r => some (encX 0xDC r)
  | .confirm r => some (encX 0xDD r)
  | .qstatPool r => some (encX 0xDE r)
  | .qstatNode r => some (encX 0xDE r)
  | .qstatFail r => some (encX 0xDE r)
  | .qstatLive r => some (encX 0xDE r)
  | .trap r => some (encI 0xE0 r 0)
  | .eret r => some (encR 0xE1 r 0 0)
  | .frld r k => some (encR 0xE2 r (k.setWidth 6) 0)
  | .frst r k => some (encR 0xE3 r (k.setWidth 6) 0)
  | .invva r => some (encR 0xE4 r 0 0)
  | .cntcfg r => some (encX 0xE5 r)
  | .cntrd r => some (encX 0xE6 r)
  | .cntrdCfg r => some (encX 0xE6 r)
  | .halt r => some (encR 0xE7 r 0 0)
  | .idiv p => some ((0xF1 : BitVec 8) ++ p)
  | _ => none

/-- The primary opcode of an instruction (R44); 0 for an event. -/
def Instr.opcode (i : Instr) : Nat :=
  match encode i with
  | some w => (fld w 56 8).toNat
  | none => 0

/-- The class of a primary opcode (R44): 4 control, 0 ALU, 1 memory, 2 matrix, 3 engine command. -/
def classOf (op : Nat) : Nat :=
  if (1 ≤ op ∧ op ≤ 0x0F) ∨ (0xB0 ≤ op ∧ op ≤ 0xB7) ∨ (0xE0 ≤ op ∧ op ≤ 0xEF) then 4
  else if 0x10 ≤ op ∧ op ≤ 0x8F then 0
  else if (0x90 ≤ op ∧ op ≤ 0x9F) ∨ (0xC0 ≤ op ∧ op ≤ 0xCF) then 1
  else if 0xA0 ≤ op ∧ op ≤ 0xAF then 2
  else if 0xD0 ≤ op ∧ op ≤ 0xDF then 3
  else 5

/-- The terminal instructions (R44). -/
def Instr.terminal : Instr → Bool
  | .bra _ | .brx _ | .call _ | .callx _ | .ret _ | .exit _ | .eret _ => true
  | _ => false

/-- The subcode of a header's conditions (R74), lowest first. -/
def headerFault (h : DWord) : Option Nat :=
  if 5 ≤ (fld h 60 4).toNat then some 1
  else if (fld h 54 2).toNat = 3 then some 2
  else if (fld h 45 3).toNat = 7 then some 3
  else if (fld h 0 39).toNat ≠ 0 then some 4
  else none

/-- The eight bytes of a word as memory holds them, lowest address first (R4). -/
def wordBytes (w : DWord) : List Byte := leBytes 8 w.toNat

/-- Decode the first eight bytes of a list; the rest is returned. Fewer bytes hold no instruction. -/
def decodeBytes (l : List Byte) : Option (Instr × List Byte) :=
  if l.length < 8 then none
  else
    match decode (BitVec.ofNat 64 (leVal (l.take 8))) with
    | .ok i => some (i, l.drop 8)
    | .error _ => none

/-- The instruction of a 64-bit word, its bits numbered with bit 0 the least significant. -/
def decodeTableWord (_nbits w : Nat) : Option Instr := (decodeBytes (leBytes 8 w)).map (·.1)

end Sys2Proof
end

