-- ==== Sys2Proof/Config.lean ====
section
/-! DEFINITION. What one part or one run fixes and the manual leaves open. Every constant is opaque: nothing in
Lean can compute it, so a theorem about the machine holds whatever it is (log 2). -/

namespace Sys2Proof.Config

/-- A latency, in cycles, that the manual bounds from above or not at all (R112, R166, R224, R353). -/
opaque latency : Nat → Nat

/-- A choice among outcomes the manual allows: which age of a code word is fetched (R51), which entry of a broken
64 KiB group translates (R352), which sample cycle QSTAT and CNTRD return (R309, R343). -/
opaque choice : Nat → Nat

/-- The L2 slice that holds a physical line, as the manual gives no hash (R247). -/
opaque sliceHash : Nat → Nat

/-- The set of the L1 that holds a physical line, modulo 128, as the manual gives no index (R243). -/
opaque l1Set : Nat → Nat

/-- The register base that a thread gets in its core's register-and-slice store, as the manual gives no placement there:
for the cycle, the core and the thread (R20, R77). -/
opaque regBase : Nat → Nat → Nat → BitVec 20

/-- Whether a directory lookup misses the home's directory cache and reads the stack (R250, R317). -/
opaque lookupMisses : Nat → Bool

/-- Whether a fetch of a header or word reads the stack that holds it (R43, R317). -/
opaque fetchReads : Nat → Bool

/-- The lane of a core's quad that the fuses map to one of its two spares, modulo 33; 32 for none (R15, R40). -/
opaque fusedLane : Nat → Nat → Nat → Nat

/-- The constant difference of a die's TSC from the module's common reading; used modulo 3 (R303). -/
opaque tscSkew : Nat → Nat

/-- The new value of a unique token (R367). -/
opaque token : Nat → Nat

/-- Whether a source read that the operand cache may serve is served from it, for a bundle, a cycle, a thread and a
register; only the event counters show it (R84, R307). -/
opaque cacheServes : Nat → Nat → Nat → Nat → Bool

/-- Average power of a die and of the stacks in watts at a power-control tick (R377, R383). -/
opaque power : Nat → Nat

/-- The signature the module's device key gives for a message (R382). -/
opaque slhDsaSign : List (BitVec 8) → List (BitVec 8)

/-- The fused key hash and the fused minimum security version (R382). -/
opaque fusedKeyHash : Nat
opaque fusedMinVersion : Nat

/-- The temperature of a die (0 to 8) or stack (9 to 24) at a reading (R381). -/
opaque temperature : Nat → Nat → Nat

/-- Whether the boot flash holds a loader image, of a key, an image, a signature and a version, after the firmware-update
packets that it has taken (R381, R382). -/
opaque flashHolds : List (List (BitVec 8)) → List (BitVec 8) → List (BitVec 8) → List (BitVec 8) → BitVec 32 → Bool

/-- The body of a PLDM or SPDM reply to a management packet (R381, R382). -/
opaque managementReply : Nat → Nat → List (BitVec 8)

/-- What a linked device or an outside memory returns for a 64-byte half at an address (R254, R257). -/
opaque remoteHalf : Nat → Nat → BitVec 512

end Sys2Proof.Config
end

