-- ==== Sys2Proof/Machine/Float.lean ====
section
/-! DEFINITION. Number formats, exact values, rounding and conversion (R96-R110), and the arithmetic of R121-R126. -/

namespace Sys2Proof.Machine

/-- A number format: a format-table entry (R98) or one of the wider IEEE formats. -/
structure Fmt where
  expw : Nat
  manw : Nat
  bias : Int
  sgn : Bool := true
  intm : Bool := false
  spec : Nat := 0
  subn : Bool := true
  ovf : Bool := true
  cont : Nat := 32
  deriving DecidableEq, Repr

def f16 : Fmt := ⟨5, 10, 15, true, false, 0, true, true, 16⟩
def bf16 : Fmt := ⟨8, 7, 127, true, false, 0, true, true, 16⟩
def f32 : Fmt := ⟨8, 23, 127, true, false, 0, true, true, 32⟩
def f64 : Fmt := ⟨11, 52, 1023, true, false, 0, true, true, 64⟩

/-- The fields of a format-table entry (R98). -/
def fmtOf (w : Word) : Fmt :=
  { expw := (fld w 0 4).toNat, manw := (fld w 4 4).toNat, bias := (fld w 10 8).toNat, sgn := w.getLsbD 8,
    intm := w.getLsbD 9, spec := (fld w 18 2).toNat, subn := w.getLsbD 20, ovf := w.getLsbD 21,
    cont := 4 * 2 ^ (fld w 22 2).toNat }

/-- Element width (R98). -/
def Fmt.width (f : Fmt) : Nat := b2n f.sgn + f.expw + f.manw

/-- Validity of an entry (R99). -/
def fmtValid (w : Word) : Bool :=
  let f := fmtOf w
  let r := fld w 24 8 = 0 && f.spec != 3 && decide (f.width ≤ f.cont)
  if f.intm then r && f.expw == 0 && f.bias == 0 && f.spec == 0 && !f.subn && !f.ovf && f.manw != 0
  else r && decide (1 ≤ f.expw) && decide (f.expw ≤ 8) && decide (f.manw ≤ 10) &&
    !(f.spec == 0 && (decide (f.expw < 2) || f.manw == 0)) &&
    !(f.spec == 1 && decide (f.expw + f.manw < 2)) && !(f.spec == 2 && f.ovf)

/-- Presets f0-f7 (R100). -/
def presetFmt : Nat → Word
  | 0 => 0x00B03DA5 | 1 => 0x00B1FD78 | 2 => 0x00541D34 | 3 => 0x00503D25
  | 4 => 0x00580532 | 5 => 0x00580D23 | 6 => 0x00180512 | 7 => 0x00400370 | _ => 0

/-- A real value with a signed zero, an infinity, or NaN; the finite value is (-1)^neg × m × 2^e. -/
inductive FVal where
  | nan
  | inf (neg : Bool)
  | fin (neg : Bool) (m : Nat) (e : Int)
  deriving DecidableEq, Repr

/-- The integer `v` as a value; 0 is +0. -/
def FVal.ofInt (v : Int) : FVal := .fin (decide (v < 0)) v.natAbs 0

def FVal.isNan : FVal → Bool
  | .nan => true
  | _ => false

def FVal.neg : FVal → Bool
  | .nan => false
  | .inf n => n
  | .fin n _ _ => n

def FVal.isZero : FVal → Bool
  | .fin _ 0 _ => true
  | _ => false

/-- The value of an element (R100); for an integer entry the integer itself. -/
def Fmt.value (f : Fmt) (x : Nat) : FVal :=
  if f.intm then .ofInt (if f.sgn then sextN f.width x else x % 2 ^ f.width) else
  let neg := f.sgn && bitN x (f.expw + f.manw)
  let ex := x / 2 ^ f.manw % 2 ^ f.expw
  let m := x % 2 ^ f.manw
  let emax := 2 ^ f.expw - 1
  if f.spec = 0 ∧ ex = emax then (if m = 0 then .inf neg else .nan)
  else if f.spec = 1 ∧ ex = emax ∧ m = 2 ^ f.manw - 1 then .nan
  else if ex = 0 then .fin neg (if f.subn then m else 0) (1 - f.bias - f.manw)
  else .fin neg (2 ^ f.manw + m) (ex - f.bias - f.manw)

/-- The encoding of the largest finite magnitude. -/
def Fmt.maxCode (f : Fmt) : Nat :=
  match f.spec with
  | 0 => (2 ^ f.expw - 1) * 2 ^ f.manw - 1
  | 1 => 2 ^ (f.expw + f.manw) - 2
  | _ => 2 ^ (f.expw + f.manw) - 1

/-- The canonical NaN (R97). -/
def Fmt.nanCode (f : Fmt) : Nat :=
  match f.spec with
  | 0 => (2 ^ f.expw - 1) * 2 ^ f.manw + 2 ^ (f.manw - 1)
  | 1 => 2 ^ (f.expw + f.manw) - 1
  | _ => 0

/-- The encoding with a sign. -/
def Fmt.signed (f : Fmt) (neg : Bool) (code : Nat) : Nat :=
  if f.sgn && neg then 2 ^ (f.expw + f.manw) + code else code

/-- Whether a value between two neighbours goes to the one of larger magnitude (R102); `odd` tells the neighbour of
smaller magnitude has an odd encoding, and the remainder is `rem / den`. -/
def roundsUp (mode : Rnd) (neg odd : Bool) (rem den : Nat) : Bool :=
  match mode with
  | .rne => decide (den < 2 * rem) || (decide (2 * rem = den) && odd)
  | .rz => false
  | .ru => !neg && decide (rem ≠ 0)
  | .rd => neg && decide (rem ≠ 0)

/-- Stochastic choice (R105): the random bits select the larger magnitude when below floor(65536 × rem / den). -/
def stochUp (rnd rem den : Nat) : Bool := decide (rnd % 65536 < 65536 * rem / den)

/-- The code of smaller magnitude that brackets m × 2^e in the extended set, with remainder and denominator. -/
def Fmt.bracket (f : Fmt) (m : Nat) (e : Int) : Nat × Nat × Nat :=
  let top : Int := (log2 m : Nat) + e
  let emin : Int := 1 - f.bias
  let ex : Int := if top < emin then emin else top
  let q : Int := ex - f.manw
  let lift := ((ex - emin).toNat) * 2 ^ f.manw
  if q ≤ e then (lift + m * 2 ^ (e - q).toNat, 0, 1)
  else
    let den := 2 ^ (q - e).toNat
    (lift + m / den, m % den, den)

/-- An encoding with the invalid and overflow events of R104. -/
structure Conv where
  code : Nat
  inv : Bool := false
  ovf : Bool := false
  deriving DecidableEq, Repr

/-- Step 7 of R103: what a magnitude beyond the format gives. -/
def Fmt.overflow (f : Fmt) (mode : Rnd) (neg : Bool) : Conv :=
  let toMax := !f.ovf || mode == .rz || (mode == .ru && neg) || (mode == .rd && !neg)
  if toMax then ⟨f.signed neg f.maxCode, false, true⟩
  else if f.spec = 0 then ⟨f.signed neg (f.maxCode + 1), false, true⟩ else ⟨f.nanCode, false, true⟩

/-- Steps 6 and 7 of R103 on a rounded code. -/
def Fmt.finish (f : Fmt) (mode : Rnd) (neg : Bool) (code : Nat) : Conv :=
  if !f.subn && decide (code < 2 ^ f.manw) then ⟨f.signed neg 0, false, false⟩
  else if f.maxCode < code then f.overflow mode neg
  else ⟨f.signed neg code, false, false⟩

/-- Rounding of a nonzero finite value (R102, steps 5 to 7 of R103). -/
def Fmt.roundFin (f : Fmt) (mode : Rnd) (neg : Bool) (m : Nat) (e : Int) : Conv :=
  let (c, rem, den) := f.bracket m e
  f.finish mode neg (if roundsUp mode neg (c % 2 = 1) rem den then c + 1 else c)

/-- Magnitude of m × 2^e rounded to an integer. -/
def roundMag (mode : Rnd) (neg : Bool) (m : Nat) (e : Int) : Nat :=
  if 0 ≤ e then m * 2 ^ e.toNat
  else
    let den := 2 ^ (-e).toNat
    let n := m / den
    if roundsUp mode neg (n % 2 = 1) (m % den) den then n + 1 else n

/-- Lowest and highest integer of a range of `w` bits. -/
def intLo (signed : Bool) (w : Nat) : Int := if signed then -(2 ^ (w - 1) : Int) else 0
def intHi (signed : Bool) (w : Nat) : Int := if signed then 2 ^ (w - 1) - 1 else 2 ^ w - 1

/-- A negative integer reaches a range without a sign: invalid (R104). -/
def lacksSign (signed : Bool) (v : Int) : Bool := !signed && decide (v < 0)

/-- A value to an integer of `w` bits, saturating (R106, floating row). A negative value that an unsigned range cannot hold
reports invalid beside the overflow of its saturation (R104, R106, log 70). -/
def toInt (signed : Bool) (w : Nat) (mode : Rnd) : FVal → Conv
  | .nan => ⟨0, true, false⟩
  | .inf neg => ⟨wrapN w (if neg then intLo signed w else intHi signed w), !signed && neg, true⟩
  | .fin neg m e =>
    let mag : Int := roundMag mode neg m e
    let v := if neg then -mag else mag
    let c := clampI (intLo signed w) (intHi signed w) v
    ⟨wrapN w c, lacksSign signed v, decide (c ≠ v)⟩

/-- The conversion of an integer to a range of `w` bits, saturating, with the events of R104. -/
def satInt (signed : Bool) (w : Nat) (v : Int) : Conv :=
  let c := clampI (intLo signed w) (intHi signed w) v
  ⟨wrapN w c, lacksSign signed v, decide (c ≠ v)⟩

/-- Steps 1 to 4 of R103 around a rounding of the nonzero finite case. -/
def Fmt.convertWith (f : Fmt) (round : Bool → Nat → Int → Conv) : FVal → Conv
  | .nan => if f.spec = 2 then ⟨0, true, false⟩ else ⟨f.nanCode, false, false⟩
  | .inf neg =>
    if !f.sgn && neg then ⟨0, true, false⟩
    else if f.spec = 0 && f.ovf then ⟨f.signed neg (f.maxCode + 1), false, false⟩
    else if f.spec = 1 && f.ovf then ⟨f.nanCode, false, true⟩
    else ⟨f.signed neg f.maxCode, false, true⟩
  | .fin neg m e =>
    if m = 0 then ⟨f.signed (neg && f.sgn) 0, false, false⟩
    else if !f.sgn && neg then ⟨0, true, false⟩
    else round neg m e

/-- Conversion of a value to a format (R103), or to an integer entry (R106). -/
def Fmt.convert (f : Fmt) (mode : Rnd) (v : FVal) : Conv :=
  if f.intm then toInt f.sgn f.width mode v else f.convertWith (f.roundFin mode) v

/-- Stochastic conversion (R105), then steps 6 and 7 with the choice of the larger magnitude rounding away, and that of the
smaller rounding toward zero (log 71). -/
def Fmt.convertStoch (f : Fmt) (rnd : Nat) (v : FVal) : Conv :=
  if f.intm then
    match v with
    | .fin neg m e =>
      let lo := if 0 ≤ e then m * 2 ^ e.toNat else m / 2 ^ (-e).toNat
      let rem := if 0 ≤ e then 0 else m % 2 ^ (-e).toNat
      let mag : Int := if stochUp rnd rem (2 ^ (-e).toNat) then lo + 1 else lo
      satInt f.sgn f.width (if neg then -mag else mag)
    | v => toInt f.sgn f.width .rne v
  else
  f.convertWith (fun neg m e =>
    let (c, rem, den) := f.bracket m e
    let up := stochUp rnd rem den
    f.finish (if up then .rne else .rz) neg (if up then c + 1 else c)) v

/-! ## Exact arithmetic -/

/-- A finite value as a signed multiple of 2^e. -/
def scaled (neg : Bool) (m : Nat) (e e0 : Int) : Int :=
  let v : Int := m * 2 ^ (e - e0).toNat
  if neg then -v else v

/-- Exact sum with the zero signs of R122. -/
def FVal.add (mode : Rnd) : FVal → FVal → FVal
  | .nan, _ => .nan
  | _, .nan => .nan
  | .inf a, .inf b => if a = b then .inf a else .nan
  | .inf a, _ => .inf a
  | _, .inf b => .inf b
  | .fin na ma ea, .fin nb mb eb =>
    let e0 := if ea ≤ eb then ea else eb
    let s := scaled na ma ea e0 + scaled nb mb eb e0
    if s = 0 then
      let bothNeg := ma = 0 ∧ mb = 0 ∧ na ∧ nb
      .fin (decide bothNeg || (mode == .rd && (na != nb))) 0 0
    else .fin (decide (s < 0)) s.natAbs e0

/-- Exact product (R122). -/
def FVal.mul : FVal → FVal → FVal
  | .nan, _ => .nan
  | _, .nan => .nan
  | .inf a, .inf b => .inf (a != b)
  | .inf a, .fin b m _ => if m = 0 then .nan else .inf (a != b)
  | .fin a m _, .inf b => if m = 0 then .nan else .inf (a != b)
  | .fin a ma ea, .fin b mb eb => .fin (a != b) (ma * mb) (ea + eb)

/-- Rounding of a result of R121: canonical NaN, infinity, signed zero, or the rounded value. -/
def Fmt.result (f : Fmt) (mode : Rnd) (v : FVal) : Nat := (f.convert mode v).code

def fAdd (f : Fmt) (mode : Rnd) (a b : Nat) : Nat := f.result mode (.add mode (f.value a) (f.value b))
def fMul (f : Fmt) (mode : Rnd) (a b : Nat) : Nat := f.result mode (.mul (f.value a) (f.value b))
def fFma (f : Fmt) (mode : Rnd) (a b c : Nat) : Nat :=
  f.result mode (.add mode (.mul (f.value a) (f.value b)) (f.value c))

/-- Exact comparison of values that are not NaN, with -0 equal to +0. -/
def FVal.cmp : FVal → FVal → Ordering
  | .inf a, .inf b => if a = b then .eq else if a then .lt else .gt
  | .inf a, _ => if a then .lt else .gt
  | _, .inf b => if b then .gt else .lt
  | .fin na ma ea, .fin nb mb eb =>
    let e0 := if ea ≤ eb then ea else eb
    compare (scaled na ma ea e0) (scaled nb mb eb e0)
  | _, _ => .eq

/-- The order of R123, with -0 below +0. -/
def FVal.ltZ (a b : FVal) : Bool :=
  match a.cmp b with
  | .lt => true
  | .gt => false
  | .eq => a.isZero && b.isZero && a.neg && !b.neg

/-- FMIN and FMAX (R123). -/
def fMinMax (f : Fmt) (max : Bool) (a b : Nat) : Nat :=
  match f.value a, f.value b with
  | .nan, .nan => f.nanCode
  | .nan, _ => b
  | _, .nan => a
  | x, y => if max then (if x.ltZ y then b else a) else (if y.ltZ x then b else a)

/-- Floating comparison (R120). -/
def fCmp (f : Fmt) (c : Cmp) (a b : Nat) : Bool :=
  let x := f.value a
  let y := f.value b
  if x.isNan || y.isNan then (c == .ne || c == .unord)
  else
    let o := x.cmp y
    match c with
    | .eq => o == .eq
    | .ne => o != .eq
    | .lt => o == .lt
    | .le => o != .gt
    | .gt => o == .gt
    | .ge => o != .lt
    | .ord => true
    | .unord => false

/-- FRND (R124). -/
def fRnd (mode : Rnd) (a : Nat) : Nat :=
  match f32.value a with
  | .fin neg m e =>
    let mag := roundMag mode neg m e
    f32.result .rne (.fin neg mag 0)
  | v => f32.result .rne v

/-- Integer square root by bits, `k` result bits. -/
def isqrtBits : Nat → Nat → Nat → Nat
  | 0, _, r => r
  | k + 1, n, r =>
    let t := r + 2 ^ k
    if t * t ≤ n then isqrtBits k n t else isqrtBits k n r

/-- floor(√n). -/
def isqrt (n : Nat) : Nat := isqrtBits (log2 n / 2 + 1) n 0

/-- A value known to lie in [r, r+1) × 2^e, exactly at r when `exact`; rounding needs r with spare bits. -/
def FVal.sticky (neg : Bool) (r : Nat) (e : Int) (exact : Bool) : FVal :=
  .fin neg (2 * r + b2n (!exact)) (e - 1)

/-- FSQRT (R124). -/
def fSqrt (mode : Rnd) (a : Nat) : Nat :=
  match f32.value a with
  | .fin neg m e =>
    if m = 0 then f32.signed neg 0
    else if neg then f32.nanCode
    else
      let k : Nat := if (e % 2 = 0) then 64 else 65
      let n := m * 2 ^ k
      let r := isqrt n
      f32.result mode (.sticky false r ((e - k) / 2) (decide (r * r = n)))
  | .inf false => a
  | _ => f32.nanCode

/-- FCLASS (R125). -/
def fClass (a : Nat) : Nat :=
  let c := match f32.value a with
    | .inf true => 1
    | .inf false => 128
    | .nan => 256
    | .fin neg m _ =>
      if m = 0 then (if neg then 8 else 16)
      else if m < 2 ^ 23 then (if neg then 4 else 32)
      else (if neg then 2 else 64)
  if a = 0x7FFFFFFF then c + 512 else c

end Sys2Proof.Machine
end

