-- ==== Sys2Proof/Machine/Special.lean ====
section
/-! DEFINITION. The special functions of R126: the exact value is enclosed in a rational interval whose two ends
round alike (log 8). -/

namespace Sys2Proof.Machine

/-- FRCP (R126). -/
def fRcp (a : Nat) : Nat :=
  match f32.value a with
  | .nan => f32.nanCode
  | .inf neg => f32.signed neg 0
  | .fin neg m e =>
    if m = 0 then f32.signed neg 0x7F800000
    else
      let n := 2 ^ 96
      f32.result .rne (.sticky neg (n / m) (-e - 96) (decide (n % m = 0)))

/-- FRSQ (R126). -/
def fRsq (a : Nat) : Nat :=
  match f32.value a with
  | .nan => f32.nanCode
  | .inf neg => if neg then f32.nanCode else 0
  | .fin neg m e =>
    if m = 0 then f32.signed neg 0x7F800000
    else if neg then f32.nanCode
    else
      let k : Nat := if e % 2 = 0 then 128 else 129
      let q := 2 ^ k / m
      let r := isqrt q
      f32.result .rne (.sticky false r ((-e - k) / 2) (decide (r * r * m = 2 ^ k)))

/-- The binary32 codes that the two ends of an interval around the exact value round to. -/
abbrev Ends := Nat × Nat

/-- The codes of the ends of [lo, hi] × 2^-p. -/
def roundBoth (p : Nat) (lo hi : Int) : Ends :=
  let r (v : Int) := f32.result .rne (.fin (decide (v < 0)) v.natAbs (-(p : Int)))
  (r lo, r hi)

/-- The slack allowed for the truncations of a series, in units of the last place. -/
def slack : Int := 2 ^ 14

/-- Sum of z^(2k+1)/(2k+1) with `p` fraction bits. -/
def atanhSum : Nat → Nat → Nat → Nat → Nat → Nat
  | 0, _, _, _, _ => 0
  | n + 1, p, zz, t, k => t / k + atanhSum n p zz (t * zz / 2 ^ p) (k + 2)

/-- ln(num/den) with `p` fraction bits, for num/den in [1, 2). -/
def lnFix (p num den : Nat) : Nat :=
  let z := (num - den) * 2 ^ p / (num + den)
  2 * atanhSum (p / 3 + 8) p (z * z / 2 ^ p) z 1

/-- ln 2 with `p` fraction bits. -/
def ln2Fix (p : Nat) : Nat := lnFix p (2 ^ p * 2 - 1) (2 ^ p)

/-- Sum of t^k/k! with `p` fraction bits. -/
def expSum : Nat → Nat → Nat → Nat → Nat → Nat
  | 0, _, _, _, _ => 0
  | n + 1, p, x, t, k => t + expSum n p x (t * x / 2 ^ p / k) (k + 1)

/-- e^x with `p` fraction bits, for x in [0, 1) with `p` fraction bits. -/
def expFix (p x : Nat) : Nat := expSum (p / 3 + 10) p x (2 ^ p) 1

/-- Sum of the alternating series of arctan(1/d). -/
def atanInv : Nat → Nat → Nat → Nat → Int
  | 0, _, _, _ => 0
  | n + 1, dd, t, k => (t / k : Nat) - atanInv n dd (t / dd) (k + 2)

/-- π/2 with `p` fraction bits (Machin). -/
def halfPi (p : Nat) : Nat :=
  let q := p + 16
  let s := 8 * atanInv (q / 4 + 4) 25 (2 ^ q / 5) 1 - 2 * atanInv (q / 15 + 4) (239 * 239) (2 ^ q / 239) 1
  s.toNat / 2 ^ 16

/-- Alternating series x^k/k! in steps of two, from term `t` with index `k`. -/
def sinSum : Nat → Nat → Nat → Nat → Nat → Int
  | 0, _, _, _, _ => 0
  | n + 1, p, xx, t, k => (t : Int) - sinSum n p xx (t * xx / 2 ^ p / ((k + 1) * (k + 2))) (k + 2)

def sinFix (p x : Nat) : Int := sinSum (p / 4 + 10) p (x * x / 2 ^ p) x 1
def cosFix (p x : Nat) : Int := sinSum (p / 4 + 10) p (x * x / 2 ^ p) (2 ^ p) 0

/-- Sine (`q` = 0) or cosine (`q` = 1) of m × 2^e at precision `p`. -/
def trigAt (p q : Nat) (neg : Bool) (m : Nat) (e : Int) : Ends :=
  let pp := p + 140
  let x := if 0 ≤ e + pp then m * 2 ^ (e + pp).toNat else 0
  let h := halfPi pp
  let k := x / h
  let r := (x - k * h) / 2 ^ 140
  let s := sinFix p r
  let c := cosFix p r
  let v := match (k + q) % 4 with
    | 0 => s
    | 1 => c
    | 2 => -s
    | _ => -c
  let v := if neg && q == 0 then -v else v
  roundBoth p (v - slack) (v + slack)

/-- 2^x for x = ± m × 2^e at precision `p`; the integer part is `n`. -/
def exp2At (p : Nat) (neg : Bool) (m : Nat) (e : Int) : Ends :=
  let x : Int := scaled neg m e (-(p : Int))
  let n := x / 2 ^ p
  let f := (x % 2 ^ p).toNat
  let v : Int := expFix p (f * ln2Fix p / 2 ^ p)
  let r (v : Int) := f32.result .rne (.fin false v.toNat (n - p))
  (r (v - slack), r (v + slack))

/-- log2 of m × 2^e at precision `p`. -/
def log2At (p m : Nat) (e : Int) : Ends :=
  let l := log2 m
  let v : Int := (e + l) * 2 ^ p + (lnFix p m (2 ^ l) * 2 ^ p / ln2Fix p : Nat)
  roundBoth p (v - slack) (v + slack)

/-- tanh of m × 2^e at precision `p`, the argument below 16. -/
def tanhAt (p : Nat) (neg : Bool) (m : Nat) (e : Int) : Ends :=
  let pp := p + 40
  let y := if 0 ≤ e + 1 + pp then m * 2 ^ (e + 1 + pp).toNat else 0
  let l := ln2Fix pp
  let k := y / l
  let ex := expFix pp (y - k * l) * 2 ^ k
  let v : Int := ((ex - 2 ^ pp) * 2 ^ pp / (ex + 2 ^ pp) : Nat)
  let v := if neg then -v else v
  roundBoth pp (v - slack) (v + slack)

/-- The code on which both ends agree at the first precision of a list where they do. The exact values are no halfway
points between binary32 values (they are irrational), so a precision that decides exists; that one of the list does is
log 8. -/
def settleAt (f : Nat → Ends) : List Nat → Nat
  | [] => (f 3200).1
  | p :: r => if (f p).1 = (f p).2 then (f p).1 else settleAt f r
def settle (f : Nat → Ends) : Nat := settleAt f [96, 192, 400, 800, 1600]

/-- Magnitude below 2^k. -/
def below (m : Nat) (e k : Int) : Bool := decide ((log2 m : Nat) + e < k)

/-- FEXP2 (R126). -/
def fExp2 (a : Nat) : Nat :=
  match f32.value a with
  | .nan => f32.nanCode
  | .inf neg => if neg then 0 else 0x7F800000
  | .fin neg m e =>
    if m = 0 || below m e (-30) then 0x3F800000
    else if !below m e 8 then (if neg then 0 else 0x7F800000)
    else if roundMag .rz neg m e * 2 ^ (-e).toNat = m ∧ e ≤ 0 then
      let n : Int := roundMag .rz neg m e
      f32.result .rne (.fin false 1 (if neg then -n else n))
    else if 0 ≤ e then f32.result .rne (.fin false 1 (if neg then -(m * 2 ^ e.toNat : Int) else m * 2 ^ e.toNat))
    else settle fun p => exp2At p neg m e

/-- FLOG2 (R126). -/
def fLog2 (a : Nat) : Nat :=
  match f32.value a with
  | .nan => f32.nanCode
  | .inf neg => if neg then f32.nanCode else 0x7F800000
  | .fin neg m e =>
    if m = 0 then 0xFF800000
    else if neg then f32.nanCode
    else if m = 2 ^ log2 m then f32.result .rne (.ofInt (e + (log2 m : Nat)))
    else settle fun p => log2At p m e

/-- FSIN (R126). -/
def fSin (a : Nat) : Nat :=
  match f32.value a with
  | .fin neg m e => if m = 0 || below m e (-30) then a else settle fun p => trigAt p 0 neg m e
  | _ => f32.nanCode

/-- FCOS (R126). -/
def fCos (a : Nat) : Nat :=
  match f32.value a with
  | .fin neg m e => if m = 0 || below m e (-30) then 0x3F800000 else settle fun p => trigAt p 1 neg m e
  | _ => f32.nanCode

/-- FTANH (R126). -/
def fTanh (a : Nat) : Nat :=
  match f32.value a with
  | .nan => f32.nanCode
  | .inf neg => f32.signed neg 0x3F800000
  | .fin neg m e =>
    if m = 0 || below m e (-30) then a
    else if !below m e 4 then f32.signed neg 0x3F800000
    else settle fun p => tanhAt p neg m e

end Sys2Proof.Machine
end

