-- ==== Sys2Proof/Machine/Parts.lean ====
section
/-! DEFINITION. The pieces that the machine's state is built from: threads, bundles, blocks, caches, homes, dies. -/

namespace Sys2Proof.Machine

/-! ## Threads (R20, R26) -/

/-- What a thread in WAITING waits for (R26). -/
inductive Wait where
  /-- parked at JWAIT on register `j` (R136) -/
  | join (j : Nat)
  /-- held at a gathering clause whose unit is incomplete (R35) -/
  | gather
  /-- at BARW or BARS: level, number and the phase waited out (R209) -/
  | barrier (level no : Nat) (phase : Bool)
  /-- at BARS, its arrival not yet counted: level and number (R212) -/
  | arriving (level no : Nat)
  /-- at MWAIT; the destination register (R236) -/
  | watch (dest : Nat)
  /-- at MWAIT behind an MWATCH of the thread whose load is not performed; the destination register (R236, log 28) -/
  | arming (dest : Nat)
  /-- a WAIT slot of the next clause is set (R48) -/
  | scoreboard
  /-- pending registers, predicates and a full scoreboard slot (R47, R48) -/
  | pending (regs preds : List Nat) (slot : Option Nat)
  /-- EXIT waits for every pending write of the thread (R133) -/
  | drain
  /-- tiles that the next instruction names and that are not READY (R170) -/
  | tile (tiles : List Nat)
  /-- a tile of a block is pinned: queued octet operations have not read it yet (R193) -/
  | pinned (blk : Nat) (tiles : List Nat)
  /-- a ring slot must be neither SEALED nor DRAINING (`open`), or hold no queued operation (`idle`) (R187) -/
  | slot (q : Nat) (open_ idle : Bool)
  /-- a translation fault: the die and token of the fault-table entry, the address and the word, 0 for a fetch (R354,
  R360) -/
  | fault (die token addr : Nat) (word : DWord)
  /-- a WRQ of the thread has a translation fault (R241) -/
  | held (die token : Nat)
  /-- a WRQ's fault found the fault table of the die's slice full (R354) -/
  | heldFull (die slice : Nat)
  /-- the translating slice's fault table is full: the address, the fault's kind and the word (R354) -/
  | faultFull (die slice addr kind : Nat) (word : DWord)
  /-- ACPWAIT: tag and count (R294) -/
  | acp (tag count : Nat)
  /-- exhausted queue pool of the launch (R333) -/
  | pool
  /-- in the claim queue (R94) -/
  | claim
  /-- a full queue: 0 the core's store FIFO (R222), 1 its copy-engine queue, 2 the die's gather queue (R278), 3 its matrix
  queue, 4 its epilogue queue (R181), 5 the die's launch queue (R329), 6 claims of the
  block's ring (R200); `room` entries are sought -/
  | queue (kind room : Nat)
  /-- FENCE: the loads, and for SC the whole fence at a scope, of earlier accesses (R234) -/
  | fence (sc : Bool) (scope : Nat) (seq : Nat)
  /-- at an LDS-class release whose bundle has members with earlier accesses still out: those members and the access
  numbers up to which they must be performed at the scope (R167, R268) -/
  | peers (scope : Nat) (late : List (Nat × Nat))
  /-- an acquire issued before the given access number is outstanding, or, for an access that writes, a fence marker
  (R268) -/
  | acquired (seq : Nat) (store : Bool)
  /-- a page walk, a fetch or an access met a line that is under way, on a stack that is being quiesced, or whose release is
  to be published (R269, R315, R351) -/
  | stacks (line : Nat)
  /-- range-lock entries of a command (R296): die, block, number, and whether it is an epilogue command -/
  | lock (die blk seq : Nat) (epi : Bool)
  /-- an open supervisor entry of the die (R367) -/
  | entry (die token : Nat)
  /-- a purge by INVVA: the number below which accesses must be performed (R355) -/
  | purge (mark : Nat)
  /-- the block is being confirmed (R345) -/
  | confirm
  /-- a window or chip-scratchpad store is not yet acknowledged (R166) -/
  | ack
  deriving DecidableEq, Repr

/-- The state of a thread (R26). -/
inductive TState where
  | ready | issuing | waiting (w : Wait) | exited
  deriving DecidableEq, Repr

/-- A watch (R235): the physical line, and once fired whether a write or an entry into U was the cause. -/
structure Watch where
  line : Nat
  fired : Option Bool := none
  /-- armed from an L1 copy that an update under way makes older: the write of that update fires it (R235, R260) -/
  owed : Bool := false
  deriving DecidableEq, Repr

/-- A record under construction by EMITA (R335). -/
structure Reservation where
  valid : Bool := false
  node : Nat := 0
  record : Nat := 0
  deriving DecidableEq, Repr

/-- One thread (R20). `base` keeps all 64 bits of a branch target, so that a target outside the 57-bit space faults at
its fetch (R131). -/
structure Thread where
  base : DWord := 0
  index : BitVec 4 := 0
  /-- its registers' place in the core's register-and-slice store, in bytes (R20) -/
  regBase : BitVec 20 := 0
  st : TState := .ready
  /-- the die cycle from which the thread is in READY, or that of its EXIT (R26, R27, R35) -/
  since : Nat := 0
  /-- the fetched and checked header of the next clause (R43) -/
  hdr : Option DWord := none
  /-- STALL: not ranked before this cycle unless aged (R49) -/
  stallUntil : Nat := 0
  /-- YIELD: ranked last for its next clause (R49, R134) -/
  yielded : Bool := false
  /-- the parked gathering bundle that re-forms whole (R30) -/
  gang : Option Nat := none
  /-- the ring slot of the MMA, MMAX, SLOTZ or SLOTWR at which the thread's bundle has parked for a slot, and that word
  (R204, R360) -/
  atSlot : Option (Nat × DWord) := none
  /-- RESUME has answered it, and the header of its frame's position is still to be read (R363, R369) -/
  resuming : Bool := false
  /-- its group is aged (R27) -/
  aged : Bool := false
  limit : Nat := 0
  /-- live registers; a register with no entry is dead (R80) -/
  live : Tab Word := []
  pend : List Nat := []
  preds : BitVec 7 := 0
  ppend : List Nat := []
  sb : Tab Nat := []
  acp : Tab Nat := []
  slice : Mem := []
  inh : Bool := false
  mstatus : Word := 0
  wrqstat : Word := 0
  watch : Option Watch := none
  arv : BitVec 28 := 0
  resv : Tab Reservation := []
  /-- number of the thread's last FENCE.REL or FENCE.AR of a narrow scope (R268, R269) -/
  relSeq : Option Nat := none
  /-- accesses issued when a load of the thread last received a value: what it has observed is performed before (R268) -/
  seen : Nat := 0
  /-- at an instruction that first drains the thread's accesses: the number of accesses issued when the drain began -/
  drain : Option Nat := none
  /-- the card that its LAUNCH has read, while the device queue has no room for it (R329) -/
  card : Option (List Byte) := none
  deriving DecidableEq, Repr

/-! ## Bundles (R28, R29, R34) -/

/-- A bundle issuing on its unit. -/
structure Bundle where
  blk : Nat := 0
  core : Nat := 0
  /-- thread index and logical lane of the core -/
  members : List (Nat × Nat) := []
  base : DWord := 0
  index : BitVec 4 := 0
  hdr : DWord := 0
  quads : List Nat := []
  /-- the other bundle of a shared quad (R28) -/
  pair : Option Nat := none
  /-- base issue cycles of the instruction issued in this cycle, 0 for none; settled at its end (R28, R34) -/
  cost : Nat := 0
  /-- die cycle of the next issue, or of the dissolution once `ended` (R34) -/
  next : Nat := 0
  ended : Bool := false
  /-- the members, with their lanes, that the instruction issued in this cycle found (R28, R34) -/
  ran : List (Nat × Nat) := []
  /-- registers, by thread, of which a lane's operand cache may hold a copy, newest first (R84) -/
  kept : List (Nat × Nat) := []
  deriving DecidableEq, Repr

/-! ## Blocks -/

/-- A rejoin-mask register (R135). -/
structure JReg where
  mask : BitVec 64 := 0
  out : BitVec 64 := 0
  arrived : BitVec 64 := 0
  armBase : DWord := 0
  armIndex : BitVec 4 := 0
  opened : Bool := false
  /-- changed in this cycle, so evaluated at its end (R137) -/
  changed : Bool := false
  deriving DecidableEq, Repr

/-- A block-scope register (R83, R86): its value, the value before the cycle of its last write, and that write's die
cycle plus one (0 for none) and thread. -/
structure KReg where
  val : DWord := 0
  old : DWord := 0
  cycle : Nat := 0
  tid : Nat := 0
  deriving DecidableEq, Repr

/-- A barrier (R208). -/
structure Barrier where
  phase : Bool := false
  memb : Int := 0
  pend : Int := 0
  tx : Int := 0
  ovf : Bool := false
  deriving DecidableEq, Repr

/-- An arrival of one instruction of a bundle that is not yet applied, since earlier stores of its threads are not yet
performed at the level's scope (R212, R214). -/
structure Arrival where
  level : Nat
  no : Nat
  /-- its place in the block's list, and the lowest thread of its bundle (R209) -/
  id : Nat := 0
  low : Nat := 0
  tids : List Nat
  /-- BARX: the bytes that each thread expects, those of a thread that has exited since among them -/
  vals : Tab Int := []
  dest : Nat := 255
  sb : Option Nat := none
  /-- BARS: the threads then wait for the phase in which they are counted to end (R212) -/
  waits : Bool := false
  /-- sequence number of the core below which accesses are earlier -/
  seq : Nat := 0
  deriving DecidableEq, Repr

/-- What a launch fixes for a block (R21, R22, R77, R85, R321). -/
structure BlockCfg where
  launch : Nat := 0
  bid : Nat := 0
  clid : Nat := 0
  rank : Nat := 0
  cluster : Nat := 0
  n : Nat := 16
  w : Nat := 16
  b1 : Nat := 16
  b2 : Nat := 16
  b3 : Nat := 16
  limit : Nat := 8
  slice : Nat := 128
  tbase : DWord := 0
  stage : Nat := 0
  depth : Nat := 0
  rcount : Nat := 0
  rbase : Nat := 0
  allot : Nat := 0
  nring : Nat := 0
  ntile : Nat := 0
  nblk : Nat := 0
  nclu : Nat := 0
  ngrd : Nat := 0
  retryable : Bool := false
  retry : Nat := 0
  entry : DWord := 0
  /-- the records of its window, RECLOG, and the window's bytes (R337) -/
  recs : List (List Byte) := []
  recLog : Nat := 0
  window : Nat := 0
  deriving DecidableEq, Repr

/-- Form of a tile (R168, R172). -/
inductive Form where
  | general | zero | const | ident
  deriving DecidableEq, Repr

/-- State of a tile (R168). -/
inductive TileSt where
  | empty | filling | ready | draining
  deriving DecidableEq, Repr

/-- One tile-table entry (R168) with the operations that have it pinned (R193). -/
structure Tile where
  base : Nat := 0
  form : Form := .general
  st : TileSt := .empty
  layout : Nat := 0
  fmt : Nat := 0
  cols : Nat := 0
  rows : Nat := 0
  cval : Word := 0
  /-- the format entry's value, read at TDECL or TMARK.RETYPE (R175) -/
  fval : Word := 0
  /-- form and value that a TSCAN or TFILL under way will leave, lowered by later stores (R172, R177) -/
  next : Option (Form × Word) := none
  pins : Nat := 0
  deriving DecidableEq, Repr

/-- State of a ring slot (R187). -/
inductive SlotSt where
  | free | accum | sealed | draining
  deriving DecidableEq, Repr

/-- Where a scratchpad address leads (R161): the own allotment, a block of the cluster, a die's chip scratchpad. -/
inductive Spad where
  | own (off : Nat) | win (blk off : Nat) | chip (die off : Nat)
  deriving DecidableEq, Repr

/-- One ring slot: 16 × 32 words, absent words are 0 (R187). -/
structure Slot where
  st : SlotSt := .free
  words : Tab Word := []
  /-- octet operations queued for the slot (R192) -/
  queued : Nat := 0
  /-- cycle plus one of the last thread write, and by word its thread (R199) -/
  stamp : Nat := 0
  by_ : Tab Nat := []
  deriving DecidableEq, Repr

/-- An A-reuse latch of an octet (R194). -/
structure Latch where
  valid : Bool := false
  base : Nat := 0
  /-- 16 rows of 8 words (R182) -/
  rows : List (List Word) := []
  deriving DecidableEq, Repr

/-- The operator tag of the update-only state (R230). -/
structure Tag where
  op : Oper
  wide : Bool
  win : BitVec 8
  deriving DecidableEq, Repr

/-- Bytes of a line by offset 0-127; an absent offset is a byte not held. -/
abbrev LineBytes := Tab Byte

/-- A read-modify-write of one member (R229); `old` is the value it found once it is performed. -/
structure AtomOp where
  tid : Nat
  off : Nat
  op : Oper
  size : Nat
  opnd : Nat
  cmp : Nat := 0
  /-- window of a contribution under ADDX that is performed as an atomic (R233) -/
  win : BitVec 8 := 0
  dest : Option Nat := none
  old : Nat := 0
  deriving DecidableEq, Repr

/-- What a store-FIFO entry does to its line (R222). -/
inductive EntryKind where
  /-- bytes by storing thread, in ascending thread index; `masked` is STGW -/
  | store (parts : List (Nat × LineBytes)) (masked : Bool)
  /-- contributions: thread, element, value -/
  | red (tag : Tag) (ops : List (Nat × Nat × Nat))
  | atoms (ops : List AtomOp)
  /-- a FENCE.REL or FENCE.AR marker (R234) -/
  | fence
  deriving DecidableEq, Repr

/-- One write held for an unconfirmed retryable block, with the bytes it occupies (R242, R344). -/
structure Held where
  seq : Nat
  line : Nat
  kind : EntryKind
  tids : List Nat
  size : Nat
  scope : Nat := 0
  acquire : Bool := false
  vas : Tab Nat := []
  /-- its translation has been dropped since (R355) -/
  old : Bool := false
  deriving DecidableEq, Repr

/-- The run-time bookkeeping of a block that no register shows. -/
structure BlockRun where
  seq : Nat := 0
  /-- completed cohort commands above the mark, and the mark (R284) -/
  doneCmds : List Nat := []
  mark : Nat := 0
  /-- USER of the DONE event, and whether a DONE with a true guard has run (R342) -/
  user : KReg := {}
  doneRun : Bool := false
  endCode : Nat := 0
  retries : Nat := 0
  confirmed : Bool := false
  confirming : Bool := false
  /-- accesses issued when its confirmation began -/
  confirmMark : Nat := 0
  held : List Held := []
  /-- HELD records: number and bytes (R344) -/
  heldEmits : List (Nat × Nat) := []
  /-- records that the block has taken (R332) -/
  records : List Nat := []
  wdog : Nat := 0
  ringFull : Nat := 0
  ringHold : List Nat := []
  /-- the Mint forms no bundle for the block (R370, R371) -/
  stopped : Bool := false
  preempted : Bool := false
  completed : Bool := false
  /-- accesses issued when the block was found to have ended; its stores before that are awaited (R327) -/
  endMark : Option Nat := none
  /-- the DONE event that is not yet written, the fault entry it waits on, and whether that stays unresolved (R323) -/
  eventDue : Option (List Byte) := none
  evFault : Option (Nat × Nat) := none
  evBad : Bool := false
  /-- discarded after a fault and waiting to be run again, since a cycle of die 0 (R326, R346) -/
  discarded : Bool := false
  discardedAt : Nat := 0
  deriving DecidableEq, Repr

/-- A claim of register chunks (R94). -/
structure Claim where
  cycle : Nat
  tid : Nat
  chunks : Nat
  dest : Nat
  deriving DecidableEq, Repr

/-- A resident block. -/
structure Block where
  cfg : BlockCfg := {}
  /-- core number within the module: 96 × die + CORE -/
  core : Nat := 0
  resIdx : Nat := 0
  slotBase : Nat := 0
  /-- where its allotment and its ring slots lie on the core (R325) -/
  allotBase : Nat := 0
  ringBase : Nat := 0
  threads : Tab Thread := []
  kregs : Tab KReg := []
  fmts : Tab KReg := []
  pool : Nat := 0
  claims : List Claim := []
  engfault : KReg := {}
  /-- rejoin-mask registers by 16 × cohort + j -/
  joins : Tab JReg := []
  scratch : Mem := []
  tiles : Tab Tile := []
  slots : Tab Slot := []
  cursor : Nat := 0
  tail : Nat := 0
  latches : Tab Latch := []
  bars : Tab Barrier := []
  arrivals : List Arrival := []
  run : BlockRun := {}
  deriving DecidableEq, Repr

end Sys2Proof.Machine
end

