-- ==== Sys2Proof/Machine/MemParts.lean ====
section
/-! DEFINITION. Caches, homes, translation, engines' queues and supervisor queues: the pieces of State outside the
blocks. -/

namespace Sys2Proof.Machine

/-! ## Lines (R243-R258) -/

/-- The partial of one touched element (R230, R232, R245). -/
inductive Elt where
  | val (x : Nat)
  | addx (s : Int) (sat nan pinf ninf : Bool)
  deriving DecidableEq, Repr

/-- Partials of the touched elements of a line, by element number. -/
abbrev Partial := Tab Elt

/-- One L1 line (R244, R245): V when `tag` is none, U otherwise. -/
structure L1Line where
  vline : Nat := 0
  cid : Nat := 0
  readOk : Bool := true
  data : LineBytes := []
  tag : Option Tag := none
  part : Partial := []
  /-- marked to be evicted first (R218) -/
  first : Bool := false
  deriving DecidableEq, Repr

/-- State of a slice line (R247); I is the absence of the line. -/
inductive LState where
  | S | E | M | O | W | U
  deriving DecidableEq, Repr

/-- One line of a die's L2 (R247). -/
structure L2Line where
  /-- none while the line is I and only locally performed bytes are held (R267) -/
  st : Option LState := none
  data : LineBytes := []
  sharers : List Nat := []
  ver : BitVec 16 := 0
  tag : Option Tag := none
  part : Partial := []
  /-- threads (block, index) whose bytes the W partial holds (R253) -/
  writers : List (Nat × Nat) := []
  /-- locally performed bytes, and the threads that wrote them (R267) -/
  loc : LineBytes := []
  locBy : List (Nat × Nat) := []
  locMask : Bool := false
  /-- number of accesses issued when the oldest of the bytes in `loc` or in the W partial was performed -/
  firstAt : Nat := 0
  /-- a request to the home is outstanding -/
  asked : Bool := false
  /-- PREF with HINT 3 retains the line (R218) -/
  retained : Bool := false
  deriving DecidableEq, Repr

/-- A line kept until its write-back is acknowledged (R252). -/
structure WbEntry where
  line : Nat
  ver : BitVec 16
  data : LineBytes
  sent : Bool := false
  deriving DecidableEq, Repr

/-- Requests to a home (R251). A W partial stays with its die until the home takes it; `merge` frees a line in W or U, for a
slice that needs its way or for the home's own directory cache (R247, R250). -/
inductive Req where
  | getS | getM | getW | getU (t : Tag)
  | wbData (ver : BitVec 16) (data : LineBytes) | wbPart | clean | merge
  deriving DecidableEq, Repr

/-- State of a home entry (R250). -/
inductive HState where
  | I | S | E | O | W | U
  deriving DecidableEq, Repr

/-- A request under way at a home: who asked (die 9 is the home itself), the dies whose answers are still out, and what
the answers brought: partials, and the data that an owner supplied with whether it is dirty. -/
structure Txn where
  die : Nat
  req : Req
  wait : List Nat := []
  parts : Tab Partial := []
  data : Option (LineBytes × Bool) := none
  deriving DecidableEq, Repr

/-- One entry of a home directory (R250), and its queue. -/
structure Home where
  st : HState := .I
  dies : BitVec 9 := 0
  owner : Nat := 0
  ver : BitVec 16 := 0
  tag : Option Tag := none
  devs : BitVec 4 := 0
  host : BitVec 4 := 0
  /-- in U: by die, partials that CCTL.PUB has brought home (R237) -/
  parts : Tab Partial := []
  /-- its place among the lines of the stack that entered W or U (R250) -/
  entered : Nat := 0
  queue : List (Nat × Req) := []
  txn : Option Txn := none
  deriving DecidableEq, Repr

/-- Messages between homes and dies (R247, R251, R252). -/
inductive MsgKind where
  | fwdShare | fwdOwn | inval | recall
  | grant (st : LState) (ver : BitVec 16) (tag : Option Tag) (data : LineBytes)
  | wbAck (ver : BitVec 16) | publish
  deriving DecidableEq, Repr

/-- A message on its way to a die. -/
structure Msg where
  die : Nat
  line : Nat
  kind : MsgKind
  deriving DecidableEq, Repr

/-- A note of a release log (R269). -/
structure Note where
  line : Nat
  die : Nat
  pos : Nat
  /-- requests for the line that had arrived before the note and are not yet served -/
  ahead : Nat
  deriving DecidableEq, Repr

/-- Host-side state of the halves of a line of CXL host memory (R257). -/
inductive HalfSt where
  | I | S | E | M
  deriving DecidableEq, Repr

/-- One half of a host line: its host-side state, the dies that hold it, the dirty holder, and whether a request for it
is out at the host. -/
structure HostHalf where
  st : HalfSt := .I
  dies : List Nat := []
  dirty : Option Nat := none
  /-- the die for which a request is out, and whether it is RdOwn -/
  asked : Option (Nat × Bool) := none
  deriving DecidableEq, Repr

/-- The two halves of a line of CXL host memory (R257). -/
structure HostLine where
  a : HostHalf := {}
  b : HostHalf := {}
  deriving DecidableEq, Repr

/-! ## What a translation answers (R351) -/

/-- Fault kinds in the order of the table of R351; 3 is protection, the others are demand faults. -/
inductive XRes where
  | ok (pa : Nat) (readOk : Bool)
  | outside
  | protection
  | demand (kind : Nat)
  /-- not now: an entry or the word lies on this line, which is under way, to be published or on a quiesced stack (R269,
  R315) -/
  | later (line : Nat)
  deriving DecidableEq, Repr

/-! ## Core memory pipes (R222, R224, R234) -/

/-- Where a thread issued an access, and its word: for a fault that comes after the issue (R379). -/
structure Site where
  base : DWord := 0
  index : BitVec 4 := 0
  word : DWord := 0
  deriving DecidableEq, Repr

/-- Progress of an entry: `sent` waits for the answer of a home outside the module. -/
inductive EntrySt where
  | queued | noted | sent | applied | performed
  deriving DecidableEq, Repr

/-- One entry of a core's store FIFO (R222), or an ATOM with a result, which passes beside it. -/
structure Entry where
  /-- number of the access in the module's order of issue -/
  seq : Nat
  blk : Nat
  tids : List Nat
  line : Nat
  kind : EntryKind
  scope : Nat := 0
  release : Bool := false
  acquire : Bool := false
  st : EntrySt := .queued
  acks : List Nat := []
  sb : Option Nat := none
  /-- the release, or the fence before it, that a note must announce (R269) -/
  rel : Option Nat := none
  /-- a held write of a block that is being confirmed: performed in program order (R345) -/
  ordered : Bool := false
  site : Site := {}
  /-- registers that an ATOM's results make pending, and the threads' effective addresses -/
  regs : List Nat := []
  vas : Tab Nat := []
  /-- the request has been counted at the slice (R307) -/
  counted : Bool := false
  deriving DecidableEq, Repr

/-- A load that has issued and not yet returned (R224); `value` once it is performed. -/
structure Load where
  seq : Nat
  blk : Nat
  tid : Nat
  va : Nat
  cid : Nat
  line : Nat
  off : Nat
  readOk : Bool := true
  size : Size
  dest : Nat
  acquire : Bool := false
  watch : Bool := false
  /-- it fills the L1, in a line that is evicted first (R218) -/
  alloc : Bool := true
  first : Bool := false
  /-- PREF with HINT 3: the slice retains the line (R218) -/
  retain : Bool := false
  sb : Option Nat := none
  value : Option Nat := none
  /-- number of its instruction's first access to the line, with which it makes one request (R221), and whether the request
  has been counted at the slice (R307) -/
  grp : Nat := 0
  counted : Bool := false
  /-- a request for the half of a line of a linked device is out -/
  asked : Bool := false
  site : Site := {}
  deriving DecidableEq, Repr

/-- New words on their way from a slice to an L1 (R248). -/
structure Update where
  line : Nat
  bytes : LineBytes
  /-- core and sequence number of the entry to acknowledge -/
  core : Nat
  seq : Nat
  /-- the number of accesses issued when the slice performed it -/
  pos : Nat
  /-- die cycle in which an ATOM was performed, whose words reach every L1 within 48 cycles (R260) -/
  atomAt : Option Nat := none
  deriving DecidableEq, Repr

/-- A request that is out at a home outside the module (R233, R257, R380): the core and the access that wait for its
reply, if any; of a load or an atomic, the thread; and the address its flit bears. -/
structure Away where
  core : Option Nat := none
  seq : Nat := 0
  tid : Nat := 0
  load : Bool := false
  write : Bool := false
  pa : Nat
  /-- the engine command that made it: block, number, and whether the epilogue engine's (R203, R291) -/
  cmd : Option (Nat × Nat × Bool) := none
  deriving DecidableEq, Repr

/-! ## Translation (R349-R354) -/

/-- A translation held by a slice (R353): the level of its leaf is `level`, 64 KiB groups have `big`. -/
structure Tlb where
  slice : Nat
  vpage : Nat
  cid : Nat
  level : Nat
  big : Bool := false
  entry : DWord
  deriving DecidableEq, Repr

/-- A fault-table entry (R354). -/
structure FaultEntry where
  slice : Nat
  cid : Nat
  vpage : Nat
  kind : Nat
  token : Nat
  deriving DecidableEq, Repr

/-- A translation context (R349). -/
structure Ctx where
  root : Nat := 0
  cid : Nat := 0
  deriving DecidableEq, Repr

/-! ## Engines (R276-R302) and the matrix path (R181-R205) -/

/-- The engine commands (R287-R290) and asynchronous copies (R293). -/
inductive EngOp where
  | tcopy | bcopy | gath | gathTile | scat
  deriving DecidableEq, Repr

/-- A range the lock table holds (R295); `core` is 127 for the chip scratchpad. -/
structure RangeLock where
  scratch : Bool
  cid : Nat
  core : Nat
  /-- scratchpad ranges: the block whose allotment it is, or the die for the chip scratchpad -/
  owner2 : Nat := 0
  first : Nat
  last : Nat
  dest : Bool
  /-- the command: block and sequence number, or the claim of an epilogue command -/
  owner : Nat × Nat × Bool
  deriving DecidableEq, Repr

/-- A command of a copy or gather engine with its snapshot (R278-R291). -/
structure EngCmd where
  op : EngOp
  blk : Nat
  seq : Nat
  /-- the cohort's members that issued it (R278, R298) -/
  tids : List Nat := []
  params : List Byte := []
  tile : Nat := 0
  indices : List Nat := []
  /-- bits of the destination done by the copy engine, bytes delivered, first fault, faulted bytes -/
  done : Nat := 0
  delivered : Nat := 0
  code : Nat := 0
  fbytes : Nat := 0
  first : Nat := 0
  active : Bool := false
  /-- die cycle in which the command started -/
  since : Nat := 0
  /-- elements that have been gathered or scattered, with the physical bytes that a plain SCAT has stored -/
  got : Tab (List Nat) := []
  /-- die and token of the fault entry that stops it, the key of the access that met it, and whether it stores -/
  fault : Option (Nat × Nat) := none
  stopKey : Nat := 0
  stores : Bool := false
  /-- virtual pages, read or written, that stay unresolved for an access, under its key (R299) -/
  bad : List (Nat × Nat × Bool) := []
  /-- the tile it fills has been classified (step 2 of R291) -/
  classed : Bool := false
  /-- accesses issued when it registered its ranges: stores checked before are performed before it reads (R273) -/
  mark : Nat := 0
  /-- CXL ports whose link has dropped under the command (R379) -/
  down : List Nat := []
  deriving DecidableEq, Repr

/-- An octet operation with its operands (R186, R190). -/
structure OctetOp where
  blk : Nat
  tid : Nat
  q : Nat
  /-- 16 rows of element bits: row i holds 256 bits in 8 words -/
  rows : List (List Word)
  scalesA : List Word := []
  scalesB : List Nat := []
  mx : Bool := false
  e8m2 : Bool := false
  tile : Nat
  form : Form
  bytes : List Byte
  cval : Word := 0
  fa : Word
  fb : Word
  faNo : Nat := 0
  fbNo : Nat := 0
  zeroC : Bool
  sealing : Bool
  entered : Nat
  deriving DecidableEq, Repr

/-- The pass under way: how many operations, and the die cycle in which it ends (R195). -/
structure Pass where
  n : Nat
  /-- operations of the pass that have not completed -/
  left : Nat
  start : Nat
  last : Nat
  deriving DecidableEq, Repr

/-- A queued epilogue command (R200-R203). -/
structure EpiCmd where
  blk : Nat
  q : Nat
  params : List Byte
  scales : List Word := []
  biases : List Word := []
  quant : Bool := false
  e8m2 : Bool := false
  tid : Nat
  /-- the members that issued it (R298) -/
  tids : List Nat := []
  /-- number of the claim, for its range-lock entries, and the output format's entry at issue -/
  claim : Nat := 0
  fval : Word := 0
  draining : Bool := false
  /-- die cycle in which the drain ends, and the slot's words once it has ended -/
  drainEnd : Nat := 0
  out : Option (Tab Word) := none
  /-- the fault entry that holds the writes, and virtual pages that stay unresolved (R299) -/
  fault : Option (Nat × Nat) := none
  bad : List Nat := []
  /-- the writes have left, with the code of their first fault -/
  fin : Option Nat := none
  /-- CXL ports whose link has dropped under the command (R379) -/
  down : List Nat := []
  deriving DecidableEq, Repr

/-! ## Launches (R318-R346) -/

/-- A record (R332). -/
inductive RecSt where
  | reserved | held | committed | taken
  deriving DecidableEq, Repr

structure Record where
  node : Nat
  bytes : List Byte := []
  depth : Nat := 0
  st : RecSt
  /-- when it was committed, in cycles of its Clearing House's die and of the module -/
  time : Nat := 0
  stamp : Nat := 0
  /-- the block that reserved, holds or has taken it -/
  owner : Nat := 0
  size : Nat := 0
  deriving DecidableEq, Repr

/-- A request for pool bytes of a thread held at EMIT or EMITA (R333). -/
structure PoolWait where
  blk : Nat
  tid : Nat
  bytes : Nat
  /-- the bytes are charged; the thread has not used them yet -/
  granted : Bool := false
  deriving DecidableEq, Repr

/-- Why a launcher is READY: a full batch, its timer, or no block of its launch is resident (R336, R341). -/
inductive Ready where
  | full | timer | idle
  deriving DecidableEq, Repr

/-- What QSTAT may return of one past cycle (R343): free pool bytes, depth failures, live records, and COMMITTED records
by 64 × Clearing House + node. -/
structure QSample where
  free : Nat
  fail : Nat
  live : Nat
  nodes : Tab Nat
  deriving DecidableEq, Repr

/-- State of a launch: `complete` waits only for its completion event. -/
inductive LaunchSt where
  | waiting | running | complete
  deriving DecidableEq, Repr

/-- A launch (R320-R341). -/
structure Launch where
  card : List Byte := []
  st : LaunchSt := .waiting
  ctx : Ctx := {}
  /-- the host queue, or 16 + die for a device queue -/
  queue : Nat := 0
  /-- its place among the launches taken, then among those started (R320, R326) -/
  order : Nat := 0
  parent : Option Nat := none
  nest : Nat := 0
  kvals : List DWord := []
  nodes : List (List Byte) := []
  chipBase : Nat := 0
  /-- next block of a plain launch, blocks placed and completed -/
  nextBid : Nat := 0
  placed : Nat := 0
  /-- blocks that are complete (R327), and those whose DONE event is behind them -/
  ended : Nat := 0
  done : Nat := 0
  /-- clusters waiting to be placed again after pre-emption, front first -/
  back : List Nat := []
  code : Nat := 0
  reason : Nat := 0
  evlost : Bool := false
  poolSize : Nat := 0
  charge : Nat := 0
  poolWait : List PoolWait := []
  poolCount : Nat := 0
  poolPosted : Bool := false
  failures : Nat := 0
  records : Tab Record := []
  /-- deques by 64 × Clearing House + node, top first -/
  deques : Tab (List Nat) := []
  nextSeed : Nat := 0
  lastDie : Nat := 8
  /-- launchers in READY by 64 × Clearing House + node: the cycle of die 0 from which, and whether by a full batch (R336) -/
  ready : Tab (Nat × Ready) := []
  /-- cycle of die 0 in which it started (R326), and by die the cycles in which its next block lacked tile entries only
  (R169) -/
  startAt : Nat := 0
  tileWait : Tab Nat := []
  gbars : Tab Barrier := []
  /-- samples of the last 16 cycles, newest first -/
  past : List QSample := []
  /-- the fault entry that the dispatcher's access for the launch waits on, and whether it stays unresolved (R323) -/
  fault : Option (Nat × Nat) := none
  bad : Bool := false
  deriving DecidableEq, Repr

/-- A resident or pre-empted cluster (R23). -/
structure Cluster where
  launch : Nat := 0
  clid : Nat := 0
  /-- 12 × die + core cluster -/
  house : Nat := 0
  blocks : List Nat := []
  bars : Tab Barrier := []
  /-- cluster barriers in hardware; the rest are virtual (R215) -/
  hw : Nat := 0
  /-- pre-emption has begun; its image is saved (R371, R372) -/
  saving : Bool := false
  saved : Bool := false
  /-- cycle of die 0 in which it was saved (R326) -/
  savedAt : Nat := 0
  /-- its place among the clusters placed (R326) -/
  placedAt : Nat := 0
  /-- commands of a saved image: copy-engine commands with their progress, and queued epilogue commands (R372) -/
  cmds : List EngCmd := []
  epis : List EpiCmd := []
  deriving DecidableEq, Repr

/-! ## Units of a die and of the module -/

/-- Occurrences of an event in the current cycle: its code, instance, the blocks it belongs to (none for an event that
belongs to no block), and how many (R306, R307). -/
structure Tally where
  ev : Nat
  inst : Option Nat
  blks : List Nat
  n : Nat
  deriving DecidableEq, Repr

/-- A counter (R305, R306). -/
structure Counter where
  cfg : Word := 0
  val : DWord := 0
  /-- resident-block index of the block that configured it -/
  owner : Nat := 0
  /-- die cycle plus one of the last configuration, and the value before that cycle's (R309) -/
  stamp : Nat := 0
  was : DWord := 0
  /-- the values of a die counter in the last 16 cycles, newest first (R309) -/
  past : List DWord := []
  deriving DecidableEq, Repr

/-- A pair of quads that the Mint reserves: 0 for quads 0-1, 1 for quads 2-3, and the group that it is kept for (R31). -/
structure PairHold where
  pair : Nat
  blk : Nat
  base : DWord
  index : BitVec 4
  hdr : DWord
  cohort : Option (Nat × Nat)
  deriving DecidableEq, Repr

/-- One core. -/
structure Core where
  l1 : Tab L1Line := []
  /-- lines with an ADDX partial, oldest first (R245) -/
  mbuf : List Nat := []
  fifo : List Entry := []
  loads : List Load := []
  /-- lines that PREF brings nearer (R227) -/
  prefs : List Load := []
  upds : List Update := []
  ctrs : Tab Counter := []
  /-- events of the current cycle, counted at its end (R309) -/
  evs : List Tally := []
  lock : BitVec 8 := 0
  /-- threads, by block, that have exited in the current cycle and have not left their barriers yet (R209) -/
  exits : List (Nat × Nat) := []
  engq : List EngCmd := []
  /-- die cycle up to which the copy engine's bytes so far take its 128 bytes per cycle (R285) -/
  engBusy : Nat := 0
  mq : List OctetOp := []
  pass : Option Pass := none
  passEnd : Nat := 0
  epiq : List EpiCmd := []
  /-- the pair the Mint has reserved, and for which group (R31) -/
  resv : Option PairHold := none
  deriving DecidableEq, Repr

/-- An open supervisor entry (R367, R368). -/
structure SupEntry where
  token : Nat
  kind : Nat
  launch : Nat := 0
  bid : Nat := 0xFFFFFFFF
  blk : Option Nat := none
  tids : List Nat := []
  slice : Nat := 0
  vpage : Nat := 0
  deriving DecidableEq, Repr

/-- One die (R377 and the units of chapters 14, 16, 17, 20, 21). -/
structure Die where
  cycle : Nat := 0
  acc : Nat := 0
  pnow : BitVec 16 := 0
  pclk : BitVec 16 := 1050
  sqbase : DWord := 0
  sqsize : Word := 0
  sqtail : Word := 0
  sqhead : Word := 0
  sqirq : BitVec 3 := 0
  wdlog : BitVec 6 := 26
  cmderr : Bool := false
  cmdw : Tab Word := []
  entries : List SupEntry := []
  /-- 64-byte entries that wait for room in the ring, oldest first, each with the cycle in which its unit posts it again -/
  posts : List (Nat × List Byte) := []
  /-- TSC and source number of the last entry that was posted (R304) -/
  postTsc : DWord := 0
  postSrc : Nat := 0
  ctrs : Tab Counter := []
  /-- events of the current cycle, counted at its end (R309) -/
  evs : List Tally := []
  cntlock : Word := 0
  sdva : DWord := 0
  sdcnt : Word := 0
  sdcid : BitVec 16 := 0
  sdgo : Bool := false
  /-- accesses issued when the purge began (R355) -/
  sdmark : Nat := 0
  pelaunch : Word := 0
  pebid : Word := 0
  pego : Option Nat := none
  deriving DecidableEq, Repr

/-- The caches and shared units of one die. -/
structure DieMem where
  lines : Tab L2Line := []
  wb : List WbEntry := []
  tlb : List Tlb := []
  faults : List FaultEntry := []
  locks : List RangeLock := []
  gathq : List EngCmd := []
  devq : List (List Byte × Nat × Nat) := []
  /-- chip scratchpad by physical offset -/
  chip : Mem := []
  deriving DecidableEq, Repr

/-- Link registers of a die (R377). -/
structure DieLinks where
  cxlrole : BitVec 2 := 0
  cxlup : Bool := false
  peer : Tab (BitVec 6) := []
  wen : Tab Bool := []
  wup : Tab Bool := []
  deriving DecidableEq, Repr

/-- One HBM stack's control block and home (R250, R269, R314). -/
structure Stack where
  hmask : BitVec 24 := 0xFFFFC0
  werr : Bool := false
  qack : Bool := false
  qreq : Bool := false
  homes : Tab Home := []
  /-- lines that have entered W or U so far (R250) -/
  entered : Nat := 0
  log : List Note := []
  deriving DecidableEq, Repr

/-- A host launch queue (R319, R349). -/
structure HostQueue where
  qbase : DWord := 0
  qsize : Word := 0
  qtail : Word := 0
  qhead : Word := 0
  qdis : Bool := false
  root : BitVec 52 := 0
  xen : Bool := false
  cid : BitVec 16 := 0
  /-- the fault entry that the read of the next card waits on, and whether it stays unresolved (R323) -/
  fault : Option (Nat × Nat) := none
  bad : Bool := false
  deriving DecidableEq, Repr

/-- How far the boot chain has come (R382). -/
inductive Boot where
  | rom | loader | supervisor | stopped
  deriving DecidableEq, Repr

/-- A store of a host core that is not performed yet (R275). -/
structure HostStore where
  hart : Nat
  pa : Nat
  size : Nat
  val : Nat
  deriving DecidableEq, Repr

/-- Registers of the module block (R376) and of the boot chain (R382). -/
structure Module where
  featsel : BitVec 128 := 0x1FFF
  feath : Tab Word := []
  merr : Bool := false
  devnum : BitVec 6 := 0
  plim : BitVec 13 := 6800
  route : Tab (BitVec 12) := []
  queues : Tab HostQueue := []
  hplace : DWord := 0
  boot : Boot := .rom
  meas : Tab (BitVec 512) := []
  launchCtr : Nat := 0
  /-- lines that host cores hold reserved by LR, by hart (R275) -/
  hostResv : Tab Nat := []
  /-- stores of host cores that are not performed yet, oldest first (R275) -/
  hostBuf : List HostStore := []
  /-- harts that wait at a FENCE for their earlier stores (R275) -/
  hostFence : List Nat := []
  /-- firmware-update packets that the boot flash has taken, oldest first (R381) -/
  flash : List (List Byte) := []
  /-- launches taken and started, clusters placed, and blocks and clusters named so far -/
  orders : Nat := 0
  uids : Nat := 0
  /-- by priority, the launch that was served last (R326) -/
  turn : Tab Nat := []
  deriving DecidableEq, Repr

end Sys2Proof.Machine
end

