-- ==== Sys2Proof/Machine/State.lean ====
section
/-! DEFINITION. The state of the module, the reasons a step can stop, and the state after reset. -/

namespace Sys2Proof.Machine

/-- What a timed job writes or ends when its cycle comes. -/
inductive JobKind where
  /-- results of a variable-latency instruction in one thread (R47, R112): registers, predicates and the slot -/
  | result (blk tid : Nat) (regs : List (Nat × Word)) (preds : List (Nat × Bool)) (sb : Option Nat)
  /-- a window or chip-scratchpad store (R166) -/
  | windowAck (blk tid : Nat) (dst : Spad) (bytes : List Byte) (addr : Nat) (base : DWord) (index : BitVec 4) (word : DWord)
      (kills : List Nat)
  | fillEnd (blk tile : Nat) (tids : List Nat) (dest : Nat) (sb : Option Nat)
  | scanEnd (blk tile : Nat) (tids : List Nat) (dest : Nat) (sb : Option Nat)
  /-- a WRQ of one thread (R238-R241), and the fault-table entry it is attached to with the place in WRQSTAT -/
  | wrq (blk tid : Nat) (dest : Nat) (data : List Byte) (addr hdr seq : Nat) (sys : Bool) (sb : Option Nat)
      (fault : Option (Nat × Nat × Nat))
  /-- an asynchronous copy (R293); `fault` is the fault-table entry it is attached to, `bad` that it stays unresolved -/
  | acp (blk tid tag sp ga n seq : Nat) (fault : Option (Nat × Nat)) (bad : Bool)
  deriving DecidableEq, Repr

/-- A job and the die cycle in which it is due. -/
structure Job where
  die : Nat
  due : Nat
  kind : JobKind
  deriving DecidableEq, Repr

/-- What a bundle's fetch at the cycle's start has brought: nothing was fetched, the word, or why there is none. -/
inductive Early where
  | none
  | word (w : DWord)
  | failed (f : XRes)
  deriving DecidableEq, Repr

/-- One item of the current cycle's work: a bundle's next instruction, or an event. -/
inductive Work where
  /-- with what the bundle's fetch has brought at the cycle's start -/
  | issue (bundle : Nat) (early : Early)
  /-- the rest of the work is put in order again, with the registers and predicates that have landed in the cycle (R171,
  R174) -/
  | order
  /-- the threads that have exited in this cycle on a core leave their barriers, in ascending index (R209, R210) -/
  | exits (core : Nat)
  /-- a kept arrival of a block is applied, if it may be (R209, R214) -/
  | arrive (blk id : Nat)
  /-- confirmations of a core that are done (R340, R345) -/
  | confirms (core : Nat)
  /-- the launchers of a graph launch, as they stand after the cycle's commits (R340) -/
  | clearing (launch : Nat)
  /-- the thieves of every graph launch, after the cycle's launches (R340) -/
  | thieves
  /-- stores that a host core keeps are performed (R275) -/
  | drain (hart : Nat)
  /-- the end of the cycle on a core: joins, claims and shared quads are settled (R94, R137, R28) -/
  | settle (core : Nat)
  | ev (i : Instr)
  deriving DecidableEq, Repr

/-- What leaves the module: link and management traffic, interrupts. -/
inductive Out where
  /-- request 0 RdShared, 1 RdOwn, 2 CleanEvict, 3 DirtyEvict, 4 BISnpData, 5 BISnpInv, 6 data for a snoop or access,
  16 + the operator's code an atomic that the host performs -/
  | cxl (port line half : Nat) (req : Nat) (data : Option (BitVec 512))
  /-- port, source and destination device, address, kind (0 read, 1 write, 3 reply, 4 invalidation, 16 + the operator's code
  an atomic) and bytes -/
  | wofort (port src device addr kind : Nat) (data : LineBytes)
  | mctp (kind : Nat) (body : List Byte)
  /-- a die's supervisor queue raises or drops its interrupt of a hart -/
  | irq (die hart : Nat) (up : Bool)
  /-- the value that a host core's load, AMO, LR or SC receives -/
  | host (hart : Nat) (value : DWord)
  deriving DecidableEq, Repr

/-- The machine. The fields `work`, `cur`, `jobs`, `draws`, `seq` and `sched` are the model's own (log 2, 3). -/
structure State where
  cycle : Nat := 0
  tsc : DWord := 0
  tscAcc : Nat := 0
  work : List Work := []
  cur : Option Nat := none
  jobs : Tab Job := []
  draws : Nat := 0
  /-- accesses to global memory issued so far -/
  seq : Nat := 0
  sched : Nat := 0
  dies : Tab Die := []
  dmem : Tab DieMem := []
  links : Tab DieLinks := []
  cores : Tab Core := []
  hbm : Tab Stack := []
  mod : Module := {}
  launches : Tab Launch := []
  clusters : Tab Cluster := []
  blocks : Tab Block := []
  bundles : Tab Bundle := []
  hostLines : Tab HostLine := []
  msgs : List Msg := []
  /-- requests out at hosts and linked devices, oldest first -/
  away : List Away := []
  mem : Mem := []
  /-- older values of written doublewords, with how many launches had started when they were replaced: a fetch of a launch
  that had started by then may still return them (R51, log 7) -/
  stale : List (Nat × Nat × DWord) := []
  out : List Out := []
  deriving DecidableEq, Repr

/-- Why the machine stops. No meaning of the model uses a fault: every behaviour the manual describes continues. -/
inductive Fault where
  /-- raised by nobody; the type must not be empty for its users' sake; safe -/
  | unused
  deriving DecidableEq, Repr

/-- Why an instruction has no meaning. -/
inductive Refusal where
  /-- raised by the dispatcher for an instruction whose meaning is not written; safe -/
  | notModelled (mnemonic : String)
  deriving DecidableEq, Repr

/-- The module right after reset: every register at the value the manual gives (R6 and the reset columns). Dies,
cores, stacks and queues that have no entry are at the defaults of their structures, which are their reset values. -/
def State.reset : State := {}

end Sys2Proof.Machine
end

