-- ==== Sys2Proof/Machine/Access.lean ====
section
/-! DEFINITION. Reading and changing the pieces of State: one home for every register (R79, R82). -/

namespace Sys2Proof.Machine

def State.die (s : State) (d : Nat) : Die := tgetD s.dies d {}
def State.dm (s : State) (d : Nat) : DieMem := tgetD s.dmem d {}
def State.link (s : State) (d : Nat) : DieLinks := tgetD s.links d {}
def State.core (s : State) (c : Nat) : Core := tgetD s.cores c {}
def State.stack (s : State) (k : Nat) : Stack := tgetD s.hbm k {}
def State.block (s : State) (u : Nat) : Block := tgetD s.blocks u {}
def State.launch (s : State) (l : Nat) : Launch := tgetD s.launches l {}
def State.thread (s : State) (u t : Nat) : Thread := tgetD (s.block u).threads t {}

def State.setDie (s : State) (d : Nat) (f : Die → Die) : State := { s with dies := tset s.dies d (f (s.die d)) }
def State.setDm (s : State) (d : Nat) (f : DieMem → DieMem) : State := { s with dmem := tset s.dmem d (f (s.dm d)) }
def State.setLink (s : State) (d : Nat) (f : DieLinks → DieLinks) : State :=
  { s with links := tset s.links d (f (s.link d)) }
def State.setCore (s : State) (c : Nat) (f : Core → Core) : State := { s with cores := tset s.cores c (f (s.core c)) }
def State.setStack (s : State) (k : Nat) (f : Stack → Stack) : State := { s with hbm := tset s.hbm k (f (s.stack k)) }
def State.setBlock (s : State) (u : Nat) (f : Block → Block) : State := { s with blocks := tmod s.blocks u f }
def State.setLaunch (s : State) (l : Nat) (f : Launch → Launch) : State := { s with launches := tmod s.launches l f }
def State.setCluster (s : State) (c : Nat) (f : Cluster → Cluster) : State := { s with clusters := tmod s.clusters c f }
def State.setRun (s : State) (u : Nat) (f : BlockRun → BlockRun) : State :=
  s.setBlock u fun b => { b with run := f b.run }
def Block.setThread (b : Block) (t : Nat) (f : Thread → Thread) : Block := { b with threads := tmod b.threads t f }
def State.setThread (s : State) (u t : Nat) (f : Thread → Thread) : State := s.setBlock u fun b => b.setThread t f
def State.setBundle (s : State) (b : Nat) (f : Bundle → Bundle) : State := { s with bundles := tmod s.bundles b f }

/-- Die of a core, and of a core cluster (R14). -/
def dieOf (core : Nat) : Nat := core / 96
/-- The current cycle of a die (R5). -/
def State.now (s : State) (d : Nat) : Nat := (s.die d).cycle
/-- The current cycle at a block's core. -/
def State.nowB (s : State) (u : Nat) : Nat := s.now (dieOf (s.block u).core)
/-- A die's reading of the TSC: it differs from the common one by at most 2 ticks (R17, R303, log 5). -/
def State.tscAt (s : State) (d : Nat) : DWord := s.tsc + BitVec.ofNat 64 (Config.tscSkew d % 3)
/-- One free number, and the state that has drawn it (log 2). -/
def State.drawn (s : State) : State := { s with draws := s.draws + 1 }

/-- One of a list by the free number `n`. -/
def pick {α : Type} (l : List α) (n : Nat) : Option α := l[Config.choice n % l.length]?

/-! ## Registers -/

/-- The value every dead register reads (R80). -/
def poison : Word := 0x7FFFFFFF

/-- Read of a vector register: v255 reads 0, a dead register poison (R79, R80). -/
def Thread.rd (t : Thread) (r : Nat) : Word := if r = 255 then 0 else (tget t.live r).getD poison
/-- Read of a pair (R4, R79). -/
def Thread.rd64 (t : Thread) (r : Nat) : DWord := pairVal (t.rd r) (t.rd (r + 1))
/-- Write of a vector register: v255 discards, any other becomes live (R79, R80). -/
def Thread.wr (t : Thread) (r : Nat) (v : Word) : Thread :=
  if r = 255 then t else { t with live := tset t.live r v }
/-- A register becomes dead (R80). -/
def Thread.kill (t : Thread) (r : Nat) : Thread := if r = 255 then t else { t with live := tdel t.live r }
/-- Read of a predicate: p7 is true (R82). -/
def Thread.rdP (t : Thread) (p : Nat) : Bool := if p < 7 then t.preds.getLsbD p else true
/-- Write of a predicate p0-p6. -/
def Thread.wrP (t : Thread) (p : Nat) (v : Bool) : Thread :=
  if p < 7 then
    { t with preds := (t.preds &&& ~~~(BitVec.ofNat 7 (2 ^ p))) ||| (if v then BitVec.ofNat 7 (2 ^ p) else 0) }
  else t
/-- The guard (R52). -/
def Thread.guard (t : Thread) (g : Guard) : Bool := t.rdP g.pg.toNat != g.pn

def Thread.wrs (t : Thread) (l : List (Nat × Word)) : Thread := l.foldl (fun t e => t.wr e.1 e.2) t
def Thread.wrPs (t : Thread) (l : List (Nat × Bool)) : Thread := l.foldl (fun t e => t.wrP e.1 e.2) t
def Thread.kills (t : Thread) (l : List Nat) : Thread := l.foldl (fun t r => t.kill r) t

/-- The two register writes of a 64-bit result. -/
def pairW (r : Nat) (v : DWord) : List (Nat × Word) := [(r, loHalf v), (r + 1, hiHalf v)]
/-- The one or two register writes of a result of width 32 or 64. -/
def resW (wide : Bool) (r : Nat) (v : Nat) : List (Nat × Word) :=
  if wide then pairW r (BitVec.ofNat 64 v) else [(r, BitVec.ofNat 32 v)]
/-- A register or a pair as a number. -/
def Thread.rdN (t : Thread) (wide : Bool) (r : Nat) : Nat := if wide then (t.rd64 r).toNat else (t.rd r).toNat
/-- A run of registers. -/
def Thread.run (t : Thread) (r n : Nat) : List Word := (List.range n).map fun i => t.rd (r + i)

/-! ## Identity (R21, R22) -/

def Block.cohort (b : Block) (t : Nat) : Nat := t / b.cfg.w
def Block.cohPos (b : Block) (t : Nat) : Nat := t % b.cfg.w
def Block.role (b : Block) (t : Nat) : Nat :=
  b2n (decide (b.cfg.b1 ≤ t)) + b2n (decide (b.cfg.b2 ≤ t)) + b2n (decide (b.cfg.b3 ≤ t))
def Thread.exited (t : Thread) : Bool := t.st == .exited
/-- Live members of a cohort as thread indices, rising (R21). -/
def Block.liveCohort (b : Block) (c : Nat) : List Nat :=
  (List.range b.cfg.w).filterMap fun p =>
    let t := c * b.cfg.w + p
    match tget b.threads t with
    | some th => if th.exited then none else some t
    | none => none
/-- The mask of live positions of a cohort. -/
def Block.liveMask (b : Block) (c : Nat) : Nat := maskOf ((b.liveCohort c).map b.cohPos)

/-- Read of a block-scope register: a write of the same cycle is not seen (R83, R112). -/
def KReg.read (r : KReg) (now : Nat) : DWord := if r.cycle = now + 1 then r.old else r.val
/-- Write of a block-scope register: in one cycle the highest thread index stands (R83). -/
def KReg.write (r : KReg) (now tid : Nat) (v : DWord) : KReg :=
  if r.cycle = now + 1 then (if tid < r.tid then r else { r with val := v, tid := tid })
  else { val := v, old := r.val, cycle := now + 1, tid := tid }
/-- An update by the device on top of the writes of its cycle (R301). -/
def KReg.upd (r : KReg) (now : Nat) (f : DWord → DWord) : KReg :=
  if r.cycle = now + 1 then { r with val := f r.val } else { val := f r.val, old := r.val, cycle := now + 1 }

/-- A format entry of the block: f0-f7 preset, f8-f15 programmable (R98). -/
def Block.fmt (b : Block) (now i : Nat) : Word :=
  if i < 8 then presetFmt i else ((tgetD b.fmts i {}).read now).setWidth 32

/-- The slot of scoreboard that a header names for its results (R41). -/
def hdrSetSb (h : DWord) : Option Nat := let v := (fld h 45 3).toNat; if v < 6 then some v else none
def hdrClass (h : DWord) : Nat := (fld h 60 4).toNat
def hdrCount (h : DWord) : Nat := (fld h 56 4).toNat
def hdrGather (h : DWord) : Nat := (fld h 54 2).toNat
def hdrWait (h : DWord) : Nat := (fld h 48 6).toNat
def hdrStall (h : DWord) : Nat := (fld h 40 5).toNat
def hdrYield (h : DWord) : Bool := h.getLsbD 39

/-- The fall-through position of a clause (R42). -/
def fallThrough (base h : DWord) : DWord := base + BitVec.ofNat 64 (8 * (hdrCount h + 2))

/-- Make a thread READY from the cycle after `now` (R26). -/
def Thread.wake (t : Thread) (now : Nat) : Thread :=
  { t with st := .ready, since := now + 1, hdr := none, aged := false }
/-- A thread leaves READY or ISSUING and waits (R26, R27). -/
def Thread.await (t : Thread) (w : Wait) : Thread := { t with st := .waiting w, aged := false }

/-- The threads of a block change; the release of a wait among them returns the watchdog count to 0 (R370). -/
def Block.wakes (b : Block) (f : Nat → Thread → Thread) : Block :=
  { b with threads := b.threads.map fun (i, t) => (i, f i t),
           run := if b.threads.any fun (i, t) => t.st != .ready && (f i t).st == .ready then { b.run with wdog := 0 } else b.run }
/-- One thread's wait is released (R370). -/
def State.wakeThread (s : State) (u t : Nat) (f : Thread → Thread) : State :=
  s.setBlock u fun b => b.wakes fun i x => if i = t then f x else x
/-- An engine, epilogue or ACP command of a block writes a byte (R370). -/
def State.progress (s : State) (u : Nat) : State := s.setRun u fun r => { r with wdog := 0 }

/-- Jobs: add one with a due cycle. -/
def State.addJob (s : State) (d due : Nat) (k : JobKind) : State :=
  { s with jobs := tset s.jobs (tfresh s.jobs) ⟨d, due, k⟩ }

end Sys2Proof.Machine
end

