-- ==== Sys2Proof/Machine/Events.lean ====
section
/-! DEFINITION. The event counters and what they count (R305-R307). -/

namespace Sys2Proof.Machine

/-- Whether a counter counts an event of an instance, belonging to a resident block or to none (R306, R307). -/
def Counter.counts (c : Counter) (e : Tally) : Bool :=
  c.cfg.getLsbD 8 && (fld c.cfg 0 8).toNat == e.ev &&
    ((fld c.cfg 12 4).toNat == 0 || ((fld c.cfg 12 4).toNat == 1 && e.inst == some (fld c.cfg 16 8).toNat)) &&
    ((fld c.cfg 10 2).toNat != 1 || e.blks == [] || e.blks.contains c.owner)

/-- The occurrences of a cycle at one counter. -/
def Counter.add (c : Counter) (l : List Tally) : Counter :=
  { c with val := c.val + BitVec.ofNat 64 ((l.filter c.counts).map (·.n)).sum }

/-- `n` occurrences of a core event that belongs to some blocks or to none (R306, R307): counted when the cycle ends, so
that a configuration of the same cycle applies first and a read of the cycle does not see them (R309). -/
def State.tickFor (s : State) (core ev : Nat) (inst : Option Nat) (blks : List Nat) (n : Nat) : State :=
  if n = 0 then s else s.setCore core fun c => { c with evs := ⟨ev, inst, blks, n⟩ :: c.evs }
def State.tick (s : State) (core ev : Nat) (inst blk : Option Nat) (n : Nat) : State :=
  s.tickFor core ev inst blk.toList n

/-- `n` occurrences of a die event. -/
def State.tickDie (s : State) (d ev : Nat) (inst : Option Nat) (n : Nat) : State :=
  if n = 0 then s else s.setDie d fun x => { x with evs := ⟨ev, inst, [], n⟩ :: x.evs }

/-- The counters of a core, and of a die, take the events of the cycle that ends (R309). -/
def Core.tallied (c : Core) : Core :=
  if c.evs = [] then c else { c with ctrs := c.ctrs.map fun (k, x) => (k, x.add c.evs), evs := [] }
def Die.tallied (d : Die) : Die :=
  if d.evs = [] then d else { d with ctrs := d.ctrs.map fun (k, x) => (k, x.add d.evs), evs := [] }

/-- Size bucket of a formed bundle (R307, event 0x03). -/
def sizeBucket (n : Nat) : Nat :=
  if n ≤ 1 then 0 else if n ≤ 4 then 1 else if n ≤ 8 then 2 else if n ≤ 16 then 3 else if n ≤ 24 then 4
  else if n ≤ 32 then 5 else if n ≤ 48 then 6 else 7

end Sys2Proof.Machine
end

