-- ==== Sys2Proof/Machine/Lines.lean ====
section
/-! DEFINITION. Elements, operators and partials (R229-R232, R245, R255), and bytes of lines. -/

namespace Sys2Proof.Machine

/-- The value an operator gives from the old value and the operand, at `sz` bytes (R229, R231); CAS and EXCH included,
`c` being the value CAS swaps in. -/
def opVal (op : Oper) (sz : Nat) (old b c : Nat) : Nat :=
  let w := 8 * sz
  let sl (x y : Nat) : Bool := decide (sextN w x < sextN w y)
  match op with
  | .add => (old + b) % 2 ^ w
  | .addF32 => fAdd f32 .rne old b
  | .addF16x2 => fAdd f16 .rne (old % 65536) (b % 65536) + 65536 * fAdd f16 .rne (old / 65536) (b / 65536)
  | .addx => old
  | .minS => if sl b old then b else old
  | .minN => if b < old then b else old
  | .minF => fMinMax f32 false old b
  | .maxS => if sl old b then b else old
  | .maxN => if old < b then b else old
  | .maxF => fMinMax f32 true old b
  | .and => old &&& b
  | .or => old ||| b
  | .xor => old ^^^ b
  | .exch => b
  | .cas => if old = b then c else old

/-- The identity of a fresh partial (R230). -/
def identOf (op : Oper) (sz : Nat) : Nat :=
  let w := 8 * sz
  match op with
  | .addF32 => 0x80000000
  | .addF16x2 => 0x80008000
  | .minS => 2 ^ (w - 1) - 1
  | .maxS => 2 ^ (w - 1)
  | .minN => 2 ^ w - 1
  | .minF => 0x7FC00000
  | .maxF => 0x7FC00000
  | .and => 2 ^ w - 1
  | _ => 0

def Tag.size (t : Tag) : Nat := if t.wide then 8 else 4
/-- Signed window exponent of an ADDX tag (R232). -/
def Tag.e (t : Tag) : Int := t.win.toInt

/-- Saturating addition of ADDX sums (R232). -/
def addxSum (a b : Int) (sat : Bool) : Int × Bool :=
  let s := a + b
  let m : Int := 2 ^ 127 - 1
  if s < -m then (-m, true) else if m < s then (m, true) else (s, sat)

/-- The contribution of a binary32 to an ADDX partial (R232). -/
def addxOf (e : Int) (x : Nat) : Elt :=
  match f32.value x with
  | .nan => .addx 0 false true false false
  | .inf neg => .addx 0 false false (!neg) neg
  | .fin neg m ex =>
    let k := ex + 64 - e
    let mag := if 0 ≤ k then m * 2 ^ k.toNat else m / 2 ^ (-k).toNat
    let big := decide (2 ^ 95 ≤ mag)
    let q : Int := if big then 2 ^ 95 - 1 else mag
    .addx (if neg then -q else q) big false false false

/-- Two partials of one element merged, the first as left operand (R255). -/
def eltMerge (t : Tag) : Elt → Elt → Elt
  | .val a, .val b => .val (opVal t.op t.size a b 0)
  | .addx a s1 n1 p1 i1, .addx b s2 n2 p2 i2 =>
    let (v, s) := addxSum a b (s1 || s2)
    .addx v s (n1 || n2) (p1 || p2) (i1 || i2)
  | a, _ => a

/-- A contribution combined into a partial of its element; a fresh partial starts at the identity (R230, R245). -/
def eltAdd (t : Tag) (old : Option Elt) (x : Nat) : Elt :=
  if t.op = .addx then eltMerge t (old.getD (.addx 0 false false false false)) (addxOf t.e x)
  else eltMerge t (old.getD (.val (identOf t.op t.size))) (.val x)

/-- The read rule of R232 for the sum of an ADDX element. -/
def eltOut (t : Tag) : Elt → Nat
  | .addx v sat nan pi ni =>
    if nan || sat || (pi && ni) then 0x7FC00000
    else if pi then 0x7F800000
    else if ni then 0xFF800000
    else if v = 0 then 0
    else f32.result .rne (.fin (decide (v < 0)) v.natAbs (t.e - 64))
  | .val x => x

/-- The read rule of a merged element over the memory value x₀ (R231, R232). -/
def eltRead (t : Tag) (x0 : Nat) : Elt → Nat
  | .val p => opVal t.op t.size x0 p 0
  | .addx a s n p i => eltOut t (eltMerge t (addxOf t.e x0) (.addx a s n p i))

/-- Partials of a line merged element by element; touched bits are OR-ed (R245). -/
def partMerge (t : Tag) (a b : Partial) : Partial :=
  b.foldl (fun r e => tset r e.1 (match tget r e.1 with
    | some x => eltMerge t x e.2
    | none => e.2)) a

/-! ## Bytes of lines -/

/-- Overlay: bytes of `b` over `a`. -/
def lineOver (a b : LineBytes) : LineBytes := b.foldl (fun r e => tset r e.1 e.2) a

/-- All 128 bytes of memory from the location `k`. -/
def memLine (m : Mem) (k : Nat) : LineBytes := (List.range 128).map fun i => (i, mget m (k + i))

/-- Write line bytes at location `k`. -/
def memPutLine (m : Mem) (k : Nat) (b : LineBytes) : Mem := b.foldl (fun r e => mset r (k + e.1) e.2) m

/-- The little-endian value of `n` bytes of a line from offset `o`, absent bytes 0. -/
def lineVal (b : LineBytes) (o n : Nat) : Nat := leVal ((List.range n).map fun i => tgetD b (o + i) 0)

/-- Whether a line holds the `n` bytes from offset `o`. -/
def lineHas (b : LineBytes) (o n : Nat) : Bool := (List.range n).all fun i => (tget b (o + i)).isSome

/-- A value as line bytes from offset `o`. -/
def lineOf (o n v : Nat) : LineBytes := (leBytes n v).mapIdx fun i x => (o + i, x)

/-- A list of bytes as line bytes from offset `o`. -/
def lineOfBytes (o : Nat) (l : List Byte) : LineBytes := l.mapIdx fun i x => (o + i, x)

/-- Merged partials written over a line's bytes: only touched elements change (R255). -/
def lineMerge (t : Tag) (data : LineBytes) (p : Partial) : LineBytes :=
  p.foldl (fun r e => lineOver r (lineOf (e.1 * t.size) t.size (eltRead t (lineVal r (e.1 * t.size) t.size) e.2))) data

/-- Merge of the dies' partials of a line over the memory value, dies in ascending order (R255): an ADDX sum starts at x₀
and is read once, every other tag folds over the memory value. -/
def mergeParts (t : Tag) (x : LineBytes) (ps : List Partial) : LineBytes :=
  if t.op = .addx then
    (dedupN (ps.flatMap fun p => p.map (·.1))).foldl (fun r k =>
      let sum := (ps.filterMap fun p => tget p k).foldl (eltMerge t) (addxOf t.e (lineVal x (k * t.size) t.size))
      lineOver r (lineOf (k * t.size) t.size (eltOut t sum))) x
  else ps.foldl (lineMerge t) x

/-! ## Read-modify-writes on a line (R229, R233) -/

/-- The value that one operation leaves. A contribution under ADDX performed as an atomic rounds the stored value once
(R233). -/
def AtomOp.new (o : AtomOp) (old : Nat) : Nat :=
  let t : Tag := { op := o.op, wide := o.size == 8, win := o.win }
  if o.op = .addx then eltRead t old (eltAdd t none o.opnd) else opVal o.op o.size old o.opnd o.cmp

/-- One read-modify-write on a line's bytes: the bytes, and the operation with what it found (R229). -/
def AtomOp.run (o : AtomOp) (b : LineBytes) : LineBytes × AtomOp :=
  let old := lineVal b o.off o.size
  (lineOver b (lineOf o.off o.size (o.new old)), { o with old := old })

/-- Several, one after another. -/
def atomsRun (ops : List AtomOp) (b : LineBytes) : LineBytes × List AtomOp :=
  ops.foldl (fun (b, r) o => let (b, o) := o.run b; (b, r ++ [o])) (b, [])

/-- The bytes that operations write. -/
def atomsBytes (ops : List AtomOp) (b : LineBytes) : LineBytes :=
  b.filter fun e => ops.any fun o => decide (o.off ≤ e.1) && decide (e.1 < o.off + o.size)

/-- What a request for one atomic at another home bears: the operand in bytes 0-7, the value to compare with in bytes
8-15, the width in byte 16, an ADDX window in byte 17, and in byte 18 the element's offset in its 64-byte half (log 20). -/
def AtomOp.flit (o : AtomOp) : LineBytes :=
  lineOf 0 8 o.opnd ++ lineOf 8 8 o.cmp ++ lineOf 16 1 (b2n (o.size == 8)) ++ lineOf 17 1 o.win.toNat ++
    lineOf 18 1 (o.off % 64)

/-- Contributions as atomics without return (R233). -/
def redOps (t : Tag) (ops : List (Nat × Nat × Nat)) : List AtomOp :=
  ops.map fun o => { tid := o.1, off := o.2.1 * t.size, op := t.op, size := t.size, opnd := o.2.2, win := t.win }

/-! ## Compression (R249) -/

/-- Whether the line's words of `w` bytes are a base and signed deltas of `k` bits; the base is the first word (log 77). -/
def deltaCoded (w k : Nat) (b : LineBytes) : Bool :=
  let m := 2 ^ (8 * w)
  let base := lineVal b 0 w
  (List.range (128 / w)).all fun i =>
    let d := (lineVal b (w * i) w + m - base) % m
    decide (d < 2 ^ (k - 1)) || decide (m - 2 ^ (k - 1) ≤ d)

/-- 64-byte sectors of a line's bytes under the codings of R249; a host line of which one half is held takes that half's. -/
def lineSectors (b : LineBytes) : Nat :=
  if b.all fun e => e.2 == 0 then 0
  else if b.length < 128 then 1
  else if deltaCoded 4 8 b || deltaCoded 8 16 b then 1
  else 2

/-- A 64-byte half as line bytes (R257). -/
def halfBytes (half : Nat) (d : BitVec 512) : LineBytes := lineOf (64 * half) 64 d.toNat

end Sys2Proof.Machine
end

