-- ==== Sys2Proof/Machine/Phys.lean ====
section
/-! DEFINITION. Physical space, placement of HBM, coherent views and recalls of lines (R246-R260, R311-R316, R348). -/

namespace Sys2Proof.Machine

/-- Regions of the physical space (R348). -/
inductive Region where
  | hbm | control | linked (dev off : Nat) | cxl (port : Nat) | undecoded
  deriving DecidableEq, Repr

/-- The region of a physical address (R348, R380). -/
def State.region (s : State) (pa : Nat) : Region :=
  if pa < 2 ^ 40 then .hbm
  else if pa < 2 ^ 41 then .control
  else if 2 ^ 46 ≤ pa ∧ pa < 2 ^ 46 + 64 * 2 ^ 40 then
    let d := (pa - 2 ^ 46) / 2 ^ 40
    if d = s.mod.devnum.toNat ∨ tgetD s.mod.route d 0 = 0 then .undecoded else .linked d (pa % 2 ^ 40)
  else if 2 ^ 48 ≤ pa ∧ pa < 2 ^ 48 + 4 * 2 ^ 46 then .cxl ((pa - 2 ^ 48) / 2 ^ 46)
  else .undecoded

/-- Stack and stack-local address of an HBM address (R312). -/
def placeOf (hplace : DWord) (pa : Nat) : Nat × Nat :=
  let g := pa / 2 ^ 34 % 64
  let o := pa % 2 ^ 34
  if hplace.getLsbD g then (o / 2 ^ 30 % 16, g * 2 ^ 30 + o % 2 ^ 30)
  else (o / 2 ^ 12 % 16, g * 2 ^ 30 + o / 2 ^ 16 * 2 ^ 12 + o % 2 ^ 12)

/-- The fold of the pseudo-channel hash (R313). -/
def foldOf (m : BitVec 24) (l : Nat) : Nat :=
  let g (i : Nat) := l / 2 ^ (13 + 6 * i) % 64
  let k (i : Nat) := (fld m (6 * i) 6).toNat
  ((g 0 &&& k 0) ^^^ (g 1 &&& k 1)) ^^^ ((g 2 &&& k 2) ^^^ (g 3 &&& k 3))

/-- Pseudo-channel of a stack-local address (R313). -/
def channelOf (m : BitVec 24) (l : Nat) : Nat := (l / 2 ^ 7 % 64) ^^^ foldOf m l

/-- The cell that holds a physical byte: the location of R313 for HBM, so that data stays put when HMASK or HPLACE
change (R316), and the address itself elsewhere. -/
def State.cell (s : State) (pa : Nat) : Nat :=
  if pa < 2 ^ 40 then
    let (k, l) := placeOf s.mod.hplace pa
    k * 2 ^ 36 + channelOf (s.stack k).hmask l * 2 ^ 30 + l / 2 ^ 13 % 2 ^ 23 * 2 ^ 7 + l % 2 ^ 7
  else pa

/-- The stack that homes a line (R250). -/
def State.stackOf (s : State) (line : Nat) : Nat := (placeOf s.mod.hplace (line * 128)).1
/-- The die that carries a stack (R12). -/
def stackDie (k : Nat) : Nat := if k < 8 then k / 2 else k / 2 + 1
def State.homeOf (s : State) (line : Nat) : Home := tgetD (s.stack (s.stackOf line)).homes line {}
def State.setHome (s : State) (line : Nat) (f : Home → Home) : State :=
  s.setStack (s.stackOf line) fun k => { k with homes := tset k.homes line (f (tgetD k.homes line {})) }
/-- The Wofort port that a request for a line of a device uses (R380). -/
def State.portOf (s : State) (d pa : Nat) : Nat :=
  let ps := onesOf 12 (tgetD s.mod.route d 0).toNat
  ps.getD (pa / 128 % max 1 ps.length) 0

/-- A flit of the module itself for a linked device (R380). -/
def State.flit (s : State) (d pa kind : Nat) (b : LineBytes) : Out :=
  .wofort (s.portOf d pa) s.mod.devnum.toNat d pa kind b

/-- Whether a line is homed in the module's HBM (R311). -/
def inHbm (line : Nat) : Bool := decide (line * 128 < 2 ^ 40)

/-- What memory holds of a line. -/
def State.memLine (s : State) (line : Nat) : LineBytes := Machine.memLine s.mem (s.cell (line * 128))

/-- Doublewords of a line that a write of these bytes touches. -/
def dwordsOf (b : LineBytes) : List Nat := dedupN (b.map fun e => e.1 / 8)

def State.l2 (s : State) (d line : Nat) : Option L2Line := tget (s.dm d).lines line
def State.setL2 (s : State) (d line : Nat) (l : L2Line) : State :=
  s.setDm d fun m => { m with lines := tset m.lines line l }
def State.delL2 (s : State) (d line : Nat) : State := s.setDm d fun m => { m with lines := tdel m.lines line }

/-- Whether a line takes a tag of its slice, and the sectors it takes: W and U lines, and a line with bytes that wait for a
grant, are never compressed (R247, R249, log 77). -/
def L2Line.held (l : L2Line) : Bool := l.st.isSome || l.loc != []
def L2Line.sectors (l : L2Line) : Nat :=
  match l.st with
  | some .W | some .U | none => 2
  | _ => if l.loc = [] then lineSectors l.data else 2

/-- Whether a die's copy is the newest: E, M or O (R247). -/
def L2Line.owns (l : L2Line) : Bool := l.st == some .E || l.st == some .M || l.st == some .O

/-- What a home outside the module holds of a line, as far as the module knows: nothing (log 2). -/
def State.remoteLine (s : State) (line : Nat) : LineBytes :=
  halfBytes 0 (Config.remoteHalf line s.draws) ++ halfBytes 1 (Config.remoteHalf line (s.draws + 1))

/-- The 96 cores of a die, in order. -/
def coresOf (d : Nat) : List Nat := (List.range 96).map (96 * d + ·)

/-- A die's partial of a line: the L2's, then those of its L1s in ascending core order (R255). -/
def State.diePart (s : State) (line d : Nat) : Partial :=
  match (s.l2 d line).bind (·.tag) with
  | some t => ((s.cores.filter fun e => dieOf e.1 == d).filterMap fun e => (tget e.2.l1 line).bind fun l =>
      if l.tag.isSome then some l.part else none).foldl (partMerge t) (((s.l2 d line).map (·.part)).getD [])
  | none => []

/-- The partials of the dies, each with what CCTL.PUB has brought home of it before (R237, R255). -/
def Home.allParts (h : Home) (t : Tag) (ps : Nat → Partial) : List Partial :=
  (List.range 9).map fun d => partMerge t (tgetD h.parts d []) (ps d)

/-- What a coherent read finds beyond memory: the owner's copy, in its L2 or its write-back buffer (R252), W partials
and merged U partials (R233), or the halves of a host line that dies hold (R257). -/
def State.newest (s : State) (line : Nat) : LineBytes :=
  let ls := (List.range 9).filterMap fun d => s.l2 d line
  if inHbm line then
    let h := s.homeOf line
    match h.st, h.tag with
    | .U, some t => mergeParts t (s.memLine line) (h.allParts t (s.diePart line))
    | .W, _ => (ls.filter fun l => l.st == some .W).foldl (fun r l => lineOver r l.data) []
    | _, _ =>
      match ls.find? (·.owns) with
      | some l => l.data
      | none =>
        if h.st = .E ∨ h.st = .O then
          (((s.dm h.owner).wb.find? fun w => w.line == line && w.ver == h.ver).map (·.data)).getD []
        else []
  else ls.foldl (fun r l => lineOver r l.data) []

/-- The bytes of a line as every agent would read them (R262). -/
def State.viewLine (s : State) (line : Nat) : LineBytes :=
  lineOver (if inHbm line then s.memLine line else s.remoteLine line) (s.newest line)

/-- A value of up to 16 bytes inside one line, as every agent would read it. -/
def State.view (s : State) (pa n : Nat) : Nat := lineVal (s.viewLine (pa / 128)) (pa % 128) n

/-- Record the value that written doublewords held, while launches run: a fetch may still return it (R51). -/
def State.age (s : State) (line : Nat) (b : LineBytes) : State :=
  if s.launches = [] then s
  else
    let old := s.viewLine line
    { s with stale := s.stale ++ (dwordsOf b).map fun i =>
      (line * 16 + i, s.mod.orders, BitVec.ofNat 64 (lineVal old (8 * i) 8)) }

/-- A change of a line other than a write of given bytes: the values that it replaces may still be fetched (R51). -/
def State.ageFrom (t s : State) (line : Nat) : State :=
  let now := t.viewLine line
  { t with stale := (s.age line ((s.viewLine line).filter fun e => tget now e.1 != some e.2)).stale }

/-- Accesses of a stack count at its die (R307, event 0x40). -/
def State.hbmAccess (s : State) (line n : Nat) : State :=
  let (k, l) := placeOf s.mod.hplace (line * 128)
  s.setDie (stackDie k) fun x => { x with evs := ⟨0x40, some (128 * (k % 2) + channelOf (s.stack k).hmask l), [], n⟩ :: x.evs }
def State.tickHbm (s : State) (line : Nat) : State := s.hbmAccess line 1

/-- The half of a line as a number. -/
def halfOf (b : LineBytes) (half : Nat) : BitVec 512 := BitVec.ofNat 512 (lineVal b (64 * half) 64)

/-- Halves of a line that bytes lie in. -/
def halvesOf (b : LineBytes) : List Nat := [0, 1].filter fun h => b.any fun e => e.1 / 64 == h

/-- Bytes written at a line's home: memory of the module, or a write that leaves for the host or the device. -/
def State.memPut (s : State) (line : Nat) (b : LineBytes) : State :=
  match s.region (line * 128) with
  | .cxl port =>
    let v := lineOver (s.viewLine line) b
    { s with out := s.out ++ (halvesOf b).map fun h => Out.cxl port line h 3 (some (halfOf v h)) }.drawn.drawn
  | .linked d _ =>
    let hs := halvesOf b
    { s with out := s.out ++ hs.map fun h => s.flit d (line * 128 + 64 * h) 1 (b.filter fun e => e.1 / 64 == h),
             away := s.away ++ hs.map fun h => { pa := line * 128 + 64 * h, write := true } }
  | _ =>
    ({ s with mem := memPutLine s.mem (s.cell (line * 128)) b } : State).tickHbm line

/-! ## Watches (R235, R236) -/

/-- A thread's watch fires with a cause; a thread held at MWAIT completes it. -/
def Thread.fire (t : Thread) (now line : Nat) (write : Bool) : Thread :=
  match t.watch with
  | some w =>
    if w.line = line ∧ w.fired = none then
      match t.st with
      | .waiting (.watch d) => ({ t with watch := none }.wr d (if write then 0 else 1)).wake now
      | _ => { t with watch := some { w with fired := some write } }
    else t
  | none => t

/-- Watches on a line fire in the blocks of the cores that satisfy `p` (R235). -/
def State.fireOn (s : State) (p : Nat → Bool) (line : Nat) (write : Bool) : State :=
  let blk (b : Block) : Block :=
    if p b.core then b.wakes fun _ t => t.fire (s.now (dieOf b.core)) line write else b
  { s with blocks := s.blocks.map fun (u, b) => (u, blk b) }

/-- An update reaches a core's L1: the watches of the core that were armed from the older copy fire (R235, R260). -/
def State.fireOwed (s : State) (core line : Nat) : State :=
  let one (now : Nat) (t : Thread) : Thread := if t.watch.any (·.owed) then t.fire now line true else t
  { s with blocks := s.blocks.map fun (u, b) =>
    (u, if b.core = core then b.wakes fun _ t => one (s.now (dieOf core)) t else b) }

/-- Every watch of a die on a line fires (R235); a host core's reservation of the line ends. -/
def State.fireDie (s : State) (d line : Nat) (write : Bool) : State :=
  { s with mod := { s.mod with hostResv := s.mod.hostResv.filter fun e => e.2 != line } }.fireOn (fun c => dieOf c == d) line write

/-- Every watch on a line fires. -/
def State.fireAll (s : State) (line : Nat) (write : Bool) : State :=
  (List.range 9).foldl (fun s d => s.fireDie d line write) s

/-! ## L1 copies -/

/-- A core's L1 gives up a line; a partial is merged into the die's partial (R245). -/
def State.dropL1 (s : State) (d line core : Nat) : State :=
  match tget (s.core core).l1 line with
  | none => s
  | some l =>
    let s := s.setCore core fun c => { c with l1 := tdel c.l1 line, mbuf := c.mbuf.filter (· != line) }
    match l.tag, s.l2 d line with
    | some t, some x => s.setL2 d line { x with part := partMerge t x.part l.part }
    | some t, none => s.setL2 d line { part := l.part, tag := some t }
    | none, _ => s

/-- Every L1 of a die gives up a line, cores in ascending order (R255). -/
def State.dropL1s (s : State) (d line : Nat) : State :=
  ((coresOf d).filter fun c => (tget (s.core c).l1 line).isSome).foldl (fun s c => s.dropL1 d line c) s

/-- What remains of a slice line that is invalidated: bytes performed locally wait for their grant (R267). -/
def State.invalL2 (s : State) (d line : Nat) : State :=
  match s.l2 d line with
  | none => s
  | some l =>
    if l.loc = [] ∧ !l.asked then s.delL2 d line
    else s.setL2 d line { loc := l.loc, locBy := l.locBy, locMask := l.locMask, firstAt := l.firstAt, asked := l.asked }

/-! ## Halves of host lines and of lines of linked devices (R227, R257) -/

def HostLine.half (h : HostLine) (k : Nat) : HostHalf := if k = 0 then h.a else h.b
def State.hostHalf (s : State) (line k : Nat) : HostHalf := (tgetD s.hostLines line {}).half k
def State.setHalf (s : State) (line k : Nat) (f : HostHalf → HostHalf) : State :=
  let h := tgetD s.hostLines line {}
  { s with hostLines := tset s.hostLines line (if k = 0 then { h with a := f h.a } else { h with b := f h.b }) }

/-- A die loses a half of a host line; its L1s drop the line, and its watches fire (R235, R257). -/
def State.loseHalf (s : State) (d line k : Nat) : State :=
  match s.l2 d line with
  | none => s
  | some l =>
    let s := s.dropL1s d line
    let b := l.data.filter fun e => e.1 / 64 != k
    let s := if b = [] then s.delL2 d line else s.setL2 d line { l with data := b }
    (s.setHalf line k fun h => { h with dies := h.dies.filter (· != d) }).fireDie d line false

/-- The host has granted a half in E or M (R257). -/
def State.halfOwned (s : State) (line k : Nat) : Bool := (s.hostHalf line k).st == .E || (s.hostHalf line k).st == .M

/-- The halves of a line in which some of the `n` bytes from `pa` lie. -/
def halvesAt (line pa n : Nat) : List Nat :=
  [0, 1].filter fun k => decide (line * 128 + 64 * k < pa + n) && decide (pa < line * 128 + 64 * k + 64)

/-! ## Recalls performed as one step, for engines, host cores, page walks and quiescence -/

/-- A dirty copy that is only in the write-back buffer is written to memory; the write-back itself is then stale. -/
def State.wbGive (s : State) (line d : Nat) : State :=
  let h := s.homeOf line
  if (h.st = .E ∨ h.st = .O) ∧ h.owner = d then
    match (s.dm d).wb.find? fun w => w.line == line && w.ver == h.ver with
    | some w => s.memPut line w.data
    | none => s
  else s

/-- A die gives up its copy of a line: data of M and O, or the W partial, goes to memory, where every watch sees the
write; a U partial is returned (R247, R253, R255). A line in the write-back buffer is served from there (R252). -/
def State.giveUp (s : State) (line d : Nat) : State × Partial :=
  match s.l2 d line with
  | none => (s.wbGive line d, [])
  | some l =>
    match l.st with
    | none => (s.wbGive line d, [])
    | some .U =>
      let s := s.dropL1s d line
      let p := ((s.l2 d line).map (·.part)).getD []
      (s.invalL2 d line, p)
    | some st =>
      let s := s.dropL1s d line
      let s := if st = .M ∨ st = .O then s.memPut line l.data else if st = .W then (s.memPut line l.data).fireAll line true else s
      (s.invalL2 d line, [])

/-- The data that an owner supplies when it drops the line, and whether it is dirty: its copy's, or the write-back
buffer's (R247, R252). -/
def State.supplied (s : State) (line d : Nat) : Option (LineBytes × Bool) :=
  match (s.l2 d line).bind fun l => l.st.map fun st => (l, st) with
  | some (l, st) => some (l.data, st == .M || st == .O)
  | none => ((s.dm d).wb.find? fun w => w.line == line && w.ver == (s.homeOf line).ver).map fun w => (w.data, true)

/-- Forward-own: the line is supplied and dropped (R247). -/
def State.handOver (s : State) (line d : Nat) : State × Option (LineBytes × Bool) :=
  let x := s.supplied line d
  ((s.dropL1s d line).invalL2 d line, x)

/-- A line lies on a stack that is being quiesced: who needs it waits (R315). -/
def State.stopped (s : State) (line : Nat) : Bool :=
  inHbm line && ((s.stack (s.stackOf line)).qack || (s.stack (s.stackOf line)).qreq)

/-- The line is behind a CXL port whose link is not trained: accesses to it wait (R379, log 53). -/
def State.portDown (s : State) (line : Nat) : Bool :=
  match s.region (line * 128) with
  | .cxl p => !(s.link (2 * p + 1)).cxlup
  | _ => false

/-- Something about the line is under way at its home or between home and dies, or its port serves nothing. -/
def State.lineBusy (s : State) (line : Nat) : Bool :=
  if inHbm line then
    (s.homeOf line).txn.isSome || (s.homeOf line).queue != [] || s.msgs.any (fun m => m.line == line) || s.stopped line
  else s.portDown line || (tgetD s.hostLines line {}).a.asked.isSome || (tgetD s.hostLines line {}).b.asked.isSome

/-- Some stack is being quiesced (R315). -/
def State.quiescing (s : State) : Bool := s.hbm.any fun e => e.2.qreq || e.2.qack

/-- A note of another agent's release on the line waits to be published (R269). -/
def State.noted (s : State) (line : Nat) : Bool :=
  inHbm line && (s.stack (s.stackOf line)).log.any fun n => n.line == line

/-- The port whose link makes the module a device of an outside host, if any (R379). -/
def State.hostPort (s : State) : Option Nat :=
  (List.range 4).find? fun p => (s.link (2 * p + 1)).cxlrole == 1 && (s.link (2 * p + 1)).cxlup

/-- The outside host's halves are taken back by BISnpInv; a possibly modified half supplies its data (R259). -/
def State.backInval (s : State) (line : Nat) : State :=
  let h := s.homeOf line
  let ask (k : Nat) : List Out := if fld h.host (2 * k) 2 = 0 then [] else [.cxl (s.hostPort.getD 0) line k 5 none]
  let s := { s with out := s.out ++ (ask 0 ++ ask 1) }
  let put (s : State) (k : Nat) : State :=
    let b := halfBytes k (Config.remoteHalf line (s.draws + k))
    if (fld h.host (2 * k) 2).toNat = 2 then (s.age line b).memPut line b else s
  let s := put (put s 0) 1
  if h.host = 0 then s else (s.setHome line fun h => { h with host := 0 }).drawn.drawn

/-- Before a share is given, a half that the outside host may have modified comes back by BISnpData and stays shared there
(R259). -/
def State.backShare (s : State) (line : Nat) : State :=
  let one (s : State) (k : Nat) : State :=
    if (fld (s.homeOf line).host (2 * k) 2).toNat = 2 then
      let s := { s with out := s.out ++ [Out.cxl (s.hostPort.getD 0) line k 4 none] }
      let b := halfBytes k (Config.remoteHalf line s.draws)
      let s := (s.age line b).memPut line b
      (s.setHome line fun h => { h with host := h.host ^^^ BitVec.ofNat 4 (3 * 4 ^ k) }).drawn
    else s
  one (one s 0) 1

/-- Linked devices that may hold the line give it up (R254). -/
def State.devInval (s : State) (line : Nat) : State :=
  let g := (s.homeOf line).devs
  if g = 0 then s
  else
    let ds := (List.range 64).filter fun d => g.getLsbD (d / 16) && tgetD s.mod.route d 0 != 0
    let s := { s with out := s.out ++ ds.map fun d => s.flit d (line * 128) 4 [] }
    s.setHome line fun h => { h with devs := 0 }

/-- A host line leaves every die, and its halves go back to the host (R257); a linked device's line just leaves. -/
def State.dropHostLine (s : State) (line : Nat) : State :=
  let v := s.newest line
  match s.region (line * 128) with
  | .cxl port =>
    let h := tgetD s.hostLines line {}
    let put (s : State) (k : Nat) (x : HostHalf) : State :=
      if x.st = .I then s
      else if x.st = .M then { s with out := s.out ++ [.cxl port line k 3 (some (halfOf v k))] }
      else { s with out := s.out ++ [.cxl port line k 2 none] }
    let s := put (put s 0 h.a) 1 h.b
    let s := (List.range 9).foldl (fun s d => (s.dropL1s d line).delL2 d line) s
    { s with hostLines := tdel s.hostLines line }
  | _ =>
    let s := (List.range 9).foldl (fun s d => (s.dropL1s d line).delL2 d line) s
    { s with hostLines := tdel s.hostLines line }

/-- The halves of a linked device's line that PREF has brought leave every die: a write of the line is on its way, or the
device has asked for it (R227, R254). -/
def State.dropLinked (s : State) (line : Nat) : State :=
  if (tget s.hostLines line).isSome then (s.dropHostLine line).fireAll line false else s

/-- A U line is merged: the partials over the memory value, one write for every watch (R255). -/
def State.mergeU (s : State) (line : Nat) (t : Tag) (ps : List Partial) : State :=
  let m := mergeParts t (s.memLine line) ps
  ((((s.age line m).memPut line m).tickDie (stackDie (s.stackOf line)) 0x43 none 1).setHome line fun h =>
    { h with parts := [] }).fireAll line true

/-- Every copy of a line goes home; the entry is then I (R247, R255, R315). Partials of W arrive by rising die number
(R271, log 95). -/
def State.recallAll (s : State) (line : Nat) : State :=
  if !inHbm line then (s.dropHostLine line).fireAll line false
  else
    let h := s.homeOf line
    let (s, ps) := (List.range 9).foldl (fun (s, ps) d =>
      let (s, p) := s.giveUp line d
      (s, ps ++ [p])) (s, ([] : List Partial))
    let s := (s.backInval line).devInval line
    let s := match h.st, h.tag with
      | .U, some t => s.mergeU line t (h.allParts t fun d => ps.getD d [])
      | _, _ => s
    let s := s.setHome line fun h => { h with st := .I, dies := 0, owner := 0, tag := none }
    s.fireAll line (h.st == .U)

/-- Whether any cache or the directory holds the line. -/
def State.cached (s : State) (line : Nat) : Bool :=
  (inHbm line && ((s.homeOf line).st != .I || (s.homeOf line).host != 0 || (s.homeOf line).devs != 0)) ||
    (List.range 9).any fun d => ((s.l2 d line).bind (·.st)).isSome

/-- Whether the owner that the home records supplies the line: its L2, or its write-back buffer (R252). -/
def State.ownerHas (s : State) (line : Nat) : Bool :=
  let h := s.homeOf line
  (h.st == .E || h.st == .O) && (((s.l2 h.owner line).bind (·.st)).isSome ||
    (s.dm h.owner).wb.any fun w => w.line == line && w.ver == h.ver)

/-- The stack access of a request (R317): the line is read where memory supplies it; else only a lookup that misses the
directory cache reads, and lines in W and U are always in it. -/
def State.countLookup (s : State) (line : Nat) (data : Bool) (was : HState) : State :=
  if data then s.tickHbm line
  else if was = .W ∨ was = .U then s
  else (s.hbmAccess line (b2n (Config.lookupMisses s.draws))).drawn

/-- A line is read for a request at its home (R317). -/
def State.tickRead (s : State) (line : Nat) : State := s.countLookup line (!s.ownerHas line) (s.homeOf line).st

/-- Whether a die's slice holds a line of the module, or the halves of another home's line, for its loads (R247, R257). -/
def State.holds (s : State) (d line : Nat) (ks : List Nat) : Bool :=
  if inHbm line then
    match (s.l2 d line).bind (·.st) with
    | some .S | some .E | some .M | some .O => true
    | _ => false
  else ks.all fun k => (s.hostHalf line k).dies.contains d

/-- A read, as one step, of halves of a line that is homed outside the module: of a host line, those that no die holds are
fetched by RdShared and given back at once; those of a device's line are read from it (R257, R380, log 89). -/
def State.askAway (s : State) (line : Nat) (ks : List Nat) : State :=
  let lack := ks.filter fun k => (s.hostHalf line k).dies == []
  match s.region (line * 128) with
  | .cxl port =>
    { s with out := s.out ++ lack.flatMap fun k => [Out.cxl port line k 0 none, Out.cxl port line k 2 none] }.drawn.drawn
  | .linked d _ =>
    { s with out := s.out ++ lack.map fun k => s.flit d (line * 128 + 64 * k) 0 [] }.drawn.drawn
  | _ => s

/-- A read of halves of a line by a unit of a die, or by one outside the dies. What the die's slice holds is read there; else W
and U are merged first, a half that the outside host may have modified comes back, data comes from the owner (R233, R259);
memory homed elsewhere is asked for (R257, R380). -/
def State.settleLine (s : State) (d : Option Nat) (line : Nat) (ks : List Nat) : State :=
  if d.any fun d => s.holds d line ks then s
  else if !inHbm line then s.askAway line ks
  else if (s.homeOf line).st = .W ∨ (s.homeOf line).st = .U then (s.recallAll line).tickRead line
  else (s.backShare line).tickRead line

/-- A write, as one step, of host memory: the dies give up the halves that it touches, RdOwn brings those that the host has not
granted in E or M, and they go back modified by DirtyEvict (R257, log 89). -/
def State.putHost (s : State) (port line : Nat) (b : LineBytes) : State :=
  let v := lineOver (s.viewLine line) b
  let one (s : State) (k : Nat) : State :=
    let own := s.halfOwned line k
    let s := (s.hostHalf line k).dies.foldl (fun s d => s.loseHalf d line k) s
    let s := s.setHalf line k fun h => { asked := h.asked }
    { s with out := s.out ++ (if own then [] else [Out.cxl port line k 1 none]) ++ [.cxl port line k 3 (some (halfOf v k))] }
  ((halvesOf b).foldl one s).drawn.drawn

/-- A line of the module is taken from every holder for a write at its home, as for a GetM; `whole` tells that every byte is
written. The bytes of an owner that had the line dirty are answered and not written yet: they are written once, with the
write (R251, R255, R317). -/
def State.takeLine (s : State) (line : Nat) (whole : Bool) : State × LineBytes :=
  let h := s.homeOf line
  let s := s.countLookup line (!whole && !s.ownerHas line) h.st
  let (s, data) := if s.ownerHas line then s.handOver line h.owner else (s, none)
  let s := if data.isSome then s.setHome line fun h => { h with st := .I, owner := 0 } else s
  let s := if s.cached line then s.recallAll line else s
  (s, match data with
    | some (d, true) => d
    | _ => [])

/-- A write to a line of the module's memory at its home. -/
def State.putHbm (s : State) (line : Nat) (b : LineBytes) : State :=
  let (s, d) := s.takeLine line (decide (128 ≤ b.length))
  s.memPut line (lineOver d b)

/-- A write by an engine, a host core or a unit, performed at the home (R233, R255, R259): every copy is recalled
first, and every watch on the line fires as at a write. -/
def State.putLine (s : State) (line : Nat) (b : LineBytes) : State :=
  let s := s.age line b
  let s := match s.region (line * 128) with
    | .cxl port => s.putHost port line b
    | .linked _ _ => (s.dropLinked line).memPut line b
    | _ => s.putHbm line b
  s.fireAll line true

/-- A read-modify-write of a line by a host core or a linked device, as one access at the home: what a read finds there,
and the line with the bytes that `f` makes of it written; of a linked device's line the halves are read first (R251, R259, R275,
R317). -/
def State.changeLine (s : State) (line : Nat) (ks : List Nat) (f : LineBytes → LineBytes) : State × LineBytes :=
  if inHbm line then
    let old := (s.settleLine none line ks).viewLine line
    let (t, d) := s.takeLine line false
    ((((t.memPut line (lineOver d (f old))).ageFrom s line).fireAll line true), old)
  else
    let old := s.viewLine line
    let s := match s.region (line * 128) with
      | .linked _ _ => s.askAway line ks
      | _ => s
    (s.putLine line (f old), old)

/-- Split a byte list from a physical address into lines. -/
def splitLines (pa : Nat) (l : List Byte) : List (Nat × LineBytes) :=
  (List.range (ceilDiv (pa % 128 + l.length) 128)).map fun k =>
    (pa / 128 + k, (l.mapIdx fun i x => (pa % 128 + i, x)).filterMap fun (o, x) =>
      if o / 128 = k then some (o % 128, x) else none)

/-- Write bytes at a physical address, coherently. -/
def State.physPut (s : State) (pa : Nat) (l : List Byte) : State :=
  (splitLines pa l).foldl (fun s e => s.putLine e.1 e.2) s

/-- Read `n` bytes at a physical address, coherently and without a merge (after `settleLine`). -/
def State.physGet (s : State) (pa n : Nat) : List Byte :=
  (List.range n).map fun i => tgetD (s.viewLine ((pa + i) / 128)) ((pa + i) % 128) 0

/-- Lines that `n` bytes from `pa` touch. -/
def linesOf (pa n : Nat) : List Nat := (List.range (ceilDiv (pa % 128 + n) 128)).map (pa / 128 + ·)

/-- `settleLine` for `n` bytes from `pa`. -/
def State.settle (s : State) (d : Option Nat) (pa n : Nat) : State :=
  (linesOf pa n).foldl (fun s l => s.settleLine d l (halvesAt l pa n)) s

/-- The lines are free for a one-step access. -/
def State.canTouch (s : State) (pa n : Nat) : Bool :=
  (linesOf pa n).all fun l => !s.lineBusy l && !s.noted l

end Sys2Proof.Machine
end

