-- ==== Sys2Proof/Machine/Xlate.lean ====
section
/-! DEFINITION. Translation (R347-R354), the supervisor queue (R367, R368) and fetching code (R43, R51). -/

namespace Sys2Proof.Machine

/-- Kinds of access for the permission check (R351). -/
inductive Acc where
  | load | store | atom | fetch
  deriving DecidableEq, Repr

/-- A table or a frame may not lie there: control space, undecoded space (R351). -/
def State.noTable (s : State) (pa : Nat) : Bool := s.region pa == .control || s.region pa == .undecoded

/-- A reserved or malformed bit pattern of an entry at a level (R351). -/
def pteMalformed (s : State) (level : Nat) (e : DWord) : Bool :=
  let leaf := e.getLsbD 1 || e.getLsbD 2 || e.getLsbD 3
  let pfn := (fld e 12 40).toNat * 4096
  let bad := s.noTable pfn
  fld e 52 12 != 0 || fld e 9 3 != 0 || e.getLsbD 4 || (e.getLsbD 2 && !e.getLsbD 1) ||
    (e.getLsbD 8 && decide (0 < level)) || (leaf && decide (3 ≤ level)) || (!leaf && level == 0) ||
    (leaf && level != 0 && pfn % 2 ^ (12 + 9 * level) != 0) || bad

/-- The leaf's own checks: permission, accessed, dirty (R351). -/
def leafFault (a : Acc) (e : DWord) : Option XRes :=
  let r := e.getLsbD 1
  let w := e.getLsbD 2
  let perm := match a with
    | .load => r
    | .store => w
    | .atom => r && w
    | .fetch => e.getLsbD 3
  if !perm then some .protection
  else if !e.getLsbD 6 then some (.demand 4)
  else if (a == .store || a == .atom) && !e.getLsbD 7 then some (.demand 5)
  else none

/-- The physical address a leaf gives (R350); a 64 KiB page takes 16 bits from the virtual address (R352). -/
def leafPa (level : Nat) (e : DWord) (va : Nat) : Nat :=
  let k := if level = 0 ∧ e.getLsbD 8 then 16 else 12 + 9 * level
  (fld e 12 40).toNat * 4096 / 2 ^ k * 2 ^ k + va % 2 ^ k

/-- An entry of a table. -/
def State.pte (s : State) (table idx : Nat) : DWord := BitVec.ofNat 64 (s.view (table + 8 * idx) 8)

/-- The entry that a walk takes at level 0: where an entry of the aligned group of 16 is part of a 64 KiB page, any one of
the group, which is free; else the page's own (R352). -/
def State.pteOf (s : State) (n table idx : Nat) : DWord :=
  let at_ (i : Nat) := s.pte table (idx / 16 * 16 + i)
  if n = 0 ∧ ((List.range 16).any fun i => (at_ i).getLsbD 0 && (at_ i).getLsbD 8) then at_ (Config.choice s.draws % 16)
  else s.pte table idx

/-- The walk from a level down (R351) by a slice of the die: the leaf with its level, or a fault. Each entry is read as an LDG
with acquire at DEV scope reads: a noted release is published first, W and U lines are merged (R233, R269). -/
def State.walk (d : Nat) (a : Acc) (va : Nat) : Nat → Nat → State → State × Except XRes (Nat × DWord)
  | n, table, s =>
    let idx := va / 2 ^ (12 + 9 * n) % 512
    if s.noTable table then (s, .error (.demand 2))
    else if !s.canTouch (table + 8 * idx) 8 then (s, .error (.later ((table + 8 * idx) / 128)))
    else
      let s := s.settle (some d) (table + 8 * idx) 8
      let e := s.pteOf n table idx
      if !e.getLsbD 0 then (s, .error (.demand 1))
      else if pteMalformed s n e then (s, .error (.demand 2))
      else if e.getLsbD 1 || e.getLsbD 2 || e.getLsbD 3 then
        match leafFault a e with
        | some f => (s, .error f)
        | none => (s, .ok (n, e))
      else
        match n with
        | 0 => (s, .error (.demand 2))
        | m + 1 => State.walk d a va m ((fld e 12 40).toNat * 4096) s

/-- The translating slice of a virtual address (R353). -/
def sliceOf (va : Nat) : Nat :=
  let b (lo len : Nat) := va / 2 ^ lo % 2 ^ len
  (((b 12 6 ^^^ b 18 6) ^^^ (b 24 6 ^^^ b 30 6)) ^^^ ((b 36 6 ^^^ b 42 6) ^^^ (b 48 6 ^^^ b 54 3)))

/-- Bits of the page that an entry maps. -/
def Tlb.pageBits (t : Tlb) : Nat := if t.big then 16 else 12 + 9 * t.level

/-- Whether a cached translation covers an address of a context (R353). -/
def Tlb.covers (t : Tlb) (va cid : Nat) : Bool :=
  t.vpage == va / 2 ^ t.pageBits && (t.cid == cid || t.entry.getLsbD 5)

/-- A slice's translation cache holds 2,048 entries: with no room one of them goes (R353). -/
def tlbRoom (l : List Tlb) (slice n : Nat) : List Tlb :=
  let mine := l.filter (·.slice == slice)
  if mine.length < 2048 then l
  else match pick mine n with
    | some t => l.erase t
    | none => l

/-- Translation of a 64-bit effective address for a die (R347, R353): from the slice's cache where the entry allows
the access, else by a walk, whose leaf the slice then caches. -/
def State.translate (s : State) (d : Nat) (ctx : Ctx) (a : Acc) (va : Nat) : State × XRes :=
  if 2 ^ 57 ≤ va then (s, .outside)
  else
    let sl := sliceOf va
    match (s.dm d).tlb.find? fun t => t.slice == sl && t.covers va ctx.cid && (leafFault a t.entry).isNone with
    | some t => (s, .ok (leafPa t.level t.entry va) (t.entry.getLsbD 1))
    | none =>
      match State.walk d a va 4 ctx.root s with
      | (s, .error f) => (s.drawn, f)
      | (s, .ok (n, e)) =>
        let big := decide (n = 0) && e.getLsbD 8
        let t : Tlb := { slice := sl, vpage := va / 2 ^ (if big then 16 else 12 + 9 * n), cid := ctx.cid,
                         level := n, big := big, entry := e }
        ((s.setDm d fun m => { m with tlb := tlbRoom m.tlb sl s.draws ++ [t] }).drawn, .ok (leafPa n e va) (e.getLsbD 1))

/-- The translation context of a block (R349). -/
def State.ctxOf (s : State) (u : Nat) : Ctx := (s.launch (s.block u).cfg.launch).ctx

/-! ## The supervisor queue -/

/-- The fields of an entry that is posted (R367). -/
structure Post where
  unit : Nat
  kind : Nat
  launch : Nat := 0
  bid : Nat := 0xFFFFFFFF
  tid : Nat := 0xFFFF
  cid : Nat := 0
  detail : Nat := 0
  addr : Nat := 0
  word : DWord := 0
  opnd : Nat := 0
  pos : Nat := 0
  blk : Option Nat := none
  tids : List Nat := []
  slice : Nat := 0
  vpage : Nat := 0
  deriving DecidableEq, Repr

/-- The 64 bytes of an entry (R367). -/
def Post.bytes (p : Post) (tsc : DWord) (die token : Nat) : List Byte :=
  leBytes 8 tsc.toNat ++ leBytes 2 (256 * die + p.unit) ++ leBytes 1 p.kind ++ [0] ++ leBytes 4 token ++
  leBytes 4 p.launch ++ leBytes 4 p.bid ++ leBytes 2 p.tid ++ leBytes 2 p.cid ++ leBytes 4 p.detail ++
  leBytes 8 p.addr ++ leBytes 8 p.word.toNat ++ leBytes 8 p.opnd ++ leBytes 8 p.pos

/-- Whether the ring of a die has room for one more entry (R367, R377). -/
def Die.ringRoom (d : Die) : Bool :=
  let n := d.sqsize.toNat
  decide (n ∈ (List.range 17).map (2 ^ ·)) && decide ((d.sqtail - d.sqhead).toNat < n)

/-- The source number of an entry (R304). -/
def postSource (e : List Byte) : Nat := leAt e 8 2

/-- Whether a source may post after the die's last entry: entries of one TSC stand in the ring in source order (R304,
R367). -/
def State.inPostOrder (s : State) (die src : Nat) : Bool :=
  (s.die die).postTsc != s.tscAt die || decide ((s.die die).postSrc ≤ src)

/-- The first waiting entry of a unit is replaced. -/
def onPost (src : Nat) (f : Nat × List Byte → List (Nat × List Byte)) : List (Nat × List Byte) → List (Nat × List Byte)
  | [] => []
  | e :: r => if postSource e.2 = src then f e ++ r else e :: onPost src f r

/-- Units whose first waiting entry is to be posted again, in rising number (R367). -/
def Die.postDue (d : Die) (now : Nat) : List Nat :=
  (sortBy (fun a b => decide (a < b)) (dedupN (d.posts.map fun e => postSource e.2))).filter fun src =>
    ((d.posts.find? fun e => postSource e.2 == src).map fun e => decide (e.1 ≤ now)).getD false

/-- The host core that a die's supervisor queue interrupts: while SQHEAD and SQTAIL differ (R377). -/
def Die.irq (d : Die) : Option Nat := if d.sqhead = d.sqtail then none else some d.sqirq.toNat

/-- The interrupt lines of a die as they change from an earlier state on (R377). -/
def State.irqFrom (s : State) (die : Nat) (was : State) : State :=
  let a := (was.die die).irq
  let b := (s.die die).irq
  if a = b then s
  else { s with out := s.out ++ a.toList.map (Out.irq die · false) ++ b.toList.map (Out.irq die · true) }

/-- A unit posts its oldest waiting entry, with the TSC of the posting, if the ring has room; else it waits 1,024 cycles more.
An entry of a lower source than the last of the same TSC waits for the next tick, and a ring line that is under way is waited
for (R304, R367). -/
def State.postTry (s : State) (die src : Nat) : State :=
  let d := s.die die
  let later (n : Nat) : State := s.setDie die fun x => { x with posts := onPost src (fun e => [(x.cycle + n, e.2)]) x.posts }
  match d.posts.find? fun e => postSource e.2 == src with
  | none => s
  | some (_, e) =>
    let pa := d.sqbase.toNat + 64 * (d.sqtail.toNat % d.sqsize.toNat)
    if !d.ringRoom then later 1024
    else if s.inPostOrder die src ∧ s.canTouch pa 64 then
      let tsc := s.tscAt die
      ((s.physPut pa (leBytes 8 tsc.toNat ++ e.drop 8)).setDie die fun x =>
        { x with sqtail := x.sqtail + 1, posts := onPost src (fun _ => []) x.posts, postTsc := tsc, postSrc := src }).irqFrom die s
    else later 1

/-- A token that no open entry of the die holds (R367); which one is free. -/
def State.newToken (s : State) (die : Nat) : Nat :=
  let used := (s.die die).entries.map (·.token)
  let t := Config.token s.draws % 2 ^ 32
  if used.contains t then ((List.range (used.length + 1)).find? fun i => !used.contains i).getD 0 else t

/-- Post an entry to a die's supervisor queue and open its token (R367). -/
def State.post (s : State) (die : Nat) (p : Post) : State × Nat :=
  let tok := s.newToken die
  let e : SupEntry := { token := tok, kind := p.kind, launch := p.launch, bid := p.bid, blk := p.blk,
                        tids := p.tids, slice := p.slice, vpage := p.vpage }
  let bytes := p.bytes (s.tscAt die) die tok
  let first := (s.die die).posts.all fun e => postSource e.2 != postSource bytes
  let s := s.setDie die fun d => { d with entries := d.entries ++ [e], posts := d.posts ++ [(d.cycle, bytes)] }
  ((if first then s.postTry die (postSource bytes) else s).drawn, tok)

/-- An entry about one thread. -/
def State.threadPost (s : State) (u tid kind : Nat) (word : DWord) : Post :=
  let b := s.block u
  let t := s.thread u tid
  { unit := b.core % 96, kind := kind, launch := b.cfg.launch, bid := b.cfg.bid, tid := tid,
    cid := (s.ctxOf u).cid, word := word, pos := t.index.toNat * 2 ^ 60 + t.base.toNat % 2 ^ 57, blk := some u,
    tids := [tid] }

/-- A demand fault of an access (R354): attach to the matching entry of the slice, else take a new entry and post one
entry of kind 1; a full table leaves the access waiting for room. -/
def State.faultAttach (s : State) (die : Nat) (ctx : Ctx) (va kind : Nat) (p : Post) : State × Wait :=
  let sl := sliceOf va
  let vp := va / 4096
  let fs := (s.dm die).faults
  match fs.find? fun f => f.slice == sl && f.cid == ctx.cid && f.vpage == vp && f.kind == kind with
  | some f => (s, .fault die f.token va p.word)
  | none =>
  if 64 ≤ (fs.filter fun f => f.slice == sl).length then (s, .faultFull die sl va kind p.word)
  else
    let (s, tok) := s.post die { p with unit := 96 + sl, kind := 1, cid := ctx.cid, detail := kind, addr := va,
                                        slice := sl, vpage := vp }
    (s.setDm die fun m => { m with faults := m.faults ++ [⟨sl, ctx.cid, vp, kind, tok⟩] }, .fault die tok va p.word)

/-! ## Code -/

/-- The 8 bytes of code at a physical address for a block: what memory holds now, or a value that it has held since the
block's launch began (R51, log 7). -/
def State.codeWord (s : State) (u pa : Nat) : DWord :=
  let l := s.launch (s.block u).cfg.launch
  let cur := BitVec.ofNat 64 (s.view pa 8)
  let old := (s.stale.filter fun e => e.1 == pa / 8 && decide (l.order < e.2.1)).map (·.2.2)
  match old with
  | [] => cur
  | _ => ((cur :: old)[Config.choice s.draws % (old.length + 1)]?).getD cur

/-- What a fetch asks for: whether one of the module's memory reads the stack is free, since R317 does not speak of fetches
(R43, log 85); code that lies elsewhere is read from its home (R257, R380). -/
def State.askCode (s : State) (d pa : Nat) : State :=
  if inHbm (pa / 128) then s.hbmAccess (pa / 128) (b2n (Config.fetchReads s.draws))
  else s.settleLine (some d) (pa / 128) [pa / 64 % 2]

/-- Fetch 8 bytes of code for a block at a virtual address (R43, R353); code on a quiesced stack, or behind a CXL port that is
down, is waited for (R315, R379). -/
def State.fetch (s : State) (u va : Nat) : State × Except XRes DWord :=
  let d := dieOf (s.block u).core
  match s.translate d (s.ctxOf u) .fetch va with
  | (s, .ok pa _) =>
    if s.stopped (pa / 128) || s.portDown (pa / 128) then (s, .error (.later (pa / 128)))
    else ((s.askCode d pa).drawn, .ok (s.codeWord u pa))
  | (s, f) => (s, .error f)

end Sys2Proof.Machine
end

