-- ==== Sys2Proof/Machine/Flags.lean ====
section
/-! DEFINITION. The flags of MSTATUS (R198) and the status of engines (R301). -/

namespace Sys2Proof.Machine

/-- Writable bits of MSTATUS (R198). -/
def mstatusMask : Word := 0x373

/-- Conversion flags CINV and COVF from the events of R104. -/
def convFlags (inv ovf : Bool) : Word := (if inv then 1 else 0) ||| (if ovf then 2 else 0)
/-- Matrix flags MNAN, MINF and MOVF (R197). -/
def matFlags (nan inf ovf : Bool) : Word := (if nan then 0x10 else 0) ||| (if inf then 0x20 else 0) ||| (if ovf then 0x40 else 0)
/-- Epilogue flags EINV and EOVF (R198). -/
def epiFlags (inv ovf : Bool) : Word := (if inv then 0x100 else 0) ||| (if ovf then 0x200 else 0)

/-- Flags stay set until software writes MSTATUS (R104, R198). -/
def Thread.flag (t : Thread) (f : Word) : Thread := { t with mstatus := t.mstatus ||| f }

/-- Bits of ENGFAULT that hold something (R301). -/
def engfaultMask : Word := 0x80FF00FF

/-- A fault update of ENGFAULT: ANY, the saturating COUNT, KIND and CODE (R301). -/
def engFaultUpd (w : Word) (kind code : Nat) : Word :=
  let n := (fld w 16 8).toNat
  BitVec.ofNat 32 (2 ^ 31 + (if n < 255 then n + 1 else 255) * 2 ^ 16 + kind % 16 * 16 + code % 16)

end Sys2Proof.Machine
end

