-- ==== Sys2Proof/Machine/Legal.lean ====
section
/-! DEFINITION. What the state adds to the decoding traps: features, format entries, counts, membership and the
register limit (R76, R78, R169, R183, R211, R334). -/

namespace Sys2Proof.Machine

/-- What the block adds to the operand rules of an instruction. -/
def Block.opCtx (b : Block) (now : Nat) (i : Instr) : OpCtx :=
  let c (fa : BitVec 4) := 32 / (fmtOf (b.fmt now fa.toNat)).cont
  { w64 := b.cfg.w == 64, hist := 128 / (max 1 b.cfg.w),
    cont := match i with
      | .cvtfEnc r | .cvtfDec r => c r.fa
      | _ => 1 }

/-- A matrix format that needs FEATSEL bit 2: a 4-bit container, or f4 or f5 (R76). -/
def Block.subByte (b : Block) (now : Nat) (f : BitVec 4) : Bool :=
  (fmtOf (b.fmt now f.toNat)).cont == 4 || f == 4 || f == 5

/-- FEATSEL bits that an instruction needs (R76). -/
def Block.feats (b : Block) (now : Nat) : Instr → List Nat
  | .dadd _ _ | .dmul _ _ | .dfma _ _ | .dcmp _ _ => [0]
  | .cvt _ d s _ _ => if d == .f64 || s == .f64 then [0] else []
  | .keyord _ w _ => if w then [0, 5] else [5]
  | .frcp _ | .frsq _ | .fexp2 _ | .flog2 _ | .fsin _ | .fcos _ | .ftanh _ => [1]
  | .mma r => if b.subByte now r.fa || b.subByte now r.fb then [2] else []
  | .mmax r => (if b.subByte now r.fa || b.subByte now r.fb then [2] else []) ++ (if r.flags.getLsbD 3 then [3] else [])
  | .bqnt r | .epiq r => if r.flags.getLsbD 0 then [3] else []
  | .cvtfEnc r => if r.flags.getLsbD 2 then [4] else []
  | .selhist _ | .selcut _ | .selpack _ | .selmerge _ => [5]
  | .red r => if r.op == .addx then [6, 7] else [6]
  | .emit _ | .emita _ | .emitc _ | .emitcCancel _ | .done _ | .qstatPool _ | .qstatNode _ | .qstatFail _
  | .qstatLive _ => [8]
  | .confirm _ => [9]
  | .launch _ => [10]
  | .stgw _ => [11]
  | .gath _ | .gathTile _ | .scat _ => [12]
  | _ => []

/-- FEATSEL bits that a word needs whose other fields may be reserved, so that subcode 5 hides 6 to 9 (R73, R76). -/
def Block.rawFeats (b : Block) (now : Nat) (w : DWord) : List Nat :=
  let op := (fld w 56 8).toNat
  if 0x60 ≤ op ∧ op ≤ 0x63 then [0]
  else if op = 0x70 then (if tyOf w = 8 ∨ subOf w = 8 then [0] else [])
  else if op = 0x72 then (if tyOf w = 8 then [0, 5] else [5])
  else if 0x68 ≤ op ∧ op ≤ 0x6E then [1]
  else if op = 0xA0 ∨ op = 0xA1 then
    (if b.subByte now (fld w 8 4) || b.subByte now (fld w 4 4) then [2] else []) ++
      (if op = 0xA1 ∧ w.getLsbD 3 then [3] else [])
  else if (op = 0x87 ∨ op = 0xA6) ∧ w.getLsbD 0 then [3]
  else if op = 0x71 ∧ w.getLsbD 2 then [4]
  else if 0x88 ≤ op ∧ op ≤ 0x8B then [5]
  else if op = 0xC5 then (if (fld w 20 8).toNat = 4 then [6, 7] else [6])
  else if (0xD8 ≤ op ∧ op ≤ 0xDA) ∨ op = 0xDC ∨ op = 0xDE then [8]
  else if op = 0xDD then [9]
  else if op = 0xDB then [10]
  else if op = 0xC2 then [11]
  else if op = 0xD4 ∨ op = 0xD5 then [12]
  else []

def State.featsOk (s : State) (l : List Nat) : Bool := l.all fun k => s.mod.featsel.getLsbD k

/-- Field `name` of a node-table entry (R330): little-endian bits. -/
def nodeFld (n : List Byte) (off lo len : Nat) : Nat := leVal ((n.drop off).take 4) / 2 ^ lo % 2 ^ len
def nodeValid (n : List Byte) : Bool := nodeFld n 0x10 23 1 == 1
/-- The node table entry that an instruction of a block names. -/
def State.node? (s : State) (u n : Nat) : Option (List Byte) :=
  match (s.launch (s.block u).cfg.launch).nodes[n]? with
  | some x => if nodeValid x then some x else none
  | none => none

/-- A block of a graph launch (R334, R335). -/
def State.inGraph (s : State) (u : Nat) : Bool := (s.launch (s.block u).cfg.launch).nodes != []

/-- Role mask of a barrier from its launch card (R207, R321). -/
def State.roleMask (s : State) (u level e : Nat) : Nat :=
  let card := (s.launch (s.block u).cfg.launch).card
  match level with
  | 0 => leVal ((card.drop 0x70).take 8) / 16 ^ e % 16
  | 1 => leVal ((card.drop 0x78).take 4) / 16 ^ e % 16
  | _ => leVal ((card.drop 0x7C).take 2) / 16 ^ e % 16
/-- Whether a thread is a member of a barrier (R207). -/
def State.isMember (s : State) (u t level e : Nat) : Bool := bitN (s.roleMask u level e) ((s.block u).role t)

/-- E lies below the block's count, and for arrivals the thread is a member (R211). -/
def State.barOk (s : State) (u t : Nat) (r : RX) (arrive : Bool) : Bool :=
  let c := (s.block u).cfg
  let l := (fld r.flags 0 2).toNat
  decide (r.e.toNat < (if l = 0 then c.nblk else if l = 1 then c.nclu else c.ngrd)) &&
    (!arrive || s.isMember u t l r.e.toNat)

/-- The formats of MMA and MMAX, the tile aside (R183). -/
def Block.mmaOk (b : Block) (now : Nat) (r : RX) (mx : Bool) : Bool :=
  let wa := b.fmt now r.fa.toNat
  let wb := b.fmt now r.fb.toNat
  let fa := fmtOf wa
  let fb := fmtOf wb
  let narrow := fa.cont == 4 || fa.cont == 8
  fmtValid wa && fmtValid wb && fa.cont == fb.cont && fa.cont != 32 &&
    ((fa.intm && fb.intm && narrow) || (!fa.intm && !fb.intm)) &&
    (!mx || (narrow && mxFmt r.fa fa && mxFmt r.fb fb))
where
  mxFmt (n : BitVec 4) (f : Fmt) : Bool := decide (2 ≤ n.toNat) && (decide (n.toNat < 8) || !f.intm)

/-- The part of subcode 9 that the block decides. -/
def State.nineOk (s : State) (u t : Nat) (i : Instr) : Bool :=
  let b := s.block u
  let fmt (f : BitVec 4) := fmtValid (b.fmt (s.nowB u) f.toNat)
  let tile (r : RX) := decide (r.e.toNat < b.cfg.ntile)
  match i with
  | .cvtfEnc r | .cvtfDec r => fmt r.fa
  | .tdecl r => tile r && fmt r.fa
  | .tfill r | .tfillIdent r | .tscan r | .tqry r | .tfree r | .tmarkDemote r => tile r
  | .tmarkRetype r => tile r && fmt r.fa
  | .mma r => tile r && b.mmaOk (s.nowB u) r false
  | .mmax r => tile r && b.mmaOk (s.nowB u) r true
  | .tcopy r | .gathTile r => tile r
  | .barv r | .barx r | .bars r => s.barOk u t r true
  | .barw r | .bart r | .bartOvf r => s.barOk u t r false
  | .emit r | .emita r => (s.node? u r.e.toNat).isSome
  | .emitc _ | .emitcCancel _ => s.inGraph u
  | _ => true

/-- The part of subcode 10 that the block decides (R140, R152, R155, R200, R78). -/
def State.tenOk (s : State) (u t : Nat) (i : Instr) : Bool :=
  let b := s.block u
  (i.fields (b.opCtx (s.nowB u) i)).all (fun o => o.ok && o.inLimit (s.thread u t).limit) &&
  match i with
  | .bqnt _ => b.cfg.w != 16
  | .epi r | .epiq r => b.cfg.nring != 0 || !(s.thread u t).guard r.g
  | _ => true

/-- The subcode of illegal-instruction for a thread at a decoded instruction, the lowest that holds (R73). -/
def State.illegal (s : State) (u t : Nat) (i : Instr) : Option Nat :=
  match i with
  | .idiv _ => some 4
  | _ =>
    if !s.featsOk ((s.block u).feats (s.nowB u) i) then some 5
    else if !i.typesOk then some 7
    else if !i.fmOk then some 8
    else if !(i.fxOk && s.nineOk u t i) then some 9
    else if !(i.immOk && s.tenOk u t i) then some 10
    else none

/-- The subcode of illegal-clause of a word at an index (R45, R74). -/
def clauseFault (hdr : DWord) (index : Nat) (i : Instr) : Option Nat :=
  let c := classOf i.opcode
  let last := index == hdrCount hdr
  if c != hdrClass hdr && !(c == 4 && last) then some 5
  else if i.terminal && !last then some 6
  else none

end Sys2Proof.Machine
end

