-- ==== Sys2Proof/Machine/Pool.lean ====
section
/-! DEFINITION. The queue pool of a launch, and what a block that ends leaves behind (R332, R333, R346). -/

namespace Sys2Proof.Machine

/-! ## Pool bytes (R332, R333) -/

/-- Waiting requests are granted from the head while their bytes fit; the threads that received them. -/
def serveList (size : Nat) : List PoolWait → Nat → List PoolWait × Nat × List (Nat × Nat)
  | [], charge => ([], charge, [])
  | w :: r, charge =>
    if w.granted then
      let (r, c, ts) := serveList size r charge
      (w :: r, c, ts)
    else if charge + w.bytes ≤ size then
      let (r, c, ts) := serveList size r (charge + w.bytes)
      ({ w with granted := true } :: r, c, (w.blk, w.tid) :: ts)
    else (w :: r, charge, [])

/-- Bytes have been freed or the pool has grown: waiting requests are served in order of arrival (R333). -/
def State.servePool (s : State) (number : Nat) : State :=
  let l := s.launch number
  let (ws, charge, ts) := serveList l.poolSize l.poolWait l.charge
  if ts = [] then s
  else
    let s := s.setLaunch number fun l => { l with poolWait := ws, charge := charge, poolCount := 0, poolPosted := false }
    ts.foldl (fun s e => (s.setThread e.1 e.2 fun t =>
      if t.st = .waiting .pool then t.wake (s.nowB e.1) else t).setRun e.1 fun r => { r with wdog := 0 }) s

/-- Requests of a launch, waiting or granted but not used, are given up. -/
def State.dropRequests (s : State) (n : Nat) (gone : PoolWait → Bool) : State :=
  if ((s.launch n).poolWait.filter gone) = [] then s
  else
    (s.setLaunch n fun l =>
      { l with poolWait := l.poolWait.filter (!gone ·),
               charge := l.charge - ((l.poolWait.filter fun w => gone w && w.granted).map (·.bytes)).foldl (· + ·) 0 }).servePool n

/-- A thread's request is given up. -/
def State.dropPool (s : State) (u t : Nat) : State :=
  s.dropRequests (s.block u).cfg.launch fun w => w.blk == u && w.tid == t

/-- Records leave the pool (R332). -/
def State.freeRecords (s : State) (number : Nat) (ids : List Nat) : State :=
  let gone (e : Nat × Record) := ids.contains e.1
  (s.setLaunch number fun l =>
    { l with records := l.records.filter (!gone ·),
             charge := l.charge - ((l.records.filter gone).map (·.2.size)).foldl (· + ·) 0 }).servePool number

/-- The block of a job. -/
def JobKind.block : JobKind → Nat
  | .result b _ _ _ _ => b
  | .windowAck b _ _ _ _ _ _ _ _ => b
  | .fillEnd b _ _ _ _ => b
  | .scanEnd b _ _ _ _ => b
  | .wrq b _ _ _ _ _ _ _ _ _ => b
  | .acp b _ _ _ _ _ _ _ _ => b

/-- The commands of a block that its cluster's image holds are dropped. -/
def State.dropSaved (s : State) (u : Nat) : State :=
  s.setCluster (s.block u).cfg.cluster fun x => { x with cmds := x.cmds.filter (·.blk != u), epis := x.epis.filter (·.blk != u) }

/-- Everything outside the block that belongs to it is dropped: bundles, jobs, accesses, commands, locks and requests. -/
def State.purgeBlock (s : State) (u : Nat) : State :=
  { s with
    bundles := s.bundles.filter fun e => e.2.blk != u,
    jobs := s.jobs.filter fun e => e.2.kind.block != u,
    cores := s.cores.map fun (k, c) => (k, { c with
      fifo := c.fifo.filter (·.blk != u), loads := c.loads.filter (·.blk != u), engq := c.engq.filter (·.blk != u),
      mq := c.mq.filter (·.blk != u), pass := if c.mq.head?.map (·.blk) = some u then none else c.pass, epiq := c.epiq.filter (·.blk != u) }),
    dmem := s.dmem.map fun (k, m) => (k, { m with
      gathq := m.gathq.filter (·.blk != u), locks := m.locks.filter (·.owner.1 != u) }) }

/-- Records that a block has reserved are cancelled as it ends (R332). -/
def State.cancelReserved (s : State) (u : Nat) : State :=
  let n := (s.block u).cfg.launch
  let ids := ((s.launch n).records.filter fun e => e.2.owner == u && e.2.st == .reserved).map (·.1)
  if ids = [] then s else s.freeRecords n ids

/-- Counters that follow a block's index stop when it ends, is pre-empted or is discarded (R306). -/
def State.stopCounters (s : State) (core res : Nat) : State :=
  let stop (c : Counter) : Counter :=
    if (fld c.cfg 10 2).toNat = 1 ∧ c.owner = res then { c with cfg := c.cfg &&& ~~~0x100 } else c
  s.setCore core fun k => { k with ctrs := k.ctrs.map fun (i, c) => (i, stop c) }

/-- Records that a block reserved or holds are freed, and its requests end (R332, R346). -/
def State.dropRecords (s : State) (u : Nat) : State :=
  let n := (s.block u).cfg.launch
  let ids := ((s.launch n).records.filter fun e => e.2.owner == u && (e.2.st == .held || e.2.st == .reserved)).map (·.1)
  let s := s.dropRequests n fun w => w.blk == u
  if ids = [] then s else s.freeRecords n ids

end Sys2Proof.Machine
end

