-- ==== Sys2Proof/Machine/Ops.lean ====
section
/-! DEFINITION. The shared operations of every instruction: taking a trap (R359), resuming from a frame (R363),
issuing for a bundle (R46-R48), parking (R29) and writing results (R47, R60). -/

namespace Sys2Proof.Machine

/-- What every meaning answers. -/
abbrev Out1 := Host.Outcome State Fault Refusal

/-! ## Leaving a bundle, discarding a block -/

/-- A thread leaves its bundle (R29); an empty bundle frees its unit from the next cycle. -/
def State.leave (s : State) (bid t : Nat) : State :=
  match tget s.bundles bid with
  | none => s
  | some b =>
    let ms := b.members.filter fun m => m.1 != t
    let now := s.now (dieOf b.core)
    s.setBundle bid fun b =>
      if ms = [] then { b with members := ms, ended := true, next := now + 1 } else { b with members := ms }

/-- Whether a condition is a discarding fault of an unconfirmed retryable block with attempts left (R346). -/
def State.discards (s : State) (u cause sub : Nat) : Bool :=
  let b := s.block u
  b.cfg.retryable && !b.run.confirmed && !b.run.confirming && decide (b.run.retries < b.cfg.retry) &&
    !(cause == 9 || cause == 4 || (cause == 1 && (sub == 4 || sub == 5)))

/-- The block and all its held state are discarded at once, and its resources are free (R346); it then waits to be run
again. -/
def State.discard (s : State) (u : Nat) : State :=
  let b := s.block u
  let s := (s.stopCounters b.core b.resIdx).setCluster b.cfg.cluster fun c => { c with hw := 0 }
  let s := s.setBlock u fun b =>
    { b with arrivals := [],
             run := { b.run with held := [], heldEmits := [], stopped := true, discarded := true, discardedAt := s.now 0,
                                 retries := b.run.retries + 1 } }
  (s.dropRecords u).purgeBlock u

/-! ## Traps -/

/-- Doublewords 0 to 7 of the frame (R360). -/
def frameWords (base : DWord) (index : Nat) (cause sub : Nat) (info : Word) (word faddr tsc : DWord)
    (preds : BitVec 7) : List Nat :=
  [index % 16 * 2 ^ 60 + base.toNat % 2 ^ 57, cause % 256 + sub % 65536 * 256 + info.toNat * 2 ^ 32, word.toNat, faddr.toNat,
   tsc.toNat, preds.toNat, 0, 0]

/-- Address of the frame in the slice (R361). -/
def BlockCfg.frameAddr (c : BlockCfg) : Nat := c.slice - 128

/-- A slice with doublewords written from the frame address on. -/
def putFrame (m : Mem) (a : Nat) : List Nat → Mem
  | [] => m
  | w :: r => putFrame (mwrite m a 8 w) (a + 8) r

/-- A thread waits on a supervisor entry of the given kind that names it (R362, R366). -/
def State.threadEntry (s : State) (u t : Nat) (p : Post) : State :=
  let d := dieOf (s.block u).core
  let (s, tok) := s.post d p
  s.setThread u t fun x => { x with st := .waiting (.entry d tok), hdr := none }

/-- Taking a thread-level trap at a position (R359): a discarding fault discards the block; inside the handler the
thread posts kind 8 and parks; else the frame is written, and the thread posts kind 7 and parks under a null trap
base, or stands at the handler with INH set, READY 8 cycles later. A TRAPBASE that is no multiple of 8 is used as it is
(log 87). -/
def State.trapAt (s : State) (u t : Nat) (base : DWord) (index cause sub : Nat) (info : Word)
    (word faddr : DWord) : State :=
  if (s.block u).run.discarded then s
  else if s.discards u cause sub then s.discard u
  else
    let b := s.block u
    let now := s.nowB u
    let s := s.tick b.core 0x12 none (some b.resIdx) 1
    let s := s.setThread u t fun x => { x with base := base, index := BitVec.ofNat 4 index, gang := none, atSlot := none,
                                               resuming := false, aged := false, drain := none, card := none }
    let detail := cause % 256 + sub % 65536 * 256
    if (s.thread u t).inh then
      s.threadEntry u t { s.threadPost u t 8 word with detail := detail, addr := faddr.toNat }
    else
      let tsc := s.tscAt (dieOf b.core)
      let s := s.setThread u t fun x =>
        { x with slice := putFrame x.slice b.cfg.frameAddr (frameWords base index cause sub info word faddr tsc x.preds) }
      if b.cfg.tbase = 0 then s.threadEntry u t { s.threadPost u t 7 word with detail := detail, addr := faddr.toNat }
      else s.setThread u t fun x =>
        { x with inh := true, base := b.cfg.tbase, index := 0, st := .ready, since := now + 8, hdr := none }

/-- The position that a frame's doubleword 0 names, given COUNT of the clause's header (R363). -/
def framePos (w hdr : DWord) (skip : Bool) : DWord × BitVec 4 :=
  let b := (fld w 0 57).setWidth 64
  let i := (fld w 60 4).toNat
  let c := hdrCount hdr
  if c < i then (fallThrough b hdr, 0)
  else if skip then (if i < c then (b, BitVec.ofNat 4 (i + 1)) else (fallThrough b hdr, 0))
  else (b, fld w 60 4)

/-- Resuming from the frame (R363): predicates from doubleword 5, INH clear, the new position. -/
def Thread.resume (t : Thread) (frame : Nat) (hdr : DWord) : Thread :=
  let w := BitVec.ofNat 64 (mread t.slice frame 8)
  let p := BitVec.ofNat 7 (mread t.slice (frame + 40) 8)
  let (b, i) := framePos w hdr (w.getLsbD 59)
  { t with preds := p, inh := false, base := b, index := i, resuming := false }

/-! ## Issuing -/

/-- An instruction of a bundle on its way: the block and unit, the position, the remaining members and those whose
guard is true, in rising thread index. -/
structure Iss where
  s : State
  bid : Nat
  u : Nat
  core : Nat
  now : Nat
  base : DWord
  index : Nat
  hdr : DWord
  i : Instr
  oc : OpCtx
  members : List Nat
  act : List Nat

def Iss.die (x : Iss) : Nat := dieOf x.core
def Iss.blk (x : Iss) : Block := x.s.block x.u
def Iss.thr (x : Iss) (t : Nat) : Thread := x.s.thread x.u t
/-- The word of the instruction, for frames and entries. -/
def Iss.word (x : Iss) : DWord := (encode x.i).getD 0

/-- What an instruction does once it can issue: the next state with its base issue cycles, or the whole bundle parks,
each member waiting as told, or READY again (R29). -/
inductive Eff where
  | go (s : State) (cost : Nat)
  | park (why : Nat → Option Wait)
  /-- some members have trapped in `y.s`; the rest of the bundle, `y.members`, parks -/
  | parkRest (y : Iss) (why : Nat → Option Wait)

/-- The trap of one member at the instruction: it leaves its bundle (R29, R359). -/
def Iss.trap (x : Iss) (s : State) (t cause sub : Nat) (info : Word := 0) (faddr : Nat := 0) : State :=
  (s.leave x.bid t).trapAt x.u t x.base x.index cause sub info x.word (BitVec.ofNat 64 faddr)

/-- One member waits at the instruction alone and issues it again (R26, R220). -/
def Iss.hold (x : Iss) (s : State) (t : Nat) (w : Wait) : State :=
  (s.leave x.bid t).setThread x.u t fun h =>
    { h with base := x.base, index := BitVec.ofNat 4 x.index, st := .waiting w, hdr := some x.hdr, gang := none }

/-- One member waits after the instruction: it leaves its bundle and stands at the next index (R136); in the middle of a
gathering clause it comes back alone (log 67). -/
def Iss.wait (x : Iss) (s : State) (t : Nat) (w : Wait) : State :=
  (s.leave x.bid t).setThread x.u t fun h => { h with st := .waiting w, hdr := none, gang := none }

/-- One member leaves its bundle at the instruction and is held by a supervisor entry that names it (R215, R366). -/
def Iss.entry (x : Iss) (s : State) (t : Nat) (f : Post → Post) : State :=
  let s := (s.leave x.bid t).setThread x.u t fun h =>
    { h with base := x.base, index := BitVec.ofNat 4 x.index, gang := none }
  (s.threadEntry x.u t (f (s.threadPost x.u t 0 x.word))).setThread x.u t fun h => { h with hdr := some x.hdr }

/-- The guard of an instruction in a thread (R46, R52). -/
def Thread.guards (t : Thread) (i : Instr) : Bool :=
  match i.guard? with
  | some g => t.guard g
  | none => true

/-- What keeps an instruction from issuing for a thread: pending registers and predicates among its operands, its
guard, or, where the guard is true, a full scoreboard slot (R47, R48). -/
def pendingOf (t : Thread) (i : Instr) (oc : OpCtx) (slot : Option Nat) : List Nat × List Nat × Option Nat :=
  let g := match i.guard? with
    | some g => if g.pg = 7 then [] else [g.pg.toNat]
    | none => []
  ((i.regsUsed oc).filter t.pend.contains, (g ++ i.predsUsed oc).filter t.ppend.contains,
   slot.bind fun k => if t.guards i ∧ tgetD t.sb k 0 = 15 then some k else none)

/-- The whole bundle parks: every member records the instruction's index; its unit is free at once (R29, R30). -/
def State.parkBundle (s : State) (x : Iss) (why : Nat → Option Wait) : State :=
  let gang := if hdrGather x.hdr = 0 then none else x.members.head?.map (4096 * x.now + ·)
  let s := x.members.foldl (fun s t => s.setThread x.u t fun h =>
    { h with base := x.base, index := BitVec.ofNat 4 x.index, hdr := none, gang := gang,
             st := match why t with
               | some w => .waiting w
               | none => .ready,
             since := x.now + 1 }) s
  { s with bundles := tdel s.bundles x.bid }

/-- Members in rising thread index. -/
def Bundle.tids (b : Bundle) : List Nat := dedupN (sortBy (fun a b => decide (a < b)) (b.members.map (·.1)))

/-- The members advance to the next index, or fall through at the end of the clause (R29, R42). -/
def Thread.advance (t : Thread) (base : DWord) (index : Nat) (hdr : DWord) : Thread :=
  if index = hdrCount hdr then { t with base := fallThrough base hdr, index := 0 }
  else { t with base := base, index := BitVec.ofNat 4 (index + 1) }

/-- Whether the word is illegal for a thread hangs on a guard whose predicate is pending: EPI and EPIQ in a block without
a ring (R52, R200). -/
def State.undecided (s : State) (u t : Nat) (i : Instr) : Bool :=
  match i with
  | .epi r | .epiq r => (s.block u).cfg.nring == 0 && r.g.pg != 7 && (s.thread u t).ppend.contains r.g.pg.toNat
  | _ => false

/-- Steps 3 and 4 of R358: members that may not execute the word trap, each by itself (R46, R75). -/
def State.decodeTraps (s : State) (x : Iss) : State :=
  x.members.foldl (fun r t =>
    if s.undecided x.u t x.i then r else
    match s.illegal x.u t x.i with
    | some sub => x.trap r t 1 sub
    | none =>
      match clauseFault x.hdr x.index x.i with
      | some sub => x.trap r t 2 sub
      | none => r) s

/-- What an operand cache may hold of a thread after an instruction: at most four registers, those of reads with the keep
bit first; a last-use read drops its register (R84). Which four stay of more than four is the model's choice: the newest
(log 55). -/
def keptOf (keeps kills old : List Nat) : List Nat := ((dedupN (keeps ++ old)).filter (!kills.contains ·)).take 4

/-- The operand caches of the executing threads after the instruction, and the reads that they served (R84). -/
def Iss.caches (x : Iss) (b : Bundle) : List (Nat × Nat) × Nat :=
  let keeps := x.i.keeps x.oc
  if keeps = [] ∧ b.kept = [] then ([], 0)
  else
    let old (t : Nat) := (b.kept.filter fun e => e.1 == t).map (·.2)
    ((x.act.flatMap fun t => (keptOf keeps (x.i.kills x.oc) (old t)).map fun r => (t, r)) ++
       b.kept.filter (fun e => !x.act.contains e.1),
     (x.act.map fun t => (keeps.filter fun r => (old t).contains r && Config.cacheServes x.s.sched x.bid t r).length).sum)

/-- After the effect: the bundle stands at the next index; `settle` adds the crossbar cost at the end of the cycle, of the
members that the instruction found. A bundle whose members have all left holds its unit for the instruction's cycles. -/
def State.afterIssue (s : State) (x : Iss) (cost : Nat) : State :=
  let res := (x.s.block x.u).resIdx
  let found := ((tget x.s.bundles x.bid).map (·.members)).getD []
  let cache := x.caches (((tget x.s.bundles x.bid)).getD {})
  let s := s.setBundle x.bid fun b =>
    { b with index := BitVec.ofNat 4 (x.index + 1), next := x.now + cost, cost := cost, ran := found, kept := cache.1,
             ended := decide (x.index = hdrCount x.hdr ∨ b.members = []) }
  let s := s.tick x.core 0x01 none (some res) 1
  let s := s.tick x.core 0x02 none (some res) x.act.length
  let s := s.tick x.core 0x0D none (some res) cache.2
  s.setRun x.u fun r => { r with wdog := 0 }

/-- What becomes of the current bundle's instruction before its effect: it does not issue, or it issues. -/
inductive Admit where
  | done (s : State)
  | go (x : Iss)

/-- EXIT waits for every pending register and predicate of the thread (R133). -/
def drains : Instr → Bool
  | .exit _ => true
  | _ => false

/-- What an instruction waits for in a thread, if anything (R47, R48, R133). -/
def Thread.blocked (t : Thread) (i : Instr) (oc : OpCtx) (slot : Option Nat) : Option Wait :=
  let p := pendingOf t i oc slot
  if drains i ∧ (t.pend ≠ [] ∨ t.ppend ≠ []) then some .drain
  else if p.1 = [] ∧ p.2.1 = [] ∧ p.2.2 = none then none else some (.pending p.1 p.2.1 p.2.2)

/-- Decoding traps, interlocks and the guard for the current bundle; a bundle that issues stands at the next index
(R46-R48). A word at which every member traps counts as issued, and a guard is no source of event 0x07 (log 92). -/
def State.admission (s : State) (i : Instr) : Admit :=
  match s.cur.bind fun bid => (tget s.bundles bid).map fun b => (bid, b) with
  | none => .done s
  | some (bid, b) =>
    if b.ended then .done s
    else
      let x0 : Iss := { s := s, bid := bid, u := b.blk, core := b.core, now := s.now (dieOf b.core), base := b.base,
                        index := b.index.toNat, hdr := b.hdr, i := i,
                        oc := (s.block b.blk).opCtx (s.nowB b.blk) i, members := b.tids, act := [] }
      let s1 := s.decodeTraps x0
      let ms := ((tget s1.bundles bid).map Bundle.tids).getD []
      let slot := if i.varLat then hdrSetSb b.hdr else none
      let x1 := { x0 with s := s1, members := ms }
      if ms = [] then .done (s1.afterIssue x0 1)
      else if ms.any fun t => ((s1.thread b.blk t).blocked i x0.oc slot).isSome then
        let source := ms.any fun t => (i.sources x0.oc).any (s1.thread b.blk t).pend.contains ||
          (i.predSources x0.oc).any (s1.thread b.blk t).ppend.contains
        .done ((s1.parkBundle x1 fun t => (s1.thread b.blk t).blocked i x0.oc slot).tick b.core 0x07 none
          (some (s.block b.blk).resIdx) (b2n source))
      else
        .go { x1 with
          s := ms.foldl (fun s t => s.setThread b.blk t fun h => h.advance b.base b.index.toNat b.hdr) s1,
          act := ms.filter fun t => (s1.thread b.blk t).guards i }

/-- Issue of an instruction for the current bundle (R29, R46-R48). -/
def issue (s : State) (i : Instr) (eff : Iss → Eff) : Out1 :=
  match s.admission i with
  | .done t => .next t
  | .go x =>
    match eff x with
    | .park why => .next (x.s.parkBundle x why)
    | .parkRest y why => .next (y.s.parkBundle y why)
    | .go t cost => .next (t.afterIssue x cost)

/-- Sources that an instruction marks as last use end in the threads that execute it (R60). -/
def Iss.killed (x : Iss) (s : State) : State :=
  let k := x.i.kills x.oc
  if k = [] then s else x.act.foldl (fun s t => s.setThread x.u t fun h => h.kills k) s

/-! ## Results -/

/-- Register, predicate and flag results of one thread. -/
structure Res where
  regs : List (Nat × Word) := []
  preds : List (Nat × Bool) := []
  flags : Word := 0
  deriving DecidableEq, Repr

/-- A fixed-latency result: sources end (R60), then destinations are written, flags are set. -/
def Thread.put (t : Thread) (kills : List Nat) (r : Res) : Thread :=
  (((t.kills kills).wrs r.regs).wrPs r.preds).flag r.flags

/-- A variable-latency instruction issues: sources end, destinations are pending, the slot counts (R47, R48). -/
def Thread.sent (t : Thread) (kills regs preds : List Nat) (sb : Option Nat) : Thread :=
  let t := t.kills kills
  { t with pend := t.pend ++ regs.filter (· != 255), ppend := t.ppend ++ preds,
           sb := match sb with
             | some k => tset t.sb k (tgetD t.sb k 0 + 1)
             | none => t.sb }

/-- The last destination is written: pending bits clear, the slot counts down (R47, R48). -/
def Thread.landed (t : Thread) (regs : List (Nat × Word)) (preds : List (Nat × Bool)) (sb : Option Nat) : Thread :=
  let t := (t.wrs regs).wrPs preds
  { t with pend := t.pend.filter fun r => !(regs.map (·.1)).contains r,
           ppend := t.ppend.filter fun p => !(preds.map (·.1)).contains p,
           sb := match sb with
             | some k => tset t.sb k (tgetD t.sb k 0 - 1)
             | none => t.sb }

/-- Scoreboard slot of a bundle's clause. -/
def Iss.slot (x : Iss) : Option Nat := hdrSetSb x.hdr

/-- A variable-latency result in flight: written within `bound` cycles of issue, the exact cycle free (R112). -/
def Iss.send (x : Iss) (s : State) (t : Nat) (kills : List Nat) (regs : List (Nat × Word)) (preds : List (Nat × Bool))
    (bound : Nat) : State :=
  let s := s.setThread x.u t fun h => h.sent kills (regs.map (·.1)) (preds.map (·.1)) x.slot
  (s.addJob x.die (x.now + 1 + Config.latency s.draws % bound) (.result x.u t regs preds x.slot)).drawn

/-- A thread-by-thread instruction of fixed latency. -/
def alu (s : State) (i : Instr) (cost : Nat) (f : Iss → Nat → Thread → Res) : Out1 :=
  issue s i fun x =>
    .go (x.act.foldl (fun r t => r.setThread x.u t fun h => h.put (i.kills x.oc) (f x t (x.thr t))) x.s) cost

/-- A thread-by-thread instruction of variable latency, written within 64 cycles (R112). -/
def aluV (s : State) (i : Instr) (cost : Nat) (f : Iss → Nat → Thread → Res) : Out1 :=
  issue s i fun x =>
    .go (x.act.foldl (fun r t => let v := f x t (x.thr t); x.send r t (i.kills x.oc) v.regs v.preds 64) x.s) cost

/-- An event: enabled, it answers its effect; not enabled, nothing happens (log 3). -/
def event (s : State) (enabled : Bool) (effect : State) : Out1 := .next (if enabled then effect else s)

end Sys2Proof.Machine
end

