-- ==== Sys2Proof/Machine/Assay.lean ====
section
/-! DEFINITION. Tiles and their forms (R168-R173), and stores into an allotment (R172). -/

namespace Sys2Proof.Machine

def Form.code : Form → Nat
  | .general => 0 | .zero => 1 | .const => 2 | .ident => 3
def TileSt.code : TileSt → Nat
  | .empty => 0 | .filling => 1 | .ready => 2 | .draining => 3

/-- Container width, element count and size in bytes of a tile (R168). -/
def Tile.cont (t : Tile) : Nat := (fmtOf t.fval).cont
def Tile.r (t : Tile) : Nat := t.rows + 1
def Tile.c (t : Tile) : Nat := t.cols + 1
def Tile.count (t : Tile) : Nat := t.r * t.c
def Tile.size (t : Tile) : Nat := t.count * t.cont / 8
def Tile.declared (t : Tile) : Bool := t.st != .empty
/-- Linear index of element (i, j), and the position of a linear index (R168). -/
def Tile.lin (t : Tile) (i j : Nat) : Nat := if t.layout = 0 then i * t.c + j else j * t.r + i
def Tile.pos (t : Tile) (k : Nat) : Nat × Nat := if t.layout = 0 then (k / t.c, k % t.c) else (k % t.r, k / t.r)

/-- A container in a byte list by its linear index. -/
def contAt (m : Nat → Byte) (c k : Nat) : Nat :=
  let b := k * c / 8
  if c = 4 then (m b).toNat / 2 ^ (4 * (k % 2)) % 16
  else leVal ((List.range (c / 8)).map fun i => m (b + i))

/-- The element bits of a tile by linear index; padding is ignored (R101). -/
def Tile.elem (t : Tile) (mem : Mem) (k : Nat) : Nat :=
  contAt (fun b => mget mem (t.base + b)) t.cont k % 2 ^ (fmtOf t.fval).width

/-- The encoding of +1 in a format, if there is one (R173, R176). -/
def oneCode (f : Fmt) : Option Nat :=
  let c := (f.convert .rne (.fin false 1 0)).code
  if f.value c = .fin false 1 0 ∨ (!(f.value c).isNan ∧ (f.value c).cmp (.fin false 1 0) = .eq) then some c else none

/-- Whether one element agrees with a form at its position (R172, R173). -/
def Tile.agrees (t : Tile) (mem : Mem) (fm : Form × Word) (k : Nat) : Bool :=
  let f := fmtOf t.fval
  let e := t.elem mem k
  match fm.1 with
  | .general => true
  | .zero => (f.value e).isZero
  | .const => e == fm.2.toNat
  | .ident => if (t.pos k).1 = (t.pos k).2 then oneCode f == some e else (f.value e).isZero

/-- Linear indices of the elements with a bit in bytes [a, a + n) of the allotment. -/
def Tile.touched (t : Tile) (a n : Nat) : List Nat :=
  let lo := max a t.base - t.base
  let hi := min (a + n) (t.base + t.size) - t.base
  if hi ≤ lo ∨ t.cont = 0 then []
  else
    let k0 := lo * 8 / t.cont
    (List.range (ceilDiv (hi * 8) t.cont - k0)).map (k0 + ·)

def Tile.overlaps (t : Tile) (a n : Nat) : Bool :=
  t.declared && decide (a < t.base + t.size) && decide (t.base < a + n)

/-- The Assay's rule for one tile after a store of bytes [a, a + n) (R172). -/
def Tile.assay (t : Tile) (mem : Mem) (a n : Nat) : Tile :=
  if !t.overlaps a n then t
  else
    let ks := t.touched a n
    let low (fm : Form × Word) : Form × Word := if ks.all (t.agrees mem fm) then fm else (.general, 0)
    let f := low (t.form, t.cval)
    { t with form := f.1, cval := f.2, next := t.next.map low }

/-- Bytes stored into a block's allotment; a tile's bytes and form change together (R172). -/
def Block.spWrite (b : Block) (a : Nat) (l : List Byte) : Block :=
  let m := mputs b.scratch a l
  { b with scratch := m, tiles := b.tiles.map fun e => (e.1, e.2.assay m a l.length) }
def State.spWrite (s : State) (u a : Nat) (l : List Byte) : State := s.setBlock u fun b => b.spWrite a l

/-- The form a whole tile has: ZERO, IDENT, CONST of element (0, 0), else GENERAL (R177). -/
def Tile.classify (t : Tile) (mem : Mem) : Form × Word :=
  let ks := List.range t.count
  let e0 := BitVec.ofNat 32 (t.elem mem 0)
  if ks.all (t.agrees mem (.zero, 0)) then (.zero, 0)
  else if ks.all (t.agrees mem (.ident, 0)) then (.ident, 0)
  else if ks.all (t.agrees mem (.const, e0)) then (.const, e0)
  else (.general, 0)

/-- Bytes of a tile whose container k is `f k`. -/
def packConts (c n : Nat) (f : Nat → Nat) : List Byte :=
  if c = 4 then (List.range (n / 2)).map fun j => BitVec.ofNat 8 (f (2 * j) % 16 + 16 * (f (2 * j + 1) % 16))
  else (List.range n).flatMap fun k => leBytes (c / 8) (f k)

/-- The whole tile-table entry as TQRY returns it (R168). -/
def Tile.words (t : Tile) : List Word :=
  [BitVec.ofNat 32 t.base,
   BitVec.ofNat 32 (t.form.code * 2 ^ 24 + t.st.code * 2 ^ 22 + t.layout * 2 ^ 20 + t.fmt * 2 ^ 16 + t.cols * 2 ^ 8 + t.rows),
   t.cval, 0]

/-- Entry of a tile. -/
def Block.tile (b : Block) (e : Nat) : Tile := tgetD b.tiles e {}
def Block.setTile (b : Block) (e : Nat) (f : Tile → Tile) : Block := { b with tiles := tset b.tiles e (f (b.tile e)) }
def State.setTile (s : State) (u e : Nat) (f : Tile → Tile) : State := s.setBlock u fun b => b.setTile e f

/-- A tile that a thread waits for has left FILLING or DRAINING: with the last one the thread becomes READY (R170). -/
def Thread.tileLeft (t : Thread) (e now : Nat) : Thread :=
  match t.st with
  | .waiting (.tile l) =>
    let l := l.filter (· != e)
    if l = [] then t.wake now else { t with st := .waiting (.tile l) }
  | _ => t

/-- A tile of a block leaves FILLING or DRAINING for READY: the threads that wait for it go on, whatever becomes of it
later in the cycle (R170). -/
def State.tileDone (s : State) (u e : Nat) (f : Tile → Tile) : State :=
  let now := s.nowB u
  (s.setTile u e fun t => { f t with st := .ready }).setBlock u fun b => b.wakes fun _ t => t.tileLeft e now

end Sys2Proof.Machine
end

