-- ==== Sys2Proof/Machine/Mint.lean ====
section
/-! DEFINITION. The Mint: waits that end, header checks, gathering, ranking and placement (R26-R37, R43, R49), and the
end of a cycle on a core (R28, R34, R94, R137). -/

namespace Sys2Proof.Machine

/-- Whether the Mint forms bundles for a block (R29, R346, R370, R371). -/
def BlockRun.served (r : BlockRun) : Bool :=
  !r.stopped && !r.preempted && !r.completed && !r.discarded

/-- The resident blocks of a core by rising resident-block index. -/
def State.residents (s : State) (core : Nat) : List (Nat × Block) :=
  sortBy (fun a b => decide (a.2.resIdx < b.2.resIdx))
    (s.blocks.filter fun e => e.2.core == core && !e.2.run.preempted && !e.2.run.completed && !e.2.run.discarded)

/-! ## Waits that the core polls -/

/-- Line entries that a core's store FIFO holds (R222): fence markers, ATOMs with a result and held writes under
confirmation take none. -/
def Core.fifoUsed (c : Core) : Nat :=
  (c.fifo.filter fun e => !e.ordered && match e.kind with
    | .fence => false
    | .atoms ops => ops.all fun o => o.dest.isNone
    | _ => true).length

/-- Capacity and length of a queue by its number in `Wait.queue` (R181, R222, R276, R318). -/
def State.queueRoom (s : State) (core kind : Nat) : Nat :=
  let c := s.core core
  match kind with
  | 0 => 64 - c.fifoUsed
  | 1 => 32 - c.engq.length
  | 2 => 64 - (s.dm (dieOf core)).gathq.length
  | 3 => 16 - (c.mq.length - (match c.pass with
      | some p => if p.start < s.now (dieOf core) then p.left else 0
      | none => 0))
  | 4 => 16 - c.epiq.length
  | _ => 64 - (s.dm (dieOf core)).devq.length

/-- Claims of ring slots that a block may still make (R200). -/
def State.claimRoom (s : State) (u : Nat) (b : Block) : Nat :=
  b.cfg.nring - ((s.core b.core).epiq.filter fun c => c.blk == u && c.out.isNone).length

/-- Earlier accesses of a thread at the core that are not done: loads, and FIFO entries. -/
def Core.loadsOf (c : Core) (u t seq : Nat) : List Load :=
  c.loads.filter fun l => l.blk == u && l.tid == t && decide (l.seq < seq)
def Core.entriesOf (c : Core) (u t seq : Nat) : List Entry :=
  c.fifo.filter fun e => e.blk == u && e.tids.contains t && decide (e.seq < seq) && e.st != .performed

/-- The store FIFO holds no entry of a thread from before an access, performed or not (R234). -/
def Core.fifoClear (c : Core) (u t seq : Nat) : Bool :=
  c.fifo.all fun e => !(e.blk == u && e.tids.contains t && decide (e.seq < seq))

/-- An acquire of a thread before an access is outstanding: later accesses wait for it (R268). -/
def Core.acquiring (c : Core) (u t seq : Nat) : Bool :=
  (c.loadsOf u t seq).any (·.acquire) || (c.entriesOf u t seq).any (·.acquire)

/-- What keeps a scratchpad access of a thread from being performed: an acquire that is outstanding and, for an access that
writes, a fence marker that is not performed (R165, R268). -/
def Core.barred (c : Core) (u t seq : Nat) (store : Bool) : Bool :=
  c.acquiring u t seq || (store && (c.entriesOf u t seq).any (·.kind == .fence))

/-- A line holds bytes that are performed locally only, or a W partial, of writes that the thread made or may have
observed before the access `seq` (R253, R267, R268). -/
def L2Line.unsettled (l : L2Line) (u t seq : Nat) : Bool :=
  (l.loc != [] || (l.st == some .W && l.data != [])) &&
    (decide (l.firstAt ≤ seq) || l.locBy.contains (u, t) || l.writers.contains (u, t))

/-- Every write of a die that precedes an access in its order is performed at DEV scope. -/
def State.dieSettled (s : State) (d u t seq : Nat) : Bool := (s.dm d).lines.all fun e => !e.2.unsettled u t seq

/-- Every write of a die that a block made, or may have observed before an access, is performed at DEV scope. -/
def State.blockSettled (s : State) (d u seq : Nat) : Bool :=
  (s.dm d).lines.all fun e =>
    !e.2.unsettled u 0 seq && ((e.2.locBy ++ e.2.writers).all (·.1 != u) || (e.2.loc == [] && (e.2.st != some .W || e.2.data == [])))

/-- The accesses before which a thread has made or observed writes, at its access `seq` (R268). -/
def State.sawBefore (s : State) (u t seq : Nat) : Nat := max seq (s.thread u t).seen

/-- A line holds bytes under a mask that the thread wrote: a W partial, or one whose GetW is out (R253). -/
def L2Line.masks (l : L2Line) (u t : Nat) : Bool :=
  (l.st == some .W && l.data != [] && l.writers.contains (u, t)) ||
    (l.locMask && l.loc != [] && l.locBy.contains (u, t))

/-- Every W partial of a die that holds bytes of a thread is at its home (R234, R253, R271). -/
def State.partialsHome (s : State) (d u t : Nat) : Bool := (s.dm d).lines.all fun e => !e.2.masks u t

/-- Every update that a slice of the die sent before an access is applied. -/
def State.dieApplied (s : State) (d seq : Nat) : Bool :=
  (s.cores.filter fun e => dieOf e.1 == d).all fun e => e.2.upds.all fun p => decide (seq < p.pos)

/-- On a die, the writes before an access are applied, the thread's partials are at their homes, and at the wide scopes
every such write has its place in memory's order (R234, R253, R267, R268). -/
def State.atScope (s : State) (d u t seq scope : Nat) : Bool :=
  s.dieApplied d seq && s.partialsHome d u t && (decide (scope < 4) || s.dieSettled d u t seq)

/-- Every WRQ that a thread issued before an access is done: its writes are then performed at every scope (R240, R268). -/
def State.wrqOver (s : State) (u t seq : Nat) : Bool :=
  s.jobs.all fun e => match e.2.kind with
    | .wrq u2 t2 _ _ _ _ q _ _ _ => !(u2 == u && t2 == t && decide (q < seq))
    | _ => true

/-- Every earlier write of a thread, and every write it has observed, is performed at a scope (R234, R265-R268). Writes that
an unconfirmed block holds are performed at no scope before the confirmation and are not waited for (R272, log 75). -/
def State.performed (s : State) (u t seq scope : Nat) : Bool :=
  let core := (s.block u).core
  ((s.core core).entriesOf u t seq).isEmpty && s.wrqOver u t seq && s.atScope (dieOf core) u t (s.sawBefore u t seq) scope

/-- Every access issued before a purge is performed at DEV scope, engine writes that are away too, and the held writes that were
translated through what it has dropped (R355). -/
def State.purged (s : State) (mark : Nat) : Bool :=
  (s.cores.all fun e => e.2.fifo.all (fun x => decide (mark ≤ x.seq) || x.st == .performed) &&
    e.2.loads.all (fun l => decide (mark ≤ l.seq)) && e.2.upds.all fun p => decide (mark < p.pos)) &&
  (s.blocks.all fun e => e.2.run.held.all fun h => !h.old || decide (mark ≤ h.seq)) &&
  (s.away.all fun a => a.cmd.isNone || decide (mark < a.seq)) &&
  s.dmem.all fun e => e.2.lines.all fun l => (l.2.loc == [] && (l.2.st != some .W || l.2.data == [])) || decide (mark < l.2.firstAt)

/-- A thread's accesses below a number have their results, and with `sc` are performed at a scope (R234, R268). -/
def State.fenceOver (s : State) (u core tid : Nat) (sc : Bool) (scope seq : Nat) : Bool :=
  ((s.core core).loadsOf u tid seq).isEmpty && ((s.core core).entriesOf u tid seq).all (fun e => match e.kind with
    | .atoms ops => ops.all fun o => o.tid != tid || o.dest.isNone
    | _ => true) && (!sc || s.performed u tid seq scope)

/-- Whether a polled wait of a thread is over. -/
def State.waitOver (s : State) (u : Nat) (b : Block) (tid : Nat) (t : Thread) : Wait → Bool
  | .scoreboard => match t.hdr with
    | some h => (List.range 6).all fun k => !bitN (hdrWait h) k || tgetD t.sb k 0 == 0
    | none => true
  | .pending r p k => r.all (!t.pend.contains ·) && p.all (!t.ppend.contains ·) &&
      (match k with
       | some k => decide (tgetD t.sb k 0 < 15)
       | none => true)
  | .drain => t.pend == [] && t.ppend == []
  | .tile l => l.all fun k => let x := tgetD b.tiles k {}; x.st != .filling && x.st != .draining
  | .pinned u2 l => l.all fun k => (tgetD (s.block u2).tiles k {}).pins == 0
  | .slot q o i =>
    let x := tgetD b.slots q {}
    (!o || (x.st != .sealed && x.st != .draining)) && (!i || x.queued == 0)
  | .faultFull d sl _ _ _ => decide (((s.dm d).faults.filter fun f => f.slice == sl).length < 64)
  | .acp tag n => decide (tgetD t.acp tag 0 ≤ n)
  | .queue k room => decide (room ≤ (if k = 6 then s.claimRoom u b else s.queueRoom b.core k))
  | .fence sc scope seq => s.fenceOver u b.core tid sc scope seq && (!sc || (s.core b.core).fifoClear u tid seq)
  | .peers scope l => l.all fun e => s.fenceOver u b.core e.1 true scope e.2
  | .lock d blk seq epi => (s.dm d).locks.all fun l => l.owner != (blk, seq, epi)
  | .purge mark => s.purged mark
  | .acquired seq store => !(s.core b.core).barred u tid seq store
  | .stacks line => !s.lineBusy line && !s.noted line
  | .heldFull d sl => decide (((s.dm d).faults.filter fun f => f.slice == sl).length < 64)
  | .confirm => !b.run.confirming
  | _ => false

/-- A thread whose fault found the table full takes an entry, or attaches to one, once there is room (R354). -/
def State.faultRoom (s : State) (u t : Nat) : State :=
  match (s.thread u t).st with
  | .waiting (.faultFull d _ va k w) =>
    let (s, w) := s.faultAttach d (s.ctxOf u) va k (s.threadPost u t 1 w)
    s.setThread u t fun x => x.await w
  | _ => s

/-- Threads whose polled wait is over become READY in the next cycle (R26); a fault that found its table full takes an
entry instead (R354). -/
def State.pollWaits (s : State) (core : Nat) : State :=
  let now := s.now (dieOf core)
  let s := (s.residents core).foldl (fun r (u, b) =>
    (b.threads.filter fun (i, t) => match t.st with
      | .waiting (.faultFull d sl va k w) => s.waitOver u b i t (.faultFull d sl va k w)
      | _ => false).foldl (fun r (i, _) => r.faultRoom u i) r) s
  (s.residents core).foldl (fun r (u, b) =>
    let done := b.threads.filter fun (i, t) => match t.st with
      | .waiting (.faultFull _ _ _ _ _) => false
      | .waiting w => s.waitOver u b i t w
      | _ => false
    if done = [] then r
    else (done.foldl (fun r (i, _) => r.setThread u i fun x => x.wake now) r).setRun u fun x => { x with wdog := 0 }) s

/-! ## Headers (R43) -/

/-- What a fetch that does not succeed does to a thread alone: it waits on a fault-table entry, or takes memory fault
(R43, R347, R351). -/
def State.fetchFail (s : State) (u t va index : Nat) (f : XRes) : State :=
  let d := dieOf (s.block u).core
  match f with
  | .demand k =>
    let (s, w) := s.faultAttach d (s.ctxOf u) va k (s.threadPost u t 1 0)
    s.setThread u t fun x => x.await w
  | .later line => s.setThread u t fun x => x.await (.stacks line)
  | .outside => s.trapAt u t (s.thread u t).base index 10 4 0 0 (BitVec.ofNat 64 va)
  | _ => s.trapAt u t (s.thread u t).base index 10 5 0 0 (BitVec.ofNat 64 va)

/-- A thread held by kind 7 resumes from its frame as ERET does, once the header at the frame's position is read for its COUNT;
that read waits or faults as a header fetch of the thread at the position does (R363, R369). -/
def State.resumeFrame (s : State) (u t : Nat) : State :=
  let frame := (s.block u).cfg.frameAddr
  let w := BitVec.ofNat 64 (mread (s.thread u t).slice frame 8)
  let b := (fld w 0 57).toNat
  match s.fetch u b with
  | (s, .ok h) => s.wakeThread u t fun x => (x.resume frame h).wake (s.nowB u)
  | (s, .error f) =>
    (s.setThread u t fun x => { x with base := BitVec.ofNat 64 b, resuming := true }).fetchFail u t b (fld w 60 4).toNat f

/-- Fetch and check of one thread's header; its WAIT slots are then evaluated (R43, R48, R74). A parked thread whose recorded
index is above COUNT of the header that is there now stands at the next clause, as ERET would place it (R363, log 100). -/
def State.fetchHeader (s : State) (u t : Nat) : State :=
  let th := s.thread u t
  if th.resuming then s.resumeFrame u t
  else match s.fetch u th.base.toNat with
  | (s, .error f) => s.fetchFail u t th.base.toNat 0 f
  | (s, .ok h) =>
    match headerFault h with
    | some sub => s.trapAt u t th.base 0 2 sub 0 h 0
    | none =>
      if hdrCount h < th.index.toNat then
        s.setThread u t fun x => { x with base := fallThrough x.base h, index := 0 }
      else if (List.range 6).any fun k => bitN (hdrWait h) k && tgetD th.sb k 0 != 0 then
        s.setThread u t fun x => { x.await .scoreboard with hdr := some h }
      else s.setThread u t fun x => { x with hdr := some h }

def Thread.canRank (t : Thread) (now : Nat) : Bool := t.st == .ready && decide (t.since ≤ now)

/-- Headers of the threads that are READY and stand at an unchecked clause. -/
def State.headers (s : State) (core : Nat) : State :=
  let now := s.now (dieOf core)
  (s.residents core).foldl (fun s (u, b) =>
    if b.run.served then
      (b.threads.filter fun e => e.2.canRank now && e.2.hdr.isNone).foldl (fun s e => s.fetchHeader u e.1) s
    else s) s

/-! ## Gathering clauses (R35) -/

/-- Threads of a unit that are awaited, and their positions: the cohort, or one octet of it. -/
def Block.unitOf (b : Block) (gather t : Nat) : List Nat :=
  (b.liveCohort (b.cohort t)).filter fun x => gather == 2 || b.cohPos x / 8 == b.cohPos t / 8

/-- Whether a thread stands at a gathering clause with index 0, its header checked. -/
def Thread.atGather (t : Thread) (base : DWord) (now : Nat) : Bool :=
  t.base == base && t.index == 0 && (t.canRank now || t.st == .waiting .gather)

/-- A member of a thread's unit has exited in this cycle: the unit is complete from the next on (R26, R35). -/
def Block.justExited (b : Block) (gather t now : Nat) : Bool :=
  b.threads.any fun e => e.2.exited && e.2.since == now && b.cohort e.1 == b.cohort t &&
    (gather == 2 || b.cohPos e.1 / 8 == b.cohPos t / 8)

/-- One READY thread at a gathering clause: its unit is released if it is complete, else the thread is held. A thread of a
parked gathering bundle is not held: the bundle re-forms when its members are ready, with the other members of the unit where
all of them stand there (R30, R35, log 67). -/
def State.gatherThread (s : State) (u t : Nat) : State :=
  let b := s.block u
  let th := s.thread u t
  let now := s.nowB u
  match th.hdr with
  | none => s
  | some h =>
    if hdrGather h = 0 ∨ th.index ≠ 0 then s
    else
      let m := b.unitOf (hdrGather h) t
      if m.all fun x => (s.thread u x).atGather th.base now && (s.thread u x).hdr.isSome then
        if b.justExited (hdrGather h) t now then s.setThread u t fun x => { x.await .gather with gang := none }
        else s.setBlock u fun b => b.wakes fun x y =>
          if y.st = .waiting .gather ∧ m.contains x = true then { y with st := .ready, since := now } else y
      else if th.gang.isSome then s
      else s.setThread u t fun x => x.await .gather

/-- A unit all of whose live members were held is complete once the last other member has exited: its members become
READY in the next cycle. -/
def State.gatherHeld (s : State) (u t : Nat) : State :=
  let b := s.block u
  let th := s.thread u t
  let now := s.nowB u
  match th.st, th.hdr with
  | .waiting .gather, some h =>
    let m := b.unitOf (hdrGather h) t
    if m.all fun x => (s.thread u x).st == .waiting .gather && (s.thread u x).base == th.base then
      s.setBlock u fun b => b.wakes fun x y => if m.contains x then { y with st := .ready, since := now + 1 } else y
    else s
  | _, _ => s

/-- Gathering for every thread of a core. -/
def State.gathers (s : State) (core : Nat) : State :=
  let now := s.now (dieOf core)
  (s.residents core).foldl (fun s (u, b) =>
    if b.run.served then
      let ts := b.threads.map (·.1)
      let s := ts.foldl (fun s t => if (s.thread u t).canRank now then s.gatherThread u t else s) s
      ts.foldl (fun s t => s.gatherHeld u t) s
    else s) s

/-! ## Groups and ranking (R27, R31) -/

/-- A group of ready threads: of one block, at one position, for a gathering clause of one cohort; above index 0 of an
octet-gathering clause, of one octet (R27, R35). Threads that fetched different headers are in different groups (log 68). -/
structure Grp where
  blk : Nat
  res : Nat
  w : Nat
  slotBase : Nat
  base : DWord
  index : BitVec 4
  hdr : DWord
  cohort : Option (Nat × Nat)
  /-- its members complete the unit of every one of them at index 0 (R35) -/
  whole : Bool := false
  tids : List Nat
  aged : Bool
  /-- greatest age and the lowest thread of that age -/
  age : Nat
  oldest : Nat
  held : Bool
  low : Bool
  deriving DecidableEq, Repr

/-- The parked bundle that a thread re-forms with: its own, or one with members of its octet at its position (R30, log 67). -/
def Block.gangOf (b : Block) (i : Nat) (t : Thread) : Option Nat :=
  match t.gang with
  | some g => some g
  | none => (b.threads.find? fun e => e.2.gang.isSome && e.2.base == t.base && e.2.index == t.index &&
      b.cohort e.1 == b.cohort i && b.cohPos e.1 / 8 == b.cohPos i / 8).bind (·.2.gang)

/-- The cohort of a thread at a gathering clause, and within an octet-gathering clause above index 0 what re-forms as one:
the parked bundle, whole, or the thread's octet (R30, R35). -/
def Block.gatherKey (b : Block) (i : Nat) (t : Thread) (h : DWord) : Option (Nat × Nat) :=
  if hdrGather h = 0 then none
  else some (b.cohort i, if hdrGather h = 1 ∧ t.index ≠ 0 then
      (match b.gangOf i t with
       | some g => 9 + g
       | none => b.cohPos i / 8 + 1) else 0)

/-- A thread joins the group of its position, or starts one. -/
def addToGrps (now u : Nat) (b : Block) (i : Nat) (t : Thread) (h : DWord) : List Grp → List Grp
  | [] =>
    [{ blk := u, res := b.resIdx, w := b.cfg.w, slotBase := b.slotBase, base := t.base, index := t.index, hdr := h,
       cohort := b.gatherKey i t h, tids := [i], aged := t.aged,
       age := now - t.since, oldest := i, held := decide (now < t.stallUntil), low := t.yielded }]
  | g :: r =>
    if g.blk = u ∧ g.base = t.base ∧ g.index = t.index ∧ g.hdr = h ∧
        g.cohort = b.gatherKey i t h then
      { g with tids := g.tids ++ [i], aged := g.aged || t.aged, age := max g.age (now - t.since),
               oldest := if g.age < now - t.since then i else g.oldest,
               held := g.held || decide (now < t.stallUntil), low := g.low || t.yielded } :: r
    else g :: addToGrps now u b i t h r

/-- Whether a thread may be placed: READY, checked, and the parked gathering bundle it belongs to is ready whole
(R30). -/
def Block.placeable (b : Block) (now : Nat) (t : Thread) : Bool :=
  t.canRank now && t.hdr.isSome &&
    (t.gang.isNone || b.threads.all fun e =>
      e.2.gang != t.gang || e.2.base != t.base || e.2.index != t.index || (e.2.canRank now && e.2.hdr.isSome))

/-- A group at index 0 of a gathering clause that is the whole of its members' units. -/
def Grp.marked (s : State) (g : Grp) : Grp :=
  { g with whole := g.cohort.isSome && g.index == 0 &&
      g.tids.all fun t => ((s.block g.blk).unitOf (hdrGather g.hdr) t).all g.tids.contains }

/-- The groups of a core. -/
def State.groups (s : State) (core : Nat) : List Grp :=
  let now := s.now (dieOf core)
  List.map (Grp.marked s) <| (s.residents core).foldl (fun gs (u, b) =>
    if b.run.served then
      b.threads.foldl (fun gs (i, t) =>
        match t.hdr with
        | some h => if b.placeable now t then addToGrps now u b i t h gs else gs
        | none => gs) gs
    else gs) []

/-- Size for ranking: the smaller of the thread count and W (R31). -/
def Grp.size (g : Grp) : Nat := min g.tids.length g.w
def Grp.step (g : Grp) : Nat := if g.aged then 0 else if g.whole then 1 else if g.low then 3 else 2

/-- The ranking of R31, with YIELD last (R49); groups that tie in all that R31 names keep the order of their lowest threads
(log 69). -/
def Grp.before (a b : Grp) : Bool :=
  if a.step ≠ b.step then decide (a.step < b.step)
  else if a.aged then
    if a.age ≠ b.age then decide (b.age < a.age)
    else if a.res ≠ b.res then decide (a.res < b.res)
    else decide (a.oldest < b.oldest)
  else if a.size ≠ b.size then decide (b.size < a.size)
  else if a.base ≠ b.base then decide (a.base.toNat < b.base.toNat)
  else if a.index ≠ b.index then decide (a.index.toNat < b.index.toNat)
  else decide (a.res < b.res)

/-- The ranked groups; a stalled group is left out unless it is aged (R49). -/
def State.ranked (s : State) (core : Nat) : List Grp :=
  sortBy Grp.before ((s.groups core).filter fun g => g.aged || !g.held)

/-- The members of a group that is placed (R32). -/
def Grp.chosen (g : Grp) : List Nat :=
  if g.tids.length ≤ g.w then g.tids
  else if g.aged then
    sortBy (fun a b => decide (a < b)) (g.oldest :: (g.tids.filter (· != g.oldest)).take (g.w - 1))
  else g.tids.take g.w

/-! ## Placement (R33) -/

/-- Quads of a unit: halves, quads or pairs by width (R28). -/
def unitQuads (w k : Nat) : List Nat := if w = 16 then [k / 2] else if w = 32 then [k] else [2 * k, 2 * k + 1]
def unitCount (w : Nat) : Nat := if w = 16 then 8 else if w = 32 then 4 else 2
/-- Home lane of a thread (R24). -/
def Grp.home (g : Grp) (t : Nat) : Nat := (g.slotBase + t) % 128

/-- Lanes of a unit for chosen members: gathering bundles by cohort position; else home lanes first, the rest in the
lowest free lanes (R33). -/
def Grp.lanes (g : Grp) (k : Nat) (ms : List Nat) : List (Nat × Nat) :=
  let lo := k * g.w
  if g.cohort.isSome then ms.map fun t => (t, lo + t % g.w)
  else
    let homes := ms.foldl (fun r t =>
      let h := g.home t
      if lo ≤ h ∧ h < lo + g.w ∧ !(r.map (·.2)).contains h then r ++ [(t, h)] else r) ([] : List (Nat × Nat))
    (ms.filter fun t => !(homes.map (·.1)).contains t).foldl (fun r t =>
      match ((List.range g.w).map (lo + ·)).find? fun l => !(r.map (·.2)).contains l with
      | some l => r ++ [(t, l)]
      | none => r) homes

/-- Free quads of a core (R28). -/
def State.freeQuads (s : State) (core : Nat) : List Nat :=
  (List.range 4).filter fun q => s.bundles.all fun e => e.2.core != core || !e.2.quads.contains q

/-- The free unit with the most home lanes of the members, ties to the lower (R33). -/
def Grp.unit (g : Grp) (free : List Nat) (ms : List Nat) : Option Nat :=
  let score (k : Nat) := (ms.filter fun t => g.home t / g.w == k).length
  ((List.range (unitCount g.w)).filter fun k => (unitQuads g.w k).all free.contains).foldl
    (fun best k => match best with
      | none => some k
      | some j => if score j < score k then some k else some j) none

/-- A bundle is formed: its members leave READY (R28, R34). -/
def State.formBundle (s : State) (core : Nat) (g : Grp) (k : Nat) (pair : Option Nat) : State :=
  let ms := g.chosen
  let now := s.now (dieOf core)
  let bid := tfresh s.bundles
  let b : Bundle := { blk := g.blk, core := core, members := g.lanes k ms, base := g.base, index := g.index,
                      hdr := g.hdr, quads := unitQuads g.w k, pair := pair, next := now + 1 }
  let s := { s with bundles := tset s.bundles bid b }
  let s := ms.foldl (fun s t => s.setThread g.blk t fun x =>
    { x with st := .issuing, gang := none, atSlot := none, aged := false, yielded := false }) s
  let s := s.tick core 0x03 (some (sizeBucket ms.length)) (some g.res) 1
  let s := if g.cohort.isSome then s.tick core 0x05 none (some g.res) 1 else s
  if g.aged then s.tick core 0x06 none (some g.res) 1 else s

/-- Whether two groups are the same one. -/
def Grp.same (a b : Grp) : Bool :=
  a.blk == b.blk && a.base == b.base && a.index == b.index && a.hdr == b.hdr && a.cohort == b.cohort

/-- The group that a reservation is kept for. -/
def PairHold.keeps (r : PairHold) (g : Grp) : Bool :=
  g.blk == r.blk && g.base == r.base && g.index == r.index && g.hdr == r.hdr && g.cohort == r.cohort && g.aged && g.w == 64

/-- A reservation of a pair for a group. -/
def Grp.hold (g : Grp) (p : Nat) : PairHold :=
  { pair := p, blk := g.blk, base := g.base, index := g.index, hdr := g.hdr, cohort := g.cohort }

/-- One group is considered (R31, steps 2 to 4). Once a group has been considered, the next is only while some quad is free
(step 5). -/
def State.placeGroup (ranked : List Grp) (core : Nat) (sp : State × List Grp) (g : Grp) : State × List Grp :=
  let (s, placed) := sp
  if placed.any g.same ∨ (s.freeQuads core = [] ∧ (ranked.head?.map g.same) ≠ some true) then sp
  else
    let reserved := match (s.core core).resv with
      | some r => if r.keeps g then [] else [2 * r.pair, 2 * r.pair + 1]
      | none => []
    let free := (s.freeQuads core).filter (!reserved.contains ·)
    match g.unit free g.chosen with
    | some k =>
      let mine := tfresh s.bundles
      let s := s.formBundle core g k none
      let s := if (s.core core).resv.any (·.keeps g) then s.setCore core fun c => { c with resv := none } else s
      if g.w = 16 then
        match ranked.find? fun h => h.w == 16 && !h.same g && !placed.any h.same with
        | some h =>
          let other := tfresh s.bundles
          let k2 := if k % 2 = 0 then k + 1 else k - 1
          let s := s.formBundle core h k2 (some mine)
          (s.setBundle mine fun b => { b with pair := some other }, placed ++ [g, h])
        | none => (s, placed ++ [g])
      else (s, placed ++ [g])
    | none =>
      if g.aged ∧ g.w = 64 ∧ (s.core core).resv = none then
        let f := s.freeQuads core
        let n (p : Nat) := (f.filter fun q => q / 2 == p).length
        (s.setCore core fun c => { c with resv := some (g.hold (if n 0 < n 1 then 1 else 0)) }, placed)
      else sp

/-- The ranked groups are served in order (R31). A reservation whose group is ranked no more is dropped (log 100). -/
def State.place (s : State) (core : Nat) : State :=
  let ranked := s.ranked core
  let s := match (s.core core).resv with
    | some r => if ranked.any r.keeps then s else s.setCore core fun c => { c with resv := none }
    | none => s
  (ranked.foldl (State.placeGroup ranked core) (s, [])).1

/-! ## Dissolution (R29, R34, R49) -/

/-- A bundle dissolves: its members stand READY at their positions; STALL and YIELD act. -/
def State.dissolve (s : State) (bid : Nat) (b : Bundle) : State :=
  let s := b.members.foldl (fun s (t, _) => s.setThread b.blk t fun x =>
    if x.st = .issuing then
      { x with st := .ready, since := b.next, hdr := none, aged := false, stallUntil := b.next + hdrStall b.hdr,
               yielded := x.yielded || hdrYield b.hdr }
    else x) s
  { s with bundles := tdel s.bundles bid }

/-- Every bundle of a core that has ended by this cycle dissolves. -/
def State.dissolves (s : State) (core : Nat) : State :=
  let now := s.now (dieOf core)
  (s.bundles.filter fun e => e.2.core == core && e.2.ended && decide (e.2.next ≤ now)).foldl
    (fun s e => s.dissolve e.1 e.2) s

/-- The Mint's work in one cycle on one core. -/
def State.mint (s : State) (core : Nat) : State :=
  let s := s.dissolves core
  let s := s.pollWaits core
  let s := s.headers core
  let s := s.gathers core
  s.place core

/-! ## The end of a cycle -/

/-- Foreign members of a bundle in a quad, of those that its instruction found (R33, R34). -/
def Bundle.foreign (b : Bundle) (slotBase quad : Nat) : Nat :=
  (b.ran.filter fun m => m.2 / 32 == quad && m.2 != (slotBase + m.1) % 128).length
/-- Added issue cycles of a quad (R34). -/
def xbarCost (n : Nat) : Nat := if n = 0 then 0 else if n ≤ 8 then 1 else if n ≤ 16 then 2 else 4

/-- The instruction that a bundle issued in this cycle takes its base cycles, with its pair the larger, plus the
larger crossbar cost of its quads (R28, R34). -/
def State.settleBundle (s : State) (now bid : Nat) (b : Bundle) : State :=
  if b.cost = 0 then s
  else
    let p := match b.pair.bind (tget s.bundles) with
      | some p => if p.pair = some bid ∧ p.cost ≠ 0 then some p else none
      | none => none
    let base := max b.cost (match p with | some p => p.cost | none => 0)
    let xs := b.quads.map fun q =>
      (q, xbarCost (b.foreign (s.block b.blk).slotBase q + (match p with
        | some p => p.foreign (s.block p.blk).slotBase q
        | none => 0)))
    let extra := (xs.map (·.2)).foldl max 0
    let s := s.setBundle bid fun x => { x with next := now + base + extra }
    let other := (p.map fun p => (s.block p.blk).resIdx).toList
    let first := match p, b.pair with
      | some _, some j => decide (bid < j)
      | _, _ => true
    if first then xs.foldl (fun s (q, n) => s.tickFor b.core 0x04 (some q) ((s.block b.blk).resIdx :: other) n) s else s

/-- Issue costs of a core's bundles are settled; a pair issues in lock-step. -/
def State.settleCosts (s : State) (core : Nat) : State :=
  let now := s.now (dieOf core)
  let s0 := s
  let s := (s0.bundles.filter fun e => e.2.core == core).foldl (fun s e => s.settleBundle now e.1 e.2) s
  { s with bundles := s.bundles.map fun (k, b) => if b.core = core then (k, { b with cost := 0 }) else (k, b) }

/-- The single evaluation of a rejoin-mask register (R137). -/
def State.evalJoin (s : State) (u key : Nat) (j : JReg) : State :=
  let now := s.nowB u
  let c := key / 16
  if !j.changed then s
  else if j.mask ≠ 0 ∧ j.mask &&& ~~~j.arrived = 0 then
    let rel := j.mask &&& j.arrived
    let w := (s.block u).cfg.w
    let s := (onesOf w rel.toNat).foldl (fun s p => s.setThread u (c * w + p) fun t =>
      if t.st = .waiting (.join (key % 16)) then t.wake now else t) s
    s.setBlock u fun b =>
      { b with joins := tset b.joins key { j with arrived := j.arrived &&& ~~~rel, out := j.out &&& ~~~rel,
                                                  opened := false, changed := false },
               run := { b.run with wdog := 0 } }
  else s.setBlock u fun b => { b with joins := tset b.joins key { j with changed := false } }

/-- Every join of a core's blocks that changed in this cycle is evaluated once. -/
def State.evalJoins (s : State) (core : Nat) : State :=
  (s.residents core).foldl (fun s (u, b) =>
    if b.joins.all (fun e => !e.2.changed) then s
    else b.joins.foldl (fun s e => s.evalJoin u e.1 e.2) s) s

/-- The head claims of a block are served while the pool holds their chunks (R94). -/
def serveClaims (now : Nat) : Nat → Block → Block
  | 0, b => b
  | n + 1, b =>
    match b.claims with
    | [] => b
    | c :: r =>
      if c.chunks ≤ b.pool then
        serveClaims now n
          (({ b with pool := b.pool - c.chunks, claims := r, run := { b.run with wdog := 0 } } : Block).setThread c.tid
            fun x =>
              let l := x.limit + 8 * c.chunks
              { (x.wake now).wr c.dest (BitVec.ofNat 32 l) with limit := l })
      else b

/-- The end of a cycle on a core. -/
def State.settleCore (s : State) (core : Nat) : State :=
  let now := s.now (dieOf core)
  let s := s.settleCosts core
  let s := s.evalJoins core
  (s.residents core).foldl (fun s (u, b) =>
    if b.claims = [] then s else s.setBlock u fun b => serveClaims now b.claims.length b) s

end Sys2Proof.Machine
end

