-- ==== Sys2Proof/Machine/Scratch.lean ====
section
/-! DEFINITION. The core scratchpad, the cluster window, the chip scratchpad and the lane slice (R160-R167, R171, R297). -/

namespace Sys2Proof.Machine

/-! ## Addresses and checks (R161, R164) -/

/-- Chip-scratchpad bytes per die of a launch card (R321). -/
def Launch.chipSize (l : Launch) : Nat := leAt l.card 0x60 4

/-- The location of a scratchpad access of `n` bytes by a thread of a block, if it is in range; the window's bytes of the
block itself are those of its own allotment (R161, R164). -/
def State.spad (s : State) (u a n : Nat) : Option Spad :=
  let c := (s.block u).cfg
  if a + n ≤ 0x80000 then (if a + n ≤ c.allot then some (.own a) else none)
  else if 0x1000000 ≤ a ∧ a + n ≤ 0x1400000 then
    match (tgetD s.clusters c.cluster {}).blocks[a / 2 ^ 19 % 8]? with
    | some u2 =>
      if (s.block u2).cfg.allot < a % 2 ^ 19 + n then none
      else some (if u2 = u then .own (a % 2 ^ 19) else .win u2 (a % 2 ^ 19))
    | none => none
  else if 0x40000000 ≤ a ∧ a + n ≤ 0x64000000 then
    let l := s.launch c.launch
    if a % 2 ^ 26 + n ≤ l.chipSize then some (.chip (a / 2 ^ 26 % 16) (l.chipBase + a % 2 ^ 26)) else none
  else none

/-- The block and offset of an own or window location. -/
def Spad.target (u : Nat) : Spad → Option (Nat × Nat)
  | .own o => some (u, o)
  | .win u2 o => some (u2, o)
  | .chip _ _ => none

/-- Tile-busy subcause of an access at a location (R171). -/
def State.tileBusy (s : State) (u : Nat) (p : Spad) (n : Nat) (store : Bool) : Option Nat :=
  match p.target u with
  | none => none
  | some (u2, o) =>
    let ts := ((s.block u2).tiles.map (·.2)).filter fun t => t.overlaps o n
    if store then
      if ts.any (·.st == .filling) then some 1 else if ts.any (·.st == .draining) then some 2 else none
    else if ts.any (·.st == .filling) then some 3 else none

/-- Pinned tiles that an access touches, with their block (R193). -/
def State.pinnedAt (s : State) (u : Nat) (p : Spad) (n : Nat) : Nat × List Nat :=
  match p.target u with
  | none => (u, [])
  | some (u2, o) => (u2, ((s.block u2).tiles.filter fun e => e.2.pins != 0 && e.2.overlaps o n).map (·.1))

/-- Range-lock subcause from the entries an access hits (R297); a store that covers both a source and a destination reports the
source (log 82). -/
def lockSub (hits : List RangeLock) (store : Bool) : Option Nat :=
  if store then
    if hits.any (!·.dest) then some 2 else if hits.any (·.dest) then some 3 else none
  else if hits.any (·.dest) then some 1 else none

/-- Range-lock check of a scratchpad access (R295, R297). -/
def State.spadLock (s : State) (u : Nat) (p : Spad) (n : Nat) (store : Bool) : Option Nat :=
  let d := dieOf (s.block u).core
  let (core, own, o) := match p with
    | .own o => ((s.block u).core % 96, u, o)
    | .win u2 o => ((s.block u2).core % 96, u2, o)
    | .chip d2 o => (127, d2, o)
  lockSub ((s.dm d).locks.filter fun l => l.scratch && l.core == core && l.owner2 == own &&
    decide (l.first ≤ (o + n - 1) / 8) && decide (o / 8 ≤ l.last)) store

/-- Cause and subcause of the first failing check at the target, tile-busy before range lock (R164, R358). -/
def State.spadFault (s : State) (u : Nat) (p : Spad) (n : Nat) (store : Bool) : Option (Nat × Nat) :=
  match s.tileBusy u p n store with
  | some k => some (5, k)
  | none => (s.spadLock u p n store).map fun k => (4, k)

/-- Bytes at a location. -/
def State.spGet (s : State) (u : Nat) (p : Spad) (n : Nat) : Nat :=
  match p with
  | .own o => mread (s.block u).scratch o n
  | .win u2 o => mread (s.block u2).scratch o n
  | .chip d o => mread (s.dm d).chip o n
/-- Store at a location. -/
def State.spPut (s : State) (u : Nat) (p : Spad) (l : List Byte) : State :=
  match p with
  | .own o => s.spWrite u o l
  | .win u2 o => s.spWrite u2 o l
  | .chip d o => s.setDm d fun m => { m with chip := mputs m.chip o l }

/-- Address of a scratchpad or slice access of a thread (R163). -/
def spAddr (t : Thread) (a : Nat) (off : Int) : Nat := wrapN 32 ((t.rd a).toNat + off)

/-- The data run of a store as bytes (R163, R219). -/
def Thread.dataN (t : Thread) (d : Nat) (sz : Size) : Nat :=
  (List.range sz.regs).foldl (fun n i => n + (t.rd (d + i)).toNat * 2 ^ (32 * i)) 0 % 2 ^ (8 * sz.bytes)
/-- The register writes of a loaded value. -/
def loadRegs (d : Nat) (sz : Size) (v : Nat) : List (Nat × Word) :=
  (List.range sz.regs).map fun i => (d + i, BitVec.ofNat 32 (v / 2 ^ (32 * i)))

/-- The checks of one access in order: alignment, range, tile-busy, range lock (R164). -/
def State.spadCheck (s : State) (u a n : Nat) (store : Bool) : Except (Nat × Nat) Spad :=
  if a % n ≠ 0 then .error (3, 1)
  else match s.spad u a n with
    | none => .error (3, 2)
    | some p => match s.spadFault u p n store with
      | some e => .error e
      | none => .ok p

/-- The checks of an STS at its issue: the tiles that a window store touches are checked at its target, its range locks here
too, so that a lock is reported although the target's tile is busy (R164, R171, R297, log 101). -/
def State.storeCheck (s : State) (u a n : Nat) : Except (Nat × Nat) Spad :=
  match s.spad u a n with
  | some (.win u2 o) =>
    if a % n ≠ 0 then .error (3, 1)
    else match s.spadLock u (.win u2 o) n true with
      | some k => .error (4, k)
      | none => .ok (.win u2 o)
  | _ => s.spadCheck u a n true

/-- Passes of an own-allotment access: the most distinct rows in one bank (R166). -/
def passes (addrs : List (Nat × Nat)) : Nat :=
  let words := dedupN (addrs.flatMap fun (a, n) => (List.range (ceilDiv n 8)).map (a / 8 + ·))
  ((List.range 64).map fun b => (words.filter fun w => w % 64 == b).length).foldl max 1

/-- Bound on the latency of a load or atomic at an address that leads to a location; 0 is none (R166). -/
def spadBound (c a : Nat) : Spad → Nat
  | .own _ => if a < 0x80000 then 6 + c else 64
  | .win _ _ => 64
  | .chip _ _ => 0

/-- Issue cycles of an access size (R166). -/
def spIssue (z : Size) : Nat := if z = .b128 then 2 else 1

/-- A release, and an instruction that drains, comes only after the thread's earlier accesses (R268): the wait that
this takes counts the accesses issued when the thread first tried. -/
def Iss.drainWait (x : Iss) (scope t : Nat) : Wait := .fence true scope ((x.thr t).drain.getD x.s.seq)
/-- Members whose earlier accesses are still out. -/
def Iss.undrained (x : Iss) (scope : Nat) : List Nat :=
  x.act.filter fun t => !x.s.waitOver x.u x.blk t (x.thr t) (x.drainWait scope t)
/-- A member notes where its drain began, or that it has ended. -/
def Iss.drainMark (x : Iss) (s : State) (t : Nat) : State :=
  s.setThread x.u t fun h => { h with drain := some ((x.thr t).drain.getD x.s.seq) }
def Iss.drainEnd (x : Iss) (s : State) (ts : List Nat) : State :=
  ts.foldl (fun s t => s.setThread x.u t fun h => { h with drain := none }) s
/-- Members with accesses still out are held and issue again. -/
def Iss.drainHold (x : Iss) (s : State) (ts : List Nat) (scope : Nat) : State :=
  ts.foldl (fun s t => x.drainMark (x.hold s t (x.drainWait scope t)) t) s
/-- The whole bundle parks until the late members have drained. -/
def Iss.drainPark (x : Iss) (late : List Nat) (scope : Nat) : Eff :=
  .parkRest { x with s := late.foldl x.drainMark x.s } fun t => if late.contains t then some (x.drainWait scope t) else none

/-- The whole bundle waits until the late members have drained, so that its members act together and in order (R165). -/
def Iss.drainAll (x : Iss) (late : List Nat) (scope : Nat) : Eff :=
  .parkRest { x with s := late.foldl x.drainMark x.s } fun _ =>
    some (.peers scope (late.map fun t => (t, (x.thr t).drain.getD x.s.seq)))

/-- Members with an earlier acquire outstanding, or, where the access writes, with a fence before it: a later access of
theirs is performed only after it (R165, R261, R268). -/
def Iss.unacquired (x : Iss) (store : Bool) : List Nat :=
  x.act.filter fun t => (x.s.core x.core).barred x.u t x.s.seq store
/-- An access to a scratchpad, which comes after the members' earlier acquires: until they are over the bundle parks, and its
checks are made when it issues again (R165, R268). -/
def Iss.acquired (x : Iss) (store : Bool) (eff : Eff) : Eff :=
  let late := x.unacquired store
  if late = [] then eff else .parkRest x fun t => if late.contains t then some (.acquired x.s.seq store) else none

/-! ## LDS, STS, LDL, STL (R163) -/

/-- LDS (R163-R166). A window or chip load takes its value as it issues (log 72). -/
def execLds (r : RM) (s : State) : Out1 :=
  issue s (.lds r) fun x =>
    let n := r.size.bytes
    let addr t := spAddr (x.thr t) r.a.toNat r.off.toInt
    let c := passes ((x.act.filter fun t => decide (addr t < 0x80000)).map fun t => (addr t, n))
    x.acquired false (.go (x.act.foldl (fun s t =>
      match s.spadCheck x.u (addr t) n false with
      | .error (k, k2) => x.trap s t k k2 0 (addr t)
      | .ok p => x.send s t (x.i.kills x.oc) (loadRegs r.d.toNat r.size (s.spGet x.u p n)) [] (spadBound c (addr t) p)) x.s)
      (spIssue r.size))

/-- STS (R163-R166): a window or chip store holds its thread until it is acknowledged. Members that store to one place
share a latency, so that they are performed in ascending thread index (R164). The window at the block's own rank is its own
allotment: the store has its place there as it issues, and the thread waits for the acknowledgement alone (R165, log 96). -/
def execSts (r : RM) (s : State) : Out1 :=
  issue s (.sts r) fun x =>
    let n := r.size.bytes
    let late := if r.order.isRel then x.undrained r.scope.num else []
    let addr t := spAddr (x.thr t) r.a.toNat r.off.toInt
    let loc t := x.s.spad x.u (addr t) n
    let draw t := x.s.draws + (x.act.map loc).idxOf (loc t)
    if late ≠ [] then x.drainAll late r.scope.num
    else
      let ack (s : State) (t : Nat) (p : Spad) (bytes : List Byte) : State :=
        let lat := match p with
          | .chip _ _ => Config.latency (draw t)
          | _ => Config.latency (draw t) % 64
        (x.wait s t .ack).addJob x.die (x.now + 1 + lat)
          (.windowAck x.u t p bytes (addr t) x.base (BitVec.ofNat 4 x.index) x.word (x.i.kills x.oc))
      let s := x.act.foldl (fun s t =>
        let a := addr t
        let bytes := leBytes n ((x.thr t).dataN r.d.toNat r.size)
        match s.storeCheck x.u a n with
        | .error (k, k2) => x.trap s t k k2 0 a
        | .ok (.own o) =>
          let (u2, pins) := s.pinnedAt x.u (.own o) n
          if pins ≠ [] then x.hold s t (.pinned u2 pins)
          else
            let s := s.spPut x.u (.own o) bytes
            if a < 0x80000 then s.setThread x.u t fun h => h.kills (x.i.kills x.oc) else ack s t (.own o) []
        | .ok p => ack s t p bytes) (x.drainEnd x.s x.act)
      x.acquired true (.go { s with draws := s.draws + x.act.length } (spIssue r.size))

/-- The checks of a store as it arrives at its target: those of the window (R171, R297); the range locks, which an STS also
meets at its issue, are checked again (log 101). -/
def State.arriveFault (s : State) (u : Nat) (p : Spad) (n : Nat) : Option (Nat × Nat) :=
  match p with
  | .win _ _ => s.spadFault u p n true
  | _ => none

/-- WINDOW_STORE_ACK: the store is checked and performed at its target (one at the own rank has been), and its thread goes on
with its last uses over, or traps at the store with its registers as they were (R60, R166, R171, R297). -/
def execWindowStoreAck (job : Nat) (s : State) : Out1 :=
  match tget s.jobs job with
  | some ⟨d, due, .windowAck u t p bytes a base index word kills⟩ =>
    event s (decide (due ≤ s.now d) && (bytes == [] || (s.pinnedAt u p bytes.length).2 == []))
      (let s := { s with jobs := tdel s.jobs job }
       match s.arriveFault u p bytes.length with
       | some (k, k2) => s.trapAt u t base index.toNat k k2 0 word (BitVec.ofNat 64 a)
       | none => (s.spPut u p bytes).wakeThread u t fun h =>
         if h.st = .waiting .ack then (h.kills kills).wake (s.now d) else h)
  | _ => .next s

/-- A slice access's checks (R160, R164). -/
def Block.sliceCheck (b : Block) (a n : Nat) : Option (Nat × Nat) :=
  if a % n ≠ 0 then some (3, 1) else if b.cfg.slice < a + n then some (3, 2) else none

/-- LDL (R163-R166). -/
def execLdl (r : RM) (s : State) : Out1 :=
  issue s (.ldl r) fun x =>
    let n := r.size.bytes
    .go (x.act.foldl (fun s t =>
      let a := spAddr (x.thr t) r.a.toNat r.off.toInt
      match x.blk.sliceCheck a n with
      | some (k, k2) => x.trap s t k k2 0 a
      | none => x.send s t (x.i.kills x.oc) (loadRegs r.d.toNat r.size (mread (x.thr t).slice a n)) [] 7) x.s) (spIssue r.size)

/-- STL (R163-R166). -/
def execStl (r : RM) (s : State) : Out1 :=
  issue s (.stl r) fun x =>
    let n := r.size.bytes
    .go (x.act.foldl (fun s t =>
      let a := spAddr (x.thr t) r.a.toNat r.off.toInt
      match x.blk.sliceCheck a n with
      | some (k, k2) => x.trap s t k k2 0 a
      | none => s.setThread x.u t fun h =>
          { (h.kills (x.i.kills x.oc)) with slice := mwrite h.slice a n ((x.thr t).dataN r.d.toNat r.size) }) x.s) (spIssue r.size)

/-! ## ATOMS (R167) -/

/-- ATOMS: read, operate and write, member by member in ascending thread index; with a release, once every member has
drained (R167, R268). Through the window or on a chip scratchpad it is performed as it issues (log 72). -/
def execAtoms (r : RO) (s : State) : Out1 :=
  issue s (.atoms r) fun x =>
    let n := r.size.bytes
    let addr t := (((x.thr t).rd r.a.toNat)).toNat
    let late := if r.order.isRel then x.undrained r.scope.num else []
    let c := passes ((x.act.filter fun t => decide (addr t < 0x80000)).map fun t => (addr t, n))
    if late ≠ [] then x.drainAll late r.scope.num
    else
      x.acquired true <| .go (x.act.foldl (fun s t =>
        match s.spadCheck x.u (addr t) n true with
        | .error (k, k2) => x.trap s t k k2 0 (addr t)
        | .ok p =>
          let (u2, pins) := s.pinnedAt x.u p n
          if pins ≠ [] then x.hold s t (.pinned u2 pins) else
          let old := s.spGet x.u p n
          let b := (x.thr t).dataN r.b.toNat r.size
          let v := if r.op = .cas then (x.thr t).dataN r.d.toNat r.size else 0
          let s := s.spPut x.u p (leBytes n (opVal r.op n old b v))
          let regs := if r.d = 255 then [] else loadRegs r.d.toNat r.size old
          x.send s t (x.i.kills x.oc) regs [] (spadBound c (addr t) p)) (x.drainEnd x.s x.act)) (spIssue r.size)

end Sys2Proof.Machine
end

