-- ==== Sys2Proof/Machine/Barriers.lean ====
section
/-! DEFINITION. Hardware barriers (R206-R216). -/

namespace Sys2Proof.Machine

/-! ## State and updates -/

/-- A barrier as a block sees it: level 0 block, 1 cluster, 2 grid (R206). -/
def State.bar (s : State) (u level e : Nat) : Barrier :=
  let c := (s.block u).cfg
  match level with
  | 0 => tgetD (s.block u).bars e {}
  | 1 => tgetD ((tgetD s.clusters c.cluster {}).bars) e {}
  | _ => tgetD (s.launch c.launch).gbars e {}

def State.setBar (s : State) (u level e : Nat) (b : Barrier) : State :=
  let c := (s.block u).cfg
  match level with
  | 0 => s.setBlock u fun x => { x with bars := tset x.bars e b }
  | 1 => s.setCluster c.cluster fun x => { x with bars := tset x.bars e b }
  | _ => s.setLaunch c.launch fun x => { x with gbars := tset x.gbars e b }

/-- Position of a barrier's ARV bit in a thread (R208). -/
def arvBit (level e : Nat) : Nat := if level = 0 then e else if level = 1 then 16 + e else 24 + e
def Thread.arrived (t : Thread) (level e : Nat) : Bool := t.arv.getLsbD (arvBit level e)
def Thread.setArv (t : Thread) (level e : Nat) (v : Bool) : Thread :=
  let m := BitVec.ofNat 28 (2 ^ arvBit level e)
  { t with arv := if v then t.arv ||| m else t.arv &&& ~~~m }

/-- Whether two blocks share a barrier of a level. -/
def shares (level : Nat) (u : Nat) (c : BlockCfg) (u2 : Nat) (c2 : BlockCfg) : Bool :=
  match level with
  | 0 => u == u2
  | 1 => c.cluster == c2.cluster
  | _ => c.launch == c2.launch

/-- Scope of a level as a number: BLK, CLU or DEV (R214). -/
def levelScope (level : Nat) : Nat := if level = 0 then 1 else if level = 1 then 2 else 4

/-- A completed phase: ARV bits clear; waiters of the phase become READY, for cluster and grid barriers within 12 and
160 cycles (R209, R212). -/
def State.phaseDone (s : State) (u level e : Nat) (phase : Bool) : State :=
  let c := (s.block u).cfg
  let lag := if level = 0 then 0 else if level = 1 then Config.latency s.draws % 12 else Config.latency s.draws % 160
  let s0 := s
  { s with
    draws := s.draws + (if level = 0 then 0 else 1),
    blocks := s.blocks.map fun (u2, b) =>
      if shares level u c u2 b.cfg then
        (u2, b.wakes fun _ t =>
          let t := t.setArv level e false
          if t.st = .waiting (.barrier level e phase) then t.wake (s0.now (dieOf b.core) + lag) else t)
      else (u2, b) }

/-- The evaluation that follows each update (R209). -/
def State.evalBar (s : State) (u level e : Nat) : State :=
  let b := s.bar u level e
  if b.pend = 0 ∧ b.tx = 0 then
    (s.setBar u level e { b with phase := !b.phase, pend := b.memb }).phaseDone u level e b.phase
  else s

/-- One update of a barrier: arrivals and a byte delta (R209). -/
def State.barUpdate (s : State) (u level e : Nat) (arrivers : List Nat) (delta : Int) : State :=
  let b := s.bar u level e
  let v := b.tx + delta
  let tx : Int := sextN 32 (wrapN 32 v)
  let s := s.setBar u level e { b with pend := b.pend - arrivers.length, tx := tx, ovf := b.ovf || decide (tx ≠ v) }
  let s := arrivers.foldl (fun s t => s.setThread u t fun h => h.setArv level e true) s
  s.evalBar u level e

/-- Barriers of a block: level and number, below the block's counts. -/
def BlockCfg.barriers (c : BlockCfg) : List (Nat × Nat) :=
  (List.range c.nblk).map (fun e => (0, e)) ++ (List.range c.nclu).map (fun e => (1, e)) ++
    (List.range c.ngrd).map (fun e => (2, e))

/-- Whether a cluster barrier is virtual for a block (R215). -/
def State.virtualBar (s : State) (u level e : Nat) : Bool :=
  level == 1 && decide ((tgetD s.clusters (s.block u).cfg.cluster {}).hw ≤ e)

/-- Threads whose arrival, or whose expected bytes, an arrival brings. -/
def Arrival.threads (a : Arrival) : List Nat := a.tids ++ (a.vals.map (·.1)).filter (!a.tids.contains ·)

/-- The exit of a member from each of its barriers (R210); an arrival that is not yet applied no longer counts it, but
brings the bytes that it expects when its stores are performed (R212, log 88). An arrival that brings nothing any more is
over. -/
def State.barExit (s : State) (u t : Nat) : State :=
  let s := s.setBlock u fun b =>
    { b with arrivals := (b.arrivals.map fun a => { a with tids := a.tids.filter (· != t) }).filter (·.threads != []) }
  (s.block u).cfg.barriers.foldl (fun s (level, e) =>
    if s.isMember u t level e && !s.virtualBar u level e then
      let b := s.bar u level e
      let s := s.setBar u level e
        { b with memb := b.memb - 1, pend := if (s.thread u t).arrived level e then b.pend else b.pend - 1 }
      s.evalBar u level e
    else s) s

/-! ## Arrivals (R212, R214) -/

/-- The part of an arrival that the given threads stay out of. -/
def Arrival.without (a : Arrival) (ts : List Nat) : Arrival :=
  { a with tids := a.tids.filter (!ts.contains ·), vals := a.vals.filter fun e => !ts.contains e.1 }

/-- Threads of an arrival that have arrived in this phase already: they arrive in the next (R212). One whose ARV bit an older
kept arrival has set since the instruction issued does not park, since it is past the instruction (log 104). -/
def State.arrivalStays (s : State) (u : Nat) (a : Arrival) : List Nat :=
  a.tids.filter fun t => (s.thread u t).arrived a.level a.no

/-- Whether an arrival may be applied: the earlier accesses of its threads are performed at the level's scope (R214,
R268). -/
def State.arrivalReady (s : State) (u : Nat) (a : Arrival) : Bool :=
  a.threads != [] && a.threads.all fun t => s.fenceOver u (s.block u).core t true (levelScope a.level) a.seq

/-- A thread at BARS whose arrival is counted waits for that phase to end (R212). -/
def Thread.counted (t : Thread) (level no : Nat) (phase : Bool) : Thread :=
  if t.st = .waiting (.arriving level no) then { t with st := .waiting (.barrier level no phase) } else t

/-- The arrival is applied as one update; vD receives the phase it counts in. -/
def State.applyArrival (s : State) (u : Nat) (a : Arrival) : State :=
  let p := (s.bar u a.level a.no).phase
  let s := if a.waits then a.tids.foldl (fun s t => s.setThread u t fun h => h.counted a.level a.no p) s else s
  let s := s.barUpdate u a.level a.no a.tids ((a.vals.map (·.2)).foldl (· + ·) 0)
  a.tids.foldl (fun s t => s.setThread u t fun h =>
    h.landed (if a.dest = 255 then [] else [(a.dest, if p then 1 else 0)]) [] a.sb) s

/-- Whether two arrivals are at one barrier and name a common thread. -/
def Arrival.clash (a b : Arrival) : Bool := a.level == b.level && a.no == b.no && a.threads.any b.threads.contains

/-- What a kept arrival still is once the arrival of a number is applied but for the threads `stay`. -/
def Arrival.leftOf (id : Nat) (stay : List Nat) (k : Arrival) : Option Arrival :=
  if k.id = id then
    (if stay = [] then none else some { k with tids := stay, vals := k.vals.filter fun e => stay.contains e.1 })
  else some k

/-- A kept arrival is applied, but for its threads that have arrived in this phase already, if it may be; none overtakes an
older one of a thread. -/
def State.tryArrival (s : State) (u id : Nat) : State :=
  match (s.block u).arrivals.find? (·.id == id) with
  | none => s
  | some a =>
    let stay := s.arrivalStays u a
    let go := a.without stay
    if s.arrivalReady u go && !(((s.block u).arrivals.takeWhile (·.id != id)).any go.clash) then
      let kept := (s.block u).arrivals.filterMap (Arrival.leftOf id stay)
      (s.setBlock u fun b => { b with arrivals := kept }).applyArrival u go
    else s

/-- An arrival issues: it is kept, and applied at once if it may be. -/
def State.arrive (s : State) (u : Nat) (a : Arrival) : State :=
  let id := (((s.block u).arrivals.map (·.id)).foldl max 0) + 1
  (s.setBlock u fun b => { b with arrivals := b.arrivals ++ [{ a with id := id }] }).tryArrival u id

/-! ## Instructions -/

/-- Level and number of a barrier word (R211). -/
def barLevel (r : RX) : Nat := (fld r.flags 0 2).toNat

/-- One thread at a virtual barrier is held by an entry of kind 4 (R215); one that arrives, once its earlier accesses are
performed at the level's scope (R214, R268, log 105). -/
def Iss.virtualEntry (x : Iss) (r : RX) (arrives : Bool) (opnd : Nat → Nat) (s : State) (t : Nat) : State :=
  let scope := levelScope (barLevel r)
  if arrives && !s.waitOver x.u x.blk t (x.thr t) (x.drainWait scope t) then x.drainHold s [t] scope
  else x.entry (x.drainEnd s [t]) t fun p => { p with kind := 4, opnd := opnd t }

/-- A barrier instruction, and whether it arrives (R211, R215). -/
def Iss.barrier (x : Iss) (r : RX) (arrives : Bool) (opnd : Nat → Nat) (f : State → State) : State :=
  if x.s.virtualBar x.u (barLevel r) r.e.toNat then x.act.foldl (x.virtualEntry r arrives opnd) x.s else f x.s

/-- Threads of the bundle that arrive; those that have already arrived in this phase park until it changes. -/
def Iss.arrivers (x : Iss) (level e : Nat) : List Nat := x.act.filter fun t => !(x.thr t).arrived level e
def Iss.parkArrived (x : Iss) (s : State) (level e : Nat) : State :=
  (x.act.filter fun t => (x.thr t).arrived level e).foldl (fun s t =>
    x.hold s t (.barrier level e (x.s.bar x.u level e).phase)) s

/-- What BARV and BARX share. -/
def Iss.arrival (x : Iss) (r : RX) (vals : Tab Int) : State :=
  let l := barLevel r
  let e := r.e.toNat
  let ts := x.arrivers l e
  let s := x.parkArrived x.s l e
  let s := ts.foldl (fun s t => s.setThread x.u t fun h => h.sent [] [r.d.toNat] [] x.slot) s
  if ts = [] then s
  else s.arrive x.u { level := l, no := e, low := x.members.headD 0, tids := ts, vals := vals, dest := r.d.toNat, sb := x.slot,
                      seq := x.s.seq }

/-- BARV (R212). -/
def execBarv (r : RX) (s : State) : Out1 :=
  issue s (.barv r) fun x => .go (x.barrier r true (fun _ => 0) fun _ => x.arrival r []) 1

/-- BARX: the arriving threads' vA are the bytes expected (R212). -/
def execBarx (r : RX) (s : State) : Out1 :=
  issue s (.barx r) fun x =>
    let d := (x.arrivers (barLevel r) r.e.toNat).map fun t => (t, ((x.thr t).rd r.a.toNat).toInt)
    .go (x.barrier r true (fun t => ((x.thr t).rd r.a.toNat).toNat) fun _ => x.arrival r d) 1

/-- BARS: arrive, then wait for the phase that counts the arrival to end (R212). -/
def execBars (r : RX) (s : State) : Out1 :=
  issue s (.bars r) fun x =>
    .go (x.barrier r true (fun _ => 0) fun _ =>
      let l := barLevel r
      let e := r.e.toNat
      let ts := x.arrivers l e
      let s := x.parkArrived x.s l e
      let s := ts.foldl (fun s t => x.wait s t (.arriving l e)) s
      if ts = [] then s else s.arrive x.u { level := l, no := e, low := x.members.headD 0, tids := ts, waits := true,
                                             seq := x.s.seq }) 1

/-- BARW: wait while PHASE is the parity in vA (R212). -/
def execBarw (r : RX) (s : State) : Out1 :=
  issue s (.barw r) fun x =>
    .go (x.barrier r false (fun t => ((x.thr t).rd r.a.toNat).toNat) fun s =>
      x.act.foldl (fun s t =>
        let p := ((x.thr t).rd r.a.toNat).getLsbD 0
        if (x.s.bar x.u (barLevel r) r.e.toNat).phase = p then x.wait s t (.barrier (barLevel r) r.e.toNat p) else s) s) 1

/-- BART: pD tells whether PHASE differs from the parity in vA (R212). -/
def execBart (r : RX) (s : State) : Out1 :=
  issue s (.bart r) fun x =>
    .go (x.barrier r false (fun t => ((x.thr t).rd r.a.toNat).toNat) fun s =>
      x.act.foldl (fun s t => s.setThread x.u t fun h =>
        h.wrP r.d.toNat ((x.s.bar x.u (barLevel r) r.e.toNat).phase != (h.rd r.a.toNat).getLsbD 0)) s) 1

/-- BART.OVF: pD := OVF, and OVF is cleared (R212). -/
def execBartOvf (r : RX) (s : State) : Out1 :=
  issue s (.bartOvf r) fun x =>
    .go (x.barrier r false (fun _ => 0) fun s =>
      let b := s.bar x.u (barLevel r) r.e.toNat
      if x.act = [] then s
      else
        (x.act.foldl (fun s t => s.setThread x.u t fun h => h.wrP r.d.toNat b.ovf) s).setBar x.u (barLevel r) r.e.toNat
          { b with ovf := false }) 1

end Sys2Proof.Machine
end

