-- ==== Sys2Proof/Machine/Slices.lean ====
section
/-! DEFINITION. The core's loads and store FIFO, the L2 slice and write-update (R222-R236, R242-R248, R263-R269). -/

namespace Sys2Proof.Machine

/-- A die asks the home of a line; one request of a die for a line is out at a time (R247, R251). -/
def State.ask (s : State) (d line : Nat) (r : Req) : State :=
  let l := (s.l2 d line).getD {}
  if l.asked then s
  else (s.setL2 d line { l with asked := true }).setHome line fun h => { h with queue := h.queue ++ [(d, r)] }

/-- An entry of a core changes. -/
def State.setEntry (s : State) (core seq : Nat) (f : Entry → Entry) : State :=
  s.setCore core fun c => { c with fifo := c.fifo.map fun e => if e.seq = seq then f e else e }

/-- A request at a slice counts as a hit or a miss (R307, events 0x41 and 0x42). -/
def State.slice41 (s : State) (d line : Nat) (hit : Bool) : State :=
  s.tickDie d (if hit then 0x41 else 0x42) (some (Config.sliceHash line % 64)) 1

/-- The request of an entry counts once, by what it finds first (R221, R307). -/
def State.lookup (s : State) (core : Nat) (e : Entry) (hit : Bool) : State :=
  if e.counted then s
  else (s.slice41 (dieOf core) e.line hit).setEntry core e.seq fun x => { x with counted := true }

/-- The request that a load is part of counts once, by what it finds first (R221, R307). -/
def State.countLoad (s : State) (core : Nat) (l : Load) (hit : Bool) : State :=
  if l.counted then s
  else (s.slice41 (dieOf core) l.line hit).setCore core fun c => { c with
    loads := c.loads.map fun k => if k.grp = l.grp ∧ k.blk = l.blk ∧ k.line = l.line then { k with counted := true } else k }

/-- The lines of a slice, other than one, and the sectors that they take (R243, R249). -/
def State.sliceLoad (s : State) (d line : Nat) : Nat × Nat :=
  let ls := (s.dm d).lines.filter fun e =>
    e.1 != line && e.2.held && Config.sliceHash e.1 % 64 == Config.sliceHash line % 64
  (ls.length, ls.foldl (fun n e => n + e.2.sectors) 0)

/-- The slice of a line has tags and sectors for what it holds: 49,152 of each; lines leave by their own events (R243,
R247, R249). -/
def State.sliceFits (s : State) (d line : Nat) : Bool :=
  let n := s.sliceLoad d line
  match s.l2 d line with
  | some l => !l.held || (decide (n.1 < 49152) && decide (n.2 + l.sectors ≤ 49152))
  | none => true

/-- A change of a line takes place once its slice has room for the result. -/
def State.inSlice (s t : State) (d line : Nat) : State := if t.sliceFits d line then t else s

/-- A slice may give up a line of its own accord: not one that PREF retains, while it has others that can leave it (R218):
lines that it holds, for which no request is out (log 97), and whose home is there. -/
def State.mayEvict (s : State) (d line : Nat) : Bool :=
  match s.l2 d line with
  | some l => !s.portDown line && (!l.retained || (s.dm d).lines.all fun e =>
      e.2.retained || e.2.st.isNone || e.2.asked || s.portDown e.1 || Config.sliceHash e.1 % 64 != Config.sliceHash line % 64)
  | none => true

/-! ## WRQs that are not done (R238-R241, R262) -/

/-- One write translation of a WRQ, by its place (R240, R241): an address, or the place and the fault. -/
def State.wrqPage (s : State) (u d va whr : Nat) : State × Except (Nat × Nat × XRes) Nat :=
  match s.translate d (s.ctxOf u) .store va with
  | (s, .ok pa _) => (s, .ok pa)
  | (s, f) => (s, .error (whr, va, f))

/-- The pages of a WRQ: payload, header, descriptor (R240, step 2). -/
structure WrqPages where
  first : Nat
  second : Nat
  header : Nat
  ring : Nat
  qsize : Nat
  tail : Nat
  head : Nat
  drops : Nat
  /-- physical address of the descriptor; none where QSIZE or RING is bad -/
  desc : Option Nat

/-- Step 2 of R240; the header is read once its line is free (R269, R315). -/
def State.wrqPages (s : State) (u d addr n hdr : Nat) : State × Except (Nat × Nat × XRes) WrqPages :=
  let split := 4096 - addr % 4096
  match s.wrqPage u d addr 0 with
  | (s, .error e) => (s, .error e)
  | (s, .ok p0) =>
  match if split < n then s.wrqPage u d (addr + split) 1 else (s, .ok (p0 + split)) with
  | (s, .error e) => (s, .error e)
  | (s, .ok p1) =>
  match s.wrqPage u d hdr 2 with
  | (s, .error e) => (s, .error e)
  | (s, .ok h) =>
    if !s.canTouch h 32 then (s, .error (2, hdr, .later (h / 128)))
    else
    let s := s.settle (some d) h 32
    let l := s.physGet h 32
    let ring := leAt l 0 8
    let q := leAt l 8 4
    let w : WrqPages := { first := p0, second := p1, header := h, ring := ring, qsize := q, tail := leAt l 12 4,
                          head := leAt l 16 4, drops := leAt l 20 4, desc := none }
    if !(List.range 25).any (fun k => q == 2 ^ k) || ring % 16 != 0 then (s, .ok w)
    else match s.wrqPage u d (ring + 16 * (w.tail % q)) 3 with
      | (s, .error e) => (s, .error e)
      | (s, .ok p) => (s, .ok { w with desc := some p })

/-- The physical lines that a WRQ writes; none where they are not known yet. -/
def State.wrqLines (s : State) (u d addr n hdr : Nat) : Option (List Nat) :=
  match (s.wrqPages u d addr n hdr).2 with
  | .ok w =>
    let k := 4096 - addr % 4096
    some (w.header / 128 :: (w.desc.toList.map (· / 128) ++ linesOf w.first (min k n) ++
      if k < n then linesOf w.second (n - k) else []))
  | .error _ => none

/-- A WRQ that a thread issued before an access is not done and may write the access's line: its writes come first (R262). -/
def State.wrqBars (s : State) (u t seq line : Nat) : Bool :=
  s.jobs.any fun e => match e.2.kind with
    | .wrq u2 t2 _ data addr hdr q _ _ _ =>
      u2 == u && t2 == t && decide (q < seq) && (match s.wrqLines u e.2.die addr data.length hdr with
        | some l => l.contains line
        | none => true)
    | _ => false

/-- The bytes of a store entry: among members that store to one byte the highest thread index stands (R222). -/
def storeBytes (parts : List (Nat × LineBytes)) : LineBytes := parts.foldl (fun r p => lineOver r p.2) []

/-! ## Effects of an entry on the bytes of a line -/

/-- Contributions combined into a partial (R230, R245). -/
def redAdd (t : Tag) (p : Partial) (ops : List (Nat × Nat × Nat)) : Partial :=
  ops.foldl (fun p o => tset p o.2.1 (eltAdd t (tget p o.2.1) o.2.2)) p

/-- Bytes with a pending private partial, folded over a block's held writes (R242). -/
def heldStep (line : Nat) (x : LineBytes × Option (Tag × Partial)) (h : Held) : LineBytes × Option (Tag × Partial) :=
  let flush : LineBytes := match x.2 with
    | some (t, p) => lineMerge t x.1 p
    | none => x.1
  if h.line ≠ line then x
  else match h.kind with
    | .store parts _ => (lineOver flush (storeBytes parts), none)
    | .atoms ops => ((atomsRun ops flush).1, none)
    | .red t ops =>
      match x.2 with
      | some (t2, p) => if t2 = t then (x.1, some (t, redAdd t p ops)) else (flush, some (t, redAdd t [] ops))
      | none => (x.1, some (t, redAdd t [] ops))
    | .fence => x

/-- Bytes with held writes over them. -/
def withHeld (line : Nat) (l : List Held) (b : LineBytes) : LineBytes :=
  match l.foldl (heldStep line) (b, none) with
  | (b, some (t, p)) => lineMerge t b p
  | (b, none) => b

/-- A line as an access of a retryable block sees it before the block is confirmed: with the writes it held before the
access (R242). -/
def State.heldView (s : State) (u line seq : Nat) (b : LineBytes) : LineBytes :=
  withHeld line ((s.block u).run.held.filter fun h => decide (h.seq < seq)) b

/-- A block's held writes that its confirmation has queued and that are not performed yet, in program order (R302, R345). -/
def State.confirmHeld (s : State) (u : Nat) : List Held :=
  ((s.core (s.block u).core).fifo.filter fun e =>
    e.blk == u && e.ordered && e.st != .applied && e.st != .performed).map fun e =>
      { seq := e.seq, line := e.line, kind := e.kind, tids := e.tids, size := 0 }

/-! ## Loads (R224, R262-R264) -/

/-- Bytes that a load's thread has stored before it and that its L1 does not have yet (R222). -/
def Core.ownBytes (c : Core) (l : Load) : LineBytes :=
  (c.fifo.filter fun e => e.blk == l.blk && e.line == l.line && decide (e.seq < l.seq) && e.st != .performed).foldl
    (fun r e => match e.kind with
      | .store parts _ => (parts.filter fun p => p.1 == l.tid).foldl (fun r p => lineOver r p.2) r
      | _ => r) []

/-- A load may not be performed yet: an earlier load of the thread to the line or an earlier acquire is outstanding, or
an earlier atomic or contribution of the thread to the line is, or a write of its block's confirmation (R222, R233,
R242, R262, R268). -/
def Core.loadWaits (c : Core) (l : Load) : Bool :=
  (c.loads.any fun k => k.blk == l.blk && k.tid == l.tid && decide (k.seq < l.seq) && k.value.isNone &&
    (k.line == l.line || k.acquire)) ||
  c.fifo.any fun e => e.blk == l.blk && e.tids.contains l.tid && decide (e.seq < l.seq) && e.st != .performed &&
    (e.acquire || (e.line == l.line && match e.kind with
      | .red _ _ | .atoms _ => true
      | _ => false)) ||
  c.fifo.any fun e => e.ordered && e.blk == l.blk && e.line == l.line && decide (e.seq < l.seq) && e.st != .performed

/-- The bytes that the core itself can give a load: a valid copy under the same translation, or its own stores. -/
def Core.hit (c : Core) (l : Load) : Option LineBytes :=
  let n := l.size.bytes
  let own := c.ownBytes l
  if lineHas own l.off n then some own
  else match tget c.l1 l.line with
    | some x =>
      if x.tag.isNone && x.vline == l.va / 128 && x.cid == l.cid && x.readOk && lineHas x.data l.off n then
        some (lineOver x.data own)
      else none
    | none => none

/-- A load that the core's L1 serves reads a copy that an update under way makes older (R235). -/
def Core.older (c : Core) (l : Load) : Bool :=
  !lineHas (c.ownBytes l) l.off l.size.bytes && c.upds.any fun p => p.line == l.line && p.bytes != []

/-- The thread has an MWATCH whose load is not performed: its watch is not armed yet. -/
def Core.watchPending (c : Core) (u t : Nat) : Bool :=
  c.loads.any fun l => l.blk == u && l.tid == t && l.watch && l.value.isNone

/-- A thread's watch is armed; an MWAIT that waits for it goes on waiting for what it watches (R235, R236, log 28). -/
def Thread.arm (t : Thread) (w : Watch) (last : Bool) : Thread :=
  { t with watch := some w, st := match t.st with
      | .waiting (.arming d) => if last then .waiting (.watch d) else t.st
      | st => st }

/-- A load is performed with the bytes of its line, which its thread has then observed; MWATCH arms the watch in the same
step (R224, R235, R268). -/
def State.bindLoad (s : State) (core : Nat) (l : Load) (b : LineBytes) (older : Bool) : State :=
  let v := lineVal (s.heldView l.blk l.line l.seq b) l.off l.size.bytes
  let s := s.setCore core fun c =>
    { c with loads := c.loads.map fun k => if k.seq = l.seq ∧ k.tid = l.tid then { k with value := some v } else k }
  s.setThread l.blk l.tid fun t =>
    let t := { t with seen := max t.seen s.seq }
    if l.watch then t.arm { line := l.line, owed := older } (!(s.core core).watchPending l.blk l.tid) else t

/-- Register writes of a loaded value (R219). -/
def loadWrites (d : Nat) (sz : Size) (v : Nat) : List (Nat × Word) :=
  (List.range sz.regs).map fun i => (d + i, BitVec.ofNat 32 (v / 2 ^ (32 * i)))

/-- Loads that are performed, and before which every load of their thread is, return (R262, R264). -/
def State.deliver (s : State) (core : Nat) : State :=
  let ls := (s.core core).loads
  let done (l : Load) := ls.all fun k => !(k.blk == l.blk && k.tid == l.tid && decide (k.seq ≤ l.seq)) || k.value.isSome
  let s := s.setCore core fun c => { c with loads := c.loads.filter fun l => !done l }
  (ls.filter done).foldl (fun s l =>
    (s.addJob (dieOf core) (s.now (dieOf core) + 1 + Config.latency s.draws)
      (.result l.blk l.tid (loadWrites l.dest l.size (l.value.getD 0)) [] l.sb)).drawn) s

/-- An L1 makes room for a line in its set of 8 ways: a line marked to go first, else any line, is evicted (R218, R243,
R245). -/
def State.l1Room (s : State) (core line : Nat) : State :=
  let set := (s.core core).l1.filter fun e => e.1 != line && Config.l1Set e.1 % 128 == Config.l1Set line % 128
  if set.length < 8 then s
  else
    let marked := set.filter (·.2.first)
    match pick (if marked = [] then set else marked) s.draws with
    | some e => (s.dropL1 (dieOf core) e.1 core).drawn
    | none => s

/-- A line fills an L1 in V. The bytes are the slice's, so updates on their way to this L1 add nothing to them (R244, R245,
R248). -/
def State.fillL1 (s : State) (core : Nat) (l : Load) (b : LineBytes) : State :=
  if !l.alloc then s
  else
    let s := (s.l1Room core l.line).setCore core fun c => { c with
      l1 := tset c.l1 l.line { vline := l.va / 128, cid := l.cid, readOk := l.readOk, data := b, first := l.first }
      upds := c.upds.map fun p => if p.line = l.line then { p with bytes := [] } else p }
    match s.l2 (dieOf core) l.line with
    | some x => s.setL2 (dieOf core) l.line { x with sharers := if x.sharers.contains core then x.sharers else x.sharers ++ [core] }
    | none => s

/-- An entry of the core's own FIFO has been performed on the line, or has left for its home, ahead of older entries: the
core's threads see its stores in FIFO order, so a miss waits (R264). -/
def Core.ahead (c : Core) (line : Nat) : Bool :=
  c.fifo.any fun e => e.line == line && (e.st == .applied || e.st == .performed || e.st == .sent)

/-! ## Host lines and lines of linked devices (R233, R257, R380) -/

def State.port? (s : State) (line : Nat) : Nat :=
  match s.region (line * 128) with
  | .cxl p => p
  | _ => 0

/-- An atomic on a half of a host line is out at the host (R229). -/
def State.halfAway (s : State) (line k : Nat) : Bool := s.away.any fun a => a.pa / 64 == 2 * line + k

/-- The bridge asks the host for a half: RdShared or RdOwn (R257). -/
def State.askHost (s : State) (d line k : Nat) (own : Bool) : State :=
  if (s.hostHalf line k).asked.isSome || s.halfAway line k || s.portDown line then s
  else
    let s := s.setHalf line k fun h => { h with asked := some (d, own) }
    { s with out := s.out ++ [.cxl (s.port? line) line k (if own then 1 else 0) none] }

/-- Bytes of one half. -/
def halfPart (b : LineBytes) (k : Nat) : LineBytes := b.filter fun e => e.1 / 64 == k

/-- A die takes a half of a host line. -/
def State.takeHalf (s : State) (d line k : Nat) (b : LineBytes) : State :=
  let l := (s.l2 d line).getD {}
  let s := s.setL2 d line { l with st := some .S, data := lineOver l.data (halfPart b k) }
  s.setHalf line k fun h => { h with dies := if h.dies.contains d then h.dies else h.dies ++ [d] }

/-- A store to a half that the host has granted: every other die gives it up, and it is M at the die (R257). -/
def State.ownHalf (s : State) (d line k : Nat) : State :=
  let h := s.hostHalf line k
  let v := s.newest line
  let s := (h.dies.filter (· != d)).foldl (fun s e => s.loseHalf e line k) s
  let s := if h.dies.contains d then s else s.takeHalf d line k v
  s.setHalf line k fun h => { h with st := .M, dirty := some d }

/-- A die drops a half of a host line on its own: the next sharer becomes the dirty holder, or the host is told (R257). -/
def State.evictHalf (s : State) (d line k : Nat) : State :=
  let h := s.hostHalf line k
  if !h.dies.contains d then s
  else
    let v := halfOf (s.newest line) k
    let s := s.loseHalf d line k
    let rest := h.dies.filter (· != d)
    match rest with
    | [] =>
      let s := s.setHalf line k fun x => { asked := x.asked }
      match s.region (line * 128) with
      | .cxl p => { s with out := s.out ++ [if h.st = .M then .cxl p line k 3 (some v) else .cxl p line k 2 none] }
      | _ => s
    | _ => s.setHalf line k fun x => { x with dirty := if h.dirty = some d then rest.min? else x.dirty }

/-- Atomics on memory homed outside the module leave for that home, one request each in ascending thread order: for the
host once every die has given the halves back, for a linked device at once (R228, R229, R233). -/
def State.atomsAway (s : State) (line : Nat) (who : Option (Nat × Nat)) (ops : List AtomOp) : State :=
  let ks := dedupN (ops.map (·.off / 64))
  let out (f : AtomOp → Out) (s : State) : State :=
    { s with out := s.out ++ ops.map f,
             away := s.away ++ ops.map fun o =>
              { core := who.map (·.1), seq := (who.map (·.2)).getD 0, tid := o.tid, write := true, pa := line * 128 + o.off } }
  match s.region (line * 128) with
  | .cxl port =>
    let s := ks.foldl (fun s k => (List.range 9).foldl (fun s d => s.evictHalf d line k) s) s
    out (fun o => .cxl port line (o.off / 64) (16 + o.op.code.toNat) (some (BitVec.ofNat 512 (lineVal o.flit 0 19)))) s
  | .linked dev _ =>
    out (fun o => s.flit dev (line * 128 + o.off) (16 + o.op.code.toNat) o.flit) (s.dropLinked line)
  | _ => s

/-- A request for one of the halves of a host line is out. -/
def State.halvesAsked (s : State) (line : Nat) (ops : List AtomOp) : Bool :=
  ops.any fun o => (s.hostHalf line (o.off / 64)).asked.isSome

/-! ## TRANSLATION_REQUEST: an unperformed load tries the L1, then its slice (R247, R353) -/

/-- The readable copy of a line at the slice of a core's die, or what is asked for it. A device's line is there once PREF
has brought it (R227, R254). -/
def State.sliceRead (s : State) (core : Nat) (l : Load) : State × Option LineBytes :=
  let d := dieOf core
  let n := l.size.bytes
  match s.region (l.line * 128) with
  | .cxl _ =>
    let k := l.off / 64
    let h := s.hostHalf l.line k
    if h.dies.contains d then (s, (s.l2 d l.line).map (·.data))
    else if h.dies ≠ [] then
      let t := s.takeHalf d l.line k (s.newest l.line)
      if t.sliceFits d l.line then (t, (t.l2 d l.line).map (·.data)) else (s, none)
    else (s.askHost d l.line k false, none)
  | .linked dev _ =>
    if (s.hostHalf l.line (l.off / 64)).dies.contains d then (s, (s.l2 d l.line).map (·.data))
    else if l.asked then (s, none)
    else
      let pa := l.line * 128 + l.off / 64 * 64
      ({ s with out := s.out ++ [s.flit dev pa 0 []],
                away := s.away ++ [{ core := some core, seq := l.seq, tid := l.tid, load := true, pa := pa }] }, none)
  | _ =>
    match s.l2 d l.line with
    | some x =>
      match x.st with
      | some .S | some .E | some .M | some .O => (s, some (lineOver x.data x.loc))
      | st => if st.isNone && lineHas x.loc l.off n then (s, some x.loc) else (s.ask d l.line .getS, none)
    | none => (s.ask d l.line .getS, none)

/-- Whether a die's own slice has what a load asks for; a half of a host line that another die supplies is a miss (R258,
R307). -/
def State.sliceHit (s : State) (d : Nat) (l : Load) : Bool :=
  s.holds d l.line [l.off / 64] ||
    (inHbm l.line && (s.l2 d l.line).any fun x => x.st.isNone && lineHas x.loc l.off l.size.bytes)

/-- A load of a linked device's line of which the thread has stored some bytes before it waits until they are at the device:
the device then gives it the whole value (R222). -/
def State.behindOwn (s : State) (core : Nat) (l : Load) : Bool :=
  match s.region (l.line * 128) with
  | .linked _ _ => (s.core core).ownBytes l != []
  | _ => false

/-- A load of a core that is not performed tries its L1, then the slice. A copy that the load cannot use, of another virtual
alias or a partial, leaves the L1 (R244, R245). -/
def State.request (s : State) (core : Nat) (l : Load) : State :=
  let c := s.core core
  let d := dieOf core
  if l.value.isSome || c.loadWaits l || s.wrqBars l.blk l.tid l.seq l.line then s
  else match c.hit l with
    | some b => (s.bindLoad core l b (c.older l)).deliver core
    | none =>
      if c.ahead l.line || s.behindOwn core l then s
      else
        let s := s.dropL1 d l.line core
        let held := s.sliceHit d l
        match s.sliceRead core l with
        | (s, some b) =>
          let s := s.countLoad core l held
          let full := !inHbm l.line || ((s.l2 d l.line).bind (·.st)).isSome
          let s := if full then s.fillL1 core l b else s
          (s.bindLoad core l (lineOver b ((s.core core).ownBytes l)) false).deliver core
        | (s, none) => (s.countLoad core l false).setCore core fun c =>
            { c with loads := c.loads.map fun k => if k.seq = l.seq ∧ k.tid = l.tid then { k with asked := true } else k }

/-- PREF's line, or half of a host line, on its way: it is done once the L1 has it, or the slice where it is to fill the L2
only; under HINT 3 the slice then retains it. A line that the die holds in W or U, or of which the L1 has a partial, is left
as it is (R218, R227, log 78). -/
def State.prefetch (s : State) (core : Nat) (l : Load) : State :=
  let d := dieOf core
  let put (s : State) (f : Load → List Load) : State :=
    s.setCore core fun c => { c with prefs := c.prefs.flatMap fun k => if k = l then f k else [k] }
  let done (s : State) : State := put s fun _ => []
  let retain (s : State) : State := match s.l2 d l.line with
    | some x => if l.retain then s.setL2 d l.line { x with retained := true } else s
    | none => s
  let count (s : State) (hit : Bool) : State := if l.counted then s else s.slice41 d l.line hit
  let st := (s.l2 d l.line).bind (·.st)
  let there := (tget (s.core core).l1 l.line).any fun x => x.tag.isSome || lineHas x.data (l.off / 64 * 64) 64
  let held := s.sliceHit d l
  if there || st == some .W || st == some .U then done (retain s)
  else match s.sliceRead core l with
    | (s, some b) =>
      if (!inHbm l.line || st.isSome) && !(s.core core).ahead l.line then done (retain (count (s.fillL1 core l b) held))
      else put (count s held) fun k => [{ k with counted := true }]
    | (s, none) => put (count s false) fun k => [{ k with asked := true, counted := true }]

/-- TRANSLATION_REQUEST: the request of the core's load number `load`, or of a line of PREF after the loads (R227, R247,
R353). -/
def execTranslationRequest (core load : Nat) (s : State) : Out1 :=
  let c := s.core core
  match c.loads[load]?, c.prefs[load - c.loads.length]? with
  | some l, _ => .next (s.request core l)
  | none, some l => .next (s.prefetch core l)
  | none, none => .next s

/-! ## The store FIFO and the slice (R222, R246-R248, R263-R269) -/

/-- An entry of a core by its number. -/
def Core.entry? (c : Core) (seq : Nat) : Option Entry := c.fifo.find? fun e => e.seq == seq

/-- Done entries leave at the head: entries free in FIFO order (R264). -/
def State.retire (s : State) (core : Nat) : State :=
  s.setCore core fun c => { c with fifo := c.fifo.dropWhile fun e => e.st == .performed }

/-- An entry is performed; an ATOM's results are on their way, and its threads have observed what it found (R229, R268). -/
def State.entryDone (s : State) (core : Nat) (e : Entry) : State :=
  let s := s.setEntry core e.seq fun x => { x with st := .performed, acks := [] }
  let s := match e.kind with
    | .atoms ops => ops.foldl (fun (s : State) (o : AtomOp) =>
        let s := s.setThread e.blk o.tid fun t => { t with seen := max t.seen s.seq }
        match o.dest with
        | some r =>
          let regs := (List.range (o.size / 4)).map fun i => (r + i, BitVec.ofNat 32 (o.old / 2 ^ (32 * i)))
          (s.addJob (dieOf core) (s.now (dieOf core) + 1 + Config.latency s.draws) (.result e.blk o.tid regs [] e.sb)).drawn
        | none => s) s
    | _ => s
  s.retire core

/-- A load of the core that has read the line while an earlier load of its thread is outstanding is replayed, and with
an acquire every later load of the thread (R264, R268). -/
def replay (line : Nat) (ls : List Load) : List Load :=
  let open_ (l : Load) := ls.any fun k => k.blk == l.blk && k.tid == l.tid && decide (k.seq < l.seq) && k.value.isNone
  let hit (l : Load) := l.line == line && l.value.isSome && open_ l
  ls.map fun l =>
    if hit l || ls.any fun k => k.blk == l.blk && k.tid == l.tid && decide (k.seq < l.seq) && k.acquire && hit k then
      { l with value := none, asked := false, counted := false }
    else l

/-- The slice has performed an entry's bytes: every L1 of the sharer vector and the writer's own gets the words, but one that
holds a partial of the line; watches fire, on every die where the bytes are then in memory's order (R235, R245, R248, R260). -/
def State.applied (s : State) (core : Nat) (e : Entry) (bytes : LineBytes) (ordered : Bool) : State :=
  let d := dieOf core
  let sh := ((s.l2 d e.line).map (·.sharers)).getD []
  let cs := (if sh.contains core then sh else sh ++ [core]).filter fun c =>
    c == core || !((tget (s.core c).l1 e.line).bind (·.tag)).isSome
  let at_ := match e.kind with
    | .atoms _ => some (s.now d)
    | _ => none
  let s := cs.foldl (fun s c => s.setCore c fun k =>
    { k with upds := k.upds ++ [⟨e.line, bytes, core, e.seq, s.seq, at_⟩] }) s
  let s := s.setEntry core e.seq fun _ => { e with st := .applied, acks := cs }
  if ordered then s.fireAll e.line true else s.fireDie d e.line true

/-- An entry's effect has been performed at the slice. -/
def Entry.done (e : Entry) : Bool := e.st == .applied || e.st == .performed

/-- An ATOM that has yet to return a value to one of the threads (R263). -/
def Entry.unread (e : Entry) (ts : List Nat) : Bool :=
  !e.done && match e.kind with
    | .atoms ops => ops.any fun o => o.dest.isSome && ts.contains o.tid
    | _ => false

/-- Earlier entries that keep an entry waiting: of the same line in FIFO order; of its threads, a fence marker, an
outstanding acquire, an ATOM whose value is out, and for a release everything; for held writes the program order; and an
entry that waits for a load of the same line, which may not see what comes later in the FIFO (R234, R248, R263, R264, R268,
R345). -/
def Core.entryFree (c : Core) (e : Entry) : Bool :=
  let before := c.fifo.filter fun k => decide (k.seq < e.seq)
  let mine (k : Entry) := k.blk == e.blk && k.tids.any e.tids.contains
  before.all (fun k =>
    !(k.line == e.line && k.kind != .fence && e.kind != .fence && !k.done) && !(mine k && k.unread e.tids) &&
    !(!k.done && k.tids.any fun t => (c.loadsOf k.blk t k.seq).any (·.line == e.line)) &&
    (k.st == .performed || !mine k || (k.kind != .fence && !k.acquire && !e.release && e.kind != .fence)) &&
    !(e.ordered && k.ordered && k.blk == e.blk && k.st != .performed)) &&
  e.tids.all fun t => (c.loadsOf e.blk t e.seq).isEmpty

/-- Whether a note must announce the entry: a narrow release, or a write behind a narrow fence, with earlier stores of
the die not yet performed at DEV scope (R269). -/
def State.needsNote (s : State) (core : Nat) (e : Entry) : Bool :=
  match e.rel with
  | some q => !(e.release && decide (4 ≤ e.scope)) && e.tids.any fun t =>
      !s.dieSettled (dieOf core) e.blk t (s.sawBefore e.blk t q)
  | none => false

/-- What a release waits for at its scope beyond its core: what its threads made or observed is performed, and their W
partials are at their homes (R253, R268, R271). -/
def State.releaseFree (s : State) (core : Nat) (e : Entry) : Bool :=
  let d := dieOf core
  (!e.release || e.tids.all fun t =>
    s.wrqOver e.blk t e.seq && s.atScope d e.blk t (s.sawBefore e.blk t e.seq) e.scope) &&
  (e.st == .noted || !s.needsNote core e)

/-- A store or masked store to a line of the module at the slice (R247, R253, R267). -/
def State.storeHbm (s : State) (core : Nat) (e : Entry) (bytes : LineBytes) (masked : Bool) : State :=
  let d := dieOf core
  let who := e.tids.map fun t => (e.blk, t)
  let s := if ((tget (s.core core).l1 e.line).bind (·.tag)).isSome then s.dropL1 d e.line core else s
  let l := (s.l2 d e.line).getD {}
  let first := if l.loc = [] ∧ (l.st ≠ some .W ∨ l.data = []) then s.seq else l.firstAt
  let join := l.st = some .W ∧ masked ∧ l.loc = []
  let s := s.lookup core e (decide (l.st = some .E ∨ l.st = some .M ∨ join))
  if l.st = some .E ∨ l.st = some .M then
    ((s.age e.line bytes).setL2 d e.line { l with st := some .M, data := lineOver l.data bytes }).applied core e bytes true
  else if join then
    ((s.age e.line bytes).setL2 d e.line { l with data := lineOver l.data bytes, writers := l.writers ++ who,
                                                  firstAt := first }).applied core e bytes false
  else
    let mask := masked ∧ l.st ≠ some .O ∧ (l.loc = [] ∨ l.locMask)
    let req : Req := if mask then .getW else .getM
    if e.release ∧ 4 ≤ e.scope then s.ask d e.line req
    else
      let s := (s.age e.line bytes).setL2 d e.line
        { l with loc := lineOver l.loc bytes, locBy := l.locBy ++ who, locMask := decide mask, firstAt := first }
      (s.ask d e.line req).applied core e bytes false

/-- A RED at the slice: combined into the L1 partial once the die holds the line in U under its tag (R245-R247). -/
def State.redHbm (s : State) (core : Nat) (e : Entry) (t : Tag) (ops : List (Nat × Nat × Nat)) : State :=
  let s0 := s
  let d := dieOf core
  let l1 := tget (s.core core).l1 e.line
  match s.l2 d e.line with
  | some l =>
    if l.st = some .U ∧ l.tag = some t ∧ l.loc = [] then
      let old := match l1 with
        | some x => if x.tag = some t then x.part else []
        | none => []
      let fresh := t.op = .addx ∧ !(s.core core).mbuf.contains e.line
      let s := if fresh ∧ 64 ≤ (s.core core).mbuf.length then
          match (s.core core).mbuf.head? with
          | some k => (s.dropL1 d k core).tick core 0x11 none none 1
          | none => s
        else s
      let va := tgetD e.vas (e.tids.headD 0) 0
      let s := (s.l1Room core e.line).setCore core fun c =>
        { c with l1 := tset c.l1 e.line { vline := va / 128, cid := (s.ctxOf e.blk).cid, tag := some t, part := redAdd t old ops },
                 mbuf := if fresh then c.mbuf ++ [e.line] else c.mbuf }
      let t := s.setL2 d e.line { l with sharers := if l.sharers.contains core then l.sharers else l.sharers ++ [core] }
      ((t.ageFrom s0 e.line).lookup core e true).entryDone core e
    else
      let s := if (l1.bind (·.tag)).isSome then s.dropL1 d e.line core else s
      (s.lookup core e false).ask d e.line (.getU t)
  | none => (s.lookup core e false).ask d e.line (.getU t)

/-- A store to CXL host memory: performed once the host has granted every touched half (R257); a hit where the die alone has
them (R307). -/
def State.storeHost (s : State) (core : Nat) (e : Entry) (b : LineBytes) : State :=
  let d := dieOf core
  let ks := dedupN (b.map (·.1 / 64))
  let lack := ks.filter fun k => !s.halfOwned e.line k
  if lack ≠ [] then
    lack.foldl (fun s k => s.askHost d e.line k true) (s.lookup core e false)
  else
    let s := (s.lookup core e (ks.all fun k => (s.hostHalf e.line k).dies == [d])).age e.line b
    let s := ks.foldl (fun s k => s.ownHalf d e.line k) s
    let l := (s.l2 d e.line).getD {}
    (s.setL2 d e.line { l with data := lineOver l.data b }).applied core e b true

/-- A store to a linked device leaves, one request for each half, and waits for their acknowledgements (R267). -/
def State.storeLinked (s : State) (core : Nat) (e : Entry) (dev : Nat) (b : LineBytes) : State :=
  let pa (k : Nat) := e.line * 128 + 64 * k
  let ks := dedupN (b.map (·.1 / 64))
  let s := (s.lookup core e false).dropLinked e.line
  let s := { s with out := s.out ++ ks.map fun k => s.flit dev (pa k) 1 (halfPart b k),
                    away := s.away ++ ks.map fun k => ({ core := some core, seq := e.seq, write := true, pa := pa k } : Away) }
  s.setEntry core e.seq fun x => { x with st := .sent }

/-- Atomics and contributions on memory homed outside the module leave for that home and wait for its answers. -/
def State.atomsSent (s : State) (core : Nat) (e : Entry) (ops : List AtomOp) : State :=
  if s.halvesAsked e.line ops || s.portDown e.line then s
  else ((s.lookup core e false).atomsAway e.line (some (core, e.seq)) ops).setEntry core e.seq fun x => { x with st := .sent }

/-- One answer of a home outside the module to an entry: an atomic's old value is in the bytes it brings; with the last
answer the entry is performed (R229, R267). -/
def State.partDone (s : State) (core : Nat) (a : Away) (b : LineBytes) : State :=
  let found (e : Entry) : Entry := match e.kind with
    | .atoms ops => { e with kind := .atoms (ops.map fun o =>
        if o.tid = a.tid ∧ o.off = a.pa % 128 then { o with old := lineVal b o.off o.size } else o) }
    | _ => e
  let s := (s.setEntry core a.seq found).fireAll (a.pa / 128) true
  match (s.core core).entry? a.seq with
  | some e =>
    if s.away.any fun x => x.core == some core && x.seq == a.seq && !x.load then s
    else (s.entryDone core e).setCore core fun c => { c with loads := replay e.line c.loads }
  | none => s

/-- The half of a device's line that a PREF asked for arrives: the die takes it if nothing is on its way to the line (R227,
R254). -/
def State.prefReply (s : State) (core : Nat) (a : Away) (b : LineBytes) : State :=
  let line := a.pa / 128
  let k := a.pa / 64 % 2
  match (s.core core).prefs.find? fun l => l.seq == a.seq && l.tid == a.tid && l.asked && l.line == line && l.off / 64 == k with
  | none => s
  | some l =>
    let t := s.takeHalf (dieOf core) line k b
    if t.sliceFits (dieOf core) line && !s.away.any (fun x => x.write && x.pa / 128 == line) then t
    else s.setCore core fun c => { c with prefs := c.prefs.filter (· != l) }

/-- The oldest request that is out for an address and what its answer does: a load is performed, an entry goes on; of an
engine's write or atomic the watches learn (R233, R235, R267). -/
def State.answered (s : State) (ok : Away → Bool) (b : LineBytes) : State :=
  match s.away.find? ok with
  | none => s
  | some a =>
    let s := { s with away := s.away.erase a }
    match a.core with
    | none => if a.write then s.fireAll (a.pa / 128) true else s
    | some c =>
      if !a.load then s.partDone c a b
      else match (s.core c).loads.find? fun l => l.seq == a.seq && l.tid == a.tid && l.asked && l.value.isNone with
        | some l => (s.bindLoad c l (lineOver b ((s.core c).ownBytes l)) false).deliver c
        | none => s.prefReply c a b

/-- SLICE_STORE of one entry whose turn it is. -/
def State.perform (s : State) (core : Nat) (e : Entry) : State :=
  let d := dieOf core
  match e.kind with
  | .fence => if e.tids.all fun t => s.performed e.blk t e.seq e.scope then s.entryDone core e else s
  | .store parts masked =>
    let b := storeBytes parts
    match s.region (e.line * 128) with
    | .cxl _ => s.inSlice (s.storeHost core e b) d e.line
    | .linked dev _ => s.storeLinked core e dev b
    | _ => s.inSlice (s.storeHbm core e b masked) d e.line
  | .red t ops => if inHbm e.line then s.redHbm core e t ops else s.atomsSent core e (redOps t ops)
  | .atoms ops =>
    if !inHbm e.line then s.atomsSent core e ops
    else
      let s := if ((tget (s.core core).l1 e.line).bind (·.tag)).isSome then s.dropL1 d e.line core else s
      match s.l2 d e.line with
      | some l =>
        if (l.st = some .E ∨ l.st = some .M) ∧ l.loc = [] then
          let (y, ops) := atomsRun ops l.data
          let b := atomsBytes ops y
          let t := ((s.lookup core e true).age e.line b).setL2 d e.line { l with st := some .M, data := y }
          s.inSlice (t.applied core { e with kind := .atoms ops } b true) d e.line
        else (s.lookup core e false).ask d e.line .getM
      | none => (s.lookup core e false).ask d e.line .getM

/-- Held writes of a block are performed one after another at DEV scope (R345). -/
def State.orderedFree (s : State) (core : Nat) (e : Entry) : Bool :=
  !e.ordered || (s.dm (dieOf core)).lines.all fun l => (l.2.locBy ++ l.2.writers).all fun w => w.1 != e.blk

/-- Whether it is an entry's turn (R263-R269, R345). -/
def State.entryReady (s : State) (core : Nat) (e : Entry) : Bool :=
  (e.st == .queued || e.st == .noted) && (s.core core).entryFree e && s.orderedFree core e &&
    (e.kind == .fence || (s.releaseFree core e && !e.tids.any fun t => s.wrqBars e.blk t e.seq e.line))

/-- SLICE_STORE: an entry reaches its L2 slice, is performed and is sent to every sharer L1 (R248). -/
def execSliceStore (core entry : Nat) (s : State) : Out1 :=
  match (s.core core).entry? entry with
  | some e => event s (s.entryReady core e) (s.perform core e)
  | none => .next s

/-- RELEASE_NOTE: the note of a narrow release reaches the home of its line. Its position in the die's order is that of the
note, and a number of its own: what the release's threads made or observed before is performed on the die by then, what is
performed afterwards has a higher number (R269). -/
def execReleaseNote (core entry : Nat) (s : State) : Out1 :=
  match (s.core core).entry? entry with
  | some e =>
    let k := s.stackOf e.line
    event s (e.st == .queued && (s.core core).entryFree e && s.needsNote core e && inHbm e.line &&
        decide ((s.stack k).log.length < 256))
      (let s1 : State := { s with seq := s.seq + 1 }
       let note : Note := ⟨e.line, dieOf core, s.seq, (s.homeOf e.line).queue.length⟩
       (s1.setStack k fun x => { x with log := x.log ++ [note] }).setEntry core e.seq fun x => { x with st := .noted })
  | none => .next s

/-- PUBLISH_NOW: the log is full, or the line has no log, and the release becomes a DEV release (R269). -/
def execPublishNow (core entry : Nat) (s : State) : Out1 :=
  match (s.core core).entry? entry with
  | some e =>
    event s (e.st == .queued && s.needsNote core e &&
        (!inHbm e.line || decide (256 ≤ (s.stack (s.stackOf e.line)).log.length)))
      (s.setEntry core e.seq fun x => { x with release := true, scope := max 4 x.scope })
  | none => .next s

/-! ## WRITE_UPDATE (R248, R264) -/

/-- An update is applied and acknowledged; an L1 without the line only acknowledges. A watch that was armed since the slice
performed the write, from the older copy, fires now, whatever has become of the copy (R235, R260). An update of the core's own
entry that is not the oldest drops the L1's copy instead, so that the core's threads see its stores in FIFO order (R248,
R264). -/
def State.applyUpd (s : State) (core : Nat) (p : Update) : State :=
  let c := s.core core
  let own := p.core == core
  let oldest := c.fifo.all fun e => decide (p.seq ≤ e.seq) || e.st == .performed
  let s := s.setCore core fun c =>
    let l1 := match tget c.l1 p.line with
      | some x =>
        if x.tag.isSome then c.l1
        else if own && !oldest then tdel c.l1 p.line
        else tset c.l1 p.line { x with data := lineOver x.data (p.bytes.filter fun e => (tget x.data e.1).isSome) }
      | none => c.l1
    { c with l1 := l1, loads := if own then replay p.line c.loads else c.loads }
  let s := s.fireOwed core p.line
  match (s.core p.core).entry? p.seq with
  | some e =>
    let left := e.acks.filter (· != core)
    if left = [] then s.entryDone p.core e else s.setEntry p.core p.seq fun x => { x with acks := left }
  | none => s

/-- WRITE_UPDATE: the oldest update sent to an L1 is applied and acknowledged (R248); updates of several slices come in the
order of performing (log 94). -/
def execWriteUpdate (core : Nat) (s : State) : Out1 :=
  match (s.core core).upds with
  | p :: r => .next ((s.setCore core fun c => { c with upds := r }).applyUpd core p)
  | [] => .next s

/-- L1_INVALIDATE: an L1 gives up a line; a partial is flushed into the die's (R245). -/
def execL1Invalidate (core line : Nat) (s : State) : Out1 :=
  event s (tget (s.core core).l1 line).isSome (s.dropL1 (dieOf core) line core)

end Sys2Proof.Machine
end

