-- ==== Sys2Proof/Machine/Homes.lean ====
section
/-! DEFINITION. The home directories: requests, forwards, recalls, merges, grants, write-backs and release logs
(R250-R256, R259, R269). -/

namespace Sys2Proof.Machine

/-! ## Starting and finishing a request at the home (R250, R251) -/

def Req.isGetS : Req → Bool
  | .getS => true
  | _ => false
def Req.isGetU : Req → Option Tag
  | .getU t => some t
  | _ => none

/-- The dies whose bit is set. -/
def diesOf (b : BitVec 9) : List Nat := (List.range 9).filter fun d => b.getLsbD d
def dieBit (d : Nat) : BitVec 9 := BitVec.ofNat 9 (2 ^ d)
def dieMask (l : List Nat) : BitVec 9 := l.foldl (fun b d => b ||| dieBit d) 0

/-- The messages that a request sends to dies, by the state of the line (R251). -/
def Home.calls (h : Home) (x : Nat) (r : Req) : List (Nat × MsgKind) :=
  let all (l : List Nat) (k : MsgKind) := l.map fun d => (d, k)
  let holders := diesOf h.dies
  let owner := if h.st = .E ∨ h.st = .O then [h.owner] else []
  match r with
  | .getS =>
    match h.st with
    | .E | .O => if h.owner = x then [] else [(h.owner, .fwdShare)]
    | .W | .U => all holders .recall
    | _ => []
  | .getM =>
    match h.st with
    | .S => all (holders.filter (· != x)) .inval
    | .E | .O => all (holders.filter fun d => d != x && d != h.owner) .inval ++ (if h.owner = x then [] else [(h.owner, .fwdOwn)])
    | .W | .U => all holders .recall
    | .I => []
  | .getW =>
    match h.st with
    | .S => all holders .inval
    | .E | .O => all (holders.filter (· != h.owner)) .inval ++ all owner .recall
    | .U => all holders .recall
    | _ => []
  | .getU t =>
    match h.st with
    | .S => all holders .inval
    | .E | .O => all (holders.filter (· != h.owner)) .inval ++ all owner .recall
    | .W => all holders .recall
    | .U => if h.tag = some t then [] else all holders .recall
    | .I => []
  | .merge => if h.st = .W ∨ h.st = .U then all holders .recall else []
  | _ => []

/-- What the die is granted, and the entry's fields after the grant (R251): `dirty` is whether the owner of a forward kept
the line dirty, `clean` whether it kept it at all. -/
def Home.granted (h : Home) (x : Nat) (r : Req) (dirty clean : Bool) : Home × LState :=
  match r with
  | .getS =>
    match h.st with
    | .S => ({ h with dies := h.dies ||| dieBit x }, .S)
    | .E | .O =>
      if h.owner = x then (h, .E)
      else if dirty then ({ h with st := .O, dies := h.dies ||| dieBit x }, .S)
      else ({ h with st := .S, dies := h.dies ||| dieBit x ||| (if clean then dieBit h.owner else 0) }, .S)
    | _ => ({ h with st := .E, dies := 0, owner := x, ver := h.ver + 1, tag := none }, .E)
  | .getM => ({ h with st := .E, dies := 0, owner := x, ver := h.ver + 1, tag := none }, .E)
  | .getW =>
    if h.st = .W then ({ h with dies := h.dies ||| dieBit x }, .W)
    else ({ h with st := .W, dies := dieBit x, ver := h.ver + 1, tag := none }, .W)
  | .getU t =>
    if h.st = .U ∧ h.tag = some t then ({ h with dies := h.dies ||| dieBit x }, .U)
    else ({ h with st := .U, dies := dieBit x, ver := h.ver + 1, tag := some t }, .U)
  | _ => (h, .S)

/-- Lines of a stack in W or U: they stay in its directory cache (R250). -/
def Stack.kept (k : Stack) : List (Nat × Home) := k.homes.filter fun e => e.2.st == .W || e.2.st == .U

/-- A line has entered W or U. When every entry of the directory cache is held so, the line that entered first is recalled or
merged (R250). -/
def State.entersCache (s : State) (line : Nat) : State :=
  let k := s.stackOf line
  let s := (s.setHome line fun h => { h with entered := (s.stack k).entered }).setStack k fun x => { x with entered := x.entered + 1 }
  let l := (s.stack k).kept
  if l.length < 65536 then s
  else
    let n := l.foldl (fun n e => min n e.2.entered) (s.stack k).entered
    match l.find? fun e => e.2.entered == n with
    | some e => s.setHome e.1 fun h => { h with queue := h.queue ++ [(9, .merge)] }
    | none => s

/-- The directory cache has an entry for a line's request: lines in W and U have theirs (R250). -/
def State.cacheRoom (s : State) (line : Nat) : Bool :=
  (s.homeOf line).st == .W || (s.homeOf line).st == .U || decide ((s.stack (s.stackOf line)).kept.length < 65536)

/-- The home grants what a request asks for, all answers being in (R251). A GetM of a die that holds the line in S counts a fill
read like any other that memory supplies (R317, log 109). -/
def State.grantTxn (s : State) (line : Nat) (t : Txn) (was : HState) : State :=
  let h := s.homeOf line
  let owned := (s.l2 h.owner line).bind (·.st)
  let dirty := owned = some .O ∨ owned = some .M ∨ (owned.isNone ∧ (s.dm h.owner).wb.any fun w => w.line == line && w.ver == h.ver)
  let (h2, st) := h.granted t.die t.req (decide dirty) owned.isSome
  let reads := st = .S ∨ st = .E
  let data := match t.data with
    | some d => d.1
    | none => s.viewLine line
  let s := s.countLookup line (decide reads && t.data.isNone && !s.ownerHas line) was
  let s := s.setHome line fun h => { h2 with queue := h.queue, txn := none }
  let s := if (st = .W ∨ st = .U) ∧ h.ver ≠ h2.ver then s.entersCache line else s
  let given : LState := if st = .E ∧ t.data.any (·.2) then .M else st
  { s with msgs := s.msgs ++ [⟨t.die, line, .grant given h2.ver h2.tag (if reads then data else [])⟩] }

/-- Every answer is in: the host gives way, a recalled U line is merged, the requester is granted (R251, R255, R259). A dirty
line that its owner has handed over is dirty at the requester (R247). -/
def State.finishTxn (s : State) (line : Nat) (t : Txn) : State :=
  let h := s.homeOf line
  let s := if t.req.isGetS ∧ (h.st = .S ∨ h.st = .E ∨ h.st = .O) then s.backShare line
    else if t.req.isGetU.isSome ∧ t.req.isGetU = h.tag ∧ h.st = .U ∨ t.req = .getW ∧ h.st = .W then s
    else (s.backInval line).devInval line
  let s := match h.st, h.tag with
    | .U, some g =>
      if t.req.isGetU = some g then s
      else
        let s := s.mergeU line g (h.allParts g fun d => tgetD t.parts d [])
        if t.req.isGetU.isSome then s.tickDie (stackDie (s.stackOf line)) 0x44 none 1 else s
    | _, _ => s
  if t.req = .merge then
    s.setHome line fun x =>
      if h.st = .W ∨ h.st = .U then { x with st := .I, dies := 0, tag := none, txn := none } else { x with txn := none }
  else s.grantTxn line t h.st

/-- A request that arrived after the note of another die's release: it must be published first (R269). -/
def State.noteFor (s : State) (line x : Nat) : Bool :=
  (s.stack (s.stackOf line)).log.any fun n => n.line == line && n.die != x && n.ahead == 0

/-- The request at the head of a line's queue leaves it. -/
def State.popReq (s : State) (line : Nat) : State :=
  (s.setHome line fun h => { h with queue := h.queue.drop 1 }).setStack (s.stackOf line) fun k =>
    { k with log := k.log.map fun n => if n.line = line then { n with ahead := n.ahead - 1 } else n }

/-- A die's request, as against a write-back or a notice. -/
def Req.asks : Req → Bool
  | .getS | .getM | .getW | .getU _ => true
  | _ => false
/-- The home frees a line in W or U. -/
def Req.frees : Req → Bool
  | .merge => true
  | _ => false

/-- The home starts the request at the head of a line's queue (R250). -/
def State.startReq (s : State) (line x : Nat) (r : Req) : State :=
  let cs := (s.homeOf line).calls x r
  let t : Txn := { die := x, req := r, wait := cs.map (·.1) }
  let s := (s.popReq line).setHome line fun h => { h with txn := some t }
  let s := { s with msgs := s.msgs ++ cs.map fun c => ⟨c.1, line, c.2⟩ }
  if cs = [] then s.finishTxn line t else s

/-- Whether the request at the head of a line's queue may start. -/
def State.headReq (s : State) (line : Nat) (ok : Req → Bool) : Option (Nat × Req) :=
  let k := s.stack (s.stackOf line)
  match (s.homeOf line).queue.head? with
  | some (x, r) =>
    if ok r && (s.homeOf line).txn.isNone && !k.qack && !k.qreq && !(r.asks && (s.noteFor line x || !s.cacheRoom line)) then some (x, r) else none
  | none => none

def startWhere (line : Nat) (s : State) (ok : Req → Bool) : Out1 :=
  match s.headReq line ok with
  | some (x, r) => .next (s.startReq line x r)
  | none => .next s

/-- GETS (R251). -/
def execGets (line : Nat) (s : State) : Out1 := startWhere line s Req.isGetS
/-- GETM (R251). -/
def execGetm (line : Nat) (s : State) : Out1 := startWhere line s fun r => r == .getM
/-- GETW (R251). -/
def execGetw (line : Nat) (s : State) : Out1 := startWhere line s fun r => r == .getW
/-- GETU (R251). -/
def execGetu (line : Nat) (s : State) : Out1 := startWhere line s fun r => r.isGetU.isSome

/-! ## Answers of the dies (R247, R252-R255) -/

/-- The next message for a die and line, taken off the way if it is of the kind: the messages of a home to a die about one
line arrive in the order sent (log 79); a request to publish takes no part in that order. -/
def State.takeMsg (s : State) (d line : Nat) (ok : MsgKind → Bool) : Option (MsgKind × State) :=
  match s.msgs.find? fun m => m.die == d && m.line == line && (m.kind == .publish) == ok .publish with
  | some m => if ok m.kind then some (m.kind, { s with msgs := s.msgs.erase m }) else none
  | none => none

/-- A die's answer arrives at the home, with its partial or with the data that it hands over. -/
def State.answer (s : State) (d line : Nat) (p : Partial) (data : Option (LineBytes × Bool)) : State :=
  match (s.homeOf line).txn with
  | none => s
  | some t =>
    let t := { t with wait := t.wait.erase d, parts := if p = [] then t.parts else tset t.parts d p,
                      data := if data.isSome then data else t.data }
    let s := s.setHome line fun h => { h with txn := some t }
    if t.wait = [] then s.finishTxn line t else s

/-- FORWARD_SHARE: E goes to S and M to O, the data is supplied; L1 copies stay (R247). -/
def execForwardShare (die line : Nat) (s : State) : Out1 :=
  match s.takeMsg die line (· == .fwdShare) with
  | some (_, s) =>
    let s := match s.l2 die line with
      | some l =>
        match l.st with
        | some .E => s.setL2 die line { l with st := some .S }
        | some .M => s.setL2 die line { l with st := some .O }
        | _ => s
      | none => s
    .next (s.answer die line [] none)
  | none => .next s

/-- A die gives up the line, its answer goes home, its watches fire (R235, R247). -/
def State.yieldLine (s : State) (die line : Nat) : State :=
  let (s, p) := s.giveUp line die
  (s.fireDie die line false).answer die line p none

/-- FORWARD_OWN: the line is supplied and dropped (R247, R252). -/
def execForwardOwn (die line : Nat) (s : State) : Out1 :=
  match s.takeMsg die line (· == .fwdOwn) with
  | some (_, s) =>
    let (s, x) := s.handOver line die
    .next ((s.fireDie die line false).answer die line [] x)
  | none => .next s
/-- INVALIDATE (R247). -/
def execInvalidate (die line : Nat) (s : State) : Out1 :=
  match s.takeMsg die line (· == .inval) with
  | some (_, s) => .next (s.yieldLine die line)
  | none => .next s
/-- RECALL (R247, R253, R255). -/
def execRecall (die line : Nat) (s : State) : Out1 :=
  match s.takeMsg die line (· == .recall) with
  | some (_, s) => .next (s.yieldLine die line)
  | none => .next s

/-! ## GRANT (R246, R247, R267) -/

/-- A die installs what it was granted; stores performed locally become part of a line it owns, or of its W partial. Written
into an owned line they have their place in memory's order, and fire the watches of the other dies (R235, R262, R267). -/
def State.install (s : State) (d line : Nat) (st : LState) (ver : BitVec 16) (tag : Option Tag) (data : LineBytes) : State :=
  let l := (s.l2 d line).getD {}
  let base : L2Line := { l with st := some st, ver := ver, tag := tag, asked := false, part := [], writers := [] }
  match st with
  | .S =>
    let s := s.setL2 d line { base with data := data }
    if l.loc = [] then s else s.ask d line (if l.locMask then .getW else .getM)
  | .W =>
    let s := (s.dropL1s d line).fireDie d line false
    let sh : List Nat := []
    if l.loc = [] ∨ l.locMask then
      (s.setL2 d line { base with data := lineOver (if l.st = some .W then l.data else []) l.loc, sharers := sh,
                                  writers := (if l.st = some .W then l.writers else []) ++ l.locBy, loc := [], locBy := [],
                                  locMask := false }).ageFrom s line
    else (s.setL2 d line { base with data := if l.st = some .W then l.data else [], sharers := sh }).ask d line .getM
  | .U =>
    let keep := l.st = some .U ∧ l.tag = tag
    let s := if keep then s else (s.dropL1s d line).fireDie d line true
    let s := s.setL2 d line { base with data := [], sharers := [], part := if keep then l.part else [] }
    if l.loc = [] then s else s.ask d line (if l.locMask then .getW else .getM)
  | _ =>
    if l.loc = [] then
      let dirty := st = .M ∨ l.st = some .M ∨ l.st = some .O
      s.setL2 d line { base with st := some (if dirty then .M else .E), data := data }
    else
      let t := s.setL2 d line { base with st := some .M, data := lineOver data l.loc, loc := [], locBy := [], locMask := false }
      (t.ageFrom s line).fireOn (fun c => dieOf c != d) line true

/-- GRANT: the home's grant reaches the die, once its slice has a way for the line (R247, R249, R251, R267). -/
def execGrant (die line : Nat) (s : State) : Out1 :=
  match s.takeMsg die line fun k => match k with
      | .grant _ _ _ _ => true
      | _ => false with
  | some (.grant st ver tag data, t) => .next (s.inSlice (t.install die line st ver tag data) die line)
  | _ => .next s

/-! ## Evictions (R247, R251-R253, R257) -/

/-- WRITE_BACK_DATA: a die evicts an M or O line into its write-back buffer, or the home takes a write-back from the
head of the line's queue: accepted from the recorded owner at the current version, else discarded (R251, R252). For a
host line the die drops its halves. -/
def execWriteBackData (die line : Nat) (s : State) : Out1 :=
  if !inHbm line then event s (s.mayEvict die line) ((s.evictHalf die line 0).evictHalf die line 1)
  else
    match s.headReq line fun r => match r with
        | .wbData _ _ => true
        | _ => false with
    | some (x, .wbData ver data) =>
      if x ≠ die then .next s
      else
        let h := s.homeOf line
        let ok := (h.st = .E ∨ h.st = .O) ∧ h.owner = x ∧ h.ver = ver
        let s := (s.popReq line).countLookup line false h.st
        let s := if ok then
            (s.memPut line data).setHome line fun h =>
              if h.st = .O then { h with st := if h.dies = 0 then .I else .S } else { h with st := .I, dies := 0 }
          else s.tickDie (stackDie (s.stackOf line)) 0x46 none 1
        .next { s with msgs := s.msgs ++ [⟨x, line, .wbAck ver⟩] }
    | _ =>
      match s.l2 die line with
      | some l =>
        event s ((l.st == some .M || l.st == some .O) && !l.asked && s.mayEvict die line)
          (let s := s.dropL1s die line
           let s := (s.invalL2 die line).setDm die fun m => { m with wb := m.wb ++ [⟨line, l.ver, l.data, true⟩] }
           (s.setHome line fun h => { h with queue := h.queue ++ [(die, .wbData l.ver l.data)] }).fireDie die line false)
      | none => .next s

/-- WRITE_BACK_ACK: the home's acknowledgement frees the buffer (R252). -/
def execWriteBackAck (die line : Nat) (s : State) : Out1 :=
  match s.takeMsg die line fun k => match k with
      | .wbAck _ => true
      | _ => false with
  | some (.wbAck ver, s) =>
    .next (s.setDm die fun m => { m with wb := m.wb.filter fun w => !(w.line == line && w.ver == ver) })
  | _ => .next s

/-- The home takes a die's W partial, if it still holds one, and the die leaves DIES (R251, R253). -/
def State.applyPartial (s : State) (line d : Nat) : State :=
  let s : State := match s.l2 d line with
    | some l => if l.st = some LState.W then ((s.memPut line l.data).invalL2 d line).fireAll line true else s
    | none => s
  s.setHome line fun (h : Home) =>
    let ds := h.dies &&& ~~~(dieBit d)
    if h.st = HState.W then { h with dies := ds, st := if ds = 0 then .I else .W } else h

/-- A die's slice that must free a way sends the W partial home, or asks the home to merge a U line (R247). The partial
stays with the die until the home takes it, so that a recall meanwhile finds it. -/
def State.freeWay (s : State) (d line : Nat) : State :=
  let send (r : Req) : State :=
    if (s.homeOf line).queue.contains (d, r) then s else s.setHome line fun h => { h with queue := h.queue ++ [(d, r)] }
  match (s.l2 d line).bind L2Line.st with
  | some .W => send .wbPart
  | some .U => send .merge
  | _ => s

/-- WRITE_BACK_PARTIAL: the home takes a W partial from the head of the line's queue, or starts to recall or merge the line;
or a die's slice frees the way of a U line, or sends the W partial that a release waits for, of a retained line too (R218, R247,
R250, R251, R253, R255). -/
def execWriteBackPartial (die line : Nat) (s : State) : Out1 :=
  match s.headReq line fun r => r == .wbPart || r.frees with
  | some (x, .merge) => .next (s.startReq line x .merge)
  | some (x, _) => .next (if x = die then (s.popReq line).applyPartial line x else s)
  | none => .next (if inHbm line && (s.mayEvict die line || (s.l2 die line).any (·.st == some .W)) then s.freeWay die line else s)

/-- CLEAN_EVICTION: a die drops a clean line, or the home records it, in S and E; in O it has no effect (R251). -/
def execCleanEviction (die line : Nat) (s : State) : Out1 :=
  if !inHbm line then event s (s.mayEvict die line) ((s.evictHalf die line 0).evictHalf die line 1)
  else
    match s.headReq line fun r => r == .clean with
    | some (x, _) =>
      if x ≠ die then .next s
      else .next ((((s.popReq line).countLookup line false (s.homeOf line).st)).setHome line fun h =>
        let ds := h.dies &&& ~~~(dieBit x)
        match h.st with
        | .S => { h with dies := ds, st := if ds = 0 then .I else .S }
        | .E => if h.owner = x then { h with st := .I } else h
        | _ => h)
    | none =>
      match s.l2 die line with
      | some l =>
        event s ((l.st == some .S || l.st == some .E) && !l.asked && s.mayEvict die line)
          ((((s.dropL1s die line).invalL2 die line).setHome line fun h => { h with queue := h.queue ++ [(die, .clean)] }).fireDie
            die line false)
      | none => .next s

/-! ## Publication (R269) -/

/-- PUBLISH_REQUEST: the home of a logged line asks the releasing die to publish, once the requests that came before the note
are served. -/
def execPublishRequest (line : Nat) (s : State) : Out1 :=
  match (s.stack (s.stackOf line)).log.find? fun n => n.line == line && n.ahead == 0 with
  | some n =>
    event s (!s.stopped line && !s.msgs.any fun m => m == ⟨n.die, line, .publish⟩) { s with msgs := s.msgs ++ [⟨n.die, line, .publish⟩] }
  | none => .next s

/-- Everything before a position of the die's order is performed at DEV scope: grants and W partials. Contributions before
it are granted already, since a release is noted only once its thread's are, and the release's own line, whose requests
stand behind the one that asks, is served in its queue (log 90). -/
def State.published (s : State) (d line pos : Nat) : Bool :=
  (s.dm d).lines.all fun e => e.1 == line || (e.2.loc == [] && (e.2.st != some .W || e.2.data == [])) || decide (pos < e.2.firstAt)

/-- PUBLISH_REPLY: the die has published, and the notes that stand before the requests now waiting leave the log (R269). -/
def execPublishReply (die line : Nat) (s : State) : Out1 :=
  let k := s.stackOf line
  let mine (n : Note) := n.line == line && n.die == die && n.ahead == 0
  let ok := ((s.stack k).log.filter mine).all fun n => s.published die line n.pos
  match s.takeMsg die line (· == .publish) with
  | some (_, t) =>
    event s ok ((t.setStack k fun x => { x with log := x.log.filter fun n => !mine n }).tickDie die 0x45 none 1)
  | none => .next s

end Sys2Proof.Machine
end

