-- ==== Sys2Proof/Machine/HostLines.lean ====
section
/-! DEFINITION. Traffic with an outside host over CXL and with linked devices over Wofort (R254, R257-R259, R379,
R380). -/

namespace Sys2Proof.Machine

/-! ## CXL (R257-R259) -/

/-- A modified half is sent to the host. -/
def State.hostData (s : State) (line k : Nat) : State :=
  if (s.hostHalf line k).st = .M then
    { s with out := s.out ++ [.cxl (s.port? line) line k 6 (some (halfOf (s.newest line) k))] }
  else s

/-- SNPDATA: E or M goes to S, after M has returned its data; the holders become clean sharers; watches fire. -/
def execSnpData (line half : Nat) (s : State) : Out1 :=
  event s (!inHbm line && !s.portDown line && decide (half < 2))
    (((s.hostData line half).setHalf line half fun h =>
      { h with st := if h.st = .E ∨ h.st = .M then .S else h.st, dirty := none }).fireAll line false)

/-- SNPINV: the half goes to I at every die; watches fire. -/
def execSnpInv (line half : Nat) (s : State) : Out1 :=
  event s (!inHbm line && !s.portDown line && decide (half < 2))
    (let h := s.hostHalf line half
     let s := h.dies.foldl (fun s d => s.loseHalf d line half) (s.hostData line half)
     (s.setHalf line half fun h => { h with st := .I, dies := [], dirty := none }).fireAll line false)

/-- CXL_RESPONSE: the host's answer to RdShared or RdOwn gives the half to the die that asked; or it answers the oldest
atomic that it has performed on the half, with the half as it was before (R229, R257, log 20). -/
def execCxlResponse (port line half : Nat) (data : BitVec 512) (s : State) : Out1 :=
  match (s.hostHalf line half).asked with
  | some (d, own) =>
    event s (decide (half < 2) && s.region (line * 128) == .cxl port && !s.portDown line)
      (let t := if (s.hostHalf line half).dies = [] then s.takeHalf d line half (halfBytes half data) else s
       s.inSlice (t.setHalf line half fun h =>
         { h with st := if own then .E else if h.st = .I then .S else h.st, asked := none }) d line)
  | none =>
    event s (decide (half < 2) && s.region (line * 128) == .cxl port && !s.portDown line)
      (s.answered (fun a => a.pa / 64 == 2 * line + half) (halfBytes half data))

/-- The owner of a line keeps it as a sharer: E goes to S, M to O (R247, R251). -/
def State.shareOwner (s : State) (line : Nat) : State :=
  let h := s.homeOf line
  if h.st ≠ .E ∧ h.st ≠ .O then s
  else match s.l2 h.owner line with
    | some l =>
      match l.st with
      | some .E => (s.setL2 h.owner line { l with st := some .S }).setHome line fun h =>
          { h with st := .S, dies := h.dies ||| dieBit h.owner }
      | some .M => (s.setL2 h.owner line { l with st := some .O }).setHome line fun h => { h with st := .O }
      | some .S => s.setHome line fun h => { h with st := .S, dies := h.dies ||| dieBit h.owner }
      | _ => s
    | none => s

/-- State of a half at the outside host, written into HOST (R259). -/
def hostSet (h : BitVec 4) (half v : Nat) : BitVec 4 :=
  (h &&& ~~~(BitVec.ofNat 4 (3 * 4 ^ half))) ||| BitVec.ofNat 4 (v * 4 ^ half)

/-- HOST_HDM_ACCESS: an outside host's read or write of a half reaches the home as a GetS or GetM for it (R259). -/
def execHostHdmAccess (line half : Nat) (data : Option (BitVec 512)) (s : State) : Out1 :=
  match s.hostPort with
  | none => .next s
  | some port =>
    event s (inHbm line && decide (half < 2) && s.canTouch (line * 128) 128)
      (match data with
       | none =>
         let s := (s.settleLine none line [half]).shareOwner line
         let v := halfOf (s.viewLine line) half
         let s := s.setHome line fun h => { h with host := if fld h.host (2 * half) 2 = 0 then hostSet h.host half 1 else h.host }
         { s with out := s.out ++ [.cxl port line half 6 (some v)] }
       | some v =>
         let old := (s.homeOf line).host
         let s := s.setHome line fun h => { h with host := 0 }
         (s.putLine line (halfBytes half v)).setHome line fun h => { h with host := hostSet old half 2 })

/-! ## Wofort (R233, R254, R380) -/

/-- The die of a Wofort port and its number among the die's ports (R380). -/
def wofortPlace (p : Nat) : Nat × Nat :=
  [(0, 0), (0, 1), (1, 0), (2, 0), (2, 1), (3, 0), (5, 0), (6, 0), (6, 1), (7, 0), (8, 0), (8, 1)].getD p (4, 0)

/-- A linked device's read, write or atomic of the module's memory, with the reply it gets. An atomic's flit holds the
operand in bits 63:0, the value to compare with in bits 127:64, the width in bit 128 and an ADDX window in bits 143:136
(log 20). -/
def State.deviceAccess (s : State) (src pa kind : Nat) (data : Option (BitVec 512)) : State :=
  let line := pa / 128
  let half := pa / 64 % 2
  let reply (s : State) (b : LineBytes) : State := { s with out := s.out ++ [s.flit src pa 3 b] }
  match kind, data with
  | 0, _ =>
    let s := (s.settleLine none line [half]).shareOwner line
    let b := halfPart (s.viewLine line) half
    reply (s.setHome line fun h => { h with devs := h.devs ||| BitVec.ofNat 4 (2 ^ (src / 16)) }) b
  | 1, some v => reply (s.putLine line (halfBytes half v)) []
  | k, some v =>
    match oper? (k - 16) with
    | some op =>
      let n := if v.getLsbD 128 then 8 else 4
      let o : AtomOp := { tid := 0, off := pa % 128, op := op, size := n, opnd := (fld v 0 64).toNat % 2 ^ (8 * n),
                          cmp := (fld v 64 64).toNat % 2 ^ (8 * n), win := fld v 136 8 }
      let (s, b) := s.changeLine line [half] fun b => atomsBytes [o] (o.run b).1
      reply s (lineOf o.off n (o.run b).2.old)
    | none => s
  | _, none => s

/-- A reply of a linked device answers the oldest request that is out for its address; bytes that it does not bring are free
(R233, R267, log 79). -/
def State.deviceReply (s : State) (pa : Nat) (data : Option (BitVec 512)) : State :=
  let v := lineOver (s.remoteLine (pa / 128)) (match data with
    | some d => halfBytes (pa / 64 % 2) d
    | none => [])
  s.drawn.drawn.answered (·.pa == pa) v

/-- WOFORT_FLIT: a flit for another device is forwarded; one of a linked device is a request for the module's memory, a
reply, or an invalidation of one of the device's own lines. -/
def execWofortFlit (port src dst address kind : Nat) (data : Option (BitVec 512)) (s : State) : Out1 :=
  if dst ≠ s.mod.devnum.toNat then
    event s (tgetD s.mod.route dst 0 != 0)
      { s with out := s.out ++ [.wofort (s.portOf dst address) src dst address kind (match data with
          | some v => halfBytes (address / 64 % 2) v
          | none => [])] }
  else
    let up := tgetD (s.link (wofortPlace port).1).wup (wofortPlace port).2 false
    match s.region address with
    | .hbm => event s (up && s.canTouch (address / 128 * 128) 128) (s.deviceAccess src address kind data)
    | .linked d _ =>
      if d ≠ src ∨ !up then .next s
      else if kind = 3 then .next (s.deviceReply address data)
      else if kind = 4 then .next ((s.dropHostLine (address / 128)).fireAll (address / 128) false)
      else .next s
    | _ => .next s

end Sys2Proof.Machine
end

