-- ==== Sys2Proof/Machine/Resources.lean ====
section
/-! DEFINITION. Launch cards, node tables, and the resources a core and a die give a block (R24, R25, R77, R161, R321,
R325, R330). -/

namespace Sys2Proof.Machine

/-! ## Fields of a card (R321) -/

/-- `len` bits from bit `lo` of the 4-byte word at an offset of the card. -/
def Launch.fld (l : Launch) (off lo len : Nat) : Nat := leAt l.card off 4 / 2 ^ lo % 2 ^ len
def Launch.addr (l : Launch) (off : Nat) : Nat := leAt l.card off 8
def Launch.entry (l : Launch) : Nat := l.addr 0x00
def Launch.trapBase (l : Launch) : Nat := l.addr 0x08
def Launch.graphAddr (l : Launch) : Nat := l.addr 0x10
def Launch.kAddr (l : Launch) : Nat := l.addr 0x18
def Launch.evAddr (l : Launch) : Nat := l.addr 0x20
def Launch.levAddr (l : Launch) : Nat := l.addr 0x28
def Launch.poolAddr (l : Launch) : Nat := l.addr 0x30
def Launch.seedAddr (l : Launch) : Nat := l.addr 0x38
def Launch.poolBytes (l : Launch) : Nat := leAt l.card 0x40 4
def Launch.evCount (l : Launch) : Nat := leAt l.card 0x44 4
def Launch.nblk (l : Launch) : Nat := leAt l.card 0x48 4
def Launch.nthr (l : Launch) : Nat := l.fld 0x4C 0 13
def Launch.wcode (l : Launch) : Nat := l.fld 0x4C 13 2
/-- W (R321). -/
def Launch.w (l : Launch) : Nat := 16 * 2 ^ l.wcode
/-- Blocks per cluster. -/
def Launch.cs (l : Launch) : Nat := l.fld 0x4C 15 3 + 1
def Launch.prio (l : Launch) : Nat := l.fld 0x4C 18 2
def Launch.seedNode (l : Launch) : Nat := l.fld 0x4C 20 6
def Launch.nreg (l : Launch) : Nat := l.fld 0x50 0 8
def Launch.ntile (l : Launch) : Nat := l.fld 0x50 8 8
def Launch.nring (l : Launch) : Nat := l.fld 0x50 16 8
def Launch.nbb (l : Launch) : Nat := l.fld 0x50 24 5
def Launch.ncb (l : Launch) : Nat := l.fld 0x54 0 4
def Launch.ngb (l : Launch) : Nat := l.fld 0x54 4 3
def Launch.kCount (l : Launch) : Nat := l.fld 0x54 7 7
def Launch.slice (l : Launch) : Nat := l.fld 0x58 0 16
def Launch.scratch (l : Launch) : Nat := leAt l.card 0x5C 4
def Launch.starveTime (l : Launch) : Nat := leAt l.card 0x64 4
def Launch.rb (l : Launch) : List Nat := [l.fld 0x68 0 13, l.fld 0x68 16 13, l.fld 0x6C 0 13]
/-- Entry f(8 + i) of the card. -/
def Launch.fmt (l : Launch) (i : Nat) : Word := BitVec.ofNat 32 (leAt l.card (0x80 + 4 * i) 4)
/-- Register limit at launch (R77). -/
def Launch.limit (l : Launch) : Nat := 8 * ceilDiv l.nreg 8
/-- Clusters of a plain launch (R324). -/
def Launch.clusters (l : Launch) : Nat := ceilDiv l.nblk l.cs
def Launch.isGraph (l : Launch) : Bool := l.graphAddr != 0

/-! ## Node tables (R330) -/

/-- A node-table entry. -/
structure Node where
  entry : Nat
  threads : Nat
  recLog : Nat
  target : Nat
  timer : Nat
  maxRec : Nat
  minRec : Nat
  depth : Nat
  retry : Nat
  retryable : Bool
  valid : Bool
  deriving DecidableEq, Repr

/-- Decoding of the 32 bytes of a node. -/
def nodeOf (n : List Byte) : Node :=
  { entry := leAt n 0 8, threads := nodeFld n 8 0 13, recLog := nodeFld n 8 13 4, target := nodeFld n 8 17 11,
    timer := nodeFld n 0xC 0 16, maxRec := nodeFld n 0xC 16 11, minRec := nodeFld n 0x10 0 11,
    depth := nodeFld n 0x10 11 8, retry := nodeFld n 0x10 19 3, retryable := nodeFld n 0x10 22 1 == 1,
    valid := nodeValid n }

/-- Bytes of a record of the node, and of its window (R330, R337). -/
def Node.recBytes (n : Node) : Nat := 2 ^ n.recLog
def Node.window (n : Node) : Nat := n.maxRec * n.recBytes
/-- The depth limit (R334). -/
def Node.limit (n : Node) : Nat := if n.depth = 0 then 255 else n.depth
/-- Node `i` of a launch. -/
def Launch.node (l : Launch) (i : Nat) : Node := nodeOf (l.nodes.getD i [])

/-- Whether a valid node breaks R330. -/
def nodeBad (w : Nat) (b : List Byte) : Bool :=
  let n := nodeOf b
  nodeFld b 8 28 4 != 0 || nodeFld b 0xC 27 5 != 0 || nodeFld b 0x10 24 8 != 0 || leAt b 0x14 12 != 0 ||
    n.entry % 8 != 0 || decide (n.threads < 16) || decide (4096 < n.threads) || n.threads % w != 0 ||
    decide (n.recLog < 4) || decide (12 < n.recLog) || n.target == 0 || decide (1024 < n.target) ||
    decide (n.maxRec < n.target) || decide (1024 < n.maxRec) || n.minRec == 0 || decide (n.target < n.minRec)

/-! ## What a block needs of a core (R325) -/

/-- The resources of one block. -/
structure Need where
  run : Nat
  align : Nat
  store : Nat
  allot : Nat
  nring : Nat
  nbb : Nat
  ntile : Nat
  deriving DecidableEq, Repr

/-- Length and alignment of a slot run (R24). -/
def runAlign (w : Nat) : Nat := if w = 64 then 64 else 32
def runOf (w n : Nat) : Nat := roundUp n (runAlign w)
/-- Bytes of the register-and-slice store (R77). -/
def storeOf (w n limit slice : Nat) : Nat := runOf w n * (32 * (limit / 8) + slice)

/-- The need of a block of `n` threads with a record window. -/
def Launch.need (l : Launch) (n window : Nat) : Need :=
  { run := runOf l.w n, align := runAlign l.w, store := storeOf l.w n l.limit l.slice,
    allot := roundUp (l.scratch + window) 512, nring := l.nring, nbb := l.nbb, ntile := l.ntile }
/-- The need of a block of a node. -/
def Launch.nodeNeed (l : Launch) (k : Nat) : Need := l.need (l.node k).threads (l.node k).window
/-- The need of a resident block, for its return after pre-emption (R373) or another attempt (R346). -/
def BlockCfg.need (c : BlockCfg) : Need :=
  { run := runOf c.w c.n, align := runAlign c.w, store := storeOf c.w c.n c.limit c.slice, allot := c.allot,
    nring := c.nring, nbb := c.nblk, ntile := c.ntile }

/-- The lowest multiple of `align` at which `size` units below `limit` meet no used range. -/
def lowestFit (limit align size : Nat) (used : List (Nat × Nat)) : Option Nat :=
  ((List.range (limit / align + 1)).map (align * ·)).find? fun b =>
    decide (b + size ≤ limit) && used.all fun u => decide (u.2 = 0 ∨ size = 0 ∨ b + size ≤ u.1 ∨ u.1 + u.2 ≤ b)

/-- What a core gives a block. -/
structure Fit where
  slot : Nat
  res : Nat
  allot : Nat
  ring : Nat
  deriving DecidableEq, Repr

/-- Every block of a cluster is complete, so that its allotments and barriers are free (R162). -/
def State.clusterOver (s : State) (c : Nat) : Bool :=
  (tget s.clusters c).any fun x => x.blocks.all fun u => (s.block u).run.completed

/-- Blocks that hold resources of a core: none that is pre-empted or discarded, and none of a cluster that has ended (R162,
R346, R371). -/
def State.holders (s : State) (core : Nat) : List Block :=
  (s.blocks.filter fun e => e.2.core == core && !e.2.run.preempted && !e.2.run.discarded &&
    !s.clusterOver e.2.cfg.cluster).map (·.2)

/-- Tile entries of a core that its blocks hold (R169). -/
def State.tilesHeld (s : State) (core : Nat) : Nat :=
  ((s.holders core).filter (!·.run.completed)).foldl (fun k b => k + b.cfg.ntile) 0

/-- Whether a core can take a block, and where (R24, R25, R77, R325). -/
def State.fit (s : State) (core : Nat) (n : Need) : Option Fit :=
  let all := s.holders core
  let bs := all.filter fun b => !b.run.completed
  let sum (f : Block → Nat) := bs.foldl (fun k b => k + f b) 0
  if 2 ^ 20 < sum (fun b => storeOf b.cfg.w b.cfg.n b.cfg.limit b.cfg.slice) + n.store then none
  else if 64 < sum (·.cfg.nblk) + n.nbb ∨ 128 < s.tilesHeld core + n.ntile then none
  else
    match lowestFit 4096 n.align n.run (bs.map fun b => (b.slotBase, runOf b.cfg.w b.cfg.n)),
          (List.range 128).find? (fun i => bs.all fun b => b.resIdx != i),
          lowestFit 524288 512 n.allot (all.map fun b => (b.allotBase, b.cfg.allot)),
          lowestFit 128 1 n.nring (bs.map fun b => (b.ringBase, b.cfg.nring)) with
    | some slot, some res, some allot, some ring => some ⟨slot, res, allot, ring⟩
    | _, _, _, _ => none

/-- Cores of a core cluster (0-107) that can take a block, in rising order, with the places. -/
def State.ableCores (s : State) (house : Nat) (n : Need) : List (Nat × Fit) :=
  ((List.range 8).map (8 * house + ·)).filterMap fun c => (s.fit c n).map fun f => (c, f)

/-- The lowest-numbered core cluster of a die with `cs` able cores, and the lowest of them (R324). -/
def State.dieSite (s : State) (d : Nat) (n : Need) (cs : Nat) : Option (Nat × List (Nat × Fit)) :=
  ((List.range 12).map (12 * d + ·)).findSome? fun h =>
    let cores := s.ableCores h n
    if cs ≤ cores.length then some (h, cores.take cs) else none

/-- The next die after `last` that can place a cluster, and where (R324). -/
def State.site (s : State) (last : Nat) (n : Need) (cs : Nat) : Option (Nat × List (Nat × Fit)) :=
  ((List.range 9).map fun k => (last + 1 + k) % 9).findSome? fun d => s.dieSite d n cs

/-- The number of cores of the module that can take a block (R338). -/
def State.ableCount (s : State) (n : Need) : Nat :=
  (List.range 108).foldl (fun k h => k + (s.ableCores h n).length) 0

/-- Die of a core cluster. -/
def dieOfHouse (h : Nat) : Nat := h / 12
/-- Core cluster of a core. -/
def houseOf (core : Nat) : Nat := core / 8

/-- Whether clusters of a plain launch are still unplaced; those that were pre-empted come first (R326). -/
def Launch.unplaced (l : Launch) : Bool := l.back != [] || (!l.isGraph && decide (l.nextBid < l.nblk))

/-- Seed records that no chunk has taken (R338). -/
def Launch.seedsLeft (l : Launch) : Nat := if l.isGraph then l.nblk - l.nextSeed else 0

/-- The launch is complete, though its completion event or a DONE event may wait (R328, R341). -/
def Launch.finished (l : Launch) : Bool :=
  l.st == .complete ||
    (l.st == .running && l.ended == l.placed && !l.unplaced && l.seedsLeft == 0 && l.records == [])

/-- Running launches that are not complete. -/
def State.running (s : State) : List (Nat × Launch) := s.launches.filter fun e => e.2.st == .running && !e.2.finished

/-- The chip allotment: the lowest multiple of 4,096 free on every die (R325). -/
def State.chipFit (s : State) (size : Nat) : Option Nat :=
  lowestFit (2 ^ 26) 4096 size (s.running.map fun e => (e.2.chipBase, e.2.chipSize))

/-! ## Blocks that come and go -/

/-- Members of a barrier in a block of `n` threads with the card's role boundaries (R207). -/
def membersOf (mask : Nat) (b1 b2 b3 n : Nat) : Nat :=
  b2n (bitN mask 0) * b1 + b2n (bitN mask 1) * (b2 - b1) + b2n (bitN mask 2) * (b3 - b2) + b2n (bitN mask 3) * (n - b3)

/-- Role mask of barrier `e` from the card's masks at an offset. -/
def Launch.mask (l : Launch) (off e : Nat) : Nat := leAt l.card off 8 / 16 ^ e % 16

/-- A barrier at launch (R208). -/
def newBar (memb : Nat) : Barrier := { memb := memb, pend := memb }

/-- Threads, registers and storage of a block as they are when it becomes resident (R26, R77, R82-R86, R161, R208). -/
def Block.fresh (l : Launch) (c : BlockCfg) (core : Nat) (f : Fit) (now : Nat) (run : BlockRun) : Block :=
  { cfg := c, core := core, resIdx := f.res, slotBase := f.slot, allotBase := f.allot, ringBase := f.ring,
    threads := (List.range c.n).map fun t => (t, { base := c.entry, regBase := Config.regBase now core t, since := now + 1,
                                                   limit := c.limit }),
    kregs := l.kvals.mapIdx fun i v => (i, { val := v }),
    fmts := (List.range 8).map fun i => (8 + i, { val := (l.fmt i).setWidth 64 }),
    scratch := (c.recs.mapIdx fun i r => (i, r)).foldl (fun m e => mputs m (c.rbase + e.1 * 2 ^ c.recLog) e.2) [],
    bars := (List.range c.nblk).map fun e => (e, newBar (membersOf (l.mask 0x70 e) c.b1 c.b2 c.b3 c.n)),
    run := run }

/-- What a card fixes for each block of a launch of `n` threads and a window. -/
def Launch.cfg (l : Launch) (number n window : Nat) : BlockCfg :=
  let b (i : Nat) := min n (l.rb.getD i 0)
  { launch := number, n := n, w := l.w, b1 := b 0, b2 := b 1, b3 := b 2, limit := l.limit, slice := l.slice,
    tbase := BitVec.ofNat 64 l.trapBase, allot := (l.need n window).allot, nring := l.nring, ntile := l.ntile,
    nblk := l.nbb, nclu := l.ncb, ngrd := l.ngb, entry := BitVec.ofNat 64 l.entry, window := window }

/-- A block becomes resident on a core. -/
def State.putBlock (s : State) (c : BlockCfg) (core : Nat) (f : Fit) (run : BlockRun) : State × Nat :=
  let u := s.mod.uids
  let b := Block.fresh (s.launch c.launch) c core f (s.now (dieOf core)) run
  ({ s with mod := { s.mod with uids := u + 1 }, blocks := tset s.blocks u b }, u)

/-- Cluster barriers in hardware that core clusters lend (R215). -/
def State.houseBars (s : State) (house : Nat) : Nat :=
  (s.clusters.filter fun e => e.2.house == house && !e.2.saved && !s.clusterOver e.1).foldl (fun n e => n + e.2.hw) 0

/-- A cluster becomes resident: its blocks on the given cores by rank, its barriers with their members (R23, R215). -/
def State.putCluster (s : State) (number clid house : Nat) (cores : List (Nat × Fit)) (cfgs : List BlockCfg) : State :=
  let cl := s.mod.uids
  let l := s.launch number
  let s := { s with mod := { s.mod with uids := cl + 1, orders := s.mod.orders + 1 } }
  let hw := min l.ncb (8 - s.houseBars house)
  let memb (e : Nat) := (cfgs.map fun c => membersOf (l.mask 0x78 e % 16) c.b1 c.b2 c.b3 c.n).foldl (· + ·) 0
  let (s, us) := (cores.zip cfgs).foldl (fun (s, us) ((core, f), c) =>
    let (s, u) := State.putBlock s { c with cluster := cl } core f {}
    (s, us ++ [u])) (s, ([] : List Nat))
  let x : Cluster := { launch := number, clid := clid, house := house, blocks := us, hw := hw, placedAt := s.mod.orders,
                       bars := (List.range l.ncb).map fun e => (e, newBar (memb e)) }
  { s with clusters := tset s.clusters cl x }

end Sys2Proof.Machine
end

