-- ==== Sys2Proof/Machine/Launches.lean ====
section
/-! DEFINITION. Launch queues, cards, the start of launches and the placement of plain clusters (R318-R326, R330). -/

namespace Sys2Proof.Machine

/-! ## The dispatcher's accesses (R323) -/

/-- What an access of the dispatcher finds: the physical pieces, a demand fault, or a fault of another kind. -/
inductive DispAcc where
  | ok (parts : List (Nat × Nat))
  | demand (kind va : Nat)
  | wait
  | bad (va : Nat)
  deriving DecidableEq, Repr

/-- The pieces of `n` bytes from a virtual address, one for each 4 KiB page. -/
def pagePieces (va n : Nat) : List (Nat × Nat) :=
  (List.range (ceilDiv (va % 4096 + n) 4096)).map fun k =>
    let lo := max va ((va / 4096 + k) * 4096)
    (lo, min (va + n) ((va / 4096 + k + 1) * 4096) - lo)

/-- Translation of `n` bytes of a context by a die's slices. -/
def State.dispPages (s : State) (d : Nat) (ctx : Ctx) (a : Acc) (va n : Nat) : State × DispAcc :=
  (if n = 0 then [] else pagePieces va n).foldl (fun (s, r) p => match r with
    | .ok l => match s.translate d ctx a p.1 with
      | (s, .ok pa _) => (s, .ok (l ++ [(pa, p.2)]))
      | (s, .demand k) => (s, .demand k p.1)
      | (s, .later _) => (s, .wait)
      | (s, _) => (s, .bad p.1)
    | r => (s, r)) (s, .ok [])

/-- Whether every line of the pieces is free for a one-step access. -/
def State.canTouchAll (s : State) (ps : List (Nat × Nat)) : Bool := ps.all fun p => s.canTouch p.1 p.2

/-- The bytes of the pieces, read coherently. -/
def State.readPieces (s : State) (ps : List (Nat × Nat)) : State × List Byte :=
  ps.foldl (fun (s, l) p =>
    let s := s.settle none p.1 p.2
    (s, l ++ s.physGet p.1 p.2)) (s, [])

/-- Bytes are written piece by piece (R328). -/
def State.writePieces (s : State) (ps : List (Nat × Nat)) (l : List Byte) : State :=
  (ps.foldl (fun (s, l) p => (s.physPut p.1 (l.take p.2), l.drop p.2)) (s, l)).1

/-- Source 169: the dispatcher, in die 0 (R367). -/
def dispPost (kind : Nat) : Post := { unit := 169, kind := kind }

/-- A demand fault of the dispatcher: the entry it attaches to; none while the slice's table is full (R354). -/
def State.dispFault (s : State) (d : Nat) (ctx : Ctx) (va kind number : Nat) : State × Option (Nat × Nat) :=
  match s.faultAttach d ctx va kind { dispPost 1 with launch := number } with
  | (s, .fault d tok _ _) => (s, some (d, tok))
  | (s, _) => (s, none)

/-! ## Checks of a card (R322) -/

/-- A power of two from 1 to 2^n. -/
def isPow2 (n x : Nat) : Bool := (List.range (n + 1)).any fun k => x == 2 ^ k

/-- Reason 1 as far as the card alone decides. A TRAPBASE that is no multiple of 8 is no reason (log 87). -/
def Launch.badFields (l : Launch) : Bool :=
  let g := l.isGraph
  l.fld 0x4C 26 6 != 0 || l.fld 0x50 29 3 != 0 || l.fld 0x54 14 18 != 0 || l.fld 0x58 16 16 != 0 ||
    l.fld 0x68 13 3 != 0 || l.fld 0x68 29 3 != 0 || l.fld 0x6C 13 19 != 0 || l.fld 0x7C 16 16 != 0 ||
    leAt l.card 0xA0 96 != 0 || l.wcode == 3 || l.entry % 8 != 0 || l.graphAddr % 256 != 0 || l.kAddr % 8 != 0 ||
    l.evAddr % 16 != 0 || l.levAddr % 16 != 0 || (l.evAddr != 0 && !isPow2 24 l.evCount) ||
    l.nreg == 0 || decide (128 < l.ntile) || decide (128 < l.nring) || decide (16 < l.nbb) || decide (8 < l.ncb) ||
    decide (4 < l.ngb) || decide (64 < l.kCount) || l.slice % 16 != 0 || decide (l.slice < 128) ||
    decide (32768 < l.slice) || l.scratch % 256 != 0 || decide (524288 < l.scratch) || l.chipSize % 4096 != 0 ||
    decide (2 ^ 26 < l.chipSize) || decide (2 ^ 24 < l.nblk) ||
    (if g then l.entry != 0 || l.nthr != 0 || l.poolAddr % 4096 != 0 || l.seedAddr % 16 != 0 || l.poolBytes % 4096 != 0
     else l.nblk == 0 || decide (l.nthr < 16) || decide (4096 < l.nthr))

/-- The role boundaries break R22 for blocks of `n` threads; a card without a role split sets every boundary to N. -/
def Launch.badRoles (l : Launch) (n : Nat) : Bool :=
  let b (i : Nat) := l.rb.getD i 0
  let rise (x y z : Nat) := decide (x ≤ y) && decide (y ≤ z) && decide (z ≤ n)
  let odd (x : Nat) := x % l.w != 0
  if l.isGraph then
    let c (i : Nat) := min (b i) n
    !(c 0 == n && c 1 == n && c 2 == n) && ([c 0, c 1, c 2].any odd || !rise (c 0) (c 1) (c 2))
  else !(b 0 == n && b 1 == n && b 2 == n) && ([b 0, b 1, b 2].any odd || !rise (b 0) (b 1) (b 2))

/-- Reason 2 for a block of `n` threads with a window. -/
def Launch.tooBig (l : Launch) (n window : Nat) : Bool :=
  decide (2 ^ 20 < (l.need n window).store) || decide (524288 < (l.need n window).allot)

/-- Clusters of a need that an otherwise empty module holds, the cores of each cluster taken as R324 takes them. -/
def gridRoom (n : Need) (cs : Nat) : Nat :=
  let q (total part : Nat) := if part = 0 then 128 else total / part
  let k := min (min (min 128 (q 4096 n.run)) (min (q (2 ^ 20) n.store) (q 524288 n.allot)))
    (min (min (q 128 n.nring) (q 64 n.nbb)) (q 128 n.ntile))
  108 * k * (8 / cs)

/-- Valid nodes of the table. -/
def Launch.validNodes (l : Launch) : List (List Byte) := l.nodes.filter nodeValid

/-- The lowest reason to refuse a card, its node table read if it is a graph; `nested` is reason 6 (R322). -/
def Launch.refusal (l : Launch) (nested : Bool) : Option Nat :=
  let g := l.isGraph
  let ns := l.validNodes.map nodeOf
  if l.badFields || (if g then ns.any (fun n => l.badRoles n.threads) else l.badRoles l.nthr) then some 1
  else if (if g then ns.any fun n => l.tooBig n.threads n.window else l.tooBig l.nthr 0) then some 2
  else if l.ngb ≠ 0 ∧ (g ∨ gridRoom (l.need l.nthr 0) l.cs < l.clusters) then some 3
  else if (List.range 8).any fun i => l.fmt i != 0 && !fmtValid (l.fmt i) then some 4
  else if g ∧ (l.validNodes.any (nodeBad l.w) || ns == [] || !(l.node l.seedNode).valid || l.cs != 1) then some 5
  else if nested then some 6
  else none

/-! ## CARD_TAKE (R319, R320, R323) -/

def State.setQueue (s : State) (q : Nat) (f : HostQueue → HostQueue) : State :=
  { s with mod := { s.mod with queues := tset s.mod.queues q (f (tgetD s.mod.queues q {})) } }

/-- The next launch number (R320). -/
def Module.nextNumber (m : Module) : Nat := m.launchCtr % (2 ^ 31 - 1) + 1

/-- A launch enters the dispatcher; a plain card, or one that no node table could clear, is checked now (R322). -/
def State.addLaunch (s : State) (number : Nat) (l : Launch) (unread : Bool) : State :=
  let why := if unread then some 7 else if l.isGraph ∧ !l.badFields then none else l.refusal (decide (15 < l.nest))
  let l := { l with order := s.mod.orders, code := if why.isSome then 1 else 0, reason := why.getD 0,
                    st := if why.isSome then .complete else .waiting }
  { s with mod := { s.mod with orders := s.mod.orders + 1 }, launches := tset s.launches number l }

/-- A host queue (0-15). -/
def State.takeHost (s : State) (q : Nat) : State :=
  let k := tgetD s.mod.queues q {}
  let used := (k.qtail - k.qhead).toNat
  let n := k.qsize.toNat
  if k.qdis then s
  else if n < used then s.setQueue q fun k => { k with qdis := true }
  else if !k.xen || !isPow2 16 n || used == 0 || k.fault.isSome then s
  else
    let ctx : Ctx := { root := k.root.toNat, cid := k.cid.toNat }
    let va := k.qbase.toNat / 256 * 256 + 256 * (k.qhead.toNat % n)
    let num := s.mod.nextNumber
    let taken (s : State) : State :=
      { s.setQueue q fun k => { k with qhead := k.qhead + 1, bad := false } with
        mod := { (s.setQueue q fun k => { k with qhead := k.qhead + 1, bad := false }).mod with launchCtr := num } }
    let lost (s : State) : State :=
      let p : Post := { dispPost 10 with launch := num, cid := ctx.cid, addr := va }
      ((taken s).post 0 p).1.addLaunch num { ctx := ctx, queue := q } true
    if k.bad then lost s
    else match s.dispPages 0 ctx .load va 256 with
      | (s2, .ok ps) =>
        if s.canTouchAll ps then
          let (s2, card) := s2.readPieces ps
          (taken s2).addLaunch num { card := card, ctx := ctx, queue := q } false
        else s
      | (s2, .demand kind va) =>
        let (s2, f) := s2.dispFault 0 ctx va kind 0
        s2.setQueue q fun k => { k with fault := f }
      | (_, .wait) => s
      | (s2, .bad _) => lost s2

/-- A die's device queue: the card was read by the thread that submitted it (R329). -/
def State.takeDevice (s : State) (d : Nat) : State :=
  match (s.dm d).devq with
  | [] => s
  | (card, parent, num) :: rest =>
    let s := s.setDm d fun m => { m with devq := rest }
    let l : Launch := { card := card, ctx := s.ctxOf parent, queue := 16 + d, parent := some parent,
                        nest := (s.launch (s.block parent).cfg.launch).nest + 1 }
    s.addLaunch num l false

/-- CARD_TAKE: queue 0-15 is a host queue, 16 + d the device queue of die d. -/
def execCardTake (q : Nat) (s : State) : Out1 :=
  .next (if q < 16 then s.takeHost q else if q < 25 then s.takeDevice (q - 16) else s)

/-! ## Placement (R324-R326) -/

/-- Where the next cluster of a plain launch goes. -/
def State.nextSite (s : State) (l : Launch) : Option (Nat × List (Nat × Fit)) :=
  if l.nextBid < l.nblk then s.site l.lastDie (l.need l.nthr 0) l.cs else none

/-- The next cluster of a plain launch is placed; BIDs rise (R324). -/
def State.placeNext (s : State) (number : Nat) (h : Nat) (cores : List (Nat × Fit)) : State :=
  let l := s.launch number
  let bids := (List.range (min l.cs (l.nblk - l.nextBid))).map (l.nextBid + ·)
  let clid := l.nextBid / l.cs
  let cfgs := bids.map fun b => { l.cfg number l.nthr 0 with bid := b, clid := clid, rank := b % l.cs }
  let s := s.putCluster number clid h cores cfgs
  s.setLaunch number fun l =>
    { l with nextBid := l.nextBid + bids.length, placed := l.placed + bids.length, lastDie := dieOfHouse h, poolCount := 0 }

/-- Every cluster of a launch with grid barriers is placed, or none (R215). -/
def State.placeAll (s : State) (number : Nat) : Nat → Option State
  | 0 => some s
  | n + 1 =>
    match s.nextSite (s.launch number) with
    | some (h, cores) => (s.placeNext number h cores).placeAll number n
    | none => none

/-! ## LAUNCH_START (R320, R321, R325, R330, R331) -/

/-- Whether a launch is the first of its queue that has not started. -/
def State.firstWaiting (s : State) (number : Nat) : Bool :=
  let l := s.launch number
  s.launches.all fun e => e.2.queue != l.queue || e.2.st != .waiting || decide (l.order ≤ e.2.order)

/-- A launch is refused: it completes at once with code 1 (R322, R328). -/
def Launch.refuse (l : Launch) (why : Nat) : Launch := { l with st := .complete, code := 1, reason := why, fault := none, bad := false }

/-- The chip allotment is taken, zeroed on every die (R325). -/
def State.clearChip (s : State) (base size : Nat) : State :=
  { s with dmem := s.dmem.map fun (k, m) =>
      (k, { m with chip := m.chip.filter fun c => !(decide (base ≤ c.1) && decide (c.1 < base + size)) }) }

/-- The launch runs, with its k values and nodes read. -/
def State.begin (s : State) (number base : Nat) (kvals : List DWord) (nodes : List (List Byte)) : State :=
  let s := s.setLaunch number fun l =>
    { l with st := .running, kvals := kvals, nodes := nodes, chipBase := base, order := s.mod.orders, startAt := s.now 0,
             poolSize := if l.isGraph then l.poolBytes else 0,
             gbars := (List.range l.ngb).map fun e =>
               let b (i : Nat) := l.rb.getD i 0
               (e, newBar (l.nblk * membersOf (l.mask 0x7C e % 16) (b 0) (b 1) (b 2) l.nthr)) }
  { s.clearChip base (s.launch number).chipSize with mod := { s.mod with orders := s.mod.orders + 1 } }

/-- The lowest reason that a graph card gives whose node table cannot be read; else 7. -/
def Launch.unreadReason (l : Launch) : Nat :=
  if l.ngb ≠ 0 then 3
  else if (List.range 8).any fun i => l.fmt i != 0 && !fmtValid (l.fmt i) then 4
  else if l.cs ≠ 1 then 5
  else if 15 < l.nest then 6 else 7

/-- Split bytes into pieces of `n`. -/
def chunksOf (n : Nat) : Nat → List Byte → List (List Byte)
  | 0, _ => []
  | k + 1, l => l.take n :: chunksOf n k (l.drop n)

/-- What a read of the dispatcher for a launch gives: bytes, a wait, or nothing that can be read. -/
inductive DispRead where
  | bytes (l : List Byte)
  | wait
  | demand (kind va : Nat)
  | bad (va : Nat)
  deriving DecidableEq, Repr

/-- A read of the dispatcher under a context, by the slices of die 0. -/
def State.dispRead (s : State) (ctx : Ctx) (va n : Nat) : State × DispRead :=
  match s.dispPages 0 ctx .load va n with
  | (s2, .ok ps) =>
    if s.canTouchAll ps then
      let (s2, l) := s2.readPieces ps
      (s2, .bytes l)
    else (s, .wait)
  | (s2, .demand k va) => (s2, .demand k va)
  | (_, .wait) => (s, .wait)
  | (s2, .bad va) => (s2, .bad va)

/-- A launch's dispatcher access waits on a fault entry (R323). -/
def State.launchFault (s : State) (number va kind : Nat) : State :=
  let (s, f) := s.dispFault 0 (s.launch number).ctx va kind number
  s.setLaunch number fun l => { l with fault := f }

/-- The launch has its nodes; its k values are read and it is refused or runs. -/
def State.startWith (s : State) (number base : Nat) (nodes : List (List Byte)) : State :=
  let l := s.launch number
  let why := { l with nodes := nodes }.refusal (decide (15 < l.nest))
  match s.dispRead l.ctx l.kAddr (8 * l.kCount) with
  | (_, .wait) => s
  | (s2, .demand k va) => s2.launchFault number va k
  | (s2, .bad _) => s2.setLaunch number fun l => l.refuse (why.getD 7)
  | (s2, .bytes kb) =>
    match why with
    | some w => s2.setLaunch number fun l => l.refuse w
    | none =>
      let s2 := s2.begin number base ((chunksOf 8 l.kCount kb).map fun b => BitVec.ofNat 64 (leVal b)) nodes
      if l.ngb = 0 then s2 else (s2.placeAll number l.clusters).getD s

end Sys2Proof.Machine
end

