-- ==== Sys2Proof/Machine/Memory.lean ====
section
/-! DEFINITION. Global memory: the checks of an access, loads, stores, atomics, contributions, fences, watches, cache
control and WRQ (R217-R242). -/

namespace Sys2Proof.Machine

/-! ## Checks (R220) -/

/-- Effective address: the pair plus the sign-extended offset, modulo 2^64 (R56). -/
def Thread.ea (t : Thread) (a : BitVec 8) (off : BitVec 16) : Nat := (t.rd64 a.toNat + off.signExtend 64).toNat

/-- Range-lock subcause of a global access (R295, R297). -/
def State.globalLock (s : State) (u ea n : Nat) (store : Bool) : Option Nat :=
  lockSub ((s.dm (dieOf (s.block u).core)).locks.filter fun l => !l.scratch && l.cid == (s.ctxOf u).cid &&
    decide (l.first ≤ (ea + n - 1) / 128) && decide (ea / 128 ≤ l.last)) store

/-- What the checks of one access find: its physical address and whether its page may be read, a trap, or a wait. -/
inductive Access where
  | ok (pa : Nat) (readOk : Bool)
  | trap (cause sub : Nat)
  | wait (w : Wait)

/-- The line of the core's L1 that an address of a context hits, whose page may be read (R244). -/
def Core.l1Hit (c : Core) (cid ea : Nat) : Option Nat :=
  (c.l1.find? fun e => e.2.tag.isNone && e.2.vline == ea / 128 && e.2.cid == cid && e.2.readOk).map (·.1)

/-- The entry of a demand fault of a member's data access (R354). -/
def Iss.faultPost (x : Iss) (s : State) (t : Nat) : Post :=
  { s.threadPost x.u t 1 x.word with pos := x.index % 16 * 2 ^ 60 + x.base.toNat % 2 ^ 57 }

/-- The checks of one member's access in order: alignment, range locks, translation and permission (R220, R347). -/
def Iss.access (x : Iss) (s : State) (t : Nat) (a : Acc) (n ea : Nat) : State × Access :=
  if ea % n ≠ 0 then (s, .trap 3 1)
  else match s.globalLock x.u ea n (a != .load) with
    | some k => (s, .trap 4 k)
    | none =>
      match if a = .load then (s.core x.core).l1Hit (s.ctxOf x.u).cid ea else none with
      | some line => (s, .ok (line * 128 + ea % 128) true)
      | none =>
        match s.translate x.die (s.ctxOf x.u) a ea with
        | (s, .ok pa r) => (s, .ok pa r)
        | (s, .outside) => (s, .trap 10 4)
        | (s, .protection) => (s, .trap 10 (if a = .load then 1 else 2))
        | (s, .demand k) =>
          let (s, w) := s.faultAttach x.die (s.ctxOf x.u) ea k (x.faultPost s t)
          (s, .wait w)
        | (s, .later line) => (s, .wait (.stacks line))

/-- A member that has passed: thread, physical address, read permission of the page. -/
abbrev Passed := Nat × Nat × Bool

/-- The executing members are checked in rising thread index; those that do not pass have trapped or wait. -/
def Iss.accesses (x : Iss) (a : Acc) (n : Nat) (ea : Nat → Nat) : State × List Passed :=
  x.act.foldl (fun (s, ok) t => match x.access s t a n (ea t) with
    | (s, .ok pa r) => (s, ok ++ [(t, pa, r)])
    | (s, .trap k k2) => (x.trap s t k k2 0 (ea t), ok)
    | (s, .wait w) => (x.hold s t w, ok)) (x.s, [])

/-- The requests of an instruction: one for each line (R221). -/
def lineSet (ps : List Passed) : List Nat := dedupN (ps.map fun p => p.2.1 / 128)
/-- Base issue cycles (R221). -/
def memCost (ps : List Passed) : Nat := max 1 (ceilDiv (lineSet ps).length 16)

/-! ## Retryable blocks (R242, R344, R345) -/

/-- The block holds its writes. -/
def Block.holding (b : Block) : Bool := b.cfg.retryable && !b.run.confirmed && !b.run.confirming
/-- The block is not confirmed yet. -/
def Block.unconfirmed (b : Block) : Bool := b.cfg.retryable && !b.run.confirmed

/-- A held write enters the store FIFO, in program order and at DEV scope (R345). -/
def Held.entry (u : Nat) (h : Held) : Entry :=
  { seq := h.seq, blk := u, tids := h.tids, line := h.line, kind := h.kind, scope := max 4 h.scope, release := true,
    acquire := h.acquire, ordered := true, vas := h.vas }

/-- Confirmation starts: the held writes are performed in program order (R345). -/
def State.startConfirm (s : State) (u : Nat) : State :=
  let b := s.block u
  if b.holding then
    (s.setCore b.core fun c => { c with fifo := c.fifo ++ b.run.held.map (Held.entry u) }).setRun u fun r =>
      { r with confirming := true, held := [], confirmMark := s.seq }
  else s

/-- An instruction that confirms its block first: its members wait and issue again (R242, R345). -/
def Iss.confirmFirst (x : Iss) (eff : Eff) : Eff :=
  if x.blk.unconfirmed ∧ x.act ≠ [] then
    .go (x.act.foldl (fun s t => x.hold s t .confirm) (x.s.startConfirm x.u)) 1
  else eff

/-- Bytes that a block's held writes and records occupy (R344). -/
def BlockRun.heldSize (r : BlockRun) : Nat :=
  r.held.foldl (fun n h => n + h.size) 0 + r.heldEmits.foldl (fun n e => n + e.2) 0

/-! ## Loads (R219, R224, R235) -/

/-- A load that the core's own bytes can serve is performed at once (R222, R244). -/
def State.tryLoad (s : State) (core : Nat) (l : Load) : State :=
  if (s.core core).loadWaits l || s.wrqBars l.blk l.tid l.seq l.line then s
  else match (s.core core).hit l with
    | some b => (s.bindLoad core l b ((s.core core).older l)).deliver core
    | none => s

/-- One member's load issues: its registers are pending until it returns. -/
def Iss.newLoad (x : Iss) (r : RM) (watch : Bool) (s : State) (p : Passed) : State :=
  let l : Load :=
    { seq := s.seq, blk := x.u, tid := p.1, va := (x.thr p.1).ea r.a r.off, cid := (x.s.ctxOf x.u).cid,
      line := p.2.1 / 128, off := p.2.1 % 128, readOk := p.2.2, size := r.size, dest := r.d.toNat,
      acquire := r.order.isAcq, watch := watch, alloc := r.hint != 1, sb := x.slot, grp := x.s.seq,
      site := ⟨x.base, BitVec.ofNat 4 x.index, x.word⟩ }
  let s := s.setThread x.u p.1 fun h =>
    h.sent (x.i.kills x.oc) ((List.range r.size.regs).map (r.d.toNat + ·)) [] x.slot
  let s := { s with seq := s.seq + 1 }
  (s.setCore x.core fun c => { c with loads := c.loads ++ [l] }).tryLoad x.core l

/-- L1 hits and misses of an instruction's requests, by the copy that the L1 holds for each when it issues (R244, R307); bytes
that the thread's own stores in the FIFO supply make no hit (log 108). -/
def Iss.countL1 (x : Iss) (s : State) (ps : List Passed) (n : Nat) (ea : Nat → Nat) : State :=
  let hit (l : Nat) := match tget (x.s.core x.core).l1 l with
    | some e => e.tag.isNone && e.cid == (x.s.ctxOf x.u).cid && e.readOk && (ps.filter fun p => p.2.1 / 128 == l).all fun p =>
        e.vline == ea p.1 / 128 && lineHas e.data (p.2.1 % 128) n
    | none => false
  let n := ((lineSet ps).filter hit).length
  let blk := some x.blk.resIdx
  (if n = 0 then s else s.tick x.core 0x0E none blk n).tick x.core 0x0F none blk ((lineSet ps).length - n)

/-- LDG and MWATCH. -/
def Iss.load (x : Iss) (r : RM) (watch : Bool) : Eff :=
  let ea (t : Nat) : Nat := (x.thr t).ea r.a r.off
  let (s, ps) := x.accesses .load r.size.bytes ea
  .go (ps.foldl (x.newLoad r watch) (x.countL1 s ps r.size.bytes ea)) (memCost ps)

/-- LDG (R224). -/
def execLdg (r : RM) (s : State) : Out1 := issue s (.ldg r) fun x => x.load r false

/-- MWATCH (R235). -/
def execMwatch (r : RM) (s : State) : Out1 := issue s (.mwatch r) fun x => x.confirmFirst (x.load r true)

/-! ## Stores, atomics and contributions (R222, R225-R233) -/

/-- What a request asks of its line, and how. -/
structure Put where
  kind : EntryKind
  size : Nat
  scope : Nat
  release : Bool
  acquire : Bool
  /-- registers that become pending, and whether the request takes FIFO room -/
  regs : List Nat := []
  room : Bool := true
  /-- effective addresses by thread -/
  addr : Nat → Nat

/-- The release, or the narrow fence before the write, that a note must announce (R269). -/
def State.noteOf (s : State) (u : Nat) (tids : List Nat) (p : Put) : Option Nat :=
  if p.release ∧ p.scope < 4 then some s.seq else (tids.filterMap fun t => (s.thread u t).relSeq).max?

/-- The members of one request issue it: held for an unconfirmed block, in the FIFO else, or the members wait. -/
def Iss.request (x : Iss) (s : State) (line : Nat) (tids : List Nat) (p : Put) : State :=
  let b := s.block x.u
  let cxl := match s.region (line * 128) with
    | .cxl _ => true
    | _ => false
  let over_ := decide (262144 < b.run.heldSize + p.size)
  if b.unconfirmed && (cxl || (b.holding && over_)) then
    tids.foldl (fun s t => x.hold s t .confirm) (s.startConfirm x.u)
  else if !b.holding && p.room && decide (64 ≤ (s.core x.core).fifoUsed) then
    tids.foldl (fun s t => x.hold s t (.queue 0 1)) s
  else
    let sb := if p.regs = [] then none else x.slot
    let s := if b.holding then
        s.setRun x.u fun r => { r with held := r.held ++
          [{ seq := s.seq, line := line, kind := p.kind, tids := tids, size := p.size, scope := p.scope, acquire := p.acquire,
             vas := tids.map fun t => (t, p.addr t) }] }
      else
        let e : Entry := { seq := s.seq, blk := x.u, tids := tids, line := line, kind := p.kind, scope := p.scope,
                           release := p.release, acquire := p.acquire, sb := sb, rel := s.noteOf x.u tids p, regs := p.regs,
                           site := ⟨x.base, BitVec.ofNat 4 x.index, x.word⟩, vas := tids.map fun t => (t, p.addr t) }
        s.setCore x.core fun c => { c with fifo := c.fifo ++ [e] }
    let s := { s with seq := s.seq + 1 }
    tids.foldl (fun s t => s.setThread x.u t fun h =>
      if p.regs = [] then h.kills (x.i.kills x.oc) else h.sent (x.i.kills x.oc) p.regs [] sb) s

/-- One request for each line that the passed members touch. -/
def Iss.requests (x : Iss) (s : State) (ps : List Passed) (put : Nat → List Passed → Put) : Eff :=
  .go ((lineSet ps).foldl (fun s line =>
    let ms := ps.filter fun p => p.2.1 / 128 == line
    x.request s line (ms.map (·.1)) (put line ms)) s) (memCost ps)

/-- The bytes that one member stores, at their offsets in the line (R225, R226). -/
def Iss.stored (x : Iss) (r : RM) (mask : Nat → Nat → Bool) (p : Passed) : LineBytes :=
  (lineOf (p.2.1 % 128) r.size.bytes ((x.thr p.1).dataN r.d.toNat r.size)).filter fun e => mask p.1 (e.1 - p.2.1 % 128)

/-- STG and STGW: a member that writes no byte makes no request (R225, R226). -/
def Iss.store (x : Iss) (r : RM) (masked : Bool) (mask : Nat → Nat → Bool) : Eff :=
  let (s, ps) := x.accesses .store r.size.bytes fun t => (x.thr t).ea r.a r.off
  let idle := ps.filter fun p => x.stored r mask p == []
  let s := idle.foldl (fun s p => s.setThread x.u p.1 fun h => h.kills (x.i.kills x.oc)) s
  x.requests s (ps.filter fun p => x.stored r mask p != []) fun _ ms =>
    let parts := ms.map fun p => (p.1, x.stored r mask p)
    { kind := .store parts masked, size := (storeBytes parts).length, scope := r.scope.num, release := r.order.isRel,
      acquire := false, addr := fun t => (x.thr t).ea r.a r.off }

/-- STG (R225). -/
def execStg (r : RM) (s : State) : Out1 := issue s (.stg r) fun x => x.store r false fun _ _ => true

/-- STGW: byte i is written where bit i of vB is 1 (R226). -/
def execStgw (r : RM) (s : State) : Out1 :=
  issue s (.stgw r) fun x => x.store r true fun t i => ((x.thr t).rd r.b.toNat).getLsbD i

/-- ATOM (R229). -/
def execAtom (r : RO) (s : State) : Out1 :=
  issue s (.atom r) fun x =>
    let n := r.size.bytes
    let go : Eff :=
      let (s, ps) := x.accesses .atom n fun t => ((x.thr t).rd64 r.a.toNat).toNat
      x.requests s ps fun _ ms =>
        let op (p : Passed) : AtomOp :=
          { tid := p.1, off := p.2.1 % 128, op := r.op, size := n, opnd := (x.thr p.1).dataN r.b.toNat r.size,
            cmp := if r.op = .cas then (x.thr p.1).dataN r.d.toNat r.size else 0,
            dest := if r.d = 255 then none else some r.d.toNat }
        { kind := .atoms (ms.map op), size := n * ms.length, scope := r.scope.num, release := r.order.isRel,
          acquire := r.order.isAcq, regs := if r.d = 255 then [] else (List.range r.size.regs).map (r.d.toNat + ·),
          room := r.d = 255, addr := fun t => ((x.thr t).rd64 r.a.toNat).toNat }
    if r.d = 255 then go else x.confirmFirst go

/-- The operator tag of a RED (R230). -/
def redTag (r : RO) : Tag := { op := r.op, wide := r.size == .b64, win := r.win }

/-- RED (R230-R233). -/
def execRed (r : RO) (s : State) : Out1 :=
  issue s (.red r) fun x =>
    let n := r.size.bytes
    let (s, ps) := x.accesses .store n fun t => ((x.thr t).rd64 r.a.toNat).toNat
    x.requests s ps fun _ ms =>
      { kind := .red (redTag r) (ms.map fun p => (p.1, p.2.1 % 128 / n, (x.thr p.1).dataN r.b.toNat r.size)), size := n * ms.length,
        scope := r.scope.num, release := r.order.isRel, acquire := false,
        addr := fun t => ((x.thr t).rd64 r.a.toNat).toNat }

/-! ## PREF and CCTL (R227, R237) -/

/-- The physical address of an access that would not fault (R220): for PREF as for every CCTL, one that may read the page
(log 80). Else nothing, or the line that a walk waits for, or, where the line itself is needed at its home, that line
(R315). -/
def Iss.quiet (x : Iss) (s : State) (t : Nat) (r : RM) (home : Bool) : State × Except (Option Nat) (Nat × Bool) :=
  match s.translate x.die (s.ctxOf x.u) .load ((x.thr t).ea r.a r.off) with
  | (s, .ok pa ok) => if home && s.stopped (pa / 128) then (s, .error (some (pa / 128))) else (s, .ok (pa, ok))
  | (s, .later line) => (s, .error (some line))
  | (s, _) => (s, .error none)

/-- Cache work of the members, each on its line; an access that would fault has no effect, a member that needs a line of a
quiesced stack waits, and the requests are counted by line (R220, R221, R315). -/
def Iss.quietWork (x : Iss) (r : RM) (home : Bool) (f : State → Nat → Nat → Bool → State) : Eff :=
  let p := x.act.foldl (fun (p : State × List Passed × List Nat) t => match x.quiet p.1 t r home with
    | (s, .ok (pa, ok)) => (f s t pa ok, p.2.1 ++ [(t, pa, false)], p.2.2)
    | (s, .error (some line)) => (x.hold s t (.stacks line), p.2.1, t :: p.2.2)
    | (s, .error none) => (s, p.2.1, p.2.2)) (x.s, [], [])
  .go ({ x with act := x.act.filter (!p.2.2.contains ·) }.killed p.1) (memCost p.2.1)

/-- What PREF asks for: the line, or both halves of a host line, for the L1 and the L2 under HINT 0 and 2, and under 2 to
leave the L1 first, for the L2 only under 1 and 3, and under 3 to be retained there (R218, R227). Of a linked device the
module may hold a line in S (R254). -/
def Iss.prefs (x : Iss) (r : RM) (s : State) (t pa : Nat) (readOk : Bool) : List Load :=
  let l (off : Nat) : Load :=
    { seq := s.seq, blk := x.u, tid := t, va := (x.thr t).ea r.a r.off, cid := (s.ctxOf x.u).cid, line := pa / 128, off := off,
      readOk := readOk, size := .b8, dest := 255, alloc := r.hint == 0 || r.hint == 2, first := r.hint == 2,
      retain := r.hint == 3 }
  match s.region pa with
  | .hbm => [l 0]
  | .cxl _ | .linked _ _ => [l 0, { l 64 with counted := true }]
  | _ => []

/-- PREF: the lines are on their way; nothing else changes (R227). -/
def execPref (r : RM) (s : State) : Out1 :=
  issue s (.pref r) fun x => x.quietWork r false fun s t pa ok =>
    s.setCore x.core fun c => { c with prefs := c.prefs ++ x.prefs r s t pa ok }

/-- CCTL.L1INV (R237). -/
def execCctlL1inv (r : RM) (s : State) : Out1 :=
  issue s (.cctlL1inv r) fun x => x.quietWork r false fun s _ pa _ => s.dropL1 x.die (pa / 128) x.core

/-- CCTL.L1ALL (R237). -/
def execCctlL1all (r : RM) (s : State) : Out1 :=
  issue s (.cctlL1all r) fun x =>
    .go (if x.act = [] then x.s
         else (x.s.core x.core).l1.foldl (fun s e => s.dropL1 x.die e.1 x.core) x.s) 1

/-- A dirty half of a host line goes to the host: the one die that holds it gives it up; from several it is sent as a snoop
would fetch it, and they share it clean (R237, R257, log 81). -/
def State.publishHalf (s : State) (d line k : Nat) : State :=
  let h := s.hostHalf line k
  if h.dirty ≠ some d then s
  else if h.dies = [d] then s.evictHalf d line k
  else
    { s with out := s.out ++ [Out.cxl (s.port? line) line k 6 (some (halfOf (s.newest line) k))] }.setHalf line k fun h =>
      { h with st := .S, dirty := none }

/-- What a die holds of a line goes to its home: dirty data, a W partial, the U partial with those of its L1s, which the home
keeps for the merge. The line stays in M, O and U (R237). -/
def State.publishLine (s : State) (d line : Nat) : State :=
  match s.l2 d line with
  | none => s
  | some l =>
    if !inHbm line then (s.publishHalf d line 0).publishHalf d line 1
    else match l.st, l.tag with
      | some .M, _ | some .O, _ => s.memPut line l.data
      | some .W, _ => s.freeWay d line
      | some .U, some t =>
        let s := s.dropL1s d line
        let l := (s.l2 d line).getD {}
        (s.setL2 d line { l with part := [] }).setHome line fun h =>
          { h with parts := tset h.parts d (partMerge t (tgetD h.parts d []) l.part) }
      | _, _ => s

/-- CCTL.PUB (R237, R242). -/
def execCctlPub (r : RM) (s : State) : Out1 :=
  issue s (.cctlPub r) fun x =>
    x.confirmFirst (x.quietWork r true fun s _ pa _ => s.publishLine x.die (pa / 128))

/-! ## Fences (R234) -/

/-- A FENCE.REL or FENCE.AR enters the thread's part of the store FIFO (R234, R269). -/
def Iss.fenceMark (x : Iss) (scope : Nat) (s : State) (t : Nat) : State :=
  let e : Entry := { seq := s.seq, blk := x.u, tids := [t], line := 0, kind := .fence, scope := scope }
  let s := s.setThread x.u t fun h => if scope < 4 then { h with relSeq := some s.seq } else h
  { s.setCore x.core fun c => { c with fifo := c.fifo ++ [e] } with seq := s.seq + 1 }

/-- A member waits after a fence, unless nothing is outstanding. -/
def Iss.fenceWait (x : Iss) (sc : Bool) (scope : Nat) (s : State) (t : Nat) : State :=
  let w : Wait := .fence sc scope s.seq
  if s.waitOver x.u (s.block x.u) t (s.thread x.u t) w then s else x.wait s t w

/-- FENCE (R234). -/
def execFence (r : RM) (s : State) : Out1 :=
  issue s (.fence r) fun x =>
    let s := if r.order.isRel then x.act.foldl (x.fenceMark r.scope.num) x.s else x.s
    .go (if r.order.isAcq then x.act.foldl (x.fenceWait false r.scope.num) s else s) 1

/-- FENCE.SC: as a release at its scope it is noted like one, for the writes that it orders after itself (R234, R268,
R269). -/
def execFenceSc (r : RM) (s : State) : Out1 :=
  issue s (.fenceSc r) fun x =>
    let mark (s : State) (t : Nat) : State :=
      if r.scope.num < 4 then s.setThread x.u t fun h => { h with relSeq := some s.seq } else s
    .go (x.act.foldl (fun s t => x.fenceWait true r.scope.num (mark s t) t) x.s) 1

/-! ## MWAIT (R236) -/

/-- MWAIT (R236). Behind an MWATCH that is not performed it waits for that one's watch (log 28). -/
def execMwait (r : RM) (s : State) : Out1 :=
  issue s (.mwait r) fun x =>
    .go (x.act.foldl (fun s t =>
      if (s.core x.core).watchPending x.u t then x.wait s t (.arming r.d.toNat)
      else match (x.thr t).watch with
        | none => s.setThread x.u t fun h => h.wr r.d.toNat 2
        | some w =>
          match w.fired with
          | some write => s.setThread x.u t fun h => { h with watch := none }.wr r.d.toNat (if write then 0 else 1)
          | none => x.wait s t (.watch r.d.toNat)) x.s) 1

/-! ## WRQ (R238-R241) -/

/-- Checks of a WRQ at issue: alignment, range, FILLING tiles (R238). Of several misaligned addresses the payload's
destination is reported first, then its scratchpad address, then the header (log 82). -/
def Iss.wrqCheck (x : Iss) (r : RX) (t : Nat) : Option (Nat × Nat × Nat) :=
  let th := x.thr t
  let a := (th.rd64 r.a.toNat).toNat
  let b := (th.rd r.b.toNat).toNat
  let c := (th.rd64 r.c.toNat).toNat
  let n := 16 * r.e.toNat
  if a % 16 ≠ 0 then some (3, 1, a)
  else if b % 16 ≠ 0 then some (3, 1, b)
  else if c % 32 ≠ 0 then some (3, 1, c)
  else if x.blk.cfg.allot < b + n then some (3, 2, b)
  else if x.blk.tiles.any fun e => e.2.st == .filling && e.2.overlaps b n then some (5, 3, b)
  else none

/-- WRQ: the payload is read, after the thread's earlier acquires (R165); the rest happens as one step (R238, R240), and the
thread's later accesses come after it (R262). -/
def execWrq (r : RX) (s : State) : Out1 :=
  issue s (.wrq r) fun x =>
    x.confirmFirst <| x.acquired false
      (let due := x.now + 1 + Config.latency x.s.draws
       .go (x.act.foldl (fun s t =>
         match x.wrqCheck r t with
         | some (k, k2, a) => x.trap s t k k2 0 a
         | none =>
           let th := x.thr t
           let s := s.setThread x.u t fun h => h.sent (x.i.kills x.oc) [] [r.d.toNat] x.slot
           s.addJob x.die due (.wrq x.u t r.d.toNat (mbytes x.blk.scratch (th.rd r.b.toNat).toNat (16 * r.e.toNat))
             (th.rd64 r.a.toNat).toNat (th.rd64 r.c.toNat).toNat x.s.seq (r.flags.getLsbD 0) x.slot none))
         { x.s.drawn with seq := x.s.seq + 1 }) 2)

/-- A WRQ ends: pD and WRQSTAT are written together (R240, R241). -/
def State.wrqEnd (s : State) (job u t dest : Nat) (sb : Option Nat) (code whr : Nat) : State :=
  { s with jobs := tdel s.jobs job }.setThread u t fun h =>
    { h.landed [] [(dest, code == 0)] sb with wrqstat := BitVec.ofNat 32 (code + 256 * whr) }

/-- A thread that is READY or in a bundle waits where it stands; one that waits already does so. -/
def State.parkThread (s : State) (u t : Nat) (w : Wait) : State :=
  let s := (s.bundles.filter fun e => e.2.blk == u && e.2.members.any fun m => m.1 == t).foldl
    (fun s e => s.leave e.1 t) s
  s.setThread u t fun h => match h.st with
    | .ready | .issuing => { h.await w with hdr := none, gang := none }
    | _ => h

/-- Steps 4 and 5 of R240. -/
def State.wrqApply (s : State) (job u t dest d : Nat) (data : List Byte) (addr : Nat) (sb : Option Nat) (w : WrqPages) :
    State :=
  match w.desc with
  | none => s.wrqEnd job u t dest sb 3 0
  | some p =>
    if w.qsize ≤ (w.tail + 2 ^ 32 - w.head) % 2 ^ 32 then
      (s.physPut (w.header + 20) (leBytes 4 (w.drops + 1))).wrqEnd job u t dest sb 1 0
    else
      let k := 4096 - addr % 4096
      let s := s.physPut w.first (data.take k)
      let s := if k < data.length then s.physPut w.second (data.drop k) else s
      let src := 256 * d + (s.block u).core % 96
      let s := s.physPut p (leBytes 8 addr ++ leBytes 2 data.length ++ leBytes 2 src ++ leBytes 4 w.tail)
      (s.physPut (w.header + 12) (leBytes 4 (w.tail + 1))).wrqEnd job u t dest sb 0 0

/-- An earlier WRQ of the same bundle on the same queue takes its slot first (R238). -/
def State.wrqFirst (s : State) (u t hdr due : Nat) : Bool :=
  s.jobs.all fun e => match e.2.kind with
    | .wrq u2 t2 _ _ _ hdr2 _ _ _ _ => !(u2 == u && hdr2 == hdr && e.2.due == due && decide (t2 < t))
    | _ => true

/-- WRQ_COMPLETE: steps 2 to 5 of R240 once the thread's earlier loads have returned and its earlier accesses are performed
at the scope (R263, R268). A demand fault attaches the WRQ and parks the thread; with a full fault table only the thread
waits, and the WRQ comes again (R354). -/
def execWrqComplete (job : Nat) (s : State) : Out1 :=
  match tget s.jobs job with
  | some ⟨d, due, .wrq u t dest data addr hdr seq sys sb fault⟩ =>
    if !(decide (due ≤ s.now d) && s.fenceOver u (s.block u).core t true (if sys then 5 else 4) seq &&
        s.wrqFirst u t hdr due && fault.isNone) then .next s
    else
      match s.wrqPages u d addr data.length hdr with
      | (s2, .error (whr, va, f)) =>
        match f with
        | .later _ => .next s
        | .demand k =>
          match s2.faultAttach d (s2.ctxOf u) va k (s2.threadPost u t 1 0) with
          | (s2, .fault d2 tok _ _) =>
            .next ({ s2 with jobs := tset s2.jobs job ⟨d, due, .wrq u t dest data addr hdr seq sys sb (some (d2, tok, whr))⟩ }.parkThread
              u t (.held d2 tok))
          | (s2, _) => .next (s2.parkThread u t (.heldFull d (sliceOf va)))
        | _ => .next (s2.wrqEnd job u t dest sb 2 whr)
      | (s2, .ok w) =>
        let k := 4096 - addr % 4096
        let ok := s.canTouch w.first (min k data.length) && (decide (data.length ≤ k) || s.canTouch w.second (data.length - k)) &&
          s.canTouch w.header 32 &&
          (match w.desc with
           | some p => s.canTouch p 16
           | none => true)
        event s ok (s2.wrqApply job u t dest d data addr sb w)
  | _ => .next s

end Sys2Proof.Machine
end

