-- ==== Sys2Proof/Machine/Records.lean ====
section
/-! DEFINITION. Records and what threads do with them: EMIT, EMITA, EMITC, DONE, QSTAT, CONFIRM and LAUNCH (R329,
R332-R335, R342-R345). -/

namespace Sys2Proof.Machine

/-- The launch number of the bundle's block. -/
def Iss.number (x : Iss) : Nat := x.blk.cfg.launch
def Iss.launch (x : Iss) (s : State) : Launch := s.launch x.number

/-- Records of a node at a Clearing House, top first (R332). -/
def Launch.deque (l : Launch) (house node : Nat) : List Nat := tgetD l.deques (64 * house + node) []

/-! ## Making records (R334, R335) -/

/-- The record `id` becomes COMMITTED at the bottom of its node's deque in a Clearing House (R334). -/
def State.commit (s : State) (number house id : Nat) : State :=
  s.setLaunch number fun l =>
    match tget l.records id with
    | none => l
    | some r =>
      { l with records := tset l.records id { r with st := .committed, time := s.now (dieOfHouse house), stamp := s.cycle },
               deques := tset l.deques (64 * house + r.node) (l.deque house r.node ++ [id]) }

/-- The HELD records of a block are committed in their order (R345). -/
def State.commitHeld (s : State) (u : Nat) : State :=
  let b := s.block u
  (b.run.heldEmits.foldl (fun s e => s.commit b.cfg.launch (houseOf b.core) e.1) s).setRun u fun r =>
    { r with heldEmits := [] }

/-- Allocation of a thread's record bytes: charged, or the request waits in order of arrival (R333). -/
def State.allocate (s : State) (u t bytes : Nat) : State × Bool :=
  let n := (s.block u).cfg.launch
  let l := s.launch n
  match l.poolWait.find? fun w => w.blk == u && w.tid == t with
  | some w => (s, w.granted)
  | none =>
    let ok := l.poolWait.all (·.granted) && decide (l.charge + bytes ≤ l.poolSize)
    (s.setLaunch n fun l =>
      { l with poolWait := l.poolWait ++ [{ blk := u, tid := t, bytes := bytes, granted := ok }],
               charge := if ok then l.charge + bytes else l.charge }, ok)

/-- A granted request becomes a record of the launch, whose number it is. -/
def State.useGrant (s : State) (u t : Nat) (r : Record) : State × Nat :=
  let n := (s.block u).cfg.launch
  let id := tfresh (s.launch n).records
  (s.setLaunch n fun l =>
    { l with poolWait := l.poolWait.filter fun w => !(w.blk == u && w.tid == t), records := tset l.records id r }, id)

/-- Depth of a record that the block emits, if the node's limit allows it (R334). -/
def Iss.emitDepth (x : Iss) (node : Nat) : Option Nat :=
  let d := x.blk.cfg.depth + 1
  if (((x.launch x.s).node node).limit) < d then none else some d

/-- A depth failure is counted (R334). -/
def Iss.depthFail (x : Iss) (s : State) : State := s.setLaunch x.number fun l => { l with failures := l.failures + 1 }

/-- Checks of a payload address (R334). -/
def Iss.payloadFault (x : Iss) (s : State) (a n : Nat) : Option (Nat × Nat) :=
  if a % 16 ≠ 0 then some (3, 1)
  else if x.blk.cfg.allot < a + n then some (3, 2)
  else s.spadFault x.u (.own a) n false

/-- The tail of R334: the thread's earlier accesses are drained, the payload is copied, and the record is placed, HELD
in an unconfirmed block; the record's number if it had been reserved. -/
def Iss.place (x : Iss) (s : State) (t dest node depth a : Nat) (reserved : Option Nat) : State :=
  let n := ((x.launch s).node node).recBytes
  let b := s.block x.u
  if b.holding ∧ 262144 < b.run.heldSize + n then x.hold (s.startConfirm x.u) t .confirm
  else if b.run.confirming then x.hold s t .confirm
  else if !s.waitOver x.u b t (x.thr t) (x.drainWait 4 t) then x.drainHold s [t] 4
  else
    let s := x.drainEnd s [t]
    let r : Record := { node := node, bytes := mbytes b.scratch a n, depth := depth, st := .held, owner := x.u, size := n }
    let (s, id) := match reserved with
      | some id => (s.setLaunch x.number fun l => { l with records := tset l.records id r }, id)
      | none => s.useGrant x.u t r
    let s := if b.holding then s.setRun x.u fun k => { k with heldEmits := k.heldEmits ++ [(id, n)] }
      else s.commit x.number (houseOf x.core) id
    x.send s t (x.i.kills x.oc) [] [(dest, true)] 0

/-- A thread that fails a check at EMIT traps; a grant that it had is given back. -/
def Iss.emitTrap (x : Iss) (s : State) (t a : Nat) (k : Nat × Nat) : State :=
  (x.trap s t k.1 k.2 0 a).dropPool x.u t

/-- EMIT, member by member (R334). -/
def execEmit (r : RX) (s : State) : Out1 :=
  issue s (.emit r) fun x =>
    let node := r.e.toNat
    .go (x.act.foldl (fun s t =>
      match x.emitDepth node with
      | none => x.send (x.depthFail s) t (x.i.kills x.oc) [] [(r.d.toNat, false)] 0
      | some d =>
        let a := ((x.thr t).rd r.a.toNat).toNat
        let n := ((x.launch s).node node).recBytes
        match x.payloadFault s a n with
        | some k => x.emitTrap s t a k
        | none =>
          match s.allocate x.u t n with
          | (s, false) => x.hold s t .pool
          | (s, true) => x.place s t r.d.toNat node d a none) x.s) 1

/-- The lowest reservation slot that a thread has free (R335). -/
def Thread.freeResv (t : Thread) : Option Nat := (List.range 8).find? fun i => !(tgetD t.resv i {}).valid

/-- EMITA (R335). -/
def execEmita (r : RX) (s : State) : Out1 :=
  issue s (.emita r) fun x =>
    let node := r.e.toNat
    let out (s : State) (t : Nat) (v : Word) : State := x.send s t [] [(r.d.toNat, v)] [] 0
    .go (x.act.foldl (fun s t =>
      match x.emitDepth node with
      | none => out (x.depthFail s) t 0xFFFFFFFF
      | some d =>
        match (x.thr t).freeResv with
        | none => out s t 0xFFFFFFFE
        | some k =>
          let n := ((x.launch s).node node).recBytes
          match s.allocate x.u t n with
          | (s, false) => x.hold s t .pool
          | (s, true) =>
            let (s, id) := s.useGrant x.u t { node := node, depth := d, st := .reserved, owner := x.u, size := n }
            let s := s.setThread x.u t fun h => { h with resv := tset h.resv k ⟨true, node, id⟩ }
            out s t (BitVec.ofNat 32 (k + 256 * node))) x.s) 1

/-- The reservation that a handle names (R335). -/
def Thread.reservation (t : Thread) (h : Word) : Option (Nat × Reservation) :=
  let k := h.toNat % 8
  let v := tgetD t.resv k {}
  if v.valid ∧ h.toNat = k + 256 * v.node then some (k, v) else none

/-- EMITC: commits a reservation (R335). -/
def execEmitc (r : RX) (s : State) : Out1 :=
  issue s (.emitc r) fun x =>
    .go (x.act.foldl (fun s t =>
      match (x.thr t).reservation ((x.thr t).rd r.a.toNat) with
      | none => x.send s t (x.i.kills x.oc) [] [(r.d.toNat, false)] 0
      | some (k, v) =>
        let a := ((x.thr t).rd r.b.toNat).toNat
        match x.payloadFault s a ((x.launch s).node v.node).recBytes with
        | some e => x.trap s t e.1 e.2 0 a
        | none =>
          let d := ((tget (x.launch s).records v.record).map (·.depth)).getD 0
          let s2 := x.place s t r.d.toNat v.node d a (some v.record)
          if (s2.thread x.u t).st = .issuing then
            s2.setThread x.u t fun h => { h with resv := tset h.resv k {} }
          else s2) x.s) 1

/-- EMITC.CANCEL: frees a reservation (R335). -/
def execEmitcCancel (r : RX) (s : State) : Out1 :=
  issue s (.emitcCancel r) fun x =>
    .go (x.act.foldl (fun s t =>
      match (x.thr t).reservation ((x.thr t).rd r.a.toNat) with
      | none => x.send s t (x.i.kills x.oc) [] [(r.d.toNat, false)] 0
      | some (k, v) =>
        let s := s.freeRecords x.number [v.record]
        x.send (s.setThread x.u t fun h => { h with resv := tset h.resv k {} }) t (x.i.kills x.oc) [] [(r.d.toNat, true)] 0) x.s) 1

/-! ## DONE, QSTAT, CONFIRM (R342, R343, R345) -/

/-- The records that a block has taken are CONSUMED (R342). -/
def State.consume (s : State) (u : Nat) : State :=
  let b := s.block u
  if b.run.records = [] then s
  else (s.freeRecords b.cfg.launch b.run.records).setRun u fun r => { r with records := [] }

/-- DONE: USER, and with the first one the block's records are consumed, once the block is confirmed (R342, R344). -/
def execDone (r : RX) (s : State) : Out1 :=
  issue s (.done r) fun x =>
    if x.act = [] then .go x.s 1
    else
      let user (k : KReg) : KReg := x.act.foldl (fun k t =>
        k.write x.now t ((((x.thr t).rd r.a.toNat).setWidth 8).setWidth 64)) k
      let s := x.killed (x.s.setRun x.u fun k => { k with user := user k.user, doneRun := true })
      .go (if x.blk.unconfirmed then s else s.consume x.u) 1

/-- What QSTAT may return of the present (R343). -/
def Launch.sample (l : Launch) : QSample :=
  { free := l.poolSize - l.charge, fail := l.failures, live := l.records.length + (if l.isGraph then l.nblk - l.nextSeed else 0),
    nodes := l.deques.map fun (k, q) => (k, q.length) }

/-- A QSTAT result: a sample of one of the last 16 cycles or of now, free which; 0 in a plain launch (R343). -/
def Iss.qstat (x : Iss) (r : RX) (f : QSample → Thread → Nat) : Eff :=
  let l := x.launch x.s
  let q := (l.past[Config.choice x.s.draws % 17]?).getD l.sample
  .go (x.act.foldl (fun s t => s.setThread x.u t fun h =>
    h.put (x.i.kills x.oc) { regs := [(r.d.toNat, BitVec.ofNat 32 (if l.isGraph then f q h else 0))] }) x.s).drawn 1

/-- QSTAT.POOL (R343). -/
def execQstatPool (r : RX) (s : State) : Out1 := issue s (.qstatPool r) fun x => x.qstat r fun q _ => q.free
/-- QSTAT.NODE (R343). -/
def execQstatNode (r : RX) (s : State) : Out1 :=
  issue s (.qstatNode r) fun x => x.qstat r fun q h =>
    tgetD q.nodes (64 * houseOf x.core + (h.rd r.a.toNat).toNat % 64) 0
/-- QSTAT.FAIL (R343). -/
def execQstatFail (r : RX) (s : State) : Out1 := issue s (.qstatFail r) fun x => x.qstat r fun q _ => q.fail
/-- QSTAT.LIVE (R343). -/
def execQstatLive (r : RX) (s : State) : Out1 := issue s (.qstatLive r) fun x => x.qstat r fun q _ => q.live

/-- CONFIRM (R345). -/
def execConfirm (r : RX) (s : State) : Out1 :=
  issue s (.confirm r) fun x =>
    if x.blk.unconfirmed ∧ x.act ≠ [] then
      .go (x.act.foldl (fun s t => x.wait s t .confirm) (x.s.startConfirm x.u)) 1
    else .go x.s 1

/-- Confirmation is finished once the held writes are performed at DEV scope: held records are committed and a deferred
DONE is applied (R345). -/
def State.endConfirm (s : State) (u : Nat) : State :=
  let b := s.block u
  let d := dieOf b.core
  if b.run.confirming && ((s.core b.core).fifo.all fun e => !(e.blk == u && e.ordered) || e.st == .performed) &&
      s.blockSettled d u b.run.confirmMark then
    let s := (s.setRun u fun r => { r with confirming := false, confirmed := true }).commitHeld u
    if b.run.doneRun then s.consume u else s
  else s

/-- Confirmations of a core's blocks that are done; their commits come before the cycle's launches and steals (R340). -/
def State.endConfirms (s : State) (core : Nat) : State := (s.residents core).foldl (fun s e => s.endConfirm e.1) s

/-! ## LAUNCH (R329) -/

/-- The bytes of a card, read line by line as a thread's loads would: the own core's unperformed stores are drained
first, so the coherent view is what they return. -/
def State.cardBytes (s : State) (pa : Nat) : State × List Byte := s.readPieces [(pa, 256)]

/-- A card that has been read enters the die's queue under the next launch number, or its thread keeps it and waits for
room (R329). -/
def Iss.submit (x : Iss) (s : State) (r : RX) (t : Nat) (card : List Byte) : State :=
  let s := x.drainEnd s [t]
  if 64 ≤ (s.dm x.die).devq.length then
    (x.hold s t (.queue 5 1)).setThread x.u t fun h => { h with card := some card }
  else
    let num := s.mod.nextNumber
    let s := { s with mod := { s.mod with launchCtr := num } }
    let s := (s.setDm x.die fun m => { m with devq := m.devq ++ [(card, x.u, num)] }).setThread x.u t fun h =>
      { h with card := none }
    x.send s t (x.i.kills x.oc) [(r.d.toNat, BitVec.ofNat 32 num)] [] 0

/-- LAUNCH, member by member: the card is read once, then waits for room (R329). -/
def execLaunch (r : RX) (s : State) : Out1 :=
  issue s (.launch r) fun x =>
    x.confirmFirst
      (.go (x.act.foldl (fun s t =>
        match (x.thr t).card with
        | some card => x.submit s r t card
        | none =>
        let va := ((x.thr t).rd64 r.a.toNat).toNat
        if va % 256 ≠ 0 then x.trap s t 3 1 0 va
        else if !s.waitOver x.u (s.block x.u) t (x.thr t) (x.drainWait 4 t) then x.drainHold s [t] 4
        else match s.globalLock x.u va 256 false with
          | some k => x.trap s t 4 k 0 va
          | none =>
            match s.translate x.die (s.ctxOf x.u) .load va with
            | (s2, .outside) => x.trap s2 t 10 4 0 va
            | (s2, .protection) => x.trap s2 t 10 1 0 va
            | (s2, .demand k) =>
              let (s2, w) := s2.faultAttach x.die (s2.ctxOf x.u) va k (x.faultPost s2 t)
              x.hold s2 t w
            | (s2, .later line) => x.hold s2 t (.stacks line)
            | (s2, .ok pa _) =>
              if !s2.canTouch pa 256 then
                x.hold s2 t (.stacks (((linesOf pa 256).find? fun l => s2.lineBusy l || s2.noted l).getD 0))
              else
                let (s2, card) := s2.cardBytes pa
                x.submit s2 r t card) x.s) 1)

end Sys2Proof.Machine
end

