-- ==== Sys2Proof/Machine/Clearing.lean ====
section
/-! DEFINITION. The Clearing Houses and the dispatcher's choices: batches, seed chunks, steals, clusters, priority,
starvation and tile exhaustion (R169, R324, R326, R331, R336-R341). -/

namespace Sys2Proof.Machine

/-! ## Blocks of graph nodes (R331, R337) -/

/-- Some block of the launch is resident. -/
def State.hasResident (s : State) (number : Nat) : Bool :=
  s.blocks.any fun e => e.2.cfg.launch == number && !e.2.run.completed && !e.2.run.preempted && !e.2.run.discarded

/-- A graph block is placed on a core with its records in the window (R331, R337). -/
def State.putGraph (s : State) (number node house : Nat) (core : Nat × Fit) (recs : List (List Byte)) (depth : Nat)
    (ids : List Nat) : State :=
  let l := s.launch number
  let k := l.node node
  let c : BlockCfg := { l.cfg number k.threads k.window with
    bid := l.placed, clid := l.placed, stage := node, depth := depth, rcount := recs.length, rbase := l.scratch,
    entry := BitVec.ofNat 64 k.entry, retryable := k.retryable, retry := k.retry, recs := recs, recLog := k.recLog }
  let u := s.mod.uids + 1
  let s := s.putCluster number l.placed house [core] [c]
  let taken (e : Nat × Record) : Nat × Record :=
    if ids.contains e.1 then (e.1, { e.2 with st := .taken, owner := u }) else e
  (s.setRun u fun r => { r with records := ids }).setLaunch number fun l =>
    { l with placed := l.placed + 1, poolCount := 0, records := l.records.map taken }

/-- Records of a deque become a block of their node on a core of a cluster (R337); the launcher whose own launch it is
leaves READY, and so does one whose deque a thief has emptied (R336). -/
def State.launchBatch (s : State) (number source node house : Nat) (core : Nat × Fit) (ids : List Nat) : State :=
  let l := s.launch number
  let rs := ids.filterMap fun i => tget l.records i
  let s := s.setLaunch number fun l =>
    let q := (l.deque source node).filter (!ids.contains ·)
    { l with deques := tset l.deques (64 * source + node) q,
             ready := if source = house ∨ q = [] then tdel l.ready (64 * source + node) else l.ready }
  s.putGraph number node house core (rs.map (·.bytes)) ((rs.map (·.depth)).foldl max 0) ids

/-! ## Launchers (R336, R337) -/

/-- The oldest record of a deque has waited for the node's timer, or the pool is short (R333, R336). -/
def State.expired (s : State) (number house node : Nat) : Bool :=
  let l := s.launch number
  match (l.deque house node).head?.bind fun i => tget l.records i with
  | some r => decide (64 * (l.node node).timer ≤ s.now (dieOfHouse house) - r.time) || l.poolWait.any (!·.granted)
  | none => false

/-- A batch is full. -/
def Launch.full (l : Launch) (house node : Nat) : Bool :=
  (l.node node).valid && decide ((l.node node).target ≤ (l.deque house node).length) && (l.deque house node) != []

/-- READY of a launcher: the cycle of die 0 from which, and why. It is entered when the count reaches the target or the wait
the timer, or when no block of the launch is resident, and kept until its launch whatever thieves take (R336, R341, log 76). -/
def State.readiness (s : State) (number house node : Nat) : Option (Nat × Ready) :=
  let l := s.launch number
  if l.deque house node = [] then none
  else match tget l.ready (64 * house + node) with
    | some r => some r
    | none =>
      if l.full house node then some (s.now 0, .full)
      else if s.expired number house node then some (s.now 0, .timer)
      else if s.hasResident number then none else some (s.now 0, .idle)

/-- Deques with records of a launch: Clearing House and node. -/
def Launch.filled (l : Launch) : List (Nat × Nat) :=
  (l.deques.filter fun e => e.2 != []).map fun e => (e.1 / 64, e.1 % 64)

/-- A launcher that has become READY is kept so. -/
def State.readyUp (s : State) (number house node : Nat) : State :=
  match s.readiness number house node with
  | some r => s.setLaunch number fun l => { l with ready := tset l.ready (64 * house + node) r }
  | none => s

/-- Every launcher of the launch that has become READY is kept so (R336, R341). -/
def State.readyAll (s : State) (number : Nat) : State :=
  (s.launch number).filled.foldl (fun s e => s.readyUp number e.1 e.2) s

/-- A batch is due (R336, R341). -/
def State.due (s : State) (number house node : Nat) : Bool :=
  (s.launch number).deque house node != [] && (s.readiness number house node).isSome

/-- The first core of a cluster that can take a block of the node. -/
def State.nodeCore (s : State) (l : Launch) (house node : Nat) : Option (Nat × Fit) :=
  (s.ableCores house (l.nodeNeed node)).head?

/-- The records that a due launcher takes: newest first for a full batch, else oldest first (R337). -/
def Launch.batch (l : Launch) (house node : Nat) (full : Bool) : List Nat :=
  let q := l.deque house node
  let n := min q.length (l.node node).maxRec
  if full then (q.reverse).take n else q.take n

/-! ## Seeds (R338) -/

/-- Where the next chunk of a launch goes (R338). -/
def State.seedSite (s : State) (l : Launch) : Option (Nat × List (Nat × Fit)) :=
  if l.seedsLeft ≠ 0 ∧ l.fault = none then s.site l.lastDie (l.nodeNeed l.seedNode) 1 else none

/-- Seed records of the next chunk (R338). -/
def State.chunkSize (s : State) (l : Launch) : Nat :=
  let idle := max 1 (s.ableCount (l.nodeNeed l.seedNode))
  let k := l.node l.seedNode
  min l.seedsLeft (min k.target (max k.minRec (ceilDiv l.seedsLeft (2 * idle))))

/-! ## Whose turn it is (R326) -/

/-- Where a pre-empted cluster of a launch may come back (R373). -/
def State.backSite (s : State) (l : Launch) : Option (Nat × Nat × List (Nat × Fit)) :=
  match l.back with
  | [] => none
  | c :: _ =>
    let us := (tgetD s.clusters c {}).blocks
    (s.site l.lastDie (s.block (us.headD 0)).cfg.need us.length).map fun p => (c, p)

/-- The dispatcher could place a cluster or a seed chunk of the launch now. -/
def State.canDeal (s : State) (l : Launch) : Bool :=
  l.st == .running && l.code == 0 &&
    (if l.back ≠ [] then (s.backSite l).isSome else if l.isGraph then (s.seedSite l).isSome else (s.nextSite l).isSome)

/-- Some launcher of the launch could start a block now. -/
def State.canBatch (s : State) (number : Nat) (l : Launch) : Bool :=
  l.st == .running && l.code == 0 && l.filled.any fun (h, n) => s.due number h n && (s.nodeCore l h n).isSome

/-! ## Steals (R339) -/

/-- Mesh coordinates of a die and the length of the path between two (R13). -/
def meshDist (a b : Nat) : Nat := (a / 3 - b / 3) + (b / 3 - a / 3) + (a % 3 - b % 3) + (b % 3 - a % 3)

/-- Dies in the order in which a thief looks: its own, then by distance and number. -/
def thiefOrder (d : Nat) : List Nat :=
  sortBy (fun a b => decide (meshDist d a < meshDist d b) || (meshDist d a == meshDist d b && decide (a < b))) (List.range 9)

/-- The Clearing House has no record of the launch and a core that can take a block of some valid node. -/
def State.thief (s : State) (number house : Nat) : Bool :=
  let l := s.launch number
  l.filled.all (fun e => e.1 != house) &&
    (List.range 64).any fun n => (l.node n).valid && (s.nodeCore l house n).isSome

/-- The deque of a die with the oldest top record that the thief can take. -/
def State.victimOn (s : State) (number house d : Nat) : Option (Nat × Nat) :=
  let l := s.launch number
  let top (e : Nat × Nat) : Nat := (((l.deque e.1 e.2).head?.bind fun i => tget l.records i).map (·.stamp)).getD 0
  (l.filled.filter fun e => e.1 != house && dieOfHouse e.1 == d && (s.nodeCore l house e.2).isSome).foldl
    (fun best e => match best with
      | none => some e
      | some b => if top e < top b then some e else some b) none

/-- Some Clearing House could steal for the launch now. -/
def State.canSteal (s : State) (number : Nat) (l : Launch) : Bool :=
  l.st == .running && l.code == 0 && l.filled != [] && (List.range 108).any fun h =>
    s.thief number h && (List.range 9).any fun d => (s.victimOn number h d).isSome

/-! ## Another attempt of a block (R346) -/

/-- A core other than its own for another attempt of a block: of another die if one can take it. -/
def State.retrySite (s : State) (b : Block) : Option (Nat × Fit) :=
  let on (p : Nat → Bool) : Option (Nat × Fit) :=
    ((List.range 9).filter p).findSome? fun d =>
      ((coresOf d).filter (· != b.core)).findSome? fun c => (s.fit c b.cfg.need).map fun f => (c, f)
  match on (· != dieOf b.core) with
  | some x => some x
  | none => on (· == dieOf b.core)

/-- Discarded blocks of a launch. -/
def State.discardedOf (s : State) (number : Nat) : List Block :=
  (s.blocks.filter fun e => e.2.cfg.launch == number && e.2.run.discarded).map (·.2)

/-! ## Priority (R326) -/

/-- No launch of a higher priority could place a block now (R326). -/
def State.mayPlace (s : State) (number : Nat) : Bool :=
  s.running.all fun e => decide (e.2.prio ≤ (s.launch number).prio) ||
    !(s.canDeal e.2 || s.canBatch e.1 e.2 || s.canSteal e.1 e.2 ||
      (s.discardedOf e.1).any fun b => (s.retrySite b).isSome)

/-- LAUNCH_START: the first launch of its queue starts when its chip allotment, its grid barriers and, with these, its
whole grid can be had with no launch of a higher priority before it, and fewer than four graph launches run if it is one. -/
def execLaunchStart (number : Nat) (s : State) : Out1 :=
  let l := s.launch number
  let grids := s.running.foldl (fun n e => n + e.2.ngb) 0
  let graphs := (s.running.filter fun e => e.2.isGraph).length
  .next
    (if l.st ≠ .waiting || (tget s.launches number).isNone || !s.firstWaiting number || l.fault.isSome then s
     else if l.bad then
       match if l.isGraph then s.dispRead l.ctx l.graphAddr 2048 else (s, .bytes []) with
       | (_, .wait) => s
       | (s2, .bytes b) => s2.setLaunch number fun l =>
           l.refuse (({ l with nodes := chunksOf 32 64 b }.refusal (decide (15 < l.nest))).getD 7)
       | (s2, _) => s2.setLaunch number fun l => l.refuse l.unreadReason
     else if (l.isGraph ∧ 4 ≤ graphs) ∨ 16 < grids + l.ngb ∨
         (l.ngb ≠ 0 ∧ ((s.placeAll number l.clusters).isNone ∨ !s.mayPlace number)) then s
     else match s.chipFit l.chipSize with
       | none => s
       | some base =>
         if !l.isGraph then s.startWith number base []
         else match s.dispRead l.ctx l.graphAddr 2048 with
           | (_, .wait) => s
           | (s2, .demand k va) => s2.launchFault number va k
           | (s2, .bad _) => s2.setLaunch number fun l => l.refuse l.unreadReason
           | (s2, .bytes b) => s2.startWith number base (chunksOf 32 64 b))

/-- The launch is the next, in the order of starting, of those of its priority that could place a cluster (R326). -/
def State.onTurn (s : State) (number : Nat) : Bool :=
  let l := s.launch number
  let t := tgetD s.mod.turn l.prio 0
  let key (k : Launch) : Nat × Nat := (if t < k.order then 0 else 1, k.order)
  let le (a b : Nat × Nat) : Bool := decide (a.1 < b.1) || (a.1 == b.1 && decide (a.2 ≤ b.2))
  s.running.all fun e => e.2.prio != l.prio || !s.canDeal e.2 || le (key l) (key e.2)

/-- The dispatcher has served a launch. -/
def State.dealt (s : State) (number : Nat) : State :=
  let l := s.launch number
  { s with mod := { s.mod with turn := tset s.mod.turn l.prio l.order } }

/-- CLUSTER_PLACE: the next cluster of a plain launch (R324). -/
def execClusterPlace (number : Nat) (s : State) : Out1 :=
  let l := s.launch number
  match s.nextSite l with
  | some (h, cores) =>
    event s (s.canDeal l && !l.isGraph && l.back == [] && s.mayPlace number && s.onTurn number)
      ((s.placeNext number h cores).dealt number)
  | none => .next s

/-- Whether a launcher may start a block now: the launch runs, a core of the cluster can take it, and no launch of a
higher priority comes first (R326, R336). -/
def State.batchCore (s : State) (number house node : Nat) : Option (Nat × Fit) :=
  let l := s.launch number
  if l.st == .running && l.code == 0 && s.mayPlace number then s.nodeCore l house node else none

/-- LAUNCHER_TIMER: a launcher that is READY by its timer starts its partial batch (R336, R337). -/
def execLauncherTimer (number house node : Nat) (s : State) : Out1 :=
  let s := s.readyAll number
  let l := s.launch number
  match s.readiness number house node, s.batchCore number house node with
  | some (_, .timer), some c =>
    .next ((s.launchBatch number house node house c (l.batch house node false)).tickDie (dieOfHouse house) 0x49 none 1)
  | _, _ => .next s

/-- BATCH_LAUNCH: a launcher that is READY by a full batch starts it, and one that is READY since no block of the launch was
resident starts what it holds (R337, R341). -/
def execBatchLaunch (number house node : Nat) (s : State) : Out1 :=
  let s := s.readyAll number
  let l := s.launch number
  match s.readiness number house node, s.batchCore number house node with
  | some (_, .full), some c => .next (s.launchBatch number house node house c (l.batch house node true))
  | some (_, .idle), some c => .next (s.launchBatch number house node house c (l.batch house node false))
  | _, _ => .next s

/-- STEAL: an idle Clearing House takes from the top of another's deque and launches at once (R339). -/
def execSteal (number house : Nat) (s : State) : Out1 :=
  let l := s.launch number
  match (thiefOrder (dieOfHouse house)).findSome? fun d => s.victimOn number house d with
  | some (h, n) =>
    match s.nodeCore l house n with
    | some c =>
      event s (l.st == .running && l.code == 0 && s.thief number house && s.mayPlace number)
        (let q := l.deque h n
         let k := min (l.node n).target (ceilDiv q.length 2)
         let s := s.launchBatch number h n house c (q.take k)
         (s.tickDie (dieOfHouse house) 0x47 none k).tickDie (dieOfHouse h) 0x48 none k)
    | none => .next s
  | none => .next s

/-! ## What the dispatcher counts (R169, R326, R333) -/

/-- A block of the launch is ready to be placed and is not. -/
def State.readyBlock (s : State) (number : Nat) (l : Launch) : Bool :=
  l.st == .running && l.code == 0 &&
    (l.unplaced || l.seedsLeft != 0 || (s.discardedOf number) != [] || l.filled.any fun (h, n) => s.due number h n)

/-- Blocks of a launch that are ready to be placed: the cycles of die 0 for which each has been so, and whether it fits
somewhere now (R326). -/
def State.unplacedFor (s : State) (number : Nat) (l : Launch) : List (Nat × Bool) :=
  let now := s.now 0
  if l.st != .running || l.code != 0 then []
  else
    (if !l.isGraph && decide (l.nextBid < l.nblk) then [(now - l.startAt, (s.nextSite l).isSome)] else []) ++
    (if l.seedsLeft ≠ 0 then [(now - l.startAt, (s.site l.lastDie (l.nodeNeed l.seedNode) 1).isSome)] else []) ++
    (l.back.map fun c => (now - (tgetD s.clusters c {}).savedAt, (s.backSite { l with back := [c] }).isSome)) ++
    (l.filled.filterMap fun (h, n) => (tget l.ready (64 * h + n)).map fun r =>
      (now - r.1, (s.nodeCore l h n).isSome)) ++
    ((s.discardedOf number).map fun b => (now - b.run.discardedAt, (s.retrySite b).isSome))

/-- A block of a launch has been ready and unplaced for its STARVE time, and does not fit (R326). -/
def State.starved (s : State) (number : Nat) (l : Launch) : Bool :=
  l.starveTime != 0 && (s.unplacedFor number l).any fun p => decide (1024 * l.starveTime ≤ p.1) && !p.2

/-- What the next block of a launch needs (R169). -/
def State.nextNeed (s : State) (number : Nat) (l : Launch) : Option Need :=
  if !s.readyBlock number l then none
  else if l.back ≠ [] then some (s.block ((tgetD s.clusters (l.back.headD 0) {}).blocks.headD 0)).cfg.need
  else if !l.isGraph then some (l.need l.nthr 0)
  else if l.seedsLeft ≠ 0 then some (l.nodeNeed l.seedNode)
  else if s.discardedOf number ≠ [] then ((s.discardedOf number).head?).map fun b => b.cfg.need
  else (l.filled.find? fun (h, n) => s.due number h n).map fun e => l.nodeNeed e.2

/-- Only tile entries are wanting on a die for the need (R169). -/
def State.lacksTiles (s : State) (d : Nat) (n : Need) : Bool :=
  (coresOf d).all (fun c => decide (128 < s.tilesHeld c + n.ntile)) &&
    (coresOf d).any fun c => (s.fit c { n with ntile := 0 }).isSome

/-- Every resident block of the launch has a thread that waits on the pool (R333). -/
def State.poolStuck (s : State) (number : Nat) (l : Launch) : Bool :=
  l.poolWait.any (!·.granted) && s.blocks.all fun e =>
    e.2.cfg.launch != number || e.2.run.completed || e.2.run.preempted || e.2.run.discarded || e.2.threads.any fun t => t.2.st == .waiting .pool

/-- An exhaustion entry of the launch is open on a die. -/
def State.tileEntryOpen (s : State) (d number : Nat) : Bool :=
  (s.die d).entries.any fun e => e.kind == 3 && e.launch == number

/-- The counts of a launch advance at the edge of a cycle, of die 0 and of each die; its QSTAT sample is kept. -/
def State.countLaunch (s : State) (dies : List Nat) (number : Nat) (l : Launch) : Launch :=
  let l := { l with past := (l.sample :: l.past).take 17 }
  let l := if dies.contains 0 then
      { l with poolCount := if s.poolStuck number l then l.poolCount + 1 else 0,
               poolPosted := l.poolPosted && s.poolStuck number l }
    else l
  match s.nextNeed number l with
  | none => { l with tileWait := [] }
  | some n =>
    { l with tileWait := dies.foldl (fun t d =>
        if s.tileEntryOpen d number then tset t d 0
        else if s.lacksTiles d n then tset t d (tgetD t d 0 + 1) else tset t d 0) l.tileWait }

/-- QUEUE_POOL_EXHAUSTED: kind 5 on die 0 (R333, R367). -/
def execQueuePoolExhausted (number : Nat) (s : State) : Out1 :=
  let l := s.launch number
  event s (decide (65536 ≤ l.poolCount) && !l.poolPosted)
    ((s.post 0 { dispPost 5 with launch := number, cid := l.ctx.cid }).1.setLaunch number fun l => { l with poolPosted := true })

/-- Launches whose next block has lacked tile entries on a die for 2^20 cycles. -/
def State.tileStarved (s : State) (d : Nat) : List Nat :=
  (s.running.filter fun e => decide (2 ^ 20 ≤ tgetD e.2.tileWait d 0)).map (·.1)

/-- TILE_ENTRY_EXHAUSTION: the die's placer posts kind 3 with the count it sought (R169, R367). -/
def execTileEntryExhaustion (d : Nat) (s : State) : Out1 :=
  .next ((s.tileStarved d).foldl (fun s n =>
    let l := s.launch n
    let p : Post := { unit := 169, kind := 3, launch := n, cid := l.ctx.cid, detail := l.ntile }
    (s.post d p).1.setLaunch n fun l => { l with tileWait := tset l.tileWait d 0 }) s)

end Sys2Proof.Machine
end

