-- ==== Sys2Proof/Machine/Control.lean ====
section
/-! DEFINITION. Branches, calls, EXIT, hints and rejoin-mask registers (R131-R141). -/

namespace Sys2Proof.Machine

/-! ## Terminal instructions -/

/-- Branch target: relative to the clause base, or the pair plus the offset modulo 2^64 (R132). -/
def directTarget (base : DWord) (off : BitVec 32) : DWord := base + off.signExtend 64 * 8
def indirectTarget (p : DWord) (off : BitVec 32) : DWord := p + off.signExtend 64 * 8

/-- A taken branch of one thread: misaligned targets trap, else the thread stands at the target (R132). -/
def Iss.jump (x : Iss) (s : State) (t : Nat) (target : DWord) (link : Option Nat) : State :=
  if fld target 0 3 ≠ 0 then x.trap s t 3 1 0 target.toNat
  else s.setThread x.u t fun h =>
    let h := match link with
      | some d => h.wrs (pairW d (fallThrough x.base x.hdr))
      | none => h
    { h with base := target, index := 0 }

/-- A call closes the arming windows of each cohort with a member that takes it (R141). -/
def State.closeWindows (s : State) (u : Nat) (cohorts : List Nat) : State :=
  let close (e : Nat × JReg) := if cohorts.contains (e.1 / 16) then (e.1, { e.2 with opened := false }) else e
  s.setBlock u fun b => { b with joins := b.joins.map close }

/-- Branches of the executing threads, counted as one event (R307). -/
def Iss.branch (x : Iss) (ev : Nat) (target : Thread → DWord) (link : Option Nat) : State :=
  let s := x.act.foldl (fun s t => x.jump s t (target (x.thr t)) link) x.s
  let s := if link.isSome then
      s.closeWindows x.u (dedupN ((x.act.filter fun t => fld (target (x.thr t)) 0 3 == 0).map x.blk.cohort))
    else s
  if x.act = [] then s else s.tick x.core ev none (some x.blk.resIdx) 1

/-- BRA (R132). -/
def execBra (r : RB) (s : State) : Out1 :=
  issue s (.bra r) fun x => .go (x.branch 0x08 (fun _ => directTarget x.base r.off) none) 1
/-- BRX (R132). -/
def execBrx (r : RB) (s : State) : Out1 :=
  issue s (.brx r) fun x => .go (x.branch 0x08 (fun t => indirectTarget (t.rd64 r.a.toNat) r.off) none) 1
/-- CALL (R132, R141). -/
def execCall (r : RB) (s : State) : Out1 :=
  issue s (.call r) fun x => .go (x.branch 0x08 (fun _ => directTarget x.base r.off) (some r.d.toNat)) 1
/-- CALLX (R132, R141). -/
def execCallx (r : RB) (s : State) : Out1 :=
  issue s (.callx r) fun x =>
    .go (x.branch 0x08 (fun t => indirectTarget (t.rd64 r.a.toNat) r.off) (some r.d.toNat)) 1
/-- RET (R132). -/
def execRet (r : RB) (s : State) : Out1 :=
  issue s (.ret r) fun x => .go (x.branch 0x09 (fun t => indirectTarget (t.rd64 r.a.toNat) r.off) none) 1

/-! ## EXIT (R133) -/

/-- Removal of a position from every rejoin-mask register of its cohort (R138). -/
def Block.leaveJoins (b : Block) (t : Nat) : Block :=
  let c := b.cohort t
  let m := ~~~(BitVec.ofNat 64 (2 ^ b.cohPos t))
  let drop (e : Nat × JReg) : Nat × JReg :=
    if e.1 / 16 = c then
      (e.1, { e.2 with mask := e.2.mask &&& m, out := e.2.out &&& m, arrived := e.2.arrived &&& m, changed := true })
    else e
  { b with joins := b.joins.map drop }

/-- A thread enters EXITED, in the cycle that `since` keeps: its chunks go to the pool, its claim leaves the queue, its position
leaves every mask; with the last thread the block's reserved records are cancelled (R94, R95, R133, R138, R332). -/
def State.endThread (s : State) (u t : Nat) : State :=
  if (s.thread u t).exited then s
  else
    let s := (s.setBlock u fun b =>
      (({ b with pool := b.pool + (s.thread u t).limit / 8, claims := b.claims.filter fun c => c.tid != t } :
          Block).leaveJoins t).setThread t fun h =>
          { h with st := .exited, since := s.nowB u, live := [], hdr := none, gang := none, atSlot := none }).dropPool u t
    if (s.block u).threads.all fun e => e.2.exited then s.cancelReserved u else s

/-- A thread exits and leaves its barriers at once (R133, R210). -/
def State.exitThread (s : State) (u t : Nat) : State :=
  if (s.thread u t).exited then s else (s.endThread u t).barExit u t

/-- The order in which threads that exit in one cycle leave their barriers: ascending thread index, then resident-block
index (R40, R209). -/
def State.exitBefore (s : State) (a b : Nat × Nat) : Bool :=
  decide (a.2 < b.2) || (a.2 == b.2 && decide ((s.block a.1).resIdx < (s.block b.1).resIdx))

/-- The threads that have exited in this cycle on a core leave their barriers (R209, R210). -/
def State.applyExits (s : State) (core : Nat) : State :=
  (sortBy s.exitBefore (s.core core).exits).foldl (fun s e => s.barExit e.1 e.2)
    (s.setCore core fun c => { c with exits := [] })

/-- EXIT (R133); while a pending-write bit of a member is set it does not issue (`Thread.blocked`). The barriers count
the exits of the whole cycle in ascending thread index (`State.applyExits`). -/
def execExit (r : RR) (s : State) : Out1 :=
  issue s (.exit r) fun x =>
    .go ((x.act.foldl (fun s t => (s.leave x.bid t).endThread x.u t) x.s).setCore x.core fun c =>
      { c with exits := c.exits ++ x.act.map fun t => (x.u, t) }) 1

/-- YIELD: the executing threads' next group ranks last in step 1.3 of R31 (R49, R134). -/
def execYieldHint (r : RR) (s : State) : Out1 :=
  issue s (.yieldHint r) fun x =>
    .go (x.act.foldl (fun s t => s.setThread x.u t fun h => { h with yielded := true }) x.s) 1

/-- NOP (R134). -/
def execNop (r : RR) (s : State) : Out1 := issue s (.nop r) fun x => .go x.s 1

/-! ## Rejoin-mask registers (R135-R140) -/

/-- Cohorts of the executing threads, and S as a mask of positions of one of them (R136). -/
def Iss.cohorts (x : Iss) : List Nat := dedupN (x.act.map x.blk.cohort)
def Iss.inCohort (x : Iss) (c : Nat) : List Nat := x.act.filter fun t => x.blk.cohort t == c
def Iss.maskS (x : Iss) (c : Nat) : BitVec 64 := BitVec.ofNat 64 (maskOf ((x.inCohort c).map x.blk.cohPos))
def Block.join (b : Block) (c j : Nat) : JReg := tgetD b.joins (16 * c + j) {}
def State.setJoin (s : State) (u c j : Nat) (f : JReg → JReg) : State :=
  s.setBlock u fun b => { b with joins := tset b.joins (16 * c + j) { f (b.join c j) with changed := true } }

/-- JARM of one cohort (R136, R139). -/
def Iss.armOne (x : Iss) (j : Nat) (s : State) (c : Nat) : State :=
  let v := (s.block x.u).join c j
  let m := x.maskS c
  let here := v.opened && v.armBase == x.base && v.armIndex.toNat == x.index
  if here then s.setJoin x.u c j fun v => { v with mask := v.mask ||| m, out := v.out ||| m }
  else if v.arrived ≠ 0 ∧ m &&& ~~~v.out ≠ 0 then
    (x.inCohort c).foldl (fun s t => x.trap s t 7 j) s
  else s.setJoin x.u c j fun v =>
    { v with mask := m, out := if v.arrived = 0 then m else v.out ||| m, armBase := x.base,
             armIndex := BitVec.ofNat 4 x.index, opened := true }

/-- JARM (R136). -/
def execJarm (r : RR) (s : State) : Out1 :=
  issue s (.jarm r) fun x => .go (x.cohorts.foldl (x.armOne r.d.toNat) x.s) 1

/-- JWAIT: outstanding positions park, the others pass on (R136). -/
def execJwait (r : RR) (s : State) : Out1 :=
  issue s (.jwait r) fun x =>
    .go (x.act.foldl (fun s t =>
      let c := x.blk.cohort t
      let p := x.blk.cohPos t
      if ((s.block x.u).join c r.d.toNat).out.getLsbD p then
        (x.wait s t (.join r.d.toNat)).setJoin x.u c r.d.toNat fun v =>
          { v with arrived := v.arrived ||| BitVec.ofNat 64 (2 ^ p) }
      else s) x.s) 1

/-- JDROP (R136). -/
def execJdrop (r : RR) (s : State) : Out1 :=
  issue s (.jdrop r) fun x =>
    .go (x.cohorts.foldl (fun s c => s.setJoin x.u c r.d.toNat fun v =>
      { v with mask := v.mask &&& ~~~(x.maskS c), out := v.out &&& ~~~(x.maskS c), opened := false }) x.s) 1

/-- JGET (R140). -/
def execJget (r : RR) (s : State) : Out1 :=
  issue s (.jget r) fun x =>
    .go (x.act.foldl (fun s t => s.setThread x.u t fun h =>
      h.put ((Instr.jget r).kills x.oc)
        { regs := resW x.oc.w64 r.d.toNat ((x.blk.join (x.blk.cohort t) r.a.toNat).mask).toNat }) x.s) 1

/-- JSET: the lowest executing position's value, over the live positions (R140). -/
def execJset (r : RR) (s : State) : Out1 :=
  issue s (.jset r) fun x =>
    .go (x.cohorts.foldl (fun s c =>
      let low := (x.inCohort c).headD 0
      let v := (x.thr low).rdN x.oc.w64 r.a.toNat % 2 ^ x.blk.cfg.w
      let m := BitVec.ofNat 64 (v &&& x.blk.liveMask c)
      s.setJoin x.u c r.d.toNat fun j =>
        { j with mask := m, out := if j.arrived = 0 then m else j.out ||| m, opened := false }) (x.killed x.s)) 1

end Sys2Proof.Machine
end

