-- ==== Sys2Proof/Machine/Tiles.lean ====
section
/-! DEFINITION. Tile instructions and the ends of fills and scans (R174-R179). -/

namespace Sys2Proof.Machine

/-- A trap that every member whose guard is true raises alike (R174). -/
def Iss.trapAll (x : Iss) (cause sub : Nat) (a : Nat) : State :=
  x.act.foldl (fun s t => x.trap s t cause sub 0 a) x.s

/-- A tile is FILLING or DRAINING (R170). -/
def Tile.moving (t : Tile) : Bool := t.st == .filling || t.st == .draining
/-- A tile is FILLING, DRAINING or pinned, so that instructions that change it wait (R170, R193). -/
def Tile.busy (t : Tile) : Bool := t.moving || t.pins != 0
/-- What an instruction that finds tiles busy waits for: that they leave FILLING and DRAINING, or that they are no longer
pinned (R170, R193). -/
def Block.tileWait (b : Block) (u : Nat) (l : List Nat) : Wait :=
  if l.any fun k => (b.tile k).moving then .tile (l.filter fun k => (b.tile k).moving) else .pinned u l

/-- An instruction that acts once per bundle (R174): the lowest executing thread acts; a trap is every member's; with
tiles to wait for, the executing members wait; else it takes effect. A trap comes before the wait (R170, log 93). -/
def Iss.once (x : Iss) (trap : Nat → Option (Nat × Nat × Nat)) (waits : Nat → List Nat) (eff : Nat → State) : Eff :=
  match x.act with
  | [] => .go x.s 1
  | t :: _ =>
    match trap t with
    | some (k, k2, a) => .go (x.trapAll k k2 a) 1
    | none =>
      if waits t ≠ [] then .park fun m => if x.act.contains m then some (x.blk.tileWait x.u (waits t)) else none
      else .go (eff t) 1
/-- The tile itself as what is waited for. -/
def Block.busyTile (b : Block) (e : Nat) : List Nat := if (b.tile e).busy then [e] else []
/-- Tile-busy of an EMPTY tile; the address is the entry's base (R170, R171). -/
def Block.emptyTrap (b : Block) (e : Nat) : Option (Nat × Nat × Nat) :=
  if (b.tile e).st = .empty then some (5, 4, (b.tile e).base) else none

/-- Every executing member's vD becomes pending until the tile is READY again (R174). -/
def Iss.sendAll (x : Iss) (s : State) (d : Nat) : State :=
  x.act.foldl (fun s t => s.setThread x.u t fun h => h.sent [] [d] [] x.slot) s
/-- vD of every member is written with the form's code. -/
def State.landAll (s : State) (u : Nat) (tids : List Nat) (d : Nat) (v : Nat) (sb : Option Nat) : State :=
  tids.foldl (fun s t => s.setThread u t fun h => h.landed [(d, BitVec.ofNat 32 v)] [] sb) s

/-- The entry that TDECL writes (R175). -/
def declTile (base size : Word) (layout fmt : Nat) (fval : Word) : Tile :=
  { base := base.toNat, st := .ready, layout := layout, fmt := fmt, cols := (fld size 8 8).toNat,
    rows := (fld size 0 8).toNat, fval := fval }

/-- TDECL (R175). -/
def execTdecl (r : RX) (s : State) : Out1 :=
  issue s (.tdecl r) fun x =>
    let e := r.e.toNat
    let decl t := declTile ((x.thr t).rd r.a.toNat) ((x.thr t).rd r.b.toNat) r.flags.toNat r.fa.toNat
      (x.blk.fmt x.now r.fa.toNat)
    x.once (fun t =>
        let d := decl t
        if d.base % 128 ≠ 0 ∨ d.count * d.cont % 64 ≠ 0 then some (3, 1, d.base)
        else if x.blk.cfg.allot < d.base + d.size then some (3, 2, d.base) else none)
      (fun _ => x.blk.busyTile e) fun t => x.s.setTile x.u e fun _ => decl t

/-- Tiles that keep TFILL waiting: the tile and every declared tile that shares a byte with it (R176). -/
def Block.fillWaits (b : Block) (e : Nat) : List Nat :=
  let t := b.tile e
  (b.tiles.filter fun k => k.2.busy && (k.1 == e || k.2.overlaps t.base t.size)).map (·.1)

/-- The bytes a fill writes (R176). -/
def Tile.fillBytes (t : Tile) (form : Form) (value : Word) : List Byte :=
  packConts t.cont t.count fun k =>
    if form = .ident then (if (t.pos k).1 = (t.pos k).2 then (oneCode (fmtOf t.fval)).getD 0 else 0) else value.toNat

/-- A fill starts: its bytes take their place in the order of the core's accesses at its issue, and update every tile
that they touch; the tile is FILLING for a cycle per 512 bytes and two more, and has its new form at the end (R165, R172,
R174, R176; what TQRY shows of the form meanwhile: log 73). -/
def Iss.fill (x : Iss) (e d : Nat) (form : Form) (value : Word) : State :=
  let t := x.blk.tile e
  let s := (x.s.spWrite x.u t.base (t.fillBytes form value)).setTile x.u e fun t =>
    { t with st := .filling, next := some (form, if form = .const then value else 0) }
  x.sendAll (s.addJob x.die (x.now + ceilDiv t.size 512 + 2) (.fillEnd x.u e x.act d x.slot)) d

/-- TFILL (R176). -/
def execTfill (r : RX) (s : State) : Out1 :=
  issue s (.tfill r) fun x =>
    let e := r.e.toNat
    x.acquired true <| x.once (fun _ => x.blk.emptyTrap e) (fun _ => x.blk.fillWaits e) fun t =>
      let f := fmtOf (x.blk.tile e).fval
      let v := ((x.thr t).rd r.a.toNat).toNat % 2 ^ f.width
      let zero := (f.value v).isZero
      x.fill e r.d.toNat (if zero then .zero else .const) (BitVec.ofNat 32 v)

/-- TFILL.IDENT (R176). -/
def execTfillIdent (r : RX) (s : State) : Out1 :=
  issue s (.tfillIdent r) fun x =>
    let e := r.e.toNat
    x.acquired true <| x.once (fun _ => match x.blk.emptyTrap e with
        | some p => some p
        | none => if (oneCode (fmtOf (x.blk.tile e).fval)).isNone then some (1, 9, 0) else none)
      (fun _ => x.blk.fillWaits e) fun _ => x.fill e r.d.toNat .ident 0

/-- A fill or scan ends: the tile is READY with the form it leaves, and vD is that form's code (R174, R176, R177). -/
def State.tileEnd (s : State) (job u e : Nat) (tids : List Nat) (dest : Nat) (sb : Option Nat) : State :=
  let f := ((s.block u).tile e).next.getD (.general, 0)
  let s := { s with jobs := tdel s.jobs job }
  let s := s.tileDone u e fun t => { t with form := f.1, cval := f.2, next := none }
  s.landAll u tids dest f.1.code sb

/-- TFILL_END (R174, R176). -/
def execTfillEnd (job : Nat) (s : State) : Out1 :=
  match tget s.jobs job with
  | some ⟨d, due, .fillEnd u e tids dest sb⟩ => event s (decide (due ≤ s.now d)) (s.tileEnd job u e tids dest sb)
  | _ => .next s

/-- TSCAN: the form is that of the bytes as they stand at issue, lowered by stores that follow (R172, R177). -/
def execTscan (r : RX) (s : State) : Out1 :=
  issue s (.tscan r) fun x =>
    let e := r.e.toNat
    x.acquired false <| x.once (fun _ => x.blk.emptyTrap e) (fun _ => x.blk.busyTile e) fun _ =>
      let t := x.blk.tile e
      let s := (x.s.setTile x.u e fun t => { t with st := .draining, next := some (t.classify x.blk.scratch) }).addJob x.die
        (x.now + ceilDiv t.size 512 + 4) (.scanEnd x.u e x.act r.d.toNat x.slot)
      x.sendAll s r.d.toNat

/-- TSCAN_END (R177). -/
def execTscanEnd (job : Nat) (s : State) : Out1 :=
  match tget s.jobs job with
  | some ⟨d, due, .scanEnd u e tids dest sb⟩ =>
    event s (decide (due ≤ s.now d)) (s.tileEnd job u e tids dest sb)
  | _ => .next s

/-- TQRY: the entry as it stands, in every executing member (R178). -/
def execTqry (r : RX) (s : State) : Out1 :=
  alu s (.tqry r) 1 fun x _ _ =>
    { regs := (x.blk.tile r.e.toNat).words.mapIdx fun i w => (r.d.toNat + i, w) }

/-- TFREE (R179); a tile that is EMPTY stays so (R170). -/
def execTfree (r : RX) (s : State) : Out1 :=
  issue s (.tfree r) fun x =>
    x.once (fun _ => none) (fun _ => x.blk.busyTile r.e.toNat) fun _ => x.s.setTile x.u r.e.toNat fun _ => {}

/-- TMARK.DEMOTE (R179). -/
def execTmarkDemote (r : RX) (s : State) : Out1 :=
  issue s (.tmarkDemote r) fun x =>
    x.once (fun _ => x.blk.emptyTrap r.e.toNat) (fun _ => x.blk.busyTile r.e.toNat) fun _ =>
      x.s.setTile x.u r.e.toNat fun t => { t with form := .general, cval := 0 }

/-- TMARK.RETYPE (R179). -/
def execTmarkRetype (r : RX) (s : State) : Out1 :=
  issue s (.tmarkRetype r) fun x =>
    let w := x.blk.fmt x.now r.fa.toNat
    x.once (fun _ => match x.blk.emptyTrap r.e.toNat with
        | some p => some p
        | none => if (fmtOf w).cont ≠ (x.blk.tile r.e.toNat).cont then some (1, 9, 0) else none)
      (fun _ => x.blk.busyTile r.e.toNat) fun _ =>
        x.s.setTile x.u r.e.toNat fun t => { t with form := .general, cval := 0, fmt := r.fa.toNat, fval := w }

end Sys2Proof.Machine
end

