-- ==== Sys2Proof/Machine/Engines.lean ====
section
/-! DEFINITION. The copy and gather engines, asynchronous copies and the range-lock table (R276-R302). -/

namespace Sys2Proof.Machine

/-! ## Parameter blocks (R280-R283) -/

def EngCmd.word (c : EngCmd) (off n : Nat) : Nat := leAt c.params off n
def EngCmd.addr0 (c : EngCmd) : Nat := c.word 0 8
def EngCmd.addr1 (c : EngCmd) : Nat := c.word 8 8
def EngCmd.iaddr (c : EngCmd) : Nat := c.word 0x10 4
def EngCmd.len (c : EngCmd) : Nat := c.word 0x14 4
def EngCmd.stride (c : EngCmd) : Int := sextN 32 (c.word 0x18 4)
def EngCmd.ctl (c : EngCmd) (lo len : Nat) : Nat := c.word 0x1C 4 / 2 ^ lo % 2 ^ len
def EngCmd.status (c : EngCmd) : Nat := c.word 0x20 8
def EngCmd.win (c : EngCmd) : Nat := c.word 0x28 1
def EngCmd.gran (c : EngCmd) : Nat := c.ctl 0 2
def EngCmd.dir (c : EngCmd) : Nat := c.ctl 2 2
def EngCmd.idxSize (c : EngCmd) : Nat := if c.ctl 4 1 = 1 then 8 else 4
def EngCmd.dpack (c : EngCmd) : Bool := c.ctl 5 1 == 1
def EngCmd.esz (c : EngCmd) : Nat := c.ctl 6 4 + 1
def EngCmd.oper (c : EngCmd) : Nat := c.ctl 10 4
def EngCmd.bar (c : EngCmd) : Nat := c.ctl 14 4
def EngCmd.barEn (c : EngCmd) : Bool := c.ctl 18 1 == 1
/-- The operator tag of a SCAT (R290). -/
def EngCmd.tag? (c : EngCmd) : Option Tag := (oper? c.oper).map fun o => { op := o, wide := c.esz == 8, win := BitVec.ofNat 8 c.win }
def EngCmd.gathers (c : EngCmd) : Bool := c.op == .gath || c.op == .gathTile
def EngCmd.scratch1 (c : EngCmd) : Bool := c.op == .gath || c.op == .scat
/-- Whether ADDR0 and ADDR1 of a BCOPY are scratchpad addresses (R282). -/
def EngCmd.srcPad (c : EngCmd) : Bool := c.op == .bcopy && decide (2 ≤ c.dir)
def EngCmd.dstPad (c : EngCmd) : Bool := c.op == .bcopy && c.dir % 2 == 1

/-- Lines of a tile, elements of a line, bits of an element in memory (R287). -/
def Tile.lines (t : Tile) : Nat := if t.layout = 0 then t.r else t.c
def Tile.perLine (t : Tile) : Nat := if t.layout = 0 then t.c else t.r
def EngCmd.elemBits (c : EngCmd) (t : Tile) : Nat := if c.dpack then 6 else t.cont
def EngCmd.lineBytes (c : EngCmd) (t : Tile) : Nat := ceilDiv (t.perLine * c.elemBits t) 8

/-- The sizes that R230 accepts for an operator. -/
def redSizes (o : Oper) : List Nat :=
  match o with
  | .addF32 | .addF16x2 | .addx | .minF | .maxF => [4]
  | .exch | .cas => []
  | _ => [4, 8]

/-- Fields that the command's kind does not use are zero, and reserved ones (R281-R283). -/
def EngCmd.unusedZero (c : EngCmd) : Bool :=
  c.ctl 19 13 == 0 && (c.params.drop 0x29).all (· == 0) &&
  match c.op with
  | .tcopy => c.addr1 == 0 && c.iaddr == 0 && c.len == 0 && c.win == 0 && c.oper == 0 && c.ctl 6 4 == 0 && c.ctl 4 1 == 0
  | .bcopy => c.iaddr == 0 && c.word 0x18 4 == 0 && c.win == 0 && c.oper == 0 && c.ctl 4 6 == 0 &&
      (!c.srcPad || decide (c.addr0 < 2 ^ 32)) && (!c.dstPad || decide (c.addr1 < 2 ^ 32))
  | .gath => c.gran == 0 && c.dir == 0 && !c.dpack && c.oper == 0 && c.win == 0 && decide (c.addr1 < 2 ^ 32)
  | .gathTile => c.gran == 0 && c.dir == 0 && !c.dpack && c.oper == 0 && c.win == 0 && c.addr1 == 0
  | .scat => c.gran == 0 && c.dir == 0 && !c.dpack && decide (c.addr1 < 2 ^ 32) && (c.oper == 4 || c.win == 0)

/-- A parameter-block breach (R283): subcode 9. -/
def EngCmd.breach (c : EngCmd) (b : Block) : Bool :=
  let t := b.tile c.tile
  !c.unusedZero || (c.barEn && decide (b.cfg.nblk ≤ c.bar)) ||
  match c.op with
  | .tcopy => decide (2 ≤ c.dir) || c.stride % 8 != 0 ||
      (c.dpack && ((fmtOf t.fval).width != 6 || t.perLine % 4 != 0))
  | .bcopy => decide (c.len < 8) || decide (2 ^ 30 < c.len) || c.len % 8 != 0
  | .gath | .gathTile => c.len == 0 || decide (65536 < c.len)
  | .scat => c.len == 0 || decide (65536 < c.len) || (c.oper != 0 && match oper? c.oper with
      | some o => !(redSizes o).contains c.esz
      | none => true)

/-- FEATSEL bits that OPER needs (R283). -/
def EngCmd.feats (c : EngCmd) : List Nat :=
  if c.op = .scat ∧ c.oper ≠ 0 then (if c.oper = 4 then [6, 7] else [6]) else []

/-- The first misaligned address field; the order among several is log 82 (R283). -/
def EngCmd.misaligned (c : EngCmd) : Option Nat :=
  if c.op = .tcopy ∧ c.addr0 % 8 ≠ 0 then some c.addr0
  else if c.op = .bcopy ∧ c.addr0 % 8 ≠ 0 then some c.addr0
  else if c.op = .bcopy ∧ c.addr1 % 8 ≠ 0 then some c.addr1
  else if c.iaddr % 8 ≠ 0 then some c.iaddr
  else if c.status % 16 ≠ 0 then some c.status
  else none

/-- Scratchpad spans of a command: address, bytes, and whether it writes them (R295). -/
def EngCmd.padSpans (c : EngCmd) : List (Nat × Nat × Bool) :=
  match c.op with
  | .tcopy => []
  | .bcopy => (if c.srcPad then [(c.addr0, c.len, false)] else []) ++ (if c.dstPad then [(c.addr1, c.len, true)] else [])
  | .gath => [(c.iaddr, c.len * c.idxSize, false), (c.addr1, c.len * c.esz, true)]
  | .gathTile => [(c.iaddr, c.len * c.idxSize, false)]
  | .scat => [(c.iaddr, c.len * c.idxSize, false), (c.addr1, c.len * c.esz, false)]

/-- The first scratchpad field that is out of range, IADDR before ADDR1 (R283, log 82). -/
def State.padRange (s : State) (c : EngCmd) : Option Nat :=
  (c.padSpans.find? fun p => (s.spad c.blk p.1 p.2.1).isNone).map (·.1)

/-- Source and destination of a BCOPY share a byte (R288). -/
def State.copyOverlap (s : State) (c : EngCmd) : Bool :=
  c.op == .bcopy &&
  match c.srcPad, c.dstPad with
  | false, false => decide (c.addr0 < c.addr1 + c.len) && decide (c.addr1 < c.addr0 + c.len)
  | true, true =>
    match s.spad c.blk c.addr0 c.len, s.spad c.blk c.addr1 c.len with
    | some (.chip d o), some (.chip d2 o2) => d == d2 && decide (o < o2 + c.len) && decide (o2 < o + c.len)
    | some p, some q =>
      match p.target c.blk, q.target c.blk with
      | some (b, o), some (b2, o2) => b == b2 && decide (o < o2 + c.len) && decide (o2 < o + c.len)
      | _, _ => false
    | _, _ => false
  | _, _ => false

/-! ## The range-lock table (R295, R296, R298) -/

/-- An entry for a scratchpad span, in units of 8 bytes. -/
def State.padLock (s : State) (u : Nat) (owner : Nat × Nat × Bool) (a n : Nat) (dest : Bool) : List RangeLock :=
  let e (core own o : Nat) : RangeLock :=
    { scratch := true, cid := 0, core := core, owner2 := own, first := o / 8, last := (o + n - 1) / 8, dest := dest, owner := owner }
  match s.spad u a n with
  | some (.chip d o) => [e 127 d o]
  | some (.win u2 o) => [e ((s.block u2).core % 96) u2 o]
  | some (.own o) => [e ((s.block u).core % 96) u o]
  | none => []

/-- An entry for a span of global memory, in lines; what lies outside the 57-bit space is cut off (log 103). -/
def State.memLock (s : State) (u : Nat) (owner : Nat × Nat × Bool) (lo hi : Int) (dest : Bool) : RangeLock :=
  { scratch := false, cid := (s.ctxOf u).cid, core := 0, first := (clampI 0 (2 ^ 57 - 1) lo / 128).toNat,
    last := (clampI 0 (2 ^ 57 - 1) hi / 128).toNat, dest := dest, owner := owner }

/-- The memory span of a TCOPY: its lowest and its highest byte (R295). -/
def EngCmd.tileSpan (c : EngCmd) (t : Tile) : Int × Int :=
  let a : Int := c.addr0
  let b := a + (t.lines - 1 : Nat) * c.stride
  (min a b, max a b + c.lineBytes t - 1)

/-- The entries that a command registers (R295). -/
def State.cmdLocks (s : State) (c : EngCmd) : List RangeLock :=
  let own := (c.blk, c.seq, false)
  let mems : List RangeLock := match c.op with
    | .tcopy => let p := c.tileSpan ((s.block c.blk).tile c.tile); [s.memLock c.blk own p.1 p.2 (c.dir == 1)]
    | .bcopy => (if c.srcPad then [] else [s.memLock c.blk own c.addr0 (c.addr0 + c.len - 1 : Nat) false]) ++
        (if c.dstPad then [] else [s.memLock c.blk own c.addr1 (c.addr1 + c.len - 1 : Nat) true])
    | _ => []
  mems ++ c.padSpans.flatMap fun p => s.padLock c.blk own p.1 p.2.1 p.2.2

/-- Two entries conflict (R296). -/
def RangeLock.clash (a b : RangeLock) : Bool :=
  a.scratch == b.scratch && a.cid == b.cid && a.core == b.core && a.owner2 == b.owner2 && decide (a.first ≤ b.last) &&
    decide (b.first ≤ a.last) && (a.dest || b.dest)

/-- What a registration meets: an older entry's owner to wait for, a full table, or room. -/
inductive Register where
  | clash (owner : Nat × Nat × Bool)
  | full
  | room

def State.tryRegister (s : State) (d : Nat) (ls : List RangeLock) : Register :=
  match (s.dm d).locks.find? fun k => ls.any k.clash with
  | some k => .clash k.owner
  | none => if 1024 < (s.dm d).locks.length + ls.length then .full else .room

def State.release (s : State) (d : Nat) (owner : Nat × Nat × Bool) : State :=
  s.setDm d fun m => { m with locks := m.locks.filter fun l => l.owner != owner }

/-- The supervisor trap of a full table: every member is held by one entry of kind 2 (R298, R368). The thread that the entry
names first is the lowest executing member (log 91). -/
def Iss.lockFull (x : Iss) (s : State) : State :=
  let s := (x.act.foldl (fun s t => (s.leave x.bid t).setThread x.u t fun h =>
    { h with base := x.base, index := BitVec.ofNat 4 x.index, gang := none }) s).tickDie x.die 0x4A none 1
  let p : Post := { s.threadPost x.u (x.act.headD 0) 2 x.word with tids := x.act }
  let (s, tok) := s.post x.die p
  x.act.foldl (fun s t => s.setThread x.u t fun h => { h with st := .waiting (.entry x.die tok), hdr := none }) s

/-! ## Issue of a cohort command (R278-R280) -/

/-- A die's engines and ACPs see what is performed on the die, and a block's own held writes, while they are held and while
its confirmation performs them (R242, R267, R273, R302). -/
def State.dieView (s : State) (d u line : Nat) : LineBytes :=
  s.heldView u line (s.seq + 1)
    (withHeld line (s.confirmHeld u) (lineOver (s.viewLine line) (((s.l2 d line).map (·.loc)).getD [])))

/-- Every member of the bundle executes, the clause gathers cohorts, and the whole live cohort is there (R278). -/
def Iss.cohortReady (x : Iss) : Bool :=
  hdrGather x.hdr == 2 && match x.members with
    | [] => false
    | t :: _ => (x.blk.liveCohort (x.blk.cohort t)).all x.act.contains

/-- The bundle parks with a state. -/
def Iss.parkAll (x : Iss) (s : State) (w : Option Wait) : Eff := .parkRest { x with s := s } fun _ => w

/-- A parameter block is read for the actor, or what stops it (R279, R280). -/
def Iss.params (x : Iss) (a : Nat) (k : State → List Byte → Eff) : Eff :=
  if a % 64 ≠ 0 then .go (x.trapAll 3 1 a) 2
  else match x.s.globalLock x.u a 64 false with
    | some n => .go (x.trapAll 4 n a) 2
    | none =>
      match x.s.translate x.die (x.s.ctxOf x.u) .load a with
      | (s, .outside) => .go ({ x with s := s }.trapAll 10 4 a) 2
      | (s, .protection) => .go ({ x with s := s }.trapAll 10 1 a) 2
      | (s, .demand n) =>
        let (s, w) := s.faultAttach x.die (s.ctxOf x.u) a n (x.faultPost s (x.act.headD 0))
        x.parkAll s (some w)
      | (s, .later line) => x.parkAll s (some (.stacks line))
      | (s, .ok pa _) =>
        if !s.canTouch pa 64 then x.parkAll s (some (.stacks (pa / 128)))
        else
          let s := s.settle (some x.die) pa 64
          let l := s.dieView x.die x.u (pa / 128)
          let s := if inHbm (pa / 128) then s else s.drawn.drawn
          k s ((List.range 64).map fun i => tgetD l (pa % 128 + i) 0)

/-- A location further on. -/
def Spad.plus (p : Spad) (k : Nat) : Spad :=
  match p with
  | .own o => .own (o + k)
  | .win u o => .win u (o + k)
  | .chip d o => .chip d (o + k)

/-- A cohort command enters its queue (step 7 of R279). -/
def Iss.enqueueCmd (x : Iss) (s : State) (d : Nat) (c : EngCmd) (ls : List RangeLock) : State :=
  let s := s.setDm x.die fun m => { m with locks := m.locks ++ ls }
  let idx := match s.spad x.u c.iaddr (c.len * c.idxSize) with
    | some p => (List.range c.len).map fun k => s.spGet x.u (p.plus (k * c.idxSize)) c.idxSize
    | none => []
  let s := match c.op with
    | .tcopy | .bcopy => s.setCore x.core fun k => { k with engq := k.engq ++ [{ c with mark := s.seq }] }
    | _ => s.setDm x.die fun m => { m with gathq := m.gathq ++ [{ c with indices := idx }] }
  let s := match c.op with
    | .tcopy => s.setTile x.u c.tile fun t => { t with st := if c.dir = 0 then .filling else .draining }
    | .gathTile => s.setTile x.u c.tile fun t => { t with st := .filling }
    | _ => s
  let s := s.setRun x.u fun r => { r with seq := c.seq }
  x.act.foldl (fun s t => s.setThread x.u t fun h =>
    h.put (x.i.kills x.oc) { regs := [(d, BitVec.ofNat 32 c.seq)] }) s

/-- Steps 3 to 7 of R279 for a command whose block is read. A command that may store to memory first confirms an unconfirmed
block, and then starts again from step 1 (R302). -/
def Iss.command (x : Iss) (d : Nat) (s : State) (c : EngCmd) : Eff :=
  let y := { x with s := s }
  let b := s.block x.u
  let tiled := c.op = .tcopy ∨ c.op = .gathTile
  let store := (c.op = .tcopy ∧ c.dir = 1) ∨ (c.op = .bcopy ∧ c.dir % 2 = 0)
  if store ∧ b.unconfirmed then x.parkAll (s.startConfirm x.u) (some .confirm)
  else if !s.featsOk c.feats then .go (y.trapAll 1 5 0) 2
  else if c.breach b || s.copyOverlap c then .go (y.trapAll 1 9 0) 2
  else match c.misaligned with
  | some a => .go (y.trapAll 3 1 a) 2
  | none =>
  match s.padRange c with
  | some a => .go (y.trapAll 3 2 a) 2
  | none =>
  if tiled ∧ (b.tile c.tile).st = .empty then .go (y.trapAll 5 4 (b.tile c.tile).base) 2
  else if tiled ∧ (b.tile c.tile).moving then x.parkAll s (some (.tile [c.tile]))
  else if c.op = .gathTile ∧ (b.tile c.tile).size < c.len * c.esz then .go (y.trapAll 1 9 0) 2
  else
    let q := if c.op = .tcopy ∨ c.op = .bcopy then 1 else 2
    if s.queueRoom x.core q = 0 then x.parkAll s (some (.queue q 1))
    else
      let ls := s.cmdLocks c
      match s.tryRegister x.die ls with
      | .clash (u, n, e) => x.parkAll s (some (.lock x.die u n e))
      | .full => .go (x.lockFull s) 2
      | .room => .go (x.enqueueCmd s d c ls) 2

/-- A cohort command (R278, R279). -/
def Iss.cohortCmd (x : Iss) (r : RX) (op : EngOp) : Eff :=
  if x.act = [] then .go x.s 2
  else if !x.cohortReady then .go (x.trapAll 6 5 0) 2
  else
    let go : Eff :=
      let late := x.undrained 3
      if late ≠ [] then x.drainPark late 3
      else
        let x := { x with s := x.drainEnd x.s x.act }
        let n := ((x.blk.run.seq) + 1) % 2 ^ 32
        x.params ((x.thr (x.act.headD 0)).rd64 r.a.toNat).toNat fun s l =>
          x.command r.d.toNat s { op := op, blk := x.u, seq := n, tids := x.act, params := l, tile := r.e.toNat }
    if op = .scat then x.confirmFirst go else go

/-- TCOPY (R287). -/
def execTcopy (r : RX) (s : State) : Out1 := issue s (.tcopy r) fun x => x.cohortCmd r .tcopy
/-- BCOPY (R288). -/
def execBcopy (r : RX) (s : State) : Out1 := issue s (.bcopy r) fun x => x.cohortCmd r .bcopy
/-- GATH (R289). -/
def execGath (r : RX) (s : State) : Out1 := issue s (.gath r) fun x => x.cohortCmd r .gath
/-- GATH.TILE (R289). -/
def execGathTile (r : RX) (s : State) : Out1 := issue s (.gathTile r) fun x => x.cohortCmd r .gathTile
/-- SCAT (R290). -/
def execScat (r : RX) (s : State) : Out1 := issue s (.scat r) fun x => x.cohortCmd r .scat

/-! ## ENGQ (R292) -/

/-- ENGQ.FREE (R292). -/
def execEngqFree (r : RX) (s : State) : Out1 :=
  alu s (.engqFree r) 1 fun x _ _ => { regs := [(r.d.toNat, BitVec.ofNat 32 (x.s.queueRoom x.core 1))] }
/-- ENGQ.LAST (R292). -/
def execEngqLast (r : RX) (s : State) : Out1 :=
  alu s (.engqLast r) 1 fun x _ _ => { regs := [(r.d.toNat, BitVec.ofNat 32 x.blk.run.seq)] }
/-- ENGQ.MARK (R284, R292). -/
def execEngqMark (r : RX) (s : State) : Out1 :=
  alu s (.engqMark r) 1 fun x _ _ => { regs := [(r.d.toNat, BitVec.ofNat 32 x.blk.run.mark)] }

/-! ## Engine accesses (R273, R299) -/

/-- Why a transfer stops: a line is busy, or a demand fault of the access under a key at a virtual address, of a read or of a
store. -/
inductive Stop where
  | busy
  | demand (key va kind : Nat) (store : Bool)

/-- Translation of one engine byte: its address, a fault code of R300, or a stop. -/
inductive EngX where
  | ok (pa : Nat)
  | bad (code : Nat)
  | stop (w : Stop)

/-- The address is behind a link that dropped under the command (R379). -/
def EngCmd.downAt (c : EngCmd) : Region → Bool
  | .cxl p => c.down.contains p
  | _ => false

/-- The key of a command's access at a place in command order: an element's number; one key for a copy's bytes. -/
def EngCmd.key (c : EngCmd) (place : Nat) : Nat := if c.op = .tcopy ∨ c.op = .bcopy then 0 else place
/-- The key of the status word. -/
def EngCmd.statusKey (c : EngCmd) : Nat := if c.op = .tcopy ∨ c.op = .bcopy then 1 else c.len

/-- Translation of one engine byte of the access under a key; the supervisor's answer that a page stays unresolved is for the
access that met the fault (R299). -/
def State.engX (s : State) (d : Nat) (c : EngCmd) (key : Nat) (a : Acc) (va : Nat) : State × EngX :=
  if c.bad.contains (key, va / 4096, a != .load) then (s, .bad 3)
  else match s.translate d (s.ctxOf c.blk) a va with
    | (s, .ok pa _) => (s, if c.downAt (s.region pa) then .bad 3 else .ok pa)
    | (s, .outside) => (s, .bad 4)
    | (s, .protection) => (s, .bad (if a = .load then 1 else 2))
    | (s, .demand k) => (s, .stop (.demand key va k (a != .load)))
    | (s, .later _) => (s, .stop .busy)

/-- A store of the die that passed its range check before a command registered its ranges, or a WRQ issued before, is not yet
performed (R273). -/
def State.storesBefore (s : State) (d line mark : Nat) : Bool :=
  (s.cores.any fun k => dieOf k.1 == d && k.2.fifo.any fun e =>
    e.line == line && e.kind != .fence && e.st != .applied && e.st != .performed && decide (e.seq < mark)) ||
  s.jobs.any fun e => match e.2.kind with
    | .wrq u _ _ data addr hdr q _ _ _ =>
      e.2.die == d && decide (q < mark) && (match s.wrqLines u d addr data.length hdr with
        | some l => l.contains line
        | none => false)
    | _ => false

/-- What a transfer has read: bytes in order, faults by place and code, and what has been read at its home: lines of the module,
by twice their number, and halves of other lines. -/
structure Got where
  s : State
  parts : List Nat := []
  bytes : List Byte := []
  faults : List (Nat × Nat) := []
  stop : Option Stop := none

/-- One byte is read; a fault reads 0 (R299). Reads and writes of engines count no hit or miss of a slice (log 108). -/
def Got.step (d : Nat) (c : EngCmd) (g : Got) (p : Nat × Nat) : Got :=
  if g.stop.isSome then g
  else match g.s.engX d c (c.key p.1) .load p.2 with
    | (s, .bad k) => { g with s := s, bytes := g.bytes ++ [0], faults := g.faults ++ [(p.1, k)] }
    | (s, .stop w) => { g with s := s, stop := some w }
    | (s, .ok pa) =>
      let line := pa / 128
      let part := if inHbm line then 2 * line else pa / 64
      if !g.parts.contains part && (!s.canTouch pa 1 || s.storesBefore d line c.mark) then { g with stop := some .busy }
      else
        let s := if g.parts.contains part then s else s.settleLine (some d) line [pa / 64 % 2]
        { g with s := s, parts := part :: g.parts, bytes := g.bytes ++ [tgetD (s.dieView d c.blk line) (pa % 128) 0] }

/-- A transfer reads the bytes at the listed places and virtual addresses. -/
def State.engRead (s : State) (d : Nat) (c : EngCmd) (l : List (Nat × Nat)) : Got :=
  let g := l.foldl (Got.step d c) { s := s }
  { g with s := g.s.drawn.drawn }

/-- Whether an engine of a die may write a line: nothing is under way on it, and no store of the die waits for its
grant (R267). -/
def State.engFree (s : State) (d line : Nat) : Bool :=
  s.canTouch (line * 128) 128 && (match s.l2 d line with
    | some l => l.loc == []
    | none => true)

/-- What a write finds: physical bytes, faults, or a stop. -/
structure Puts where
  s : State
  bytes : List (Nat × Byte) := []
  faults : List (Nat × Nat) := []
  stop : Option Stop := none

def Puts.step (d : Nat) (c : EngCmd) (a : Acc) (g : Puts) (p : Nat × Nat × Byte) : Puts :=
  if g.stop.isSome then g
  else match g.s.engX d c (c.key p.1) a p.2.1 with
    | (s, .bad k) => { g with s := s, faults := g.faults ++ [(p.1, k)] }
    | (s, .stop w) => { g with s := s, stop := some w }
    | (s, .ok pa) =>
      if !s.engFree d (pa / 128) then { g with stop := some .busy }
      else { g with s := s, bytes := g.bytes ++ [(pa, p.2.2)] }

/-- Bytes by line, a later byte standing over an earlier one. -/
def byLine (l : List (Nat × Byte)) : List (Nat × LineBytes) :=
  (dedupN (l.map fun e => e.1 / 128)).map fun k =>
    (k, (l.filter fun e => e.1 / 128 == k).foldl (fun r e => tset r (e.1 % 128) e.2) ([] : LineBytes))

/-- A transfer writes bytes; with a stop nothing is written. -/
def State.engWrite (s : State) (d : Nat) (c : EngCmd) (l : List (Nat × Nat × Byte)) : Puts :=
  let g := l.foldl (Puts.step d c .store) { s := s }
  if g.stop.isSome then g else { g with s := (byLine g.bytes).foldl (fun s e => s.putLine e.1 e.2) g.s }

/-- A fault of a command: the first in command order gives CODE and FIRST (R300). -/
def EngCmd.fail (c : EngCmd) (place code bytes : Nat) : EngCmd :=
  let c := { c with fbytes := c.fbytes + bytes }
  if c.code = 0 ∨ place < c.first then { c with code := code, first := place } else c
def EngCmd.fails (c : EngCmd) (l : List (Nat × Nat)) (bytes : Nat) : EngCmd := l.foldl (fun c p => c.fail p.1 p.2 bytes) c

/-- Faults with each place once: a byte that is zero-filled and then skipped counts once (R300). -/
def onePlace (l : List (Nat × Nat)) : List (Nat × Nat) := l.foldl (fun r p => if r.any (·.1 == p.1) then r else r ++ [p]) []

/-- Requests to homes outside the module since an earlier state are a command's. -/
def State.tagAway (s : State) (s0 : State) (who : Nat × Nat × Bool) : State :=
  { s with away := s.away.take s0.away.length ++ (s.away.drop s0.away.length).map fun a => { a with cmd := some who, seq := s.seq } }
/-- A command's writes at homes outside the module are not all performed (R203, R291). -/
def State.writesAway (s : State) (who : Nat × Nat × Bool) : Bool := s.away.any fun a => a.cmd == some who

/-- The die and list of a command: the queue of a core's copy engine, or of a die's gather engine. -/
def State.cmds (s : State) (gather : Bool) (unit : Nat) : List EngCmd :=
  if gather then (s.dm unit).gathq else (s.core unit).engq
def State.setCmds (s : State) (gather : Bool) (unit : Nat) (f : List EngCmd → List EngCmd) : State :=
  if gather then s.setDm unit fun m => { m with gathq := f m.gathq } else s.setCore unit fun c => { c with engq := f c.engq }
def State.putCmd (s : State) (gather : Bool) (unit : Nat) (c : EngCmd) : State :=
  s.setCmds gather unit fun l => l.map fun k => if k.blk = c.blk ∧ k.seq = c.seq then c else k
def unitDie (gather : Bool) (unit : Nat) : Nat := if gather then unit else dieOf unit

/-- An entry about an engine command (R368). -/
def State.engPost (s : State) (u : Nat) : Post :=
  { s.threadPost u 0 1 0 with tid := 0xFFFF, pos := 0, tids := [] }

/-- A demand fault stops a command until the supervisor has answered (R299). -/
def State.stopCmd (s : State) (gather : Bool) (unit : Nat) (c : EngCmd) (w : Stop) (s0 : State) : State :=
  match w with
  | .busy => s0
  | .demand key va k store =>
    let d := unitDie gather unit
    match s.faultAttach d (s.ctxOf c.blk) va k (s.engPost c.blk) with
    | (s, .fault d2 tok _ _) => s.putCmd gather unit { c with fault := some (d2, tok), stopKey := key, stores := store }
    | (s, _) => s

/-- A block's cluster is being saved (R371). -/
def State.saving (s : State) (u : Nat) : Bool := (tgetD s.clusters (s.block u).cfg.cluster {}).saving

/-- Commands start in queue order, at most 4 of a copy engine and 16 of a gather engine at once (R285). -/
def execEngineCommandStart (gather : Bool) (unit : Nat) (s : State) : Out1 :=
  let l := s.cmds gather unit
  match l.find? fun c => !c.active && (gather || !s.saving c.blk) with
  | some c =>
    event s (decide ((l.filter (·.active)).length < (if gather then 16 else 4)) && (gather || l.all (·.fault.isNone)))
      (s.putCmd gather unit { c with active := true, since := s.now (unitDie gather unit) })
  | none => .next s

/-! ## The copy engine (R287, R288, R291) -/

/-- Bytes of a command's destination. -/
def State.copyTotal (s : State) (c : EngCmd) : Nat :=
  match c.op with
  | .tcopy =>
    let t := (s.block c.blk).tile c.tile
    if c.dir = 0 then t.size else t.lines * c.lineBytes t
  | .bcopy => c.len
  | _ => c.len * c.esz

/-- Bits of destination after which a copy command may stop, none where it may not stop inside (R286). -/
def State.granule (s : State) (c : EngCmd) : Option Nat :=
  match c.gran with
  | 0 => none
  | 1 => match c.op with
    | .tcopy =>
      let t := (s.block c.blk).tile c.tile
      some (max 1 (if c.dir = 0 then t.perLine * t.cont else 8 * c.lineBytes t))
    | _ => some (8 * 128)
  | 2 => some (8 * 4096)
  | _ => some (8 * 1024)

/-- A command in progress stands at a boundary at which it may stop. -/
def State.atBoundary (s : State) (c : EngCmd) : Bool :=
  c.done == 0 || match s.granule c with
    | some g => c.done % g == 0
    | none => false

/-- A command of a block that is being saved goes no further (R286). -/
def State.halted (s : State) (c : EngCmd) : Bool := s.saving c.blk && s.atBoundary c

/-- Between two parts at a destination bit, no aligned 8-byte unit of a tile's memory is split (R273). -/
def EngCmd.cleanCut (c : EngCmd) (t : Tile) (p : Nat) : Bool :=
  c.op != .tcopy ||
    if c.dir = 0 then p % t.cont == 0 && p / t.cont % t.perLine * c.elemBits t % 64 == 0
    else p % 8 == 0 && p / 8 % c.lineBytes t % 8 == 0

/-- The first clean cut from a destination bit on, within `n` bits. -/
def EngCmd.cut (c : EngCmd) (t : Tile) : Nat → Nat → Nat
  | 0, p => p
  | n + 1, p => if c.cleanCut t p then p else c.cut t n (p + 1)

/-- The destination bit up to which a command's next part goes: where the next delivery falls due, or the end; in a block that
is being saved, the next boundary if that comes first (R286, R291). -/
def State.nextStop (s : State) (c : EngCmd) : Nat :=
  let total := 8 * s.copyTotal c
  let q := min total ((c.done / 16384 + 1) * 16384)
  let p := c.cut ((s.block c.blk).tile c.tile) (total - q) q
  match s.granule c with
  | some g => if s.saving c.blk then min p ((c.done / g + 1) * g) else p
  | none => p

/-- Virtual address of a byte of a TCOPY's memory, by its place in transfer order. -/
def EngCmd.tileVa (c : EngCmd) (t : Tile) (p : Nat) : Nat :=
  wrapN 64 ((c.addr0 : Int) + (p / c.lineBytes t : Nat) * c.stride + (p % c.lineBytes t : Nat))

/-- The value of a line's containers as the store writes them. -/
def EngCmd.lineOut (c : EngCmd) (t : Tile) (m : Mem) (l : Nat) : Nat :=
  (List.range t.perLine).foldl (fun v i =>
    v + contAt (fun b => mget m (t.base + b)) t.cont (l * t.perLine + i) % 2 ^ c.elemBits t * 2 ^ (i * c.elemBits t)) 0

/-- Write bytes at a location of the scratchpads. -/
def State.padWrite (s : State) (u : Nat) (p : Option Spad) (off : Nat) (l : List Byte) : State :=
  match p with
  | some p => s.spPut u (p.plus off) l
  | none => s
/-- Read bytes at a location of the scratchpads. -/
def State.padRead (s : State) (u : Nat) (p : Option Spad) (off n : Nat) : List Byte :=
  match p with
  | some (.own o) => mbytes (s.block u).scratch (o + off) n
  | some (.win u2 o) => mbytes (s.block u2).scratch (o + off) n
  | some (.chip d o) => mbytes (s.dm d).chip (o + off) n
  | none => []
/-- No pinned tile of the target shares a byte with the write (R193). -/
def State.padFree (s : State) (u : Nat) (p : Option Spad) (off n : Nat) : Bool :=
  match p with
  | some (.own o) => (s.pinnedAt u (.own (o + off)) n).2 == []
  | some (.win u2 o) => (s.pinnedAt u (.win u2 (o + off)) n).2 == []
  | _ => true

/-- A tile's bytes from bit `a` on, with `n` bits of its containers from element `k0` on given anew: first byte and bytes. -/
def Tile.bitsOver (t : Tile) (m : Mem) (a n k0 : Nat) (f : Nat → Nat) : Nat × List Byte :=
  let lo := a / 8
  let hi := ceilDiv (a + n) 8
  let old := leVal (mbytes m (t.base + lo) (hi - lo))
  let v := (List.range (n / t.cont)).foldl (fun v i => v + f (k0 + i) % 2 ^ t.cont * 2 ^ (a % 8 + t.cont * i)) 0
  (lo, leBytes (hi - lo) (andNot old ((2 ^ n - 1) * 2 ^ (a % 8)) + v))

/-- The next `n` destination bits of a copy move: the state with the command's progress, or why not. The bytes of a BCOPY beyond
2^64 lie outside the address space, and the addresses of a TCOPY are taken modulo 2^64 (log 103). -/
def State.copyMove (s : State) (core : Nat) (c : EngCmd) (n : Nat) : State × EngCmd × Option Stop :=
  let d := dieOf core
  let a := c.done / 8
  let m := n / 8
  let done (s : State) (wrote : Bool) (f : List (Nat × Nat)) : State × EngCmd × Option Stop :=
    (if wrote then s.progress c.blk else s, { c.fails (onePlace f) 1 with done := c.done + n, bad := [] }, none)
  if n = 0 then (s, c, none)
  else match c.op with
  | .tcopy =>
    let t := (s.block c.blk).tile c.tile
    if c.dir = 0 then
      let k0 := c.done / t.cont
      let k1 := (c.done + n) / t.cont
      let place (k : Nat) := k / t.perLine * c.lineBytes t * 8 + k % t.perLine * c.elemBits t
      let p0 := place k0 / 8
      let p1 := (place (k1 - 1) + c.elemBits t + 7) / 8
      let g := s.engRead d c ((List.range (p1 - p0)).map fun i => (p0 + i, c.tileVa t (p0 + i)))
      match g.stop with
      | some w => (g.s, c, some w)
      | none =>
        let v := leVal g.bytes
        let (o, l) := t.bitsOver (s.block c.blk).scratch c.done n k0 fun k => v / 2 ^ (place k - 8 * p0) % 2 ^ c.elemBits t
        if !s.padFree c.blk (some (.own t.base)) o l.length then (s, c, some .busy)
        else done (g.s.spWrite c.blk (t.base + o) l) true (g.faults.filter fun f => decide (place k0 ≤ 8 * f.1))
    else
      let sp := (s.block c.blk).scratch
      let byte (p : Nat) : Byte := BitVec.ofNat 8 (c.lineOut t sp (p / c.lineBytes t) / 2 ^ (8 * (p % c.lineBytes t)))
      let g := s.engWrite d c ((List.range m).map fun i => (a + i, c.tileVa t (a + i), byte (a + i)))
      match g.stop with
      | some w => (g.s, c, some w)
      | none => done g.s (g.bytes != []) g.faults
  | _ =>
    let src := s.spad c.blk c.addr0 c.len
    let dst := s.spad c.blk c.addr1 c.len
    let g : Got := if c.srcPad then { s := s, bytes := s.padRead c.blk src a m }
      else s.engRead d c ((List.range m).map fun i => (a + i, c.addr0 + a + i))
    match g.stop with
    | some w => (g.s, c, some w)
    | none =>
      if c.dstPad then
        if s.padFree c.blk dst a m then done (g.s.padWrite c.blk dst a g.bytes) true g.faults else (s, c, some .busy)
      else
        let p := g.s.engWrite d c (g.bytes.mapIdx fun i b => (a + i, c.addr1 + a + i, b))
        match p.stop with
        | some w => (p.s, c, some w)
        | none => done p.s (p.bytes != []) (g.faults ++ p.faults)

/-- The die cycle in which the copy engine has moved `n` further bits of a command, at 128 bytes per cycle (R285). -/
def State.moveEnd (s : State) (core : Nat) (c : EngCmd) (n : Nat) : Nat :=
  max (s.core core).engBusy c.since + (n + 1023) / 1024

/-- Bytes of the next delivery of a command: whole 2,048s that have been moved and not yet delivered (R291). -/
def EngCmd.due (c : EngCmd) : Nat := c.done / 16384 * 2048 - c.delivered

/-- The delivery that is due, once the bytes are written at their homes (R214, R273, R291). -/
def State.deliverCmd (s : State) (core : Nat) (c : EngCmd) : State :=
  if c.due = 0 ∨ s.writesAway (c.blk, c.seq, false) = true then s
  else
    let t := s.putCmd false core { c with delivered := c.delivered + c.due }
    if c.barEn then t.barUpdate c.blk 0 c.bar [] (-(c.due : Int)) else t

/-- COPY_ENGINE_DELIVERY: a command's next part is written, and each 2,048 bytes are delivered; the last part waits for
completion (R286, R291). -/
def execCopyEngineDelivery (core cmd : Nat) (s : State) : Out1 :=
  match (s.core core).engq[cmd]? with
  | some c =>
    let n := s.nextStop c - c.done
    if c.due ≠ 0 then .next (s.deliverCmd core c)
    else if c.active && (s.core core).engq.all (·.fault.isNone) && !s.halted c && decide (s.nextStop c < 8 * s.copyTotal c)
        && decide (s.moveEnd core c n ≤ s.now (dieOf core)) then
      match s.copyMove core c n with
      | (t, c2, none) =>
        let t := (t.tagAway s (c.blk, c.seq, false)).setCore core fun k => { k with engBusy := s.moveEnd core c n }
        .next ((t.putCmd false core c2).deliverCmd core c2)
      | (t, _, some w) => .next (t.stopCmd false core c w s)
    else .next s
  | none => .next s

/-! ## The gather engine (R289, R290) -/

/-- Address of element k (R289). -/
def EngCmd.elemVa (c : EngCmd) (k : Nat) : Nat := wrapN 64 ((c.addr0 : Int) + (c.indices.getD k 0 : Nat) * c.stride)

/-- The home of a physical address: a module die, the bridge's die, or 9 and the device's number (R289). -/
def State.homeNo (s : State) (pa : Nat) : Nat :=
  match s.region pa with
  | .hbm => stackDie (s.stackOf (pa / 128))
  | .cxl p => 2 * p + 1
  | .linked d _ => 9 + d
  | _ => 99

/-- The destination of a gather. -/
def State.gathDest (s : State) (c : EngCmd) : Option Spad :=
  if c.op = .gathTile then some (.own ((s.block c.blk).tile c.tile).base) else s.spad c.blk c.addr1 (c.len * c.esz)

/-- The access of an element: reads of GATH, writes of SCAT. -/
def EngCmd.acc (c : EngCmd) : Acc := if c.gathers then .load else .store

/-- A die takes a line into U under a tag, as the grant of a GetU does, with its first contributions (R246, R251). -/
def State.takeU (s : State) (d line : Nat) (t : Tag) (ops : List (Nat × Nat × Nat)) : State :=
  let h := s.homeOf line
  let join := h.st = .U ∧ h.tag = some t
  let s := s.countLookup line false h.st
  let s := if join then s else s.recallAll line
  let s := if h.st = .U ∧ !join then s.tickDie (stackDie (s.stackOf line)) 0x44 none 1 else s
  let s := s.setHome line fun h =>
    { h with st := .U, tag := some t, dies := h.dies ||| dieBit d, ver := if join then h.ver else h.ver + 1 }
  let s := if join then s else s.entersCache line
  (s.setL2 d line { st := some .U, tag := some t, ver := (s.homeOf line).ver, part := redAdd t [] ops }).fireDie d line true

/-- A reduction of element `k` takes its line into U under the tag, as a RED of the die would; outside the module it is
performed at the home. Nothing, where it must wait: for an entry of the directory cache, for a way of the slice, or for a
half of a host line that is being asked for (R233, R247, R250, R290, R291). -/
def State.redElem (s : State) (d pa k : Nat) (t : Tag) (v : Nat) : Option State :=
  let line := pa / 128
  let ops : List (Nat × Nat × Nat) := [(k, pa % 128 / t.size, v)]
  if inHbm line then
    match s.l2 d line with
    | some l =>
      if l.st = some .U ∧ l.tag = some t then some (s.setL2 d line { l with part := redAdd t l.part ops }) else take line ops
    | none => take line ops
  else if s.halvesAsked line (redOps t ops) || s.portDown line then none
  else some (s.atomsAway line none (redOps t ops))
where
  take (line : Nat) (ops : List (Nat × Nat × Nat)) : Option State :=
    let x := s.takeU d line t ops
    if s.cacheRoom line && x.sliceFits d line then some x else none

/-- Element `k` is served, with the physical bytes it has stored; pages that stayed unresolved for it count no more (R299). -/
def EngCmd.served (c : EngCmd) (k : Nat) (l : List Nat) : EngCmd :=
  { c with got := tset c.got k l, bad := c.bad.filter (·.1 != k) }

/-- One element is served: gathered into the destination, or stored or reduced in memory. -/
def State.serveElem (s : State) (d : Nat) (c : EngCmd) (k : Nat) : State × EngCmd × Option Stop :=
  let z := c.esz
  let va := c.elemVa k
  let place (i : Nat) := wrapN 64 ((va + i : Nat) : Int)
  if c.gathers then
    let g := s.engRead d c ((List.range z).map fun i => (k, place i))
    match g.stop with
    | some w => (g.s, c, some w)
    | none =>
      let l := if g.faults = [] then g.bytes else List.replicate z 0
      if !g.s.padFree c.blk (g.s.gathDest c) (k * z) z then (s, c, some .busy)
      else
        let c := match g.faults.head? with
          | some f => c.fail k f.2 z
          | none => c
        ((g.s.padWrite c.blk (g.s.gathDest c) (k * z) l).progress c.blk, c.served k [], none)
  else
    let data := s.padRead c.blk (s.spad c.blk c.addr1 (c.len * z)) (k * z) z
    match c.tag? with
    | some t =>
      if va % z ≠ 0 then (s, (c.fail k 5 z).served k [], none)
      else match s.engX d c k .store va with
        | (s, .bad n) => (s, (c.fail k n z).served k [], none)
        | (s, .stop w) => (s, c, some w)
        | (s, .ok pa) =>
          match if s.engFree d (pa / 128) then s.redElem d pa k t (leVal data) else none with
          | some s => (s.progress c.blk, c.served k [], none)
          | none => (s, c, some .busy)
    | none =>
      let covered (pa : Nat) := c.got.any fun j => decide (k < j.1) && j.2.contains pa
      let g := (data.mapIdx fun i b => (k, place i, b)).foldl (Puts.step d c .store) { s := s }
      match g.stop with
      | some w => (g.s, c, some w)
      | none =>
        match g.faults.head? with
        | some f => (g.s, (c.fail k f.2 z).served k [], none)
        | none =>
          let keep := g.bytes.filter fun e => !covered e.1
          (((byLine keep).foldl (fun s e => s.putLine e.1 e.2) g.s).progress c.blk, c.served k (keep.map (·.1)), none)

/-- Elements that are not served yet. -/
def EngCmd.left (c : EngCmd) : List Nat := (List.range c.len).filter fun k => (tget c.got k).isNone

/-- Elements are served in rising order until one stops. -/
def State.serveElems (s : State) (d : Nat) (c : EngCmd) : List Nat → State × EngCmd × Option Stop
  | [] => (s, c, none)
  | k :: r =>
    match s.serveElem d c k with
    | (s, c, none) => s.serveElems d c r
    | (s, c, some w) => (s, c, some w)

/-- Whether the home of an element is known: its page translates. -/
def State.elemAt (s : State) (die : Nat) (c : EngCmd) (k : Nat) : Option Nat :=
  match (s.engX die c k c.acc (c.elemVa k)).2 with
  | .ok pa => some (s.homeNo pa)
  | _ => none

/-- GATHER_GROUP: the home serves its group of a command's elements; the contributions of a reduction enter in ascending k, so
that its group goes as far as the first element of another home, or whose page is not there (R289, R290). -/
def execGatherGroup (die cmd home : Nat) (s : State) : Out1 :=
  match (s.dm die).gathq[cmd]? with
  | some c =>
    if c.active && c.fault.isNone then
      let here (k : Nat) := s.elemAt die c k == some home
      let ks := if c.tag?.isSome then c.left.takeWhile here else c.left.filter here
      let (t, c2, stop) := s.serveElems die c ks
      let t := (t.tagAway s (c.blk, c.seq, false)).putCmd true die c2
      .next (match stop with
        | some w => t.stopCmd true die c2 w t
        | none => t)
    else .next s
  | none => .next s

/-! ## Completion (R291, R300, R301) -/

/-- Number of a command's kind in ENGFAULT (R301). -/
def EngOp.kind : EngOp → Nat
  | .tcopy => 1 | .bcopy => 2 | .gath => 4 | .gathTile => 4 | .scat => 5

/-- A fault of a unit is recorded in its block (R301). -/
def State.engFault (s : State) (u kind code : Nat) : State :=
  let now := s.nowB u
  s.setBlock u fun b => { b with engfault := b.engfault.upd now fun w =>
    (engFaultUpd (w.setWidth 32) kind code).setWidth 64 }

/-- The mark rises over every number that has completed (R284). -/
def markUp : Nat → BlockRun → BlockRun
  | 0, r => r
  | n + 1, r =>
    let k := (r.mark + 1) % 2 ^ 32
    if r.doneCmds.contains k then markUp n { r with mark := k, doneCmds := r.doneCmds.filter (· != k) } else r

/-- The command fills a tile. -/
def EngCmd.fills (c : EngCmd) : Bool := (c.op == .tcopy && c.dir == 0) || c.op == .gathTile

/-- Step 2 of R291, once: the tile that a command has filled is classified. -/
def State.classifyCmd (s : State) (c : EngCmd) : State × EngCmd :=
  if c.fills && !c.classed then
    (s.setTile c.blk c.tile fun t =>
      { t with form := (t.classify (s.block c.blk).scratch).1, cval := (t.classify (s.block c.blk).scratch).2 },
     { c with classed := true })
  else (s, c)

/-- Steps 4 and 5 of R291: the locks and the signals of a command that has ended. -/
def State.cmdEnd (s : State) (gather : Bool) (unit : Nat) (c : EngCmd) (code : Nat) : State :=
  let d := unitDie gather unit
  let total := s.copyTotal c
  let s := s.setCmds gather unit fun l => l.filter fun k => !(k.blk == c.blk && k.seq == c.seq)
  let s := s.release d (c.blk, c.seq, false)
  let s := if c.op = .tcopy ∨ c.op = .gathTile then s.tileDone c.blk c.tile id else s
  let s := if c.barEn then s.barUpdate c.blk 0 c.bar [] (-((total - c.delivered : Nat) : Int)) else s
  let s := s.setRun c.blk fun r => markUp (r.doneCmds.length + 1) { r with doneCmds := r.doneCmds ++ [c.seq] }
  if code = 0 then s else s.engFault c.blk c.op.kind code

/-- The 16 bytes of the status word (R300). -/
def EngCmd.statusBytes (c : EngCmd) : List Byte :=
  leBytes 4 c.seq ++ leBytes 4 (c.code + (if c.code = 0 then 0 else 16)) ++ leBytes 4 c.fbytes ++ leBytes 4 c.first

/-- Steps 1 to 3 of R291, then the end: writes at homes outside the module are waited for, and the tile is classified. A fault
of the status word itself gives its code to ENGFAULT. -/
def State.cmdFinish (s : State) (gather : Bool) (unit : Nat) (c : EngCmd) : State :=
  let d := unitDie gather unit
  if s.writesAway (c.blk, c.seq, false) then s.putCmd gather unit c
  else
  let (s, c) := s.classifyCmd c
  if c.status = 0 then s.cmdEnd gather unit c c.code
  else match s.engX d c c.statusKey .store c.status with
    | (s, .bad k) => s.cmdEnd gather unit c k
    | (t, .stop w) => (t.putCmd gather unit c).stopCmd gather unit c w (s.putCmd gather unit c)
    | (s, .ok pa) =>
      if s.engFree d (pa / 128) then ((s.physPut pa c.statusBytes).progress c.blk).cmdEnd gather unit c c.code
      else s.putCmd gather unit c

/-- The copy engine may move the last part of a command. -/
def State.lastPart (s : State) (core : Nat) (c : EngCmd) : Bool :=
  (s.core core).engq.all (·.fault.isNone) && c.due == 0 && !s.halted c && decide (8 * s.copyTotal c ≤ s.nextStop c) &&
    decide (s.moveEnd core c (8 * s.copyTotal c - c.done) ≤ s.now (dieOf core))

/-- ENGINE_COMMAND_COMPLETE: the rest of the command's bytes move, then steps 1 to 5 of R291. -/
def execEngineCommandComplete (gather : Bool) (unit cmd : Nat) (s : State) : Out1 :=
  match (s.cmds gather unit)[cmd]? with
  | some c =>
    let d := unitDie gather unit
    if !c.active then .next s
    else if gather then
      if c.fault.isSome then .next s
      else if (if c.tag?.isSome then c.left.take 1 else c.left).any fun k => (s.elemAt d c k).isSome then .next s
      else match s.serveElems d c c.left with
        | (t, c2, none) => .next ((t.tagAway s (c.blk, c.seq, false)).cmdFinish true unit c2)
        | (t, c2, some w) =>
          let t := (t.tagAway s (c.blk, c.seq, false)).putCmd true unit c2
          .next (t.stopCmd true unit c2 w t)
    else if !s.lastPart unit c then .next s
    else match s.copyMove unit c (8 * s.copyTotal c - c.done) with
      | (t, c2, none) =>
        let t := (t.tagAway s (c.blk, c.seq, false)).setCore unit fun k =>
          { k with engBusy := s.moveEnd unit c (8 * s.copyTotal c - c.done) }
        .next ((t.putCmd false unit c2).cmdFinish false unit c2)
      | (t, _, some w) => .next (t.stopCmd false unit c w s)
  | none => .next s

/-! ## Per-thread asynchronous copies (R293, R294) -/

/-- The checks of an ACP in the order of R358. -/
def Iss.acpCheck (x : Iss) (s : State) (sp ga v : Nat) : Option (Nat × Nat × Nat) :=
  if sp % 32 ≠ 0 then some (3, 1, sp)
  else if x.blk.cfg.allot < sp + 32 then some (3, 2, sp)
  else if v ≠ 0 ∧ ga % 32 ≠ 0 then some (3, 1, ga)
  else match s.tileBusy x.u (.own sp) 32 true with
    | some k => some (5, k, sp)
    | none => match s.spadLock x.u (.own sp) 32 true with
      | some k => some (4, k, sp)
      | none => if v = 0 then none else (s.globalLock x.u ga v false).map fun k => (4, k, ga)

/-- ACP (R293). -/
def execAcp (r : RX) (s : State) : Out1 :=
  issue s (.acp r) fun x =>
    .go (x.act.foldl (fun s t =>
      let th := x.thr t
      let tag := r.e.toNat
      let sp := (th.rd r.d.toNat).toNat
      let ga := (th.rd64 r.a.toNat).toNat
      let v := min (th.rd r.b.toNat).toNat 32
      match x.acpCheck s sp ga v with
      | some (k, k2, a) => x.trap s t k k2 0 a
      | none =>
        if tgetD th.acp tag 0 = 63 then x.hold s t (.acp tag 62)
        else
          let s := s.setThread x.u t fun h =>
            { h.kills (x.i.kills x.oc) with acp := tset h.acp tag (tgetD h.acp tag 0 + 1) }
          let s := (s.addJob x.die (x.now + 1 + Config.latency s.draws) (.acp x.u t tag sp ga v s.seq none false)).drawn
          { s with seq := s.seq + 1 }) x.s) 1

/-- An ACP ends: 32 bytes are written, the count falls, a fault is recorded (R293, R301). -/
def State.acpEnd (s : State) (job u t tag sp : Nat) (l : List Byte) (code : Nat) : State :=
  let s := { s with jobs := tdel s.jobs job }
  let s := ((s.spWrite u sp l).progress u).setThread u t fun h => { h with acp := tset h.acp tag (tgetD h.acp tag 0 - 1) }
  if code = 0 then s else s.engFault u 3 code

/-- An earlier ACP of the thread under the tag completes first. -/
def State.acpFirst (s : State) (u t tag seq : Nat) : Bool :=
  s.jobs.all fun e => match e.2.kind with
    | .acp u2 t2 tag2 _ _ _ seq2 _ _ => !(u2 == u && t2 == t && tag2 == tag && decide (seq2 < seq))
    | _ => true

/-- The 32 bytes of an ACP that reads `v` bytes at a physical address. -/
def State.acpBytes (s : State) (d u pa v : Nat) : List Byte :=
  let b := s.dieView d u (pa / 128)
  (List.range 32).map fun i => if i < v then tgetD b (pa % 128 + i) 0 else 0

/-- ACP_COMPLETE: in its turn under its tag, an ACP reads and writes; its access waits for what a load of its thread would
wait for: earlier accesses of the thread to the line, earlier WRQs and acquires, and the order of the core's stores (R262,
R264). With no byte to read it cannot fault; a page that stays unresolved gives code 3 (R268, R293). -/
def execAcpComplete (job : Nat) (s : State) : Out1 :=
  match tget s.jobs job with
  | some ⟨d, due, .acp u t tag sp ga v seq fault bad⟩ =>
    let zero := List.replicate 32 (0 : Byte)
    if !(decide (due ≤ s.now d) && s.acpFirst u t tag seq && (s.pinnedAt u (.own sp) 32).2 == []) then .next s
    else if v = 0 then .next (s.acpEnd job u t tag sp zero 0)
    else if fault.isSome || (s.core (s.block u).core).acquiring u t seq then .next s
    else if bad then .next (s.acpEnd job u t tag sp zero 3)
    else match s.translate d (s.ctxOf u) .load ga with
      | (s, .outside) => .next (s.acpEnd job u t tag sp zero 4)
      | (s, .protection) => .next (s.acpEnd job u t tag sp zero 1)
      | (s, .later _) => .next s
      | (s, .demand k) =>
        match s.faultAttach d (s.ctxOf u) ga k { s.threadPost u t 1 0 with tids := [] } with
        | (s, .fault d2 tok _ _) =>
          .next { s with jobs := tset s.jobs job ⟨d, due, .acp u t tag sp ga v seq (some (d2, tok)) false⟩ }
        | (s, _) => .next s
      | (s, .ok pa _) =>
        let k := s.core (s.block u).core
        let mine := (k.entriesOf u t seq).all (·.line != pa / 128) && (k.loadsOf u t seq).all (·.line != pa / 128) &&
          !k.ahead (pa / 128) && !s.wrqBars u t seq (pa / 128)
        let t2 := (s.settle (some d) pa v).drawn.drawn
        event s (mine && s.canTouch pa v) (t2.acpEnd job u t tag sp (t2.acpBytes d u pa v) 0)
  | _ => .next s

/-- ACPWAIT (R294). -/
def execAcpwait (r : RI) (tag : BitVec 2) (s : State) : Out1 :=
  issue s (.acpwait r tag) fun x =>
    .go (x.act.foldl (fun s t =>
      if tgetD (x.thr t).acp tag.toNat 0 ≤ r.imm.toNat then s
      else x.wait s t (.acp tag.toNat r.imm.toNat)) x.s) 1

end Sys2Proof.Machine
end

