-- ==== Sys2Proof/Machine/Completion.lean ====
section
/-! DEFINITION. The end of blocks and launches, and another attempt of a discarded block (R327, R328, R341, R346, R369). -/

namespace Sys2Proof.Machine

/-! ## Ending by the supervisor (R369) -/

/-- Every live thread of a block exits as under R133; its DONE event will carry CODE 1. A discarded block that waits for
another attempt ends without a core. -/
def State.endBlock (s : State) (u : Nat) : State :=
  let s := { s with bundles := s.bundles.filter fun e => e.2.blk != u }
  let s := ((s.block u).threads.filter fun e => !e.2.exited).foldl (fun s e => s.exitThread u e.1) s
  let s := if (s.block u).run.preempted then s.dropSaved u else s
  s.setRun u fun r =>
    { r with endCode := 1, stopped := false, discarded := false, preempted := r.preempted || r.discarded }

/-- A launch is aborted: its blocks end, its records are freed, nothing more of it is placed, and it completes with
CODE 2 (R369). -/
def State.abortLaunch (s : State) (number reason : Nat) : State :=
  let us := (s.blocks.filter fun e => e.2.cfg.launch == number && !e.2.run.completed).map (·.1)
  let s := us.foldl State.endBlock s
  s.setLaunch number fun l =>
    { l with code := 2, reason := reason, records := [], deques := [], charge := 0, poolWait := [], poolCount := 0, ready := [],
             nextBid := l.nblk, nextSeed := l.nblk, back := [], fault := none, bad := false }

/-! ## Blocks that have ended (R327) -/

/-- Nothing of a block is under way: results, kept arrivals, accesses, engine and matrix work, saved commands that are still to
be resumed, and launches that it started. -/
def State.blockQuiet (s : State) (u : Nat) : Bool :=
  let b := s.block u
  let c := s.core b.core
  let x := tgetD s.clusters b.cfg.cluster {}
  b.arrivals == [] && x.cmds.all (·.blk != u) && x.epis.all (·.blk != u) && s.jobs.all (fun e => e.2.kind.block != u) && c.loads.all (·.blk != u) &&
    c.fifo.all (fun e => e.blk != u || e.st == .performed) && c.engq.all (·.blk != u) && c.mq.all (·.blk != u) &&
    c.epiq.all (·.blk != u) && ((s.dm (dieOf b.core)).gathq.all (·.blk != u)) &&
    s.launches.all (fun e => e.2.parent != some u || e.2.finished) && s.dmem.all fun e => e.2.devq.all fun q => q.2.1 != u

/-- The 16 bytes of the DONE event (R327). -/
def State.doneEvent (s : State) (u : Nat) : List Byte :=
  let b := s.block u
  let w := b.run.endCode % 16 + b.run.retries % 16 * 16 + b2n (b.engfault.val.getLsbD 31) * 256 +
    b.run.user.val.toNat % 256 * 65536
  leBytes 8 (s.tscAt (dieOf b.core)).toNat ++ leBytes 4 b.cfg.bid ++ leBytes 4 w

/-- The block has its event behind it; with the last of its cluster, the cluster's blocks are gone. -/
def State.blockDone (s : State) (u : Nat) : State :=
  let b := s.block u
  let s := s.setRun u fun r => { r with eventDue := none, evFault := none, evBad := false }
  let s := s.setLaunch b.cfg.launch fun l => { l with done := l.done + 1 }
  let us := (tgetD s.clusters b.cfg.cluster {}).blocks
  if us.all fun v => (s.block v).run.completed && (s.block v).run.eventDue == none then
    ({ s with blocks := s.blocks.filter fun e => !us.contains e.1, clusters := tdel s.clusters b.cfg.cluster } : State).setLaunch
      b.cfg.launch fun l => { l with back := l.back.filter (· != b.cfg.cluster) }
  else s

/-- A DONE event that cannot be written is lost: kind 10 from the block's core (R323). -/
def State.loseEvent (s : State) (u va : Nat) : State :=
  let b := s.block u
  let p : Post := { s.threadPost u 0 10 0 with tid := 0xFFFF, pos := 0, addr := va, tids := [] }
  ((s.post (dieOf b.core) p).1.setLaunch b.cfg.launch fun l => { l with evlost := true }).blockDone u

/-- The DONE event is written, waits on a demand fault, or is lost (R323, R327). -/
def State.writeEvent (s : State) (u : Nat) : State :=
  let b := s.block u
  let l := s.launch b.cfg.launch
  let d := dieOf b.core
  let va := l.evAddr + 16 * (b.cfg.bid % l.evCount)
  match b.run.eventDue with
  | none => s
  | some bytes =>
    if b.run.evFault.isSome then s
    else if b.run.evBad then s.loseEvent u va
    else match s.translate d l.ctx .store va with
      | (s2, .ok pa _) => if s.canTouch pa 16 then (s2.physPut pa bytes).blockDone u else s
      | (s2, .demand k) =>
        match s2.faultAttach d l.ctx va k { s.threadPost u 0 1 0 with tid := 0xFFFF, pos := 0, tids := [] } with
        | (s2, .fault d2 tok _ _) => s2.setRun u fun r => { r with evFault := some (d2, tok) }
        | (s2, _) => s2
      | (_, .later _) => s
      | (s2, _) => s2.loseEvent u va

/-- The block is complete: its records are consumed, its resources freed, its event due. -/
def State.completeBlock (s : State) (u : Nat) : State :=
  let b := s.block u
  let s := (s.dropRecords u).consume u
  let s := if b.run.preempted then s else s.stopCounters b.core b.resIdx
  let bytes := s.doneEvent u
  let s := (s.purgeBlock u).setLaunch b.cfg.launch fun l => { l with ended := l.ended + 1 }
  if (s.launch b.cfg.launch).evAddr = 0 then (s.setRun u fun r => { r with completed := true }).blockDone u
  else (s.setRun u fun r => { r with completed := true, eventDue := some bytes }).writeEvent u

/-- BLOCK_COMPLETE: a block whose threads have all exited is confirmed if it must be, waits for its work and its
stores, and is complete; or its DONE event is tried again (R327). -/
def execBlockComplete (u : Nat) (s : State) : Out1 :=
  let b := s.block u
  .next
    (if (tget s.blocks u).isNone || b.run.discarded || b.threads.any (fun e => !e.2.exited) then s
     else if b.run.completed then s.writeEvent u
     else if b.holding then s.startConfirm u
     else if b.run.confirming then s
     else match b.run.endMark with
       | none => s.setRun u fun r => { r with endMark := some s.seq }
       | some mark =>
         if s.blockQuiet u && s.dieApplied (dieOf b.core) mark && s.blockSettled (dieOf b.core) u mark then s.completeBlock u
         else s)

/-! ## Another attempt (R346) -/

/-- The next attempt of a block on a core: the same BID, records, window and depth, everything else as at a launch. -/
def State.retryOn (s : State) (u : Nat) (b : Block) (core : Nat) (f : Fit) : State :=
  let l := s.launch b.cfg.launch
  let v := s.mod.uids
  let x := Block.fresh l b.cfg core f (s.now (dieOf core)) { retries := b.run.retries, records := b.run.records }
  let owned (e : Nat × Record) : Nat × Record := if e.2.owner = u then (e.1, { e.2 with owner := v }) else e
  let hw := min l.ncb (8 - s.houseBars (houseOf core))
  let memb (e : Nat) := membersOf (l.mask 0x78 e % 16) b.cfg.b1 b.cfg.b2 b.cfg.b3 b.cfg.n
  let at_ := s.mod.orders
  let s := { s with mod := { s.mod with uids := v + 1, orders := at_ + 1 }, blocks := tset s.blocks v x }
  (s.setLaunch b.cfg.launch fun l => { l with records := l.records.map owned }).setCluster b.cfg.cluster fun c =>
    { c with blocks := c.blocks.map (fun k => if k = u then v else k), house := houseOf core, hw := hw, placedAt := at_,
             bars := (List.range l.ncb).map fun e => (e, newBar (memb e)) }

/-- BLOCK_RETRY: a discarded block starts again from its entry with the same records and a fresh allotment. -/
def execBlockRetry (u : Nat) (s : State) : Out1 :=
  let b := s.block u
  let s2 : State := { s with blocks := tdel s.blocks u }
  match s.retrySite b with
  | some (core, f) =>
    event s ((tget s.blocks u).isSome && b.run.discarded && s.mayPlace b.cfg.launch) (s2.retryOn u b core f)
  | none => .next s

/-! ## Launches that have ended (R328, R341) -/

/-- Nothing of a launch is left to run or to report but its own event (R328). -/
def Launch.isOver (l : Launch) : Bool :=
  l.st == .complete ||
    (l.st == .running && l.done == l.placed && !l.unplaced && l.seedsLeft == 0 && l.records == [])

/-- The 16 bytes of the launch completion event (R328). -/
def State.launchEvent (s : State) (number : Nat) (l : Launch) : List Byte :=
  leBytes 8 (s.tscAt 0).toNat ++ leBytes 4 number ++ leBytes 4 (l.code + 16 * l.reason + 4096 * b2n l.evlost)

/-- A launch is gone; with the last one, code may be rewritten without older words being fetched (R51). -/
def State.endLaunch (s : State) (number : Nat) : State :=
  let ls := tdel s.launches number
  { s with launches := ls, stale := if ls = [] then [] else s.stale }

/-- LAUNCH_COMPLETE (R328). -/
def execLaunchComplete (number : Nat) (s : State) : Out1 :=
  let l := s.launch number
  let lost (s : State) : State :=
    ((s.post 0 { dispPost 10 with launch := number, cid := l.ctx.cid, addr := l.levAddr }).1).endLaunch number
  .next
    (if (tget s.launches number).isNone || !l.isOver || l.fault.isSome then s
     else if l.levAddr = 0 then s.endLaunch number
     else if l.bad then lost s
     else match s.dispPages 0 l.ctx .store l.levAddr 16 with
       | (s2, .ok ps) =>
         if s.canTouchAll ps then (s2.writePieces ps (s2.launchEvent number l)).endLaunch number else s
       | (s2, .demand k va) => s2.launchFault number va k
       | (_, .wait) => s
       | (s2, .bad _) => lost s2)

/-- The records of a chunk of seeds, which are not charged to the pool (R332). -/
def State.seedRecords (s : State) (number node : Nat) : Nat → State × List Nat
  | 0 => (s, [])
  | n + 1 =>
    let id := tfresh (s.launch number).records
    let (s, ids) := (s.setLaunch number fun l =>
      { l with records := tset l.records id { node := node, st := .taken, size := 0 } }).seedRecords number node n
    (s, id :: ids)

/-- SEED_CHUNK: the next chunk of seed records becomes a block of the seed node (R338); an unreadable seed aborts the
launch with reason 7 (R323). -/
def execSeedChunk (number : Nat) (s : State) : Out1 :=
  let l := s.launch number
  if l.st = .running ∧ l.code = 0 ∧ l.bad ∧ l.seedsLeft ≠ 0 then
    .next ((s.abortLaunch number 7).setLaunch number fun l => { l with bad := false })
  else match s.seedSite l with
    | none => .next s
    | some (h, cores) =>
      if !(s.canDeal l && l.isGraph && l.back == [] && s.mayPlace number && s.onTurn number) then .next s
      else
        let n := s.chunkSize l
        let sz := (l.node l.seedNode).recBytes
        match s.dispRead l.ctx (l.seedAddr + l.nextSeed * sz) (n * sz) with
        | (_, .wait) => .next s
        | (s2, .demand k va) => .next (s2.launchFault number va k)
        | (s2, .bad _) => .next (s2.abortLaunch number 7)
        | (s2, .bytes b) =>
          let (s2, ids) := s2.seedRecords number l.seedNode n
          let s2 := s2.putGraph number l.seedNode h (cores.headD (0, ⟨0, 0, 0, 0⟩)) (chunksOf sz n b) 0 ids
          .next ((s2.setLaunch number fun l => { l with nextSeed := l.nextSeed + n, lastDie := dieOfHouse h }).dealt number)

end Sys2Proof.Machine
end

