-- ==== Sys2Proof/Machine/Traps.lean ====
section
/-! DEFINITION. TRAP, ERET, FRLD, FRST, HALT, INVVA and purges by range (R355, R363-R366). -/

namespace Sys2Proof.Machine

/-- TRAP: breakpoint, with the code in INFO (R365). -/
def execTrap (r : RI) (s : State) : Out1 :=
  issue s (.trap r) fun x => .go (x.act.foldl (fun s t => x.trap s t 9 0 r.imm) x.s) 1

/-- ERET of one thread (R363): the header at the frame's position is fetched for its COUNT. -/
def Iss.eret (x : Iss) (s : State) (t : Nat) : State :=
  let frame := x.blk.cfg.frameAddr
  let w := BitVec.ofNat 64 (mread (x.thr t).slice frame 8)
  let b := (fld w 0 57).toNat
  if fld w 0 3 ≠ 0 then x.trap s t 3 1 0 b
  else match s.fetch x.u b with
    | (s, .ok h) => s.setThread x.u t fun y => y.resume frame h
    | (s, .error (.demand k)) =>
      let (s, wt) := s.faultAttach x.die (s.ctxOf x.u) b k { s.threadPost x.u t 1 x.word with
        pos := x.index % 16 * 2 ^ 60 + x.base.toNat % 2 ^ 57 }
      x.hold s t wt
    | (s, .error (.later line)) => x.hold s t (.stacks line)
    | (s, .error .outside) => x.trap s t 10 4 0 b
    | (s, .error _) => x.trap s t 10 5 0 b

/-- ERET (R363). -/
def execEret (r : RR) (s : State) : Out1 := issue s (.eret r) fun x => .go (x.act.foldl x.eret x.s) 1

/-- FRLD: pair vD receives a doubleword of the frame (R364). -/
def execFrld (r : RR) (n : BitVec 4) (s : State) : Out1 :=
  aluV s (.frld r n) 1 fun x _ h =>
    { regs := pairW r.d.toNat (BitVec.ofNat 64 (mread h.slice (x.blk.cfg.frameAddr + 8 * n.toNat) 8)) }

/-- FRST: a doubleword of the frame receives pair vA (R364). -/
def execFrst (r : RR) (n : BitVec 4) (s : State) : Out1 :=
  issue s (.frst r n) fun x =>
    .go (x.killed (x.act.foldl (fun s t => s.setThread x.u t fun h =>
      { h with slice := mwrite h.slice (x.blk.cfg.frameAddr + 8 * n.toNat) 8 (h.rd64 r.a.toNat).toNat }) x.s)) 1

/-- HALT: a supervisor entry of kind 9 holds the thread (R366). -/
def execHalt (r : RR) (s : State) : Out1 :=
  issue s (.halt r) fun x => .go (x.act.foldl (fun s t => x.entry s t fun p => { p with kind := 9 }) x.s) 1

/-! ## Purges (R355) -/

/-- Whether an address of a context lies in `n` pages from `va`. -/
def inPages (va n lo len : Nat) : Bool := decide (va < lo + len) && decide (lo < va + 4096 * n)

/-- Accesses attached to a fault-table entry repeat their walks (R354): threads, engine and epilogue commands, the
dispatcher's reads and writes, DONE events, WRQs and asynchronous copies. -/
def State.repeatWalks (s : State) (d tok : Nat) : State :=
  let now (b : Block) := s.now (dieOf b.core)
  let free (c : EngCmd) : EngCmd := if c.fault = some (d, tok) then { c with fault := none } else c
  let freeE (c : EpiCmd) : EpiCmd := if c.fault = some (d, tok) then { c with fault := none } else c
  let wakeT (b : Block) (t : Thread) : Thread := match t.st with
    | .waiting (.fault d2 k2 _ _) => if d2 = d ∧ k2 = tok then t.wake (now b) else t
    | .waiting (.held d2 k2) => if d2 = d ∧ k2 = tok then t.wake (now b) else t
    | _ => t
  let queue (q : HostQueue) : HostQueue := if q.fault = some (d, tok) then { q with fault := none } else q
  let launch (l : Launch) : Launch := if l.fault = some (d, tok) then { l with fault := none } else l
  let event (r : BlockRun) : BlockRun := if r.evFault = some (d, tok) then { r with evFault := none } else r
  let job (j : Job) : Job := match j.kind with
    | .wrq u t a l g h n y k (some (d2, k2, w)) => if d2 = d ∧ k2 = tok then { j with kind := .wrq u t a l g h n y k none } else
        { j with kind := .wrq u t a l g h n y k (some (d2, k2, w)) }
    | .acp u t a p g n q (some (d2, k2)) b => { j with kind := .acp u t a p g n q (if d2 = d ∧ k2 = tok then none else some (d2, k2)) b }
    | _ => j
  { s with
    jobs := s.jobs.map fun (k, j) => (k, job j),
    blocks := s.blocks.map fun (u, b) =>
      (u, ({ b with run := event b.run } : Block).wakes fun _ t => wakeT b t),
    cores := s.cores.map fun (k, c) => (k, { c with engq := c.engq.map free, epiq := c.epiq.map freeE }),
    dmem := s.dmem.map fun (k, m) => (k, { m with gathq := m.gathq.map free }),
    launches := s.launches.map fun (k, l) => (k, launch l),
    mod := { s.mod with queues := s.mod.queues.map fun (k, q) => (k, queue q) } }

/-- A purge of `n` pages from a virtual address under a context identifier, on every die: translations, L1 lines, partials
too, and fault-table entries (R355). Held writes made under one of the translations, wherever in its page, are marked, as the
purge waits for them (R355, R356).
A load or prefetch under way fills no L1 under the old translation. -/
def State.purge (s : State) (va n cid : Nat) : State :=
  let old (t : Tlb) : Bool :=
    (t.cid == cid || t.entry.getLsbD 5) && inPages va n (t.vpage * 2 ^ t.pageBits) (2 ^ t.pageBits)
  let drop (m : DieMem) : DieMem := { m with tlb := m.tlb.filter (!old ·) }
  let gone (d c a : Nat) : Bool := (s.dm d).tlb.any fun t => old t && t.covers a c
  let s : State := { s with dmem := s.dmem.map fun (k, m) => (k, drop m) }
  let s := s.cores.foldl (fun s e =>
    let old (l : Load) : Bool := l.cid == cid && inPages va n (l.va / 128 * 128) 128
    ((e.2.l1.filter fun l => l.2.cid == cid && inPages va n (l.2.vline * 128) 128).foldl
      (fun s l => s.dropL1 (dieOf e.1) l.1 e.1) s).setCore e.1 fun c =>
        { c with loads := c.loads.map fun l => if old l then { l with alloc := false } else l, prefs := c.prefs.filter (!old ·) }) s
  let stale (d c : Nat) (h : Held) : Held :=
    { h with old := h.old || h.vas.any fun a => (c == cid && inPages va n a.2 1) || gone d c a.2 }
  let s : State := { s with blocks := s.blocks.map fun (u, b) =>
    (u, { b with run := { b.run with held := b.run.held.map (stale (dieOf b.core) (s.ctxOf u).cid) } }) }
  s.dmem.foldl (fun s e =>
    let gone (f : FaultEntry) : Bool := f.cid == cid && inPages va n (f.vpage * 4096) 4096
    let s := (e.2.faults.filter gone).foldl (fun s f => s.repeatWalks e.1 f.token) s
    s.setDm e.1 fun m => { m with faults := m.faults.filter (!gone ·) }) s

/-- INVVA: checks, the purge, and the wait for accesses made before it (R355). -/
def execInvva (r : RR) (s : State) : Out1 :=
  issue s (.invva r) fun x =>
    .go (x.act.foldl (fun s t =>
      let h := x.thr t
      let va := (h.rd64 r.a.toNat).toNat
      let n := (h.rd r.b.toNat).toNat
      let c := h.rd r.c.toNat
      if n = 0 ∨ fld c 16 16 ≠ 0 ∨ c.toNat ≠ (s.ctxOf x.u).cid then x.trap s t 1 10
      else if va % 4096 ≠ 0 then x.trap s t 3 1 0 va
      else
        let s := (s.setThread x.u t fun h => h.kills (x.i.kills x.oc)).purge va n c.toNat
        x.wait s t (.purge s.seq)) x.s) 1

end Sys2Proof.Machine
end

