-- ==== Sys2Proof/Machine/Supervisor.lean ====
section
/-! DEFINITION. Commands of the supervisor, and the watchdog (R354, R368-R370). -/

namespace Sys2Proof.Machine

/-! ## Open entries (R369) -/

def State.openEntry (s : State) (d tok : Nat) : Option SupEntry := (s.die d).entries.find? fun e => e.token == tok

/-- An entry closes; the watchdogs of the block that it names start again (R370). -/
def State.closeEntry (s : State) (d tok : Nat) (e : SupEntry) : State :=
  let s := s.setDie d fun x => { x with entries := x.entries.filter fun e => e.token != tok }
  { s with blocks := s.blocks.map fun (u, b) =>
      if b.cfg.launch = e.launch ∧ b.cfg.bid = e.bid then (u, { b with run := { b.run with wdog := 0 } }) else (u, b) }

/-- A command to a token: refused unless the entry is open, of a kind that takes it, and its operand is good (R369). -/
def State.command (s : State) (d tok : Nat) (kinds : List Nat) (ok : SupEntry → Bool) (closes : Bool)
    (act : State → SupEntry → State) : State :=
  match s.openEntry d tok with
  | some e =>
    if kinds.contains e.kind && ok e then
      if closes then (act s e).closeEntry d tok e else act s e
    else s.setDie d fun x => { x with cmderr := true }
  | none => s.setDie d fun x => { x with cmderr := true }

/-- The threads that an entry holds. -/
def State.heldBy (s : State) (d tok : Nat) (e : SupEntry) : List (Nat × Nat) :=
  match e.blk with
  | some u => (e.tids.filter fun t => (s.thread u t).st == .waiting (.entry d tok)).map fun t => (u, t)
  | none => []

/-! ## RESOLVED and UNRESOLVED (R354, R368) -/

/-- The fault-table entry of a token is freed. -/
def State.freeFault (s : State) (d tok : Nat) : State :=
  s.setDm d fun m => { m with faults := m.faults.filter fun f => f.token != tok }

def State.resolve (s : State) (d tok : Nat) : State := (s.freeFault d tok).repeatWalks d tok

/-- Blocks with an engine or epilogue command or an ACP that is attached to a fault. -/
def State.faultBlocks (s : State) (d tok : Nat) : List Nat :=
  let mine (c : EngCmd) : Option Nat := if c.fault = some (d, tok) then some c.blk else none
  let mineE (c : EpiCmd) : Option Nat := if c.fault = some (d, tok) then some c.blk else none
  let job (j : Job) : Option Nat := match j.kind with
    | .acp u _ _ _ _ _ _ fault _ => if fault = some (d, tok) then some u else none
    | _ => none
  dedupN (s.cores.flatMap (fun e => e.2.engq.filterMap mine ++ e.2.epiq.filterMap mineE) ++
    s.dmem.flatMap (fun e => e.2.gathq.filterMap mine) ++ s.jobs.filterMap fun e => job e.2)

/-- An asynchronous job whose fault stays unresolved: a WRQ ends with FAULT (R241); an ACP will write zeros when its turn
comes (R293). -/
def State.failJob (s : State) (d tok : Nat) (e : Nat × Job) : State :=
  match e.2.kind with
  | .acp u t tag sp ga n seq fault _ =>
    if fault = some (d, tok) then { s with jobs := tset s.jobs e.1 { e.2 with kind := .acp u t tag sp ga n seq none true } } else s
  | .wrq u t dest _ _ _ _ _ sb (some (d2, k2, whr)) =>
    if d2 = d ∧ k2 = tok then s.wrqEnd e.1 u t dest sb 2 whr else s
  | _ => s

/-- A thread whose own access stays unresolved takes memory fault, subcause 3 (R368); a header fault, which has no word, is at
index 0. -/
def State.failThread (s : State) (d tok u t : Nat) : State :=
  let h := s.thread u t
  match h.st with
  | .waiting (.fault d2 k2 addr word) =>
    if d2 = d ∧ k2 = tok then
      s.trapAt u t h.base (if h.hdr.isNone ∧ word = 0 then 0 else h.index.toNat) 10 3 0 word (BitVec.ofNat 64 addr)
    else s
  | _ => s

/-- Commands and the dispatcher's accesses that are attached to a fault take the unresolved path when they go on. -/
def State.markBad (s : State) (d tok vpage : Nat) : State :=
  let bad (c : EngCmd) : EngCmd := if c.fault = some (d, tok) then { c with bad := c.bad ++ [(c.stopKey, vpage, c.stores)] } else c
  let badE (c : EpiCmd) : EpiCmd := if c.fault = some (d, tok) then { c with bad := c.bad ++ [vpage] } else c
  let queue (q : HostQueue) : HostQueue := if q.fault = some (d, tok) then { q with bad := true } else q
  let launch (l : Launch) : Launch := if l.fault = some (d, tok) then { l with bad := true } else l
  let event (r : BlockRun) : BlockRun := if r.evFault = some (d, tok) then { r with evBad := true } else r
  { s with
    blocks := s.blocks.map fun (u, b) => (u, { b with run := event b.run }),
    cores := s.cores.map fun (k, c) => (k, { c with engq := c.engq.map bad, epiq := c.epiq.map badE }),
    dmem := s.dmem.map fun (k, m) => (k, { m with gathq := m.gathq.map bad }),
    launches := s.launches.map fun (k, l) => (k, launch l),
    mod := { s.mod with queues := s.mod.queues.map fun (k, q) => (k, queue q) } }

/-- Every attached access takes the unresolved path; for an unconfirmed block with attempts left this is a discarding
fault (R346, R368). -/
def State.unresolve (s : State) (d tok : Nat) : State :=
  match (s.dm d).faults.find? fun f => f.token == tok with
  | none => s
  | some f =>
    let s := (s.faultBlocks d tok).foldl (fun s u => if s.discards u 10 3 then s.discard u else s) s
    let s := (s.blocks.flatMap fun e => e.2.threads.map fun t => (e.1, t.1)).foldl
      (fun s p => s.failThread d tok p.1 p.2) s
    let s := s.jobs.foldl (fun s e => s.failJob d tok e) (s.markBad d tok f.vpage)
    s.resolve d tok

/-- RESOLVED: every attached access walks again (R369). -/
def State.cmdResolved (s : State) (d tok : Nat) : State :=
  s.command d tok [1] (fun _ => true) true fun s _ => s.resolve d tok
/-- UNRESOLVED (R369). -/
def State.cmdUnresolved (s : State) (d tok : Nat) : State :=
  s.command d tok [1] (fun _ => true) true fun s _ => s.unresolve d tok

/-! ## Commands about threads and blocks -/

/-- RETRY: the threads resume at the same index (R369). -/
def State.cmdRetry (s : State) (d tok : Nat) : State :=
  s.command d tok [2] (fun _ => true) true fun s e =>
    (s.heldBy d tok e).foldl (fun s p => s.wakeThread p.1 p.2 fun t => t.wake (s.nowB p.1)) s

/-- The thread stands after the instruction that its header's clause holds at its index, as ERET with SKIP (R363). -/
def Thread.skip (t : Thread) : Thread :=
  match t.hdr with
  | some h =>
    if t.index.toNat < hdrCount h then { t with index := t.index + 1 } else { t with base := fallThrough t.base h, index := 0 }
  | none => { t with index := t.index + 1 }

/-- NEXT: the thread resumes after the instruction (R369). -/
def State.cmdNext (s : State) (d tok : Nat) : State :=
  s.command d tok [4, 9] (fun _ => true) true fun s e =>
    (s.heldBy d tok e).foldl (fun s p => s.wakeThread p.1 p.2 fun t => t.skip.wake (s.nowB p.1)) s

/-- A register of the threads that the entry holds. -/
def State.regOk (s : State) (d tok reg : Nat) (e : SupEntry) : Bool :=
  (s.heldBy d tok e).all fun p => decide (reg < 255 ∧ reg < (s.thread p.1 p.2).limit)

/-- SETREG: the register receives the value and is live; the entry stays open (R369). -/
def State.cmdSetreg (s : State) (d tok reg : Nat) (v : DWord) : State :=
  s.command d tok [4, 9] (s.regOk d tok reg) false fun s e =>
    (s.heldBy d tok e).foldl (fun s p => s.setThread p.1 p.2 fun t => t.wr reg (v.setWidth 32)) s

/-- SETPRED (R369). -/
def State.cmdSetpred (s : State) (d tok reg : Nat) (v : DWord) : State :=
  s.command d tok [4, 9] (fun _ => decide (reg < 7)) false fun s e =>
    (s.heldBy d tok e).foldl (fun s p => s.setThread p.1 p.2 fun t => t.wrP reg (v.getLsbD 0)) s

/-- END: the block ends (R369). -/
def State.cmdEndBlock (s : State) (d tok : Nat) : State :=
  s.command d tok [6, 7, 8, 9] (fun _ => true) true fun s e => match e.blk with
    | some u => s.endBlock u
    | none => s

/-- GROW: the pool grows and waiting requests are served (R369). -/
def State.cmdGrow (s : State) (d tok : Nat) (v : DWord) : State :=
  s.command d tok [5]
    (fun e => v != 0 && v.toNat % 4096 == 0 && decide ((s.launch e.launch).poolSize + v.toNat ≤ 0xFFFFF000)) true
    fun s e => (s.setLaunch e.launch fun l => { l with poolSize := l.poolSize + v.toNat }).servePool e.launch

/-- ABORT: the launch ends (R369). -/
def State.cmdAbort (s : State) (d tok : Nat) : State :=
  s.command d tok [3, 5] (fun _ => true) true fun s e => s.abortLaunch e.launch 0

/-- RESUME: kind 6, the watchdog starts again; kind 7, the thread resumes (R369, R370). -/
def State.cmdResume (s : State) (d tok : Nat) : State :=
  s.command d tok [6, 7] (fun _ => true) true fun s e =>
    if e.kind = 6 then
      match e.blk with
      | some u => s.setRun u fun r => { r with stopped := false, wdog := 0 }
      | none => s
    else (s.heldBy d tok e).foldl (fun s p => s.resumeFrame p.1 p.2) s

/-- ACK: the entry closes (R369). -/
def State.cmdAck (s : State) (d tok : Nat) : State := s.command d tok [3, 10] (fun _ => true) true fun s _ => s

def execResolved (d tok : Nat) (s : State) : Out1 := .next (s.cmdResolved d tok)
def execUnresolved (d tok : Nat) (s : State) : Out1 := .next (s.cmdUnresolved d tok)
def execRetry (d tok : Nat) (s : State) : Out1 := .next (s.cmdRetry d tok)
def execNext (d tok : Nat) (s : State) : Out1 := .next (s.cmdNext d tok)
def execSetreg (d tok reg : Nat) (v : DWord) (s : State) : Out1 := .next (s.cmdSetreg d tok reg v)
def execSetpred (d tok reg : Nat) (v : DWord) (s : State) : Out1 := .next (s.cmdSetpred d tok reg v)
def execEndBlock (d tok : Nat) (s : State) : Out1 := .next (s.cmdEndBlock d tok)
def execGrow (d tok : Nat) (v : DWord) (s : State) : Out1 := .next (s.cmdGrow d tok v)
def execAbort (d tok : Nat) (s : State) : Out1 := .next (s.cmdAbort d tok)
def execResume (d tok : Nat) (s : State) : Out1 := .next (s.cmdResume d tok)
def execAck (d tok : Nat) (s : State) : Out1 := .next (s.cmdAck d tok)

/-- SUPERVISOR_POST_RETRY: units that found the ring full post again, each when its own time has come (R367). -/
def execSupervisorPostRetry (d : Nat) (s : State) : Out1 :=
  .next (((s.die d).postDue (s.now d)).foldl (fun s src => s.postTry d src) s)

/-! ## The watchdog (R370) -/

/-- WATCHDOG: the block stops issuing and posts kind 6; an unconfirmed block with attempts left is discarded. -/
def execWatchdog (u : Nat) (s : State) : Out1 :=
  let b := s.block u
  let d := dieOf b.core
  event s ((tget s.blocks u).isSome && !b.run.preempted && !b.run.discarded && !b.run.completed &&
      !b.run.stopped &&
      b.threads.any (fun e => !e.2.exited) && decide (2 ^ (s.die d).wdlog.toNat ≤ b.run.wdog))
    (if s.discards u 0 0 then s.discard u
     else ((s.setRun u fun r => { r with stopped := true }).post d
       { s.threadPost u 0 6 0 with tid := 0xFFFF, pos := 0, tids := [] }).1)

end Sys2Proof.Machine
end

