-- ==== Sys2Proof/Machine/LinkDown.lean ====
section
/-! DEFINITION. A CXL port whose link drops (R379). -/

namespace Sys2Proof.Machine

/-- Destinations of an access that will not return are no longer pending. -/
def Thread.unsend (t : Thread) (regs : List Nat) (sb : Option Nat) : Thread :=
  { t with pend := t.pend.filter (!regs.contains ·),
           sb := match sb with
             | some k => if regs = [] then t.sb else tset t.sb k (tgetD t.sb k 0 - 1)
             | none => t.sb }

/-- A thread stops whatever it does and takes memory fault, subcause 3, at the access (R354, R379). -/
def State.lateTrap (s : State) (u t : Nat) (p : Site) (va : Nat) : State :=
  if (s.thread u t).exited ∨ (s.block u).run.discarded then s
  else
    let s := (s.bundles.filter fun e => e.2.blk == u && e.2.members.any fun m => m.1 == t).foldl (fun s e => s.leave e.1 t) s
    let s := (s.dropPool u t).setBlock u fun b => { b with claims := b.claims.filter fun c => c.tid != t }
    s.trapAt u t p.base p.index.toNat 10 3 0 p.word (BitVec.ofNat 64 va)

/-- The line is behind a port. -/
def State.behind (s : State) (port line : Nat) : Bool := s.region (line * 128) == .cxl port

/-- A load waits for a half that the host has been asked for. -/
def State.loadOut (s : State) (port : Nat) (l : Load) : Bool :=
  l.value.isNone && s.behind port l.line && (s.hostHalf l.line (l.off / 64)).asked.isSome

/-- Halves that an entry touches. -/
def Entry.halves (e : Entry) : List Nat :=
  match e.kind with
  | .store parts _ => dedupN ((storeBytes parts).map (·.1 / 64))
  | .red t ops => dedupN (ops.map fun o => o.2.1 * t.size / 64)
  | .atoms ops => dedupN (ops.map (·.off / 64))
  | .fence => []

/-- An entry waits for a half that the host has been asked for, or for atomics that the host performs. -/
def State.entryOut (s : State) (port : Nat) (e : Entry) : Bool :=
  s.behind port e.line && (e.st == .sent || (e.st == .queued || e.st == .noted) &&
    e.halves.any fun k => (s.hostHalf e.line k).asked.isSome)

/-- The outstanding accesses of a core on a port end; their threads trap. -/
def State.dropOut (port : Nat) (s : State) (core : Nat) : State :=
  let ls := (s.core core).loads.filter (s.loadOut port)
  let es := (s.core core).fifo.filter (s.entryOut port)
  let s := s.setCore core fun c =>
    { c with loads := c.loads.filter (!ls.contains ·), fifo := c.fifo.filter (!es.contains ·) }
  let s := ls.foldl (fun s l => s.setThread l.blk l.tid fun t =>
    t.unsend ((List.range l.size.regs).map (l.dest + ·)) l.sb) s
  let s := es.foldl (fun s e => e.tids.foldl (fun s t => s.setThread e.blk t fun h => h.unsend e.regs e.sb) s) s
  let s := ls.foldl (fun s l => s.lateTrap l.blk l.tid l.site l.va) s
  es.foldl (fun s e => e.tids.foldl (fun s t => s.lateTrap e.blk t e.site (tgetD e.vas t 0)) s) s

/-- An asynchronous copy or WRQ on a port ends with its code (R241, R293). -/
def State.dropJob (port : Nat) (s : State) (e : Nat × Job) : State :=
  match e.2.kind with
  | .acp u t tag sp ga _ _ _ _ =>
    match (s.translate e.2.die (s.ctxOf u) .load ga).2 with
    | .ok pa _ =>
      if s.behind port (pa / 128) then
        if s.discards u 10 3 then s.discard u else s.acpEnd e.1 u t tag sp (List.replicate 32 0) 3
      else s
    | _ => s
  | .wrq u t dest data addr hdr _ _ sb _ =>
    match (s.wrqPages u e.2.die addr data.length hdr).2 with
    | .ok w =>
      match ([w.first, w.second, w.header] ++ w.desc.toList).findIdx? fun pa => s.behind port (pa / 128) with
      | some k => s.wrqEnd e.1 u t dest sb 2 k
      | none => s
    | .error _ => s
  | _ => s

/-- Halves that are being asked for on a port are given up. -/
def State.dropAsked (s : State) (port : Nat) : State :=
  let off (h : HostHalf) : HostHalf := { h with asked := none }
  { s with hostLines := s.hostLines.map fun (l, h) => if s.behind port l then (l, { a := off h.a, b := off h.b }) else (l, h) }

/-- Commands under way on any engine see the port as unresolved: code 3 (R299). -/
def State.markDown (s : State) (port : Nat) : State :=
  let m (c : EngCmd) : EngCmd := if c.active then { c with down := c.down ++ [port] } else c
  let e (c : EpiCmd) : EpiCmd := if c.out.isSome then { c with down := c.down ++ [port] } else c
  { s with
    cores := s.cores.map fun (k, c) => (k, { c with engq := c.engq.map m, epiq := c.epiq.map e }),
    dmem := s.dmem.map fun (k, x) => (k, { x with gathq := x.gathq.map m }) }

/-- What was asked of the host is given up; a contribution of a SCAT that the host has not performed counts as skipped with
code 3 (R290, R299, R379). -/
def State.dropAway (s : State) (port : Nat) : State :=
  let lost := s.away.filter fun a => s.behind port (a.pa / 128)
  let fail (c : EngCmd) : EngCmd :=
    (lost.filter fun a => a.cmd == some (c.blk, c.seq, false)).foldl (fun c a => c.fail a.tid 3 c.esz) c
  { s with
    away := s.away.filter fun a => !s.behind port (a.pa / 128)
    dmem := s.dmem.map fun (k, x) => (k, { x with gathq := x.gathq.map fail }) }

/-- The link of a port is down; in role 2 every access outstanding on it takes the unresolved path (R379). -/
def State.linkDown (s : State) (port : Nat) : State :=
  let s := s.setLink (2 * port + 1) fun x => { x with cxlup := false }
  if (s.link (2 * port + 1)).cxlrole ≠ 2 then s
  else
    let s := ((s.cores.map (·.1)).foldl (State.dropOut port) s).markDown port
    ((s.jobs.foldl (State.dropJob port) s).dropAsked port).dropAway port

end Sys2Proof.Machine
end

