-- ==== Sys2Proof/Machine/Shake.lean ====
section
/-! DEFINITION. SHAKE256 and the verification of SLH-DSA-SHAKE-256s, which R382 names by their standards (log 99). -/

namespace Sys2Proof.Machine

/-! ## SHAKE256 -/

/-- The rounds' constants of the permutation. -/
def keccakConstants : List DWord :=
  [0x0000000000000001, 0x0000000000008082, 0x800000000000808A, 0x8000000080008000, 0x000000000000808B,
   0x0000000080000001, 0x8000000080008081, 0x8000000000008009, 0x000000000000008A, 0x0000000000000088,
   0x0000000080008009, 0x000000008000000A] ++
  [0x000000008000808B, 0x800000000000008B, 0x8000000000008089, 0x8000000000008003, 0x8000000000008002,
   0x8000000000000080, 0x000000000000800A, 0x800000008000000A, 0x8000000080008081, 0x8000000000008080,
   0x0000000080000001, 0x8000000080008008]

/-- How far lane (x, y), at place x + 5y, is rotated. -/
def keccakTurns : List Nat :=
  [0, 1, 62, 28, 27, 36, 44, 6, 55, 20, 3, 10, 43, 25, 39, 41, 45, 15, 21, 8, 18, 2, 61, 56, 14]

/-- Lane (x, y) of the 25, coordinates modulo 5. -/
def lane (a : List DWord) (x y : Nat) : DWord := a.getD (x % 5 + 5 * (y % 5)) 0

/-- The 25 lanes by a function of their coordinates. -/
def lanes (f : Nat → Nat → DWord) : List DWord := (List.range 25).map fun i => f (i % 5) (i / 5)

/-- One round of the permutation. -/
def keccakRound (a : List DWord) (rc : DWord) : List DWord :=
  let c := (List.range 5).map fun x => (List.range 5).foldl (fun v y => v ^^^ lane a x y) 0
  let d (x : Nat) : DWord := c.getD ((x + 4) % 5) 0 ^^^ (c.getD ((x + 1) % 5) 0).rotateLeft 1
  let b := lanes fun x y =>
    let u := (x + 3 * y) % 5
    (lane a u x ^^^ d u).rotateLeft (keccakTurns.getD (u + 5 * x) 0)
  lanes fun x y => lane b x y ^^^ (~~~ lane b (x + 1) y &&& lane b (x + 2) y) ^^^ if x = 0 ∧ y = 0 then rc else 0

def keccak (a : List DWord) : List DWord := keccakConstants.foldl keccakRound a

/-- A block of 136 bytes is taken into the lanes. -/
def absorb (a : List DWord) (block : List Byte) : List DWord :=
  keccak ((List.range 25).map fun i => a.getD i 0 ^^^ BitVec.ofNat 64 (leAt block (8 * i) 8))

/-- The message with its padding, a whole number of blocks. -/
def shakePadded (l : List Byte) : List Byte :=
  let z := 135 - l.length % 136
  if z = 0 then l ++ [0x9F] else l ++ [0x1F] ++ List.replicate (z - 1) 0 ++ [0x80]

/-- Blocks of output, each followed by the permutation. -/
def squeeze : Nat → List DWord → List Byte
  | 0, _ => []
  | n + 1, a => (a.take 17).flatMap (fun v => leBytes 8 v.toNat) ++ squeeze n (keccak a)

/-- SHAKE256 of a byte string, taken to `n` bytes. -/
def shake256 (l : List Byte) (n : Nat) : List Byte :=
  let p := shakePadded l
  let a := (List.range (p.length / 136)).foldl (fun a k => absorb a ((p.drop (136 * k)).take 136)) (List.replicate 25 0)
  (squeeze (ceilDiv n 136) a).take n

/-! ## SLH-DSA-SHAKE-256s -/

/-- The big-endian bytes of a number, and back. -/
def beBytes (n v : Nat) : List Byte := (leBytes n v).reverse
def beVal (l : List Byte) : Nat := leVal l.reverse

/-- The 32-byte pieces of a list from an offset. -/
def pieces (l : List Byte) (off n : Nat) : List (List Byte) := (List.range n).map fun i => (l.drop (off + 32 * i)).take 32

/-- Where in the hypertree a hash stands: layer, tree, the kind of the hash and its three words. -/
structure SlhPlace where
  layer : Nat := 0
  tree : Nat := 0
  kind : Nat := 0
  w0 : Nat := 0
  w1 : Nat := 0
  w2 : Nat := 0
  deriving DecidableEq, Repr

/-- The tweakable hash of 32 bytes. -/
def slhHash (seed : List Byte) (p : SlhPlace) (m : List Byte) : List Byte :=
  shake256 (seed ++ beBytes 4 p.layer ++ beBytes 12 p.tree ++ beBytes 4 p.kind ++ beBytes 4 p.w0 ++ beBytes 4 p.w1 ++
    beBytes 4 p.w2 ++ m) 32

/-- `n` steps of a hash chain from step `i` on. -/
def slhChain (seed : List Byte) (p : SlhPlace) : Nat → Nat → List Byte → List Byte
  | 0, _, x => x
  | n + 1, i, x => slhChain seed p n (i + 1) (slhHash seed { p with w2 := i } x)

/-- The root above a node at an index, by its authentication path. -/
def slhClimb (seed : List Byte) (p : SlhPlace) : Nat → Nat → List Byte → List (List Byte) → List Byte
  | _, _, x, [] => x
  | level, i, x, a :: r =>
    slhClimb seed p (level + 1) (i / 2)
      (slhHash seed { p with w1 := level + 1, w2 := i / 2 } (if i % 2 = 0 then x ++ a else a ++ x)) r

/-- The digits of base 16 of 32 bytes, with those of their checksum. -/
def slhDigits (m : List Byte) : List Nat :=
  let ds := m.flatMap fun b => [b.toNat / 16, b.toNat % 16]
  let sum := (ds.map (15 - ·)).foldl (· + ·) 0
  ds ++ [sum / 256 % 16, sum / 16 % 16, sum % 16]

/-- The one-time key that a signature of 67 pieces gives for a message. -/
def slhOneTime (seed : List Byte) (p : SlhPlace) (sig : List (List Byte)) (m : List Byte) : List Byte :=
  let ds := slhDigits m
  let ends := (List.range 67).flatMap fun i =>
    slhChain seed { p with w1 := i } (15 - ds.getD i 0) (ds.getD i 0) (sig.getD i [])
  slhHash seed { p with kind := 1, w1 := 0, w2 := 0 } ends

/-- The root of one tree of the hypertree: 67 pieces of a one-time signature, then eight of its path. -/
def slhTree (seed : List Byte) (layer tree leaf : Nat) (sig : List (List Byte)) (m : List Byte) : List Byte :=
  let p : SlhPlace := { layer := layer, tree := tree }
  slhClimb seed { p with kind := 2 } 0 leaf (slhOneTime seed { p with w0 := leaf } sig m) (sig.drop 67)

/-- The key of the few-time signature: 22 trees of height 14. -/
def slhForest (seed : List Byte) (tree leaf : Nat) (digest : Nat) (sig : List (List Byte)) : List Byte :=
  let p : SlhPlace := { tree := tree, kind := 3, w0 := leaf }
  let roots := (List.range 22).flatMap fun i =>
    let s := (sig.drop (15 * i)).take 15
    slhClimb seed p 0 (2 ^ 14 * i + digest / 2 ^ (312 - 14 * (i + 1)) % 2 ^ 14) (slhHash seed { p with w2 :=
      2 ^ 14 * i + digest / 2 ^ (312 - 14 * (i + 1)) % 2 ^ 14 } (s.headD [])) (s.drop 1)
  slhHash seed { p with kind := 4 } roots

/-- The roots of the eight layers, from the lowest. -/
def slhLayers (seed : List Byte) : Nat → Nat → Nat → Nat → List Byte → List (List Byte) → List Byte
  | 0, _, _, _, m, _ => m
  | n + 1, layer, tree, leaf, m, sig =>
    slhLayers seed n (layer + 1) (tree / 256) (tree % 256) (slhTree seed layer tree leaf (sig.take 75) m) (sig.drop 75)

/-- Whether a signature of 29,792 bytes verifies for a key of 64 bytes and a message, with an empty context (R382). -/
def slhVerifies (key message sig : List Byte) : Bool :=
  let seed := key.take 32
  let r := sig.take 32
  let digest := shake256 (r ++ key ++ [0, 0] ++ message) 47
  let tree := beVal ((digest.drop 39).take 7)
  let leaf := beVal (digest.drop 46)
  let forest := slhForest seed tree leaf (beVal (digest.take 39)) (pieces sig 32 330)
  key.length == 64 && sig.length == 29792 && slhLayers seed 8 0 tree leaf forest (pieces sig 10592 600) == key.drop 32

end Sys2Proof.Machine
end

