-- ==== Sys2Proof/Machine/Boot.lean ====
section
/-! DEFINITION. Boot and attestation, management traffic, links that train or drop, and the power controller
(R377, R379-R383). -/

namespace Sys2Proof.Machine

/-! ## Boot and attestation (R382) -/

def State.setBoot (s : State) (b : Boot) : State := { s with mod := { s.mod with boot := b } }

/-- A measurement register is extended with the hash of an image, every output of 512 bits. -/
def State.extendMeas (s : State) (k : Nat) (image : List Byte) : State :=
  let v := shake256 (leBytes 64 (tgetD s.mod.meas k 0).toNat ++ shake256 image 64) 64
  { s with mod := { s.mod with meas := tset s.mod.meas k (BitVec.ofNat 512 (leVal v)) } }

/-- The three checks of an image, which carries a key of 64 bytes and a signature of 29,792. -/
def imageGood (key image signature : List Byte) (version : Word) : Bool :=
  leVal (shake256 key 32) == Config.fusedKeyHash && decide (Config.fusedMinVersion ≤ version.toNat) &&
    slhVerifies key image signature

/-- One step of the chain: the image is checked, measured and started, or boot stops. -/
def State.bootStep (s : State) (k : Nat) (next : Boot) (key image signature : List Byte) (version : Word) : State :=
  if imageGood key image signature version then (s.extendMeas k image).setBoot next else s.setBoot .stopped

/-- The module at power-on; the boot flash keeps what it holds, and the run's free numbers go on. -/
def State.powerOn (s : State) : State :=
  { State.reset with draws := s.draws, sched := s.sched, mod := { ({} : Module) with flash := s.mod.flash } }

/-- The boot flash holds a loader image: what an update leaves there is free but for what it was; without one, any image may have
been there from manufacture (R381, R382, log 58). -/
def State.inFlash (s : State) (key image signature : List Byte) (version : Word) : Bool :=
  s.mod.flash == [] || Config.flashHolds s.mod.flash key image signature version

/-- POWER_ON_BOOT: the ROM's step for the loader image of the boot flash, the loader's step for the supervisor; where the
chain has ended, power is cycled and the ROM's step follows (R382). -/
def execPowerOnBoot (key image signature : List Byte) (version : Word) (s : State) : Out1 :=
  let flash := s.inFlash key image signature version
  match s.mod.boot with
  | .loader => .next (s.bootStep 1 .supervisor key image signature version)
  | .rom => event s flash (s.bootStep 0 .loader key image signature version)
  | _ => event s flash (s.powerOn.bootStep 0 .loader key image signature version)

/-- M0 to M7 as bytes. -/
def State.measBytes (s : State) : List Byte := (List.range 8).flatMap fun k => leBytes 64 (tgetD s.mod.meas k 0).toNat

/-- Whether SPDM answers at a port: 4 is the management port, 0 to 3 are CXL ports in role 1. -/
def State.spdmAt (s : State) (port : Nat) : Bool :=
  s.mod.boot != .stopped && (port == 4 || (decide (port < 4) && (s.link (2 * port + 1)).cxlrole == 1))

/-- SPDM_GET_MEASUREMENTS: M0 to M7 and their signature (R382). -/
def execSpdmGetMeasurements (port : Nat) (s : State) : Out1 :=
  event s (s.spdmAt port)
    { s with out := s.out ++ [Out.mctp (8 + port) (s.measBytes ++ Config.slhDsaSign s.measBytes)] }

/-- The readings of PLDM type 2: PNOW and PCLK of each die, then the temperatures of the nine dies and sixteen stacks, which are
free (R381, log 58). -/
def State.readings (s : State) : List Byte :=
  ((List.range 9).flatMap fun d => leBytes 2 (s.die d).pnow.toNat ++ leBytes 2 (s.die d).pclk.toNat) ++
    (List.range 25).flatMap fun i => leBytes 2 (Config.temperature i s.draws)

/-- MCTP_PACKET: PLDM types 0, 2 and 5, and SPDM as kind 6; after a failed boot only PLDM types 0 and 5 (R381, R382). An update
of the firmware by type 5 goes to the boot flash (log 58). -/
def execMctpPacket (kind : Nat) (body : List Byte) (s : State) : Out1 :=
  let served := if s.mod.boot = .stopped then [0, 5] else [0, 2, 5, 6]
  event s (served.contains kind)
    { s with mod := if kind = 5 then { s.mod with flash := s.mod.flash ++ [body] } else s.mod
             out := s.out ++ [Out.mctp kind ((if kind = 2 then s.readings else []) ++
        Config.managementReply (256 * body.length + kind) s.draws)] }.drawn

/-! ## Links (R377, R379) -/

/-- CXL_LINK_TRAINED: the link of an edge die in a role. -/
def execCxlLinkTrained (die : Nat) (s : State) : Out1 :=
  event s ([1, 3, 5, 7].contains die && ((s.link die).cxlrole == 1 || (s.link die).cxlrole == 2))
    (s.setLink die fun x => { x with cxlup := true })

/-- WOFORT_PORT_TRAINED: an enabled port. -/
def execWofortPortTrained (port : Nat) (s : State) : Out1 :=
  let (d, j) := wofortPlace port
  event s (decide (port < 12) && tgetD (s.link d).wen j false) (s.setLink d fun x => { x with wup := tset x.wup j true })

/-- CXL_LINK_DOWN (R379). -/
def execCxlLinkDown (port : Nat) (s : State) : Out1 :=
  event s (decide (port < 4) && (s.link (2 * port + 1)).cxlup) (s.linkDown port)

/-! ## Power (R383) -/

/-- A controller's tick is due: every 1,000 TSC ticks. -/
def State.powerDue (s : State) : Bool := decide (s.tscAcc < 1000) && s.tsc.toNat % 1000 == 0 && s.tsc != 0

/-- The dies of a list with the greatest value. -/
def greatest (f : Nat → Nat) (l : List Nat) : List Nat := l.filter fun d => l.all fun e => decide (f e ≤ f d)

def State.setClock (s : State) (d : Nat) (f : Nat → Nat) : State :=
  s.setDie d fun x => { x with pclk := BitVec.ofNat 16 (f x.pclk.toNat) }

/-- POWER_CONTROL_TICK: PNOW of every die is renewed, at most 640 W, and the stacks draw at most 720 W (R19); above PLIM the
clock of the die that draws most of those above 400 MHz goes down one step, below 95 % of PLIM one die's clock goes up one
step. -/
def execPowerControlTick (s : State) : Out1 :=
  event s s.powerDue
    (let n := s.draws
     let watts (d : Nat) := Config.power (n + d) % 641
     let sum := ((List.range 9).map watts).foldl (· + ·) (Config.power (n + 9) % 721)
     let clock (d : Nat) := (s.die d).pclk.toNat
     let s := (List.range 9).foldl (fun s d => s.setDie d fun x => { x with pnow := BitVec.ofNat 16 (watts d) }) s
     let s := if s.mod.plim.toNat < sum then
         match pick (greatest watts ((List.range 9).filter fun d => decide (400 < clock d))) n with
         | some d => s.setClock d fun c => max 400 (c - 25)
         | none => s
       else if 100 * sum < 95 * s.mod.plim.toNat then
         match pick ((List.range 9).filter fun d => decide (clock d < 1050)) n with
         | some d => s.setClock d fun c => min 1050 (c + 25)
         | none => s
       else s
     { s with draws := n + 10 })

end Sys2Proof.Machine
end

