-- ==== Sys2Proof/Machine/Integer.lean ====
section
/-! DEFINITION. Integer arithmetic, logic, bit fields and comparison (R113-R120). -/

namespace Sys2Proof.Machine

/-- Width in bits of an integer type. -/
def IntTy.bits (t : IntTy) : Nat := if t.wide then 64 else 32
/-- Whether a type is signed (R96). -/
def IntTy.isSigned : IntTy → Bool
  | .s32 => true | .s64 => true | _ => false
/-- The exact integer of an operand (R113). -/
def intOf (t : IntTy) (x : Nat) : Int := if IntTy.isSigned t then sextN (IntTy.bits t) x else x
/-- The result bits of an exact value: wrapped, or saturated (R113). -/
def intRes (t : IntTy) (sat : Bool) (v : Int) : Nat :=
  wrapN (IntTy.bits t)
    (if sat then clampI (intLo (IntTy.isSigned t) (IntTy.bits t)) (intHi (IntTy.isSigned t) (IntTy.bits t)) v else v)
/-- Base issue cycles of the additive and comparing forms, and of the multiplying forms (R111). -/
def addCost (wide : Bool) : Nat := if wide then 2 else 1
def mulCost (wide : Bool) : Nat := if wide then 4 else 1

/-- A two-source integer operation. -/
def int2 (s : State) (i : Instr) (r : RR) (t : IntTy) (sat : Bool) (cost : Nat) (f : Int → Int → Int) : Out1 :=
  alu s i cost fun _ _ th =>
    { regs := resW t.wide r.d.toNat
        (intRes t sat (f (intOf t (th.rdN t.wide r.a.toNat)) (intOf t (th.rdN t.wide r.b.toNat)))) }

/-- IADD (R113). -/
def execIadd (r : RR) (t : IntTy) (sat : Bool) (s : State) : Out1 :=
  int2 s (.iadd r t sat) r t sat (addCost t.wide) fun a b => a + b
/-- ISUB (R113). -/
def execIsub (r : RR) (t : IntTy) (sat : Bool) (s : State) : Out1 :=
  int2 s (.isub r t sat) r t sat (addCost t.wide) fun a b => a - b
/-- IMUL (R113). -/
def execImul (r : RR) (t : IntTy) (sat : Bool) (s : State) : Out1 :=
  int2 s (.imul r t sat) r t sat (mulCost t.wide) fun a b => a * b
/-- IMULH: the upper half of the product, rounded down (R113). -/
def execImulh (r : RR) (t : IntTy) (s : State) : Out1 :=
  int2 s (.imulh r t) r t false (mulCost t.wide) fun a b => (a * b) / 2 ^ IntTy.bits t
/-- IMIN (R113). -/
def execImin (r : RR) (t : IntTy) (s : State) : Out1 :=
  int2 s (.imin r t) r t false (addCost t.wide) fun a b => if b < a then b else a
/-- IMAX (R113). -/
def execImax (r : RR) (t : IntTy) (s : State) : Out1 :=
  int2 s (.imax r t) r t false (addCost t.wide) fun a b => if a < b then b else a

/-- IMAD (R113). -/
def execImad (r : RR) (t : IntTy) (sat : Bool) (s : State) : Out1 :=
  alu s (.imad r t sat) (mulCost t.wide) fun _ _ th =>
    { regs := resW t.wide r.d.toNat
        (intRes t sat (intOf t (th.rdN t.wide r.a.toNat) * intOf t (th.rdN t.wide r.b.toNat) +
          intOf t (th.rdN t.wide r.c.toNat))) }

/-- IABS (R113). -/
def execIabs (r : RR) (wide sat : Bool) (s : State) : Out1 :=
  let t : IntTy := if wide then .s64 else .s32
  alu s (.iabs r wide sat) (addCost wide) fun _ _ th =>
    { regs := resW wide r.d.toNat (intRes t sat (intOf t (th.rdN wide r.a.toNat)).natAbs) }

/-! ## Shifts (R114, R115) -/

def shlVal (w a n : Nat) : Nat := if n < w then a * 2 ^ n % 2 ^ w else 0
def shrVal (w a n : Nat) : Nat := if n < w then a / 2 ^ n else 0
def sarVal (w a n : Nat) : Nat := wrapN w (sextN w a / 2 ^ (if n < w then n else w))

/-- A shift of one or two registers by register B. -/
def shiftOp (s : State) (i : Instr) (r : RR) (wide : Bool) (f : Nat → Nat → Nat → Nat) : Out1 :=
  alu s i (addCost wide) fun _ _ th =>
    { regs := resW wide r.d.toNat (f (if wide then 64 else 32) (th.rdN wide r.a.toNat) (th.rd r.b.toNat).toNat) }

/-- SHL (R115). -/
def execShl (r : RR) (wide : Bool) (s : State) : Out1 := shiftOp s (.shl r wide) r wide shlVal
/-- SHR (R115). -/
def execShr (r : RR) (wide : Bool) (s : State) : Out1 := shiftOp s (.shr r wide) r wide shrVal
/-- SAR (R115). -/
def execSar (r : RR) (wide : Bool) (s : State) : Out1 := shiftOp s (.sar r wide) r wide sarVal

/-! ## Logic (R114, R116) -/

/-- One 32-bit result from registers A and B. -/
def word2 (s : State) (i : Instr) (r : RR) (f : Word → Word → Word) : Out1 :=
  alu s i 1 fun _ _ th => { regs := [(r.d.toNat, f (th.rd r.a.toNat) (th.rd r.b.toNat))] }
/-- One 32-bit result from register A. -/
def word1 (s : State) (i : Instr) (r : RR) (f : Word → Word) : Out1 :=
  alu s i 1 fun _ _ th => { regs := [(r.d.toNat, f (th.rd r.a.toNat))] }
/-- One 32-bit result from register A and the immediate. -/
def wordImm (s : State) (i : Instr) (r : RI) (f : Word → Word → Word) : Out1 :=
  alu s i 1 fun _ _ th => { regs := [(r.d.toNat, f (th.rd r.a.toNat) r.imm)] }

/-- AND (R116). -/
def execAnd (r : RR) (s : State) : Out1 := word2 s (.and r) r fun a b => a &&& b
/-- OR (R116). -/
def execOr (r : RR) (s : State) : Out1 := word2 s (.or r) r fun a b => a ||| b
/-- XOR (R116). -/
def execXor (r : RR) (s : State) : Out1 := word2 s (.xor r) r fun a b => a ^^^ b

/-- LUT3 on three numbers of `n` bits (R116). -/
def lut3Val (tbl : BitVec 8) (n a b c : Nat) : Nat :=
  ofBits n fun i => tbl.getLsbD (4 * b2n (bitN a i) + 2 * b2n (bitN b i) + b2n (bitN c i))

/-- LUT3 (R116). -/
def execLut3 (r : RR) (tbl : BitVec 8) (s : State) : Out1 :=
  alu s (.lut3 r tbl) 1 fun _ _ th =>
    { regs := [(r.d.toNat, BitVec.ofNat 32
        (lut3Val tbl 32 (th.rd r.a.toNat).toNat (th.rd r.b.toNat).toNat (th.rd r.c.toNat).toNat))] }

/-- POPC (R117). -/
def execPopc (r : RR) (s : State) : Out1 := word1 s (.popc r) r fun a => BitVec.ofNat 32 (popN 32 a.toNat)
/-- CLZ (R117). -/
def execClz (r : RR) (s : State) : Out1 := word1 s (.clz r) r fun a => BitVec.ofNat 32 (clzN 32 a.toNat)
/-- BREV (R117). -/
def execBrev (r : RR) (s : State) : Out1 := word1 s (.brev r) r fun a => BitVec.ofNat 32 (revN 32 a.toNat)

/-! ## Bit fields (R118) -/

/-- pos and k of a control word. -/
def ctlPos (c : Word) : Nat := (fld c 0 8).toNat
def ctlLen (c : Word) : Nat := min (fld c 8 8).toNat 32

def bfxVal (signed : Bool) (a c : Word) : Word :=
  let e : Int := if signed then a.toInt else a.toNat
  let k := ctlLen c
  let f := ((e / 2 ^ ctlPos c) % 2 ^ k).toNat
  if k = 0 then 0 else if signed then BitVec.ofInt 32 (sextN k f) else BitVec.ofNat 32 f

def bfiVal (a b c : Word) : Word :=
  let mask := BitVec.ofNat 32 ((2 ^ ctlLen c - 1) * 2 ^ ctlPos c)
  (b &&& ~~~mask) ||| (BitVec.ofNat 32 (a.toNat * 2 ^ ctlPos c) &&& mask)

/-- BFX (R118). -/
def execBfx (r : RR) (signed : Bool) (s : State) : Out1 := word2 s (.bfx r signed) r (bfxVal signed)
/-- BFI (R118). -/
def execBfi (r : RR) (s : State) : Out1 :=
  alu s (.bfi r) 1 fun _ _ th =>
    { regs := [(r.d.toNat, bfiVal (th.rd r.a.toNat) (th.rd r.b.toNat) (th.rd r.c.toNat))] }

/-- LEA (R119). -/
def execLea (r : RR) (sh : BitVec 3) (s : State) : Out1 :=
  alu s (.lea r sh) 2 fun _ _ th =>
    { regs := pairW r.d.toNat (th.rd64 r.a.toNat + BitVec.ofNat 64 ((th.rd r.b.toNat).toNat * 2 ^ sh.toNat)) }

/-- Integer comparison (R120). -/
def intCmp (c : Cmp) (a b : Int) : Bool :=
  match c with
  | .eq => decide (a = b)
  | .ne => decide (a ≠ b)
  | .lt => decide (a < b)
  | .le => decide (a ≤ b)
  | .gt => decide (b < a)
  | .ge => decide (b ≤ a)
  | .ord => true
  | .unord => false

/-- ICMP (R120). -/
def execIcmp (r : RR) (c : Cmp) (t : IntTy) (s : State) : Out1 :=
  alu s (.icmp r c t) (addCost t.wide) fun _ _ th =>
    { preds := [(r.d.toNat, intCmp c (intOf t (th.rdN t.wide r.a.toNat)) (intOf t (th.rdN t.wide r.b.toNat)) &&
        th.rdP r.c.toNat)] }

/-! ## Immediate forms (R114) -/

/-- IADD with immediate. -/
def execIaddImm (r : RI) (s : State) : Out1 := wordImm s (.iaddImm r) r fun a i => a + i
/-- AND with immediate. -/
def execAndImm (r : RI) (s : State) : Out1 := wordImm s (.andImm r) r fun a i => a &&& i
/-- OR with immediate. -/
def execOrImm (r : RI) (s : State) : Out1 := wordImm s (.orImm r) r fun a i => a ||| i
/-- XOR with immediate. -/
def execXorImm (r : RI) (s : State) : Out1 := wordImm s (.xorImm r) r fun a i => a ^^^ i
/-- SHL with immediate. -/
def execShlImm (r : RI) (s : State) : Out1 :=
  wordImm s (.shlImm r) r fun a i => BitVec.ofNat 32 (shlVal 32 a.toNat i.toNat)
/-- SHR with immediate. -/
def execShrImm (r : RI) (s : State) : Out1 :=
  wordImm s (.shrImm r) r fun a i => BitVec.ofNat 32 (shrVal 32 a.toNat i.toNat)
/-- SAR with immediate. -/
def execSarImm (r : RI) (s : State) : Out1 :=
  wordImm s (.sarImm r) r fun a i => BitVec.ofNat 32 (sarVal 32 a.toNat i.toNat)

end Sys2Proof.Machine
end

