-- ==== Sys2Proof/Machine/Quant.lean ====
section
/-! DEFINITION. Block scales and quantisation (R107-R109). -/

namespace Sys2Proof.Machine

/-- The value of a block scale (R107): E8M0 in 8 bits, E8M2 in 10 bits; padding is ignored. -/
def scaleVal (e8m2 : Bool) (x : Nat) : FVal :=
  if e8m2 then
    let e := x / 4 % 256
    if e = 255 then .nan else .fin false (4 + x % 4) (e - 129)
  else
    let e := x % 256
    if e = 255 then .nan else .fin false 1 (e - 127)

/-- The largest finite value of an element format as mantissa and exponent (R109); MXINT8 elements carry 2^-6. -/
def Fmt.maxVal (f : Fmt) : Nat × Int :=
  if f.intm then (127, -6)
  else match f.value f.maxCode with
    | .fin _ m e => (m, e)
    | _ => (0, 0)

/-- Compare of non-negative values m × 2^e. -/
def geVal (m1 : Nat) (e1 : Int) (m2 : Nat) (e2 : Int) : Bool :=
  if e2 ≤ e1 then decide (m2 ≤ m1 * 2 ^ (e1 - e2).toNat) else decide (m2 * 2 ^ (e2 - e1).toNat ≤ m1)

/-- The magnitude of a value as mantissa and exponent. -/
def FVal.mag : FVal → Nat × Int
  | .fin _ m e => (m, e)
  | _ => (0, 0)

/-- amax of R109. -/
def amaxOf (vs : List FVal) : Nat × Int :=
  vs.foldl (fun a v => if geVal v.mag.1 v.mag.2 a.1 a.2 then v.mag else a) (0, 0)

/-- The scale of R109 for a nonzero amax. -/
def scaleOf (f : Fmt) (e8m2 : Bool) (m : Nat) (e : Int) : Nat :=
  let (mm, me) := f.maxVal
  if e8m2 then
    ((List.range 0x3FC).find? fun c => geVal ((4 + c % 4) * mm) ((c / 4 : Nat) - 129 + me) m e).getD 0x3FB
  else
    let s : Int := ((log2 m : Nat) + e) - ((log2 mm : Nat) + me)
    (clampI (-127) 127 s + 127).toNat

/-- RNE(v / X) in the element format, saturated to ±M (R109); X is n × 2^k. An element saturates when |v| exceeds M X. -/
def quantElem (f : Fmt) (v : FVal) (n : Nat) (k : Int) : Conv :=
  match v with
  | .fin neg m e =>
    let q := m * 2 ^ 64 / n
    let over_ := !geVal (n * f.maxVal.1) (k + f.maxVal.2) m e
    let r : FVal := .sticky neg q (e - k - 64) (decide (m * 2 ^ 64 % n = 0))
    if f.intm then
      match r with
      | .fin ng mm ee =>
        let i := roundMag .rne ng mm (ee + 6)
        let c := min i 127
        ⟨wrapN f.width (if ng then -(c : Int) else c), false, over_⟩
      | _ => ⟨0, false, false⟩
    else { { f with ovf := false }.convert .rne (if m = 0 then .fin neg 0 0 else r) with ovf := over_ }
  | _ => ⟨0, false, false⟩

/-- A scale and elements derived from values (R109): the scale, the elements with their saturation, and whether the
scale is NaN. -/
def quantise (f : Fmt) (e8m2 : Bool) (vs : List FVal) : Nat × List Conv × Bool :=
  if vs.any fun v => match v with
      | .fin _ _ _ => false
      | _ => true then
    (if e8m2 then 0x3FC else 0xFF, vs.map fun _ => ⟨if f.intm ∨ f.spec = 2 then 0 else f.nanCode, false, false⟩, true)
  else
    let (m, e) := amaxOf vs
    if m = 0 then (0, vs.map fun v => ⟨if f.intm then 0 else f.signed v.neg 0, false, false⟩, false)
    else
      let x := scaleOf f e8m2 m e
      match scaleVal e8m2 x with
      | .fin _ n k => (x, vs.map fun v => quantElem f v n k, false)
      | _ => (x, [], false)

end Sys2Proof.Machine
end

