-- ==== Sys2Proof/Machine/Cohort.lean ====
section
/-! DEFINITION. Cohort operations, block quantisation and selection (R143-R158). -/

namespace Sys2Proof.Machine

/-! ## Participants (R143, R144) -/

/-- A cohort instruction outside a cohort-gathering clause raises partial mask in each executing member (R143). -/
def Iss.cohortOnly (x : Iss) (cost : Nat) (f : Iss → Eff) : Eff :=
  if hdrGather x.hdr ≠ 2 then .go (x.act.foldl (fun s t => x.trap s t 6 1) x.s) cost else f x

/-- Participating positions, rising, with their threads. -/
def Iss.parts (x : Iss) : List (Nat × Nat) := x.act.map fun t => (x.blk.cohPos t, t)
def Iss.partOf (x : Iss) (p : Nat) : Option Nat := (x.parts.find? fun e => e.1 == p).map (·.2)
def Iss.w (x : Iss) : Nat := x.blk.cfg.w

/-- One result per participant, of fixed latency; all reads precede all writes (R8, R145). -/
def Iss.each (x : Iss) (cost : Nat) (f : Nat → Thread → Res) : Eff :=
  .go (x.act.foldl (fun s t => s.setThread x.u t fun h => h.put (x.i.kills x.oc) (f t (x.thr t))) x.s) cost

/-- One result per participant, of variable latency, written within 64 cycles (R145). -/
def Iss.eachV (x : Iss) (cost : Nat) (f : Nat → List (Nat × Word)) : Eff :=
  .go (x.act.foldl (fun s t => x.send s t (x.i.kills x.oc) (f t) [] 64) x.s) cost

/-! ## Shuffle, vote and match (R148-R150) -/

/-- Source position of a shuffle; none outside the integers from 0. -/
def shflFrom (m : ShflMode) (p b : Nat) : Option Nat :=
  match m with
  | .idx => some b
  | .up => if b ≤ p then some (p - b) else none
  | .down => some (p + b)
  | .xor => some (p ^^^ b)

/-- SHFL (R148). -/
def execShfl (r : RR) (m : ShflMode) (s : State) : Out1 :=
  issue s (.shfl r m) fun x => x.cohortOnly 1 fun x => x.each 1 fun t th =>
    let from_ := (shflFrom m (x.blk.cohPos t) (th.rd r.b.toNat).toNat).bind x.partOf
    { regs := [(r.d.toNat, ((from_.map x.thr).getD th).rd r.a.toNat)] }

/-- VOTE.ALL (R149). -/
def execVoteAll (r : RR) (s : State) : Out1 :=
  issue s (.voteAll r) fun x => x.cohortOnly 1 fun x => x.each 1 fun _ _ =>
    { preds := [(r.d.toNat, x.act.all fun t => (x.thr t).rdP r.a.toNat)] }
/-- VOTE.ANY (R149). -/
def execVoteAny (r : RR) (s : State) : Out1 :=
  issue s (.voteAny r) fun x => x.cohortOnly 1 fun x => x.each 1 fun _ _ =>
    { preds := [(r.d.toNat, x.act.any fun t => (x.thr t).rdP r.a.toNat)] }
/-- VOTE.BALLOT (R149). -/
def execVoteBallot (r : RR) (s : State) : Out1 :=
  issue s (.voteBallot r) fun x => x.cohortOnly 1 fun x => x.each 1 fun _ _ =>
    { regs := resW x.oc.w64 r.d.toNat
        (maskOf ((x.parts.filter fun e => (x.thr e.2).rdP r.a.toNat).map (·.1))) }
/-- VOTE.EQ (R149). -/
def execVoteEq (r : RR) (s : State) : Out1 :=
  issue s (.voteEq r) fun x => x.cohortOnly 1 fun x => x.each 1 fun _ th =>
    { preds := [(r.d.toNat, x.act.all fun t => (x.thr t).rd r.a.toNat == th.rd r.a.toNat)] }

/-- MATCH (R150). -/
def execMatchBits (r : RR) (wide : Bool) (s : State) : Out1 :=
  issue s (.matchBits r wide) fun x => x.cohortOnly (if wide then 2 else 1) fun x => x.each (if wide then 2 else 1) fun _ th =>
    { regs := resW x.oc.w64 r.d.toNat
        (maskOf ((x.parts.filter fun e => (x.thr e.2).rdN wide r.a.toNat == th.rdN wide r.a.toNat).map (·.1))) }

/-! ## The fixed tree, reductions and scans (R146, R151) -/

def optOp {α : Type} (op : α → α → α) : Option α → Option α → Option α
  | none, b => b
  | a, none => a
  | some a, some b => some (op a b)

/-- One level of the tree. -/
def treeLevel {α : Type} (op : α → α → α) : List (Option α) → List (Option α)
  | a :: b :: r => optOp op a b :: treeLevel op r
  | l => l

/-- TREE over 2^n positions (R146). -/
def tree {α : Type} (op : α → α → α) : Nat → List (Option α) → Option α
  | 0, l => l.headD none
  | n + 1, l => tree op n (treeLevel op l)

/-- The operator of a reduction (R151). -/
def redVal (op : RedOp) (t : RedTy) (a b : Nat) : Nat :=
  match t with
  | .int i =>
    let x := intOf i a
    let y := intOf i b
    match op with
    | .min => if y < x then b else a
    | .max => if x < y then b else a
    | _ => intRes i false (x + y)
  | .f32 => match op with
    | .min => fMinMax f32 false a b
    | .max => fMinMax f32 true a b
    | _ => fAdd f32 .rne a b
  | .b32 => match op with
    | .and => a &&& b
    | .or => a ||| b
    | _ => a ^^^ b

/-- The identity for the empty exclusive prefix (R151). -/
def redIdent (op : RedOp) (t : RedTy) : Nat :=
  match t, op with
  | .int i, .min => wrapN (IntTy.bits i) (intHi (IntTy.isSigned i) (IntTy.bits i))
  | .int i, .max => wrapN (IntTy.bits i) (intLo (IntTy.isSigned i) (IntTy.bits i))
  | .f32, .min => 0x7F800000
  | .f32, .max => 0xFF800000
  | .b32, .and => 0xFFFFFFFF
  | _, _ => 0

/-- TREE over the participants in [lo, hi) of a cohort (R146, R151). -/
def Iss.treeOf (x : Iss) (op : RedOp) (t : RedTy) (a lo hi : Nat) : Nat :=
  (tree (redVal op t) (log2 x.w) ((List.range x.w).map fun q =>
    if lo ≤ q ∧ q < hi then (x.partOf q).map fun th => (x.thr th).rdN t.wide a else none)).getD (redIdent op t)

/-- Start of a participant's segment, and the position after its end (R151). -/
def Iss.segStart (x : Iss) (pc p : Nat) : Nat :=
  ((x.parts.filter fun e => decide (e.1 ≤ p) && (x.thr e.2).rdP pc).map (·.1)).foldl max 0
def Iss.segEnd (x : Iss) (pc p : Nat) : Nat :=
  ((x.parts.filter fun e => decide (p < e.1) && (x.thr e.2).rdP pc).map (·.1)).foldl min x.w

def redCost (t : RedTy) : Nat := if t.wide then 4 else 2

/-- CRED (R151). -/
def execCred (r : RR) (op : RedOp) (t : RedTy) (s : State) : Out1 :=
  issue s (.cred r op t) fun x => x.cohortOnly (redCost t) fun x => x.each (redCost t) fun _ _ =>
    { regs := resW t.wide r.d.toNat (x.treeOf op t r.a.toNat 0 x.w) }
/-- CSCAN (R151). -/
def execCscan (r : RR) (op : RedOp) (t : RedTy) (excl : Bool) (s : State) : Out1 :=
  issue s (.cscan r op t excl) fun x => x.cohortOnly (redCost t) fun x => x.each (redCost t) fun tid _ =>
    { regs := resW t.wide r.d.toNat
        (x.treeOf op t r.a.toNat 0 (if excl then x.blk.cohPos tid else x.blk.cohPos tid + 1)) }
/-- SEGRED (R151). -/
def execSegred (r : RR) (op : RedOp) (t : RedTy) (s : State) : Out1 :=
  issue s (.segred r op t) fun x => x.cohortOnly (redCost t) fun x => x.each (redCost t) fun tid _ =>
    let p := x.blk.cohPos tid
    { regs := resW t.wide r.d.toNat
        (x.treeOf op t r.a.toNat (x.segStart r.c.toNat p) (x.segEnd r.c.toNat p)) }
/-- SEGSCAN (R151). -/
def execSegscan (r : RR) (op : RedOp) (t : RedTy) (excl : Bool) (s : State) : Out1 :=
  issue s (.segscan r op t excl) fun x => x.cohortOnly (redCost t) fun x => x.each (redCost t) fun tid _ =>
    let p := x.blk.cohPos tid
    { regs := resW t.wide r.d.toNat
        (x.treeOf op t r.a.toNat (x.segStart r.c.toNat p) (if excl then p else p + 1)) }

/-! ## Block quantisation (R152) -/

/-- BQNT (R152). -/
def execBqnt (r : RX) (s : State) : Out1 :=
  issue s (.bqnt r) fun x => x.cohortOnly 2 fun x =>
    let f := fmtOf (x.blk.fmt x.now r.fa.toNat)
    x.each 2 fun tid _ =>
      let q := x.blk.cohPos tid / 32
      let ms := x.act.filter fun t => x.blk.cohPos t / 32 == q
      let (sc, es, nan) := quantise f (r.flags.getLsbD 0) (ms.map fun t => f32.value ((x.thr t).rd r.a.toNat).toNat)
      let e := ((ms.zip es).find? fun m => m.1 == tid).map (·.2)
      let e := e.getD ⟨0, false, false⟩
      { regs := pairW r.d.toNat (pairVal (BitVec.ofNat 32 e.code) (BitVec.ofNat 32 sc)), flags := convFlags nan e.ovf }

/-! ## Selection (R153-R158) -/

/-- Selection needs every position of the cohort (R153). -/
def Iss.wholeCohort (x : Iss) (cost : Nat) (f : Iss → Eff) : Eff :=
  x.cohortOnly cost fun x =>
    if x.act.length ≠ x.w then .go (x.act.foldl (fun s t => x.trap s t 6 2) x.s) cost else f x

/-- A register of the thread at position 0. -/
def Iss.uniform (x : Iss) (r : Nat) : Nat := (((x.partOf 0).map fun t => (x.thr t).rd r).getD poison).toNat
def Iss.at (x : Iss) (p : Nat) : Thread := ((x.partOf p).map x.thr).getD {}

/-- The key control of R154: the bucket of a counted key. -/
def bucketOf (c key : Nat) : Option Nat :=
  let k := c % 4
  if key ≠ 0 ∧ key / 2 ^ (8 * (k + 1)) = c / 2 ^ (8 * (k + 1)) then some (key / 2 ^ (8 * k) % 256) else none

/-- The histogram in the runs of a cohort (R155). -/
def Iss.histo (x : Iss) (base b : Nat) : Nat :=
  let n := 128 / x.w
  let v := ((x.at (b / (2 * n))).rd (base + b % (2 * n) / 2)).toNat
  if b % 2 = 0 then v % 65536 else v / 65536

/-- SELHIST (R155). -/
def execSelhist (r : RR) (s : State) : Out1 :=
  issue s (.selhist r) fun x => x.wholeCohort 2 fun x =>
    let c := x.uniform r.b.toNat
    let keys := (List.range x.w).filterMap fun q => bucketOf c ((x.at q).rd r.a.toNat).toNat
    let n := 128 / x.w
    let cnt (b : Nat) := min (x.histo r.d.toNat b + keys.count b) 0xFFFF
    x.eachV 2 fun t =>
      (List.range n).map fun i =>
        let b := x.blk.cohPos t * 2 * n + 2 * i
        (r.d.toNat + i, BitVec.ofNat 32 (cnt b + 65536 * cnt (b + 1)))

/-- The threshold bucket, searched from 255 downward with the sum above each bucket (R156). -/
def cutAt (h : Nat → Nat) (k : Nat) : Nat → Nat → Nat × Nat
  | 0, above => (0, above)
  | b + 1, above => if k ≤ above + h (b + 1) then (b + 1, above) else cutAt h k b (above + h (b + 1))

/-- SELCUT (R156). -/
def execSelcut (r : RR) (s : State) : Out1 :=
  issue s (.selcut r) fun x => x.wholeCohort 2 fun x =>
    let (t, a) := cutAt (x.histo r.a.toNat) (x.uniform r.b.toNat) 255 0
    x.eachV 2 fun _ => [(r.d.toNat, BitVec.ofNat 32 (t + 256 * a))]

/-- An entry: key, index and position (or list and position) (R157, R158). -/
structure SelEnt where
  key : Nat
  idx : Nat
  pos : Nat
  deriving DecidableEq, Repr

/-- Descending key, then ascending index, then ascending position. -/
def SelEnt.before (a b : SelEnt) : Bool :=
  decide (b.key < a.key) || (a.key == b.key && (decide (a.idx < b.idx) || (a.idx == b.idx && decide (a.pos < b.pos))))
/-- Ascending index, then ascending position. -/
def SelEnt.byIdx (a b : SelEnt) : Bool := decide (a.idx < b.idx) || (a.idx == b.idx && decide (a.pos < b.pos))

/-- The entries in a register pair of every position; `off` is added to the position. -/
def Iss.entries (x : Iss) (a off : Nat) : List SelEnt :=
  (List.range x.w).map fun q => ⟨((x.at q).rd a).toNat, ((x.at q).rd (a + 1)).toNat, q + off⟩

/-- The four registers a selection list writes at a position. -/
def selOut (d p : Nat) (l : List SelEnt) (n4 : Nat) : List (Nat × Word) :=
  let (k, i) := match l[p]? with
    | some e => (BitVec.ofNat 32 e.key, BitVec.ofNat 32 e.idx)
    | none => ((0 : Word), (0xFFFFFFFF : Word))
  [(d, k), (d + 1, i), (d + 2, BitVec.ofNat 32 l.length), (d + 3, BitVec.ofNat 32 n4)]

/-- SELPACK (R157). -/
def execSelpack (r : RR) (s : State) : Out1 :=
  issue s (.selpack r) fun x => x.wholeCohort 4 fun x =>
    let b := x.uniform r.b.toNat
    let c := x.uniform r.c.toNat
    let t := b % 256
    let m := min (b / 256 % 256) x.w
    let es := x.entries r.a.toNat 0
    let above := es.filter fun e => match bucketOf c e.key with
      | some k => decide (t < k)
      | none => false
    let at_ := (sortBy SelEnt.byIdx (es.filter fun e => bucketOf c e.key == some t)).take m
    let l := sortBy SelEnt.before (above ++ at_)
    x.eachV 4 fun tid => selOut r.d.toNat (x.blk.cohPos tid) l at_.length

/-- Entries whose index does not appear earlier (R158). -/
def dedupIdx (l : List SelEnt) : List SelEnt :=
  l.foldl (fun r e => if r.any fun f => f.idx == e.idx then r else r ++ [e]) []

/-- SELMERGE (R158); X before Y between equal key and index, then by position. -/
def execSelmerge (r : RR) (s : State) : Out1 :=
  issue s (.selmerge r) fun x => x.wholeCohort 4 fun x =>
    let k := min (x.uniform r.c.toNat) x.w
    let e := sortBy SelEnt.before
      ((x.entries r.a.toNat 0 ++ x.entries r.b.toNat x.w).filter fun e => e.key != 0)
    let e2 := dedupIdx e
    x.eachV 4 fun tid => selOut r.d.toNat (x.blk.cohPos tid) (e2.take k) (e.length - e2.length)

end Sys2Proof.Machine
end

