-- ==== Sys2Proof/Machine/Convert.lean ====
section
/-! DEFINITION. Conversions and key order (R103-R106, R127-R129), and the emulation opcodes (R72). -/

namespace Sys2Proof.Machine

/-- The value of a source of a fixed type (R127); a 16-bit float is bits 15:0. -/
def vtyValue (t : VTy) (x : Nat) : FVal :=
  match t with
  | .s32 => .ofInt (sextN 32 x)
  | .n32 | .b32 => .ofInt (x % 2 ^ 32)
  | .s64 => .ofInt (sextN 64 x)
  | .n64 => .ofInt (x % 2 ^ 64)
  | .f16 => f16.value (x % 65536)
  | .bf16 => bf16.value (x % 65536)
  | .f32 => f32.value x
  | .f64 => f64.value x

def vtyFloat : VTy → Option Fmt
  | .f16 => some f16 | .bf16 => some bf16 | .f32 => some f32 | .f64 => some f64 | _ => none
def vtySigned : VTy → Bool
  | .s32 => true | .s64 => true | _ => false

/-- CVT of one value (R103, R106, R127): float destinations round, float sources to integers saturate, integers wrap
unless SAT; a negative value into an unsigned type reports invalid (R104, log 70). -/
def cvtVal (dst src : VTy) (m : Rnd) (sat : Bool) (x : Nat) : Conv :=
  match vtyFloat dst with
  | some f => f.convert m (vtyValue src x)
  | none =>
    let w := if dst.wide then 64 else 32
    match vtyFloat src with
    | some _ => toInt (vtySigned dst) w m (vtyValue src x)
    | none =>
      let v : Int := match src with
        | .s32 => sextN 32 x
        | .s64 => sextN 64 x
        | _ => x
      if sat then satInt (vtySigned dst) w v else ⟨wrapN w v, lacksSign (vtySigned dst) v, false⟩

/-- CVT (R127). -/
def execCvt (r : RR) (dst src : VTy) (m : Rnd) (sat : Bool) (s : State) : Out1 :=
  alu s (.cvt r dst src m sat) (if dst.wide || src.wide then 2 else 1) fun _ _ th =>
    let c := cvtVal dst src m sat (th.rdN src.wide r.a.toNat)
    { regs := resW dst.wide r.d.toNat c.code, flags := convFlags c.inv c.ovf }

/-- Rounding mode of FLAGS[1:0]. -/
def rndOfFlags (f : BitVec 4) : Rnd := rndOf (fld f 0 2)

/-- CVTF base issue cycles (R111). -/
def cvtfCost (c : Nat) : Nat := if c = 4 then 2 else 1

/-- CVTF encode: n conversions packed into one word, with their events (R128). -/
def cvtfEncVal (f : Fmt) (mode : Rnd) (sr : Bool) (xs rnds : List Word) : Nat × Bool × Bool :=
  let n := 32 / f.cont
  (List.range n).foldl (fun (w, inv, ovf) i =>
    let v := f32.value (xs.getD i 0).toNat
    let e := if sr then f.convertStoch (rnds.getD i 0).toNat v else f.convert mode v
    (w + e.code * 2 ^ (f.cont * i), inv || e.inv, ovf || e.ovf)) (0, false, false)

/-- CVTF.ENC (R128). -/
def execCvtfEnc (r : RX) (s : State) : Out1 :=
  issue s (.cvtfEnc r) fun x =>
    let f := fmtOf (x.blk.fmt x.now r.fa.toNat)
    let n := 32 / f.cont
    .go (x.act.foldl (fun s t => s.setThread x.u t fun h =>
      let (w, inv, ovf) := cvtfEncVal f (rndOfFlags r.flags) (r.flags.getLsbD 2) (h.run r.a.toNat n) (h.run r.b.toNat n)
      h.put [] { regs := [(r.d.toNat, BitVec.ofNat 32 w)], flags := convFlags inv ovf }) x.s) (cvtfCost f.cont)

/-- CVTF decode: container i of a word to binary32 (R128). -/
def cvtfDecVal (f : Fmt) (mode : Rnd) (w : Nat) : List Conv :=
  (List.range (32 / f.cont)).map fun i => f32.convert mode (f.value (w / 2 ^ (f.cont * i) % 2 ^ f.cont))

/-- CVTF.DEC (R128). -/
def execCvtfDec (r : RX) (s : State) : Out1 :=
  issue s (.cvtfDec r) fun x =>
    let f := fmtOf (x.blk.fmt x.now r.fa.toNat)
    .go (x.act.foldl (fun s t => s.setThread x.u t fun h =>
      let cs := cvtfDecVal f (rndOfFlags r.flags) (h.rd r.a.toNat).toNat
      h.put [] { regs := cs.mapIdx fun i c => (r.d.toNat + i, BitVec.ofNat 32 c.code),
                 flags := convFlags (cs.any (·.inv)) (cs.any (·.ovf)) }) x.s) (cvtfCost f.cont)

/-- KEYORD on w bits (R129). -/
def keyOf (w : Nat) (nantop : Bool) (x : Nat) : Nat :=
  let f := if w = 64 then f64 else f32
  let v := f.value x
  if v.isNan then (if nantop then 2 ^ w - 1 else 0)
  else if v.isZero then 2 ^ (w - 1)
  else if bitN x (w - 1) then (2 ^ w - 1) ^^^ x
  else x ||| 2 ^ (w - 1)

/-- KEYORD (R129). -/
def execKeyord (r : RR) (wide nantop : Bool) (s : State) : Out1 :=
  alu s (.keyord r wide nantop) (if wide then 2 else 1) fun _ _ th =>
    { regs := resW wide r.d.toNat (keyOf (if wide then 64 else 32) nantop (th.rdN wide r.a.toNat)) }

/-- The emulation opcodes 0xF0-0xFD: every member takes illegal-instruction, subcode 4, at decode (R72, R73). -/
def execIdiv (payload : BitVec 56) (s : State) : Out1 := issue s (.idiv payload) fun x => .go x.s 1

end Sys2Proof.Machine
end

