-- ==== Sys2Proof/Machine/Counters.lean ====
section
/-! DEFINITION. CNTCFG and CNTRD (R305-R309). -/

namespace Sys2Proof.Machine

/-- Event codes of core counters and of die counters (R307). -/
def eventKnown (die : Bool) (ev : Nat) : Bool :=
  if die then ev == 0 || (decide (0x40 ≤ ev) && decide (ev ≤ 0x4A)) else decide (ev ≤ 0x12)

/-- A configuration word that CNTCFG refuses (R308). -/
def cfgBad (die : Bool) (w : Word) : Bool :=
  !eventKnown die (fld w 0 8).toNat || fld w 24 8 != 0 || decide (1 < (fld w 12 4).toNat) ||
    (if die then fld w 10 2 != 0 else decide (1 < (fld w 10 2).toNat))

/-- A counter is configured; of several configurations of one cycle the last alone has an effect (R309). -/
def Counter.configure (c : Counter) (now owner : Nat) (w : Word) : Counter :=
  let was := if c.stamp = now + 1 then c.was else c.val
  { c with cfg := w &&& ~~~0x200, owner := owner, stamp := now + 1, was := was, val := if w.getLsbD 9 then 0 else was }

/-- The counter that E names: a die counter and its number, or a core counter (R308). -/
def cntDie (e : BitVec 8) : Bool := e.getLsbD 6
def cntNo (e : BitVec 8) : Nat := e.toNat % 64

/-- A counter, its lock, and a change of it. -/
def Iss.counter (x : Iss) (e : BitVec 8) : Counter :=
  if cntDie e then tgetD (x.s.die x.die).ctrs (cntNo e) {} else tgetD (x.s.core x.core).ctrs (cntNo e) {}
def Iss.counterLocked (x : Iss) (e : BitVec 8) : Bool :=
  if cntDie e then (x.s.die x.die).cntlock.getLsbD (cntNo e) else (x.s.core x.core).lock.getLsbD (cntNo e)
def Iss.setCounter (x : Iss) (s : State) (e : BitVec 8) (c : Counter) : State :=
  if cntDie e then s.setDie x.die fun d => { d with ctrs := tset d.ctrs (cntNo e) c }
  else s.setCore x.core fun k => { k with ctrs := tset k.ctrs (cntNo e) c }

/-- CNTCFG (R308). -/
def execCntcfg (r : RX) (s : State) : Out1 :=
  issue s (.cntcfg r) fun x =>
    let w t := (x.thr t).rd r.a.toNat
    let code t : Nat := if x.counterLocked r.e then 1 else if cfgBad (cntDie r.e) (w t) then 2 else 0
    let s := x.act.foldl (fun s t => s.setThread x.u t fun h =>
      h.put (x.i.kills x.oc) { regs := [(r.d.toNat, BitVec.ofNat 32 (code t))] }) x.s
    .go (match (x.act.filter fun t => code t == 0).getLast? with
      | some t => x.setCounter s r.e ((x.counter r.e).configure x.now x.blk.resIdx (w t))
      | none => s) 1

/-- The value of a counter; of a die counter, as it stood in one of the last 16 cycles or now, free which: 0 in those before its
first configuration (R309). -/
def Iss.counterValue (x : Iss) (e : BitVec 8) : DWord :=
  let c := x.counter e
  if cntDie e then (c.past[Config.choice x.s.draws % 17]?).getD 0 else c.val

/-- CNTRD (R308). -/
def execCntrd (r : RX) (s : State) : Out1 :=
  issue s (.cntrd r) fun x =>
    .go (x.act.foldl (fun s t => s.setThread x.u t fun h => h.put [] { regs := pairW r.d.toNat (x.counterValue r.e) }) x.s).drawn 1

/-- CNTRD.CFG (R308). -/
def execCntrdCfg (r : RX) (s : State) : Out1 :=
  issue s (.cntrdCfg r) fun x =>
    .go (x.act.foldl (fun s t => s.setThread x.u t fun h =>
      h.put [] { regs := pairW r.d.toNat ((x.counter r.e).cfg.setWidth 64) }) x.s) 1

end Sys2Proof.Machine
end

