-- ==== Sys2Proof/Machine/Hbm.lean ====
section
/-! DEFINITION. The control blocks of the HBM stacks (R314-R316). -/

namespace Sys2Proof.Machine

/-- Lines of a stack that its directory or a die's L2 knows. -/
def State.stackLines (s : State) (k : Nat) : List Nat :=
  dedupN ((s.stack k).homes.map (·.1) ++ (s.dmem.flatMap fun e => (e.2.lines.map (·.1)).filter fun l =>
    inHbm l && s.stackOf l == k))

/-- No request is under way at the stack's home (R315, step 2); asking a die to publish is no part of one (R269). -/
def State.stackIdle (s : State) (k : Nat) : Bool :=
  (s.stack k).homes.all (fun e => e.2.txn.isNone) && s.msgs.all fun m =>
    m.kind == .publish || !inHbm m.line || s.stackOf m.line != k

/-- QREQ_SET: the home starts nothing more; once it is idle every line goes home and QACK is 1 (R315). -/
def execQreqSet (k : Nat) (s : State) : Out1 :=
  let s := s.setStack k fun x => { x with qreq := true }
  .next (if !(s.stack k).qack && s.stackIdle k then
      ((s.stackLines k).foldl State.recallAll s).setStack k fun x => { x with qack := true }
    else s)

/-- QREQ_CLEAR: QACK is 0 in the next cycle and the waiting requests are served again (R315). -/
def execQreqClear (k : Nat) (s : State) : Out1 := .next (s.setStack k fun x => { x with qreq := false })

/-- QACK follows a cleared QREQ at the edge of a cycle. -/
def Stack.edge (k : Stack) : Stack := if k.qreq then k else { k with qack := false }

/-- HMASK_WRITE (R316). -/
def execHmaskWrite (k : Nat) (v : Word) (s : State) : Out1 :=
  .next (s.setStack k fun x => if x.qack then { x with hmask := fld v 0 24 } else { x with werr := true })

/-- After a change of HPLACE the requests and notes that wait stand at the homes that the lines now have. -/
def State.rehome (s : State) : State :=
  let hs := s.hbm.flatMap fun e => e.2.homes
  let ns := sortBy (fun (a b : Note) => decide (a.pos < b.pos)) (s.hbm.flatMap fun e => e.2.log)
  let s := { s with hbm := s.hbm.map fun (k, x) => (k, { x with homes := [], log := [] }) }
  let s := hs.foldl (fun s e => s.setHome e.1 fun _ => e.2) s
  ns.foldl (fun s n => s.setStack (s.stackOf n.line) fun x => { x with log := x.log ++ [n] }) s

/-- HPLACE_WRITE (R316). -/
def execHplaceWrite (v : DWord) (s : State) : Out1 :=
  .next (if (List.range 16).all fun k => (s.stack k).qack then
      ({ s with mod := { s.mod with hplace := v } } : State).rehome
    else s.setStack 0 fun x => { x with werr := true })

/-- WERR_CLEAR: a 1 in bit 16 clears WERR (R314). -/
def execWerrClear (k : Nat) (v : Word) (s : State) : Out1 :=
  .next (s.setStack k fun x => { x with werr := x.werr && !v.getLsbD 16 })

end Sys2Proof.Machine
end

