-- ==== Sys2Proof/Machine/Matrix.lean ====
section
/-! DEFINITION. The matrix unit: octet operations, the A-reuse latch, passes, exact products and the ring slots
(R110, R181-R199, R204). -/

namespace Sys2Proof.Machine

/-! ## Exact products (R108, R110) -/

/-- An element under a block scale; an integer element under a scale carries 2^-6 (R108). -/
def scaledElem (f : Fmt) (scale : Option FVal) (code : Nat) : FVal :=
  match scale with
  | none => f.value (code % 2 ^ f.width)
  | some x =>
    let v := match f.value (code % 2 ^ f.width) with
      | .fin n m e => FVal.fin n m (if f.intm then e - 6 else e)
      | v => v
    v.mul x

/-- The exact sum of C and the products (R110). -/
def dotVal (c : FVal) (ps : List (FVal × FVal)) : FVal := ps.foldl (fun s p => s.add .rne (p.1.mul p.2)) c

/-- The element written and its flags (R110, R197). -/
def dotResult (v : FVal) : Word × Word :=
  match v with
  | .nan => (0x7FC00000, matFlags true false false)
  | .inf neg => (if neg then 0xFF800000 else 0x7F800000, matFlags false true false)
  | .fin neg m e =>
    if m = 0 then (0, 0)
    else
      let w := f32.result .rne (.fin neg m e)
      let o := w % 2 ^ 31 = 0x7F800000
      (BitVec.ofNat 32 w, matFlags false (decide o) (decide o))

/-- The integer sum modulo 2^32 (R110). -/
def dotInt (c : Word) (ps : List (Int × Int)) : Word :=
  BitVec.ofInt 32 (ps.foldl (fun s p => s + p.1 * p.2) c.toInt)

/-- Container `k` of a row of words (R101, R182). -/
def rowCont (row : List Word) (c k : Nat) : Nat := (row.getD (k * c / 32) 0).toNat / 2 ^ (k * c % 32) % 2 ^ c

/-- Inner length K (R182). -/
def innerLen (c : Nat) : Nat := 256 / c

/-- Scale of row `i`, block `b` of A (R191). -/
def OctetOp.scaleA (o : OctetOp) (i b : Nat) : Option FVal :=
  if o.mx then some (scaleVal o.e8m2 ((o.scalesA.getD i 0).toNat / 2 ^ (16 * b) % 65536)) else none
/-- Scale of column `j`, block `b` of B (R191). -/
def OctetOp.scaleB (o : OctetOp) (j b : Nat) : Option FVal :=
  if o.mx then some (scaleVal o.e8m2 (o.scalesB.getD (32 * b + j) 0)) else none

/-- Element (k, j) of B from the bytes taken at issue (R184, R193). -/
def OctetOp.codeB (o : OctetOp) (k j : Nat) : Nat :=
  let c := (fmtOf o.fb).cont
  contAt (fun b => o.bytes.getD b 0) c (j * innerLen c + k)

/-- Element (i, j) of the slot after the operation, with its flags (R190). -/
def OctetOp.elem (o : OctetOp) (old : Word) (i j : Nat) : Word × Word :=
  let fa := fmtOf o.fa
  let fb := fmtOf o.fb
  let row := o.rows.getD i []
  let ks := List.range (innerLen fa.cont)
  let cin := if o.zeroC then 0 else old
  if fa.intm && !o.mx then
    let int (f : Fmt) (x : Nat) : Int := if f.sgn then sextN f.width x else x % 2 ^ f.width
    (dotInt cin (ks.map fun k => (int fa (rowCont row fa.cont k), int fb (o.codeB k j))), 0)
  else
    dotResult (dotVal (f32.value cin.toNat) (ks.map fun k =>
      (scaledElem fa (o.scaleA i (k / 32)) (rowCont row fa.cont k), scaledElem fb (o.scaleB j (k / 32)) (o.codeB k j))))

/-- The slot's words after the operation, and the flags of all elements. -/
def OctetOp.apply (o : OctetOp) (words : Tab Word) : Tab Word × Word :=
  (List.range 512).foldl (fun (w, f) n =>
    let r := o.elem (tgetD words n 0) (n / 32) (n % 32)
    (tset w n r.1, f ||| r.2)) (words, 0)

/-! ## Issue of MMA and MMAX (R185-R194) -/

def Block.slot (b : Block) (q : Nat) : Slot := tgetD b.slots q {}
def State.setSlot (s : State) (u q : Nat) (f : Slot → Slot) : State :=
  s.setBlock u fun b => { b with slots := tset b.slots q (f (b.slot q)) }

/-- Live threads of an octet; octet number `o` counts the octets of the block (R24). -/
def Block.liveOctet (b : Block) (o : Nat) : List Nat :=
  (List.range 8).filterMap fun i => match tget b.threads (8 * o + i) with
    | some t => if t.exited then none else some (8 * o + i)
    | none => none

/-- The A rows of an octet: eight words each; an absent or exited position gives zeros (R182, R186). -/
def Block.rowsOf (b : Block) (o a : Nat) : List (List Word) :=
  (List.range 16).map fun r => match tget b.threads (8 * o + r / 2) with
    | some t => if t.exited then List.replicate 8 0 else t.run (a + 8 * (r % 2)) 8
    | none => List.replicate 8 0

/-- The scale registers of the 16 rows; those of an absent or exited position are taken as 0 (R186, R191, log 74). -/
def Block.scalesOf (b : Block) (o r : Nat) : List Word :=
  (List.range 16).map fun i => match tget b.threads (8 * o + i / 2) with
    | some t => if t.exited then 0 else t.rd (r + i % 2)
    | none => 0

/-- An octet of a bundle with its issuer, slot and sidecar address. -/
structure OctetPlan where
  oct : Nat
  t : Nat
  q : Nat
  side : Nat := 0
  deriving DecidableEq, Repr

/-- Octets of the bundle in ascending number, each with its lowest executing member (R186, R190). -/
def Iss.octets (x : Iss) (r : RX) : List OctetPlan :=
  (dedupN (x.act.map (· / 8))).map fun o =>
    let t := (x.act.find? fun t => t / 8 == o).getD 0
    { oct := o, t := t, q := ((x.thr t).rd r.d.toNat).toNat % 128, side := ((x.thr t).rd r.c.toNat).toNat }

/-- Whether a bundle holds every live member of an octet (R185). -/
def Iss.whole (x : Iss) (o : Nat) : Bool := (x.blk.liveOctet o).all x.members.contains

/-- Entries and bytes of the B sidecar (R191). -/
def sideBytes (c : Nat) (e8m2 : Bool) : Nat := innerLen c * (if e8m2 then 2 else 1)

/-- The checks of an issuer's sidecar, made like those of an LDS (R191): cause, subcause. -/
def Iss.sideFault (x : Iss) (a n : Nat) : Option (Nat × Nat) :=
  if a % 64 ≠ 0 then some (3, 1)
  else if x.blk.cfg.allot < a + n then some (3, 2)
  else x.s.spadFault x.u (.own a) n false

/-- The tile as B: format, layout and shape (R183, R184). -/
def Tile.isB (t : Tile) (fb c : Nat) : Bool :=
  t.fmt == fb && t.layout == 2 && t.r == innerLen c && t.c == 32

/-- One octet operation enters the queue (R190, R194). -/
def Iss.enqueue (x : Iss) (r : RX) (mx : Bool) (s : State) (p : OctetPlan) : State :=
  let b := x.blk
  let e := r.e.toNat
  let t := b.tile e
  let fa := b.fmt x.now r.fa.toNat
  let l := tgetD b.latches p.oct {}
  let rows := if l.valid && l.base == r.a.toNat then l.rows else b.rowsOf p.oct r.a.toNat
  let e8m2 := mx && r.flags.getLsbD 3
  let c := (fmtOf fa).cont
  let z := if e8m2 then 2 else 1
  let side := if mx then (List.range (innerLen c)).map fun i => mread b.scratch (p.side + z * i) z else []
  let op : OctetOp :=
    { blk := x.u, tid := p.t, q := p.q, rows := rows,
      scalesA := if mx then b.scalesOf p.oct r.b.toNat else [], scalesB := side, mx := mx, e8m2 := e8m2, tile := e,
      form := t.form, bytes := mbytes b.scratch t.base 1024, cval := t.cval, fa := fa, fb := b.fmt x.now r.fb.toNat,
      faNo := r.fa.toNat, fbNo := r.fb.toNat, zeroC := r.flags.getLsbD 0, sealing := r.flags.getLsbD 1,
      entered := x.now }
  let s := s.setCore x.core fun k => { k with mq := k.mq ++ [op] }
  let latch : Latch := if r.flags.getLsbD 2 then { valid := true, base := r.a.toNat, rows := rows } else {}
  let s := s.setBlock x.u fun b =>
    ({ b with latches := tset b.latches p.oct latch } : Block).setTile e fun t => { t with pins := t.pins + 1 }
  let s := s.setSlot x.u p.q fun k =>
    { k with queued := k.queued + 1, st := if k.st = .free then .accum else k.st }
  s.tick x.core 0x0A none (some b.resIdx) 1

/-- Members that stay in the bundle after some have trapped. -/
def Iss.rest (x : Iss) (s : State) (gone : List Nat) : Iss :=
  { x with s := s, members := x.members.filter (!gone.contains ·), act := x.act.filter (!gone.contains ·) }

/-- Members of a bundle that parks for ring slots note the slot and the word at which they park (R204, R360). -/
def Iss.atSlots (x : Iss) (s : State) (ts : List Nat) (q : Nat) : State :=
  ts.foldl (fun s t => s.setThread x.u t fun h => { h with atSlot := some (q, x.word) }) s

/-- The part of an octet instruction's issue after the partial-mask tests (R187, R189, R190). An octet whose sidecar fails its
check asks for no room and no slot: its issuer traps as the others issue (log 102). -/
def Iss.octetIssue (x : Iss) (r : RX) (mx : Bool) : Eff :=
  let b := x.blk
  let t := b.tile r.e.toNat
  let c := (fmtOf (b.fmt x.now r.fa.toNat)).cont
  let bad (p : OctetPlan) := decide (b.cfg.nring ≤ p.q)
  let side (p : OctetPlan) := if mx then x.sideFault p.side (sideBytes c (r.flags.getLsbD 3)) else none
  let all := x.octets r
  let trapBad (s : State) := (all.filter bad).foldl (fun s p => x.trap s p.t 1 10) s
  let trapSide (s : State) := (all.filter fun p => !bad p).foldl (fun s p => match side p with
    | some (k, k2) => x.trap s p.t k k2 0 p.side
    | none => s) s
  let good := all.filter fun p => !bad p && (side p).isNone
  if all = [] then .go x.s 1
  else if t.st = .empty then
    let first := all.filter fun p => bad p || decide ((side p).map (·.1) = some 3)
    let s := trapBad x.s
    let s := (first.filter fun p => !bad p).foldl (fun s p => x.trap s p.t 3 (((side p).map (·.2)).getD 1) 0 p.side) s
    .go ((x.act.filter fun m => !(first.map (·.t)).contains m).foldl (fun s m =>
      let sub := match all.find? fun p => p.t == m with
        | some p => if side p = some (5, 3) then 3 else 4
        | none => 4
      x.trap s m 5 sub 0 (if sub = 3 then (((all.find? fun p => p.t == m).map (·.side)).getD 0) else t.base)) s) 1
  else if t.st = .filling then .parkRest x fun m => if x.act.contains m then some (.tile [r.e.toNat]) else none
  else if x.s.queueRoom x.core 3 < good.length then .parkRest x fun _ => some (.queue 3 good.length)
  else
    let shut := good.filter fun p => (b.slot p.q).st == .sealed || (b.slot p.q).st == .draining
    if shut ≠ [] then
      .parkRest { x with s := good.foldl (fun s p => x.atSlots s (x.members.filter (· / 8 == p.oct)) p.q) x.s } fun m =>
        (shut.find? fun p => p.oct == m / 8).map fun p => .slot p.q true false
    else
      let s := good.foldl (x.enqueue r mx) (trapSide (trapBad x.s))
      let s := if r.flags.getLsbD 1 then good.foldl (fun s p => s.setSlot x.u p.q fun k => { k with st := .sealed }) s
        else s
      .go s 1

/-- What MMA and MMAX share: the tile's format and shape, then the partial-mask tests, then the issue (R183, R185). -/
def Iss.octetInstr (x : Iss) (r : RX) (mx : Bool) : Eff :=
  let b := x.blk
  let t := b.tile r.e.toNat
  let c := (fmtOf (b.fmt x.now r.fa.toNat)).cont
  if (t.st = .ready ∨ t.st = .draining) ∧ !t.isB r.fb.toNat c then
    .go (x.members.foldl (fun s m => x.trap s m 1 9) x.s) 1
  else if hdrGather x.hdr = 0 then .go (x.act.foldl (fun s m => x.trap s m 6 3) x.s) 1
  else
    let gone := x.act.filter fun m => !x.whole (m / 8)
    (x.rest (gone.foldl (fun s m => x.trap s m 6 4) x.s) gone).octetIssue r mx

/-- MMA (R189, R190); its tile is read after the members' earlier acquires (R165). -/
def execMma (r : RX) (s : State) : Out1 := issue s (.mma r) fun x => x.acquired false (x.octetInstr r false)
/-- MMAX (R189-R191); its tile and sidecars are read after the members' earlier acquires (R165, R191). -/
def execMmax (r : RX) (s : State) : Out1 := issue s (.mmax r) fun x => x.acquired false (x.octetInstr r true)

/-! ## Passes (R193, R195) -/

/-- Earliest start of a pass that begins with an operation (R195). -/
def OctetOp.earliest (o : OctetOp) : Nat := o.entered + (if o.form = .general then 3 else 1)

/-- Whether an operation may be fused behind another (R195). -/
def OctetOp.fuses (h o : OctetOp) : Bool :=
  o.blk == h.blk && o.tile == h.tile && o.faNo == h.faNo && o.fbNo == h.fbNo && o.mx == h.mx && o.e8m2 == h.e8m2 &&
    o.form == .general && decide (o.entered ≤ h.entered + 2)

/-- Operations of the pass that begins at the head of the queue (R195). -/
def passSize : List OctetOp → Nat
  | [] => 0
  | h :: r => if h.form = .general then 1 + ((r.take 3).takeWhile h.fuses).length else 1

/-- MATRIX_PASS: the next pass begins in this cycle; its operations have read B (R193, R195). -/
def execMatrixPass (core : Nat) (s : State) : Out1 :=
  let k := s.core core
  let now := s.now (dieOf core)
  match k.mq, k.pass with
  | h :: _, none =>
    event s (h.form != .zero && decide (h.earliest ≤ now) && (k.passEnd == 0 || decide (k.passEnd < now)))
      (let n := passSize k.mq
       let last := now + (if h.form = .general then max n 2 else 2) - 1
       let s := s.setCore core fun k => { k with pass := some ⟨n, n, now, last⟩, passEnd := last }
       s.setBlock h.blk fun b => b.setTile h.tile fun t => { t with pins := t.pins - n })
  | _, _ => .next s

/-- The head operation completes into its slot (R190, R196, R197). -/
def State.octetDone (s : State) (core : Nat) (o : OctetOp) : State :=
  let (w, f) := o.apply ((s.block o.blk).slot o.q).words
  let s := s.setCore core fun k => { k with mq := k.mq.drop 1 }
  let s := s.setSlot o.blk o.q fun k => { k with words := w, queued := k.queued - 1 }
  let s := s.setThread o.blk o.tid fun h => h.flag f
  let res := (s.block o.blk).resIdx
  match o.form with
  | .general => s
  | .zero => s.tick core 0x0C (some 1) (some res) 1
  | .ident => s.tick core 0x0C (some 2) (some res) 1
  | .const => s.tick core 0x0C (some 3) (some res) 1

/-- OCTET_OPERATION_COMPLETE: the operations of a pass complete in its last cycle, in order; a ZERO operation when no
pass is before it (R195). -/
def execOctetOperationComplete (core : Nat) (s : State) : Out1 :=
  let k := s.core core
  let now := s.now (dieOf core)
  match k.mq, k.pass with
  | h :: _, some p =>
    event s (decide (p.last ≤ now))
      (let s := s.octetDone core h
       let s := if 1 < p.n then s.tick core 0x0B none (some (s.block h.blk).resIdx) 1 else s
       s.setCore core fun k => { k with pass := if p.left ≤ 1 then none else some { p with left := p.left - 1 } })
  | h :: _, none =>
    event s (h.form == .zero && decide (h.entered + 1 ≤ now))
      ((s.octetDone core h).setBlock h.blk fun b => b.setTile h.tile fun t => { t with pins := t.pins - 1 })
  | [], _ => .next s

/-! ## SLOTZ, SLOTRD, SLOTWR (R199) -/

/-- Slot and word index that vA names (R199). -/
def slotNo (v : Word) : Nat := v.toNat % 128
def slotWord (v : Word) : Nat := 4 * (fld v 10 7).toNat

/-- A thread's write of one word: in one cycle the highest thread index stands (R199). -/
def Slot.put (k : Slot) (now t w : Nat) (v : Word) : Slot :=
  let prev := if k.stamp = now + 1 then k.by_ else []
  match tget prev w with
  | some t2 => if t < t2 then k else { k with words := tset k.words w v, stamp := now + 1, by_ := tset prev w t }
  | none => { k with words := tset k.words w v, stamp := now + 1, by_ := tset prev w t }

/-- The slot instructions: threads whose slot waits keep the bundle waiting, for a slot that may be SEALED if `shuts`; a slot
number beyond the ring traps. -/
def Iss.slotInstr (x : Iss) (r : RX) (shuts : Bool) (waits : Slot → Bool) (w : Nat → Wait) (f : State → Nat → Nat → State) : Eff :=
  let q t := slotNo ((x.thr t).rd r.a.toNat)
  let bad t := decide (x.blk.cfg.nring ≤ q t)
  if x.act.any fun t => !bad t && waits (x.blk.slot (q t)) then
    .parkRest { x with s := if shuts then x.act.foldl (fun s t => x.atSlots s [t] (q t)) x.s else x.s } fun t =>
      if x.act.contains t && !bad t && waits (x.blk.slot (q t)) then some (w (q t)) else none
  else .go (x.act.foldl (fun s t => if bad t then x.trap s t 1 10 else f s t (q t)) x.s) 1

/-- A slot that SLOTZ and SLOTWR wait for (R187). -/
def Slot.closed (k : Slot) : Bool := k.st == .sealed || k.st == .draining || k.queued != 0

/-- SLOTZ (R199). -/
def execSlotz (r : RX) (s : State) : Out1 :=
  issue s (.slotz r) fun x =>
    x.slotInstr r true Slot.closed (fun q => .slot q true true) fun s t q => s.setSlot x.u q fun k =>
      { (List.range 512).foldl (fun k w => k.put x.now t w 0) k with st := .free }

/-- SLOTRD (R199). -/
def execSlotrd (r : RX) (s : State) : Out1 :=
  issue s (.slotrd r) fun x =>
    x.slotInstr r false (fun k => k.queued != 0) (fun q => .slot q false true) fun s t q =>
      let i := slotWord ((x.thr t).rd r.a.toNat)
      x.send s t [] ((List.range 4).map fun m => (r.d.toNat + m, tgetD (x.blk.slot q).words (i + m) 0)) [] 64

/-- SLOTWR (R199). -/
def execSlotwr (r : RX) (s : State) : Out1 :=
  issue s (.slotwr r) fun x =>
    x.slotInstr r true Slot.closed (fun q => .slot q true true) fun s t q => s.setSlot x.u q fun k =>
      let i := slotWord ((x.thr t).rd r.a.toNat)
      { (List.range 4).foldl (fun k m => k.put x.now t (i + m) ((x.thr t).rd (r.b.toNat + m))) k with
        st := if k.st = .free then .accum else k.st }

/-! ## Ring deadlock (R204) -/

/-- RING_DEADLOCK: every thread parked on a SEALED slot takes ring deadlock; with none the count starts again. The threads of
a parked octet bundle stand each at its own octet's slot, sealed before or after the bundle parked. -/
def execRingDeadlock (u : Nat) (s : State) : Out1 :=
  let b := s.block u
  event s (decide (65536 ≤ b.run.ringFull))
    (let hit := b.threads.filterMap fun (i, t) =>
       t.atSlot.bind fun k => if (b.slot k.1).st = .sealed then some (i, k) else none
     (hit.foldl (fun s (t, k) =>
       let th := s.thread u t
       s.trapAt u t th.base th.index.toNat 8 k.1 0 k.2 0) s).setRun u fun r => { r with ringFull := 0 })

end Sys2Proof.Machine
end

