-- ==== Sys2Proof/Machine/Epilogue.lean ====
section
/-! DEFINITION. The epilogue engine (R200-R203). -/

namespace Sys2Proof.Machine

/-! ## Parameter blocks (R201) -/

def EpiCmd.word (c : EpiCmd) (off n : Nat) : Nat := leAt c.params off n
def EpiCmd.ctl (c : EpiCmd) (lo len : Nat) : Nat := c.word 0x0C 4 / 2 ^ lo % 2 ^ len
def EpiCmd.dest (c : EpiCmd) : Nat := c.word 0 8
def EpiCmd.stride (c : EpiCmd) : Int := sextN 32 (c.word 8 4)
def EpiCmd.ofmt (c : EpiCmd) : Nat := c.ctl 0 4
def EpiCmd.of32 (c : EpiCmd) : Bool := c.ctl 4 1 == 1
def EpiCmd.rnd (c : EpiCmd) : Rnd := rndOf (BitVec.ofNat 2 (c.ctl 5 2))
def EpiCmd.act (c : EpiCmd) : Nat := c.ctl 7 2
def EpiCmd.scl (c : EpiCmd) : Bool := c.ctl 9 1 == 1
def EpiCmd.bias (c : EpiCmd) : Bool := c.ctl 10 1 == 1
def EpiCmd.toTile (c : EpiCmd) : Bool := c.ctl 11 1 == 1
def EpiCmd.barEn (c : EpiCmd) : Bool := c.ctl 12 1 == 1
def EpiCmd.iacc (c : EpiCmd) : Bool := c.ctl 13 1 == 1
def EpiCmd.scaddr (c : EpiCmd) : Nat := c.word 0x10 4
def EpiCmd.biaddr (c : EpiCmd) : Nat := c.word 0x14 4
def EpiCmd.scdest (c : EpiCmd) : Nat := c.word 0x18 8
def EpiCmd.bar (c : EpiCmd) : Nat := c.word 0x20 4 % 16
def EpiCmd.tile (c : EpiCmd) : Nat := c.dest % 128
def EpiCmd.ro (c : EpiCmd) : Nat := c.dest / 2 ^ 8 % 256
def EpiCmd.co (c : EpiCmd) : Nat := c.dest / 2 ^ 16 % 256
/-- Bytes of one row scale (R202). -/
def EpiCmd.scaleBytes (c : EpiCmd) : Nat := if c.e8m2 then 2 else 1
/-- Bits of an element in a global row: six-bit elements are packed densely (R202). -/
def EpiCmd.elemBits (c : EpiCmd) : Nat :=
  if c.of32 then 32 else if (fmtOf c.fval).width = 6 then 6 else (fmtOf c.fval).cont
def EpiCmd.rowBytes (c : EpiCmd) : Nat := 4 * c.elemBits

/-- The breaches of R201: subcode 9. -/
def EpiCmd.breach (c : EpiCmd) (b : Block) : Bool :=
  c.ctl 14 18 != 0 || c.word 0x20 4 / 16 != 0 || (c.params.drop 0x24).any (· != 0) || c.act == 3 ||
    (!c.of32 && !fmtValid c.fval) || (c.of32 && (c.ctl 5 2 != 0 || c.toTile || c.quant)) ||
    (c.quant && (decide (c.ofmt < 2) || decide (7 < c.ofmt) || c.ctl 5 2 != 0)) ||
    (c.barEn && decide (b.cfg.nblk ≤ c.bar)) || (c.toTile && (c.dest / 2 ^ 24 != 0 || bitN c.dest 7))

/-- The first alignment failure: the address, or STRIDE itself; the order among several is log 82 (R201). -/
def EpiCmd.misaligned (c : EpiCmd) : Option Nat :=
  if !c.toTile ∧ c.dest % 8 ≠ 0 then some c.dest
  else if !c.toTile ∧ c.stride % 8 ≠ 0 then some (c.word 8 4)
  else if c.quant ∧ c.scdest % 8 ≠ 0 then some c.scdest
  else if c.scl ∧ c.scaddr % 128 ≠ 0 then some c.scaddr
  else if c.bias ∧ c.biaddr % 128 ≠ 0 then some c.biaddr
  else none

/-- Scratchpad spans that the command uses: address, bytes, and whether they are read at issue. -/
def EpiCmd.spans (c : EpiCmd) : List (Nat × Nat × Bool) :=
  (if c.scl then [(c.scaddr, 128, true)] else []) ++ (if c.bias then [(c.biaddr, 128, true)] else []) ++
    (if c.quant && c.toTile then [(c.scdest, 16 * c.scaleBytes, false)] else [])

/-- A vector of 32 words read at issue. -/
def State.vector (s : State) (u a : Nat) : List Word :=
  match s.spad u a 128 with
  | some p => (List.range 32).map fun i => BitVec.ofNat 32 (s.spGet u (p.plus (4 * i)) 4)
  | none => []

/-- The first check of the command that fails at the actor, in the order of R358: cause, subcause, address. For a tile that is
not READY and does not fit either, log 93. -/
def Iss.epiTrap (x : Iss) (c : EpiCmd) : Option (Nat × Nat × Nat) :=
  let b := x.blk
  let t := b.tile c.tile
  let shape := t.layout == 0 && t.fmt == c.ofmt && decide (c.ro + 16 ≤ t.r) && decide (c.co + 32 ≤ t.c)
  if !c.of32 && b.subByte x.now (BitVec.ofNat 4 c.ofmt) && !x.s.featsOk [2] then some (1, 5, 0)
  else if c.breach b || (c.toTile && (decide (b.cfg.ntile ≤ c.tile) || (t.st != .empty && !shape))) then some (1, 9, 0)
  else match c.misaligned with
  | some a => some (3, 1, a)
  | none =>
  match c.spans.find? fun p => (x.s.spad x.u p.1 p.2.1).isNone with
  | some p => some (3, 2, p.1)
  | none =>
  if c.toTile ∧ t.st = .empty then some (5, 4, t.base)
  else
    let hits := (c.spans.filter (·.2.2)).filterMap fun p => ((x.s.spad x.u p.1 p.2.1).bind fun q =>
      x.s.spadFault x.u q p.2.1 false).map fun k => (k.1, k.2, p.1)
    match hits.find? fun h => h.1 == 5 with
    | some h => some h
    | none => hits.head?

/-- The rows of DEST as range-lock entries (R295). -/
def State.epiLocks (s : State) (c : EpiCmd) : List RangeLock :=
  if c.toTile then []
  else (List.range 16).map fun (i : Nat) =>
    let a : Int := (c.dest : Int) + (i : Int) * c.stride
    s.memLock c.blk (c.blk, c.claim, true) a (a + c.rowBytes - 1) true

/-- EPI and EPIQ issue (R200, R201). -/
def Iss.epilogue (x : Iss) (r : RX) (quant : Bool) : Eff :=
  if x.act = [] then .go x.s 2
  else if hdrGather x.hdr ≠ 2 then .go (x.trapAll 6 3 0) 2
  else
    let t := x.act.headD 0
    let a := ((x.thr t).rd r.a.toNat).toNat
    let b := x.blk
    if a % 64 ≠ 0 then .go (x.trap x.s t 3 1 0 a) 2
    else if b.cfg.allot < a + 64 then .go (x.trap x.s t 3 2 0 a) 2
    else if !x.s.waitOver x.u b t (x.thr t) (x.drainWait 3 t) then x.drainPark [t] 3
    else
      let x := { x with s := x.drainEnd x.s [t] }
      let c0 : EpiCmd := { blk := x.u, q := b.cursor, params := mbytes b.scratch a 64, quant := quant,
                           e8m2 := r.flags.getLsbD 0, tid := t, tids := x.act, claim := x.s.seq }
      let c := { c0 with fval := b.fmt x.now c0.ofmt }
      match x.epiTrap c with
      | some (k, k2, f) => .go (x.trap x.s t k k2 0 f) 2
      | none =>
        if c.toTile ∧ (b.tile c.tile).moving then x.parkAll x.s (some (.tile [c.tile]))
        else if x.s.queueRoom x.core 4 = 0 then x.parkAll x.s (some (.queue 4 1))
        else if x.s.claimRoom x.u b = 0 then x.parkAll x.s (some (.queue 6 1))
        else
          let ls := x.s.epiLocks c
          match x.s.tryRegister x.die ls with
          | .clash (u, n, e) => x.parkAll x.s (some (.lock x.die u n e))
          | .full => .go (x.lockFull x.s) 2
          | .room =>
            let c := { c with scales := if c.scl then x.s.vector x.u c.scaddr else [],
                              biases := if c.bias then x.s.vector x.u c.biaddr else [] }
            let s := x.s.setDm x.die fun m => { m with locks := m.locks ++ ls }
            let s := s.setCore x.core fun k => { k with epiq := k.epiq ++ [c] }
            let s := s.setBlock x.u fun b => { b with cursor := (b.cursor + 1) % b.cfg.nring }
            let s := if c.toTile then s.setTile x.u c.tile fun t => { t with st := .filling } else s
            let s := { s with seq := s.seq + 1 }
            .go (x.act.foldl (fun s t => s.setThread x.u t fun h =>
              h.put (x.i.kills x.oc) { regs := [(r.d.toNat, BitVec.ofNat 32 c.q)] }) s) 2

/-- EPI (R200-R202). -/
def execEpi (r : RX) (s : State) : Out1 := issue s (.epi r) fun x => x.epilogue r false
/-- EPIQ (R200-R202). -/
def execEpiq (r : RX) (s : State) : Out1 := issue s (.epiq r) fun x => x.epilogue r true

/-! ## The drain (R188, R202, R203) -/

/-- A command changed by its claim number. -/
def State.putEpi (s : State) (core claim : Nat) (f : EpiCmd → EpiCmd) : State :=
  s.setCore core fun k => { k with epiq := k.epiq.map fun c => if c.claim = claim then f c else c }

/-- The oldest command whose turn it is: its block's first undrained one, on a SEALED slot without queued operations. -/
def State.nextDrain (s : State) (core : Nat) : Option EpiCmd :=
  let q := (s.core core).epiq
  if q.any fun c => c.draining && c.out.isNone then none
  else q.find? fun c =>
    let k := (s.block c.blk).slot c.q
    !c.draining && (q.find? fun e => e.blk == c.blk && !e.draining) == some c && k.st == .sealed && k.queued == 0

/-- EPILOGUE_DRAIN: a drain whose 16 rows have been read ends, and its slot becomes FREE; the next drain starts. -/
def execEpilogueDrain (core : Nat) (s : State) : Out1 :=
  let now := s.now (dieOf core)
  let s := match (s.core core).epiq.find? fun c => c.draining && c.out.isNone && decide (c.drainEnd ≤ now) with
    | some c =>
      let w := ((s.block c.blk).slot c.q).words
      let s := s.putEpi core c.claim fun c => { c with out := some w }
      (s.setSlot c.blk c.q fun k => { k with st := .free }).setBlock c.blk fun b =>
        { b with tail := (b.tail + 1) % b.cfg.nring }
    | none => s
  match s.nextDrain core with
  | some c =>
    .next ((s.putEpi core c.claim fun c => { c with draining := true, drainEnd := now + 16 }).setSlot c.blk c.q fun k =>
      { k with st := .draining })
  | none => .next s

/-! ## Elements (R202) -/

/-- x, scaled, biased and rounded to binary32 once. -/
def EpiCmd.affine (c : EpiCmd) (w : Word) (j : Nat) : Nat :=
  let x : FVal := if c.iacc then .fin (decide (w.toInt < 0)) w.toInt.natAbs 0 else f32.value w.toNat
  let x := if c.scl then x.mul (f32.value (c.scales.getD j 0).toNat) else x
  let x := if c.bias then x.add .rne (f32.value (c.biases.getD j 0).toNat) else x
  f32.result .rne x

/-- The activation. -/
def epiAct (act t : Nat) : Nat :=
  match act with
  | 1 => if (f32.value t).isNan then 0x7FC00000 else if fCmp f32 .gt t 0 then t else 0
  | 2 =>
    let u := fMul f32 .rne (fMul f32 .rne t t) t
    let u := fMul f32 .rne (fFma f32 .rne u 0x3D372713 t) 0x3F4C422A
    fMul f32 .rne (fMul f32 .rne t 0x3F000000) (fAdd f32 .rne (fTanh u) 0x3F800000)
  | _ => t

/-- One row of the output: its element codes, its scale, and the events invalid and overflow. -/
def EpiCmd.row (c : EpiCmd) (out : Tab Word) (i : Nat) : List Nat × Nat × Bool × Bool :=
  let ys := (List.range 32).map fun j => epiAct c.act (c.affine (tgetD out (32 * i + j) 0) j)
  let f := fmtOf c.fval
  if c.of32 then (ys, 0, false, false)
  else if c.quant then
    let (x, es, nan) := quantise f c.e8m2 (ys.map f32.value)
    (es.map (·.code), x, nan, es.any (·.ovf))
  else
    let es := ys.map fun y => f.convert c.rnd (f32.value y)
    (es.map (·.code), 0, es.any (·.inv), es.any (·.ovf))

/-- A row packed with `w` bits an element. -/
def packRow (w : Nat) (l : List Nat) : List Byte :=
  leBytes (4 * w) ((l.zipIdx).foldl (fun v e => v + e.1 % 2 ^ w * 2 ^ (w * e.2)) 0)

/-- The bytes of a tile row as written: containers of 4 bits keep their neighbours. -/
def Tile.rowOver (t : Tile) (m : Mem) (k0 : Nat) (l : List Nat) : Nat × List Byte :=
  let lo := k0 * t.cont / 8
  let hi := ceilDiv ((k0 + l.length) * t.cont) 8
  let old := leVal (mbytes m (t.base + lo) (hi - lo))
  let at_ := k0 * t.cont - 8 * lo
  let mask := (2 ^ (t.cont * l.length) - 1) * 2 ^ at_
  let v := (l.zipIdx).foldl (fun v e => v + e.1 % 2 ^ t.cont * 2 ^ (at_ + t.cont * e.2)) 0
  (lo, leBytes (hi - lo) (andNot old mask + v))

/-- The rows and row scales of a command go to a tile and to a scratchpad (R202). -/
def State.epiTile (s : State) (c : EpiCmd) (rows : List (List Nat × Nat × Bool × Bool)) : State :=
  let s := (rows.zipIdx).foldl (fun s e =>
    let t := (s.block c.blk).tile c.tile
    let (o, l) := t.rowOver (s.block c.blk).scratch (t.lin (c.ro + e.2) c.co) e.1.1
    s.spWrite c.blk (t.base + o) l) s
  let s := if c.quant then
      s.padWrite c.blk (s.spad c.blk c.scdest (16 * c.scaleBytes)) 0 (rows.flatMap fun r => leBytes c.scaleBytes r.2.1)
    else s
  s.tileDone c.blk c.tile id

/-- The end of a command: locks, flags, the barrier, ENGFAULT (R203). -/
def State.epiEnd (s : State) (core : Nat) (c : EpiCmd) (rows : List (List Nat × Nat × Bool × Bool)) (code : Nat) : State :=
  let bytes := 16 * (if c.toTile then 4 * (fmtOf c.fval).cont else c.rowBytes) + (if c.quant then 16 * c.scaleBytes else 0)
  let s := s.setCore core fun k => { k with epiq := k.epiq.filter fun e => e.claim != c.claim }
  let s := s.release (dieOf core) (c.blk, c.claim, true)
  let s := s.setThread c.blk c.tid fun h => h.flag (epiFlags (rows.any (·.2.2.1)) (rows.any (·.2.2.2)))
  let s := if c.barEn then s.barUpdate c.blk 0 c.bar [] (-(bytes : Int)) else s
  if code = 0 then s else s.engFault c.blk 6 code

/-- EPILOGUE_COMPLETE: the writes of the oldest drained command are performed, those outside the module by their homes, and
it completes (R203). -/
def execEpilogueComplete (core : Nat) (s : State) : Out1 :=
  match (s.core core).epiq.find? (·.out.isSome) with
  | none => .next s
  | some c =>
    let rows := (List.range 16).map (c.row (c.out.getD []))
    if c.fault.isSome then .next s
    else if c.fin.isSome then event s (!s.writesAway (c.blk, c.claim, true)) (s.epiEnd core c rows (c.fin.getD 0))
    else
      let d := dieOf core
      if c.toTile then
        let t := (s.block c.blk).tile c.tile
        let free := !c.quant || s.padFree c.blk (s.spad c.blk c.scdest (16 * c.scaleBytes)) 0 (16 * c.scaleBytes)
        let rowsFree := (rows.zipIdx).all fun e =>
          let o := t.rowOver (s.block c.blk).scratch (t.lin (c.ro + e.2) c.co) e.1.1
          s.padFree c.blk (some (.own (t.base + o.1))) 0 o.2.length
        event s (t.pins == 0 && rowsFree && free) (((s.epiTile c rows).progress c.blk).epiEnd core c rows 0)
      else
        let e : EngCmd := { op := .bcopy, blk := c.blk, seq := 0, bad := c.bad.map (0, ·, true), down := c.down }
        let cells := (rows.zipIdx).flatMap fun r => (packRow c.elemBits r.1.1).mapIdx fun i b =>
          (c.rowBytes * r.2 + i, wrapN 64 ((c.dest : Int) + (r.2 : Int) * c.stride + (i : Int)), b)
        let scales := if c.quant then (rows.flatMap fun r => leBytes c.scaleBytes r.2.1).mapIdx fun i b =>
            (16 * c.rowBytes + i, wrapN 64 ((c.scdest + i : Nat) : Int), b) else []
        let p := s.engWrite d e (cells ++ scales)
        match p.stop with
        | some .busy => .next s
        | some (.demand _ va k _) =>
          match p.s.faultAttach d (s.ctxOf c.blk) va k (s.engPost c.blk) with
          | (t, .fault d2 tok _ _) => .next (t.putEpi core c.claim fun c => { c with fault := some (d2, tok) })
          | (t, _) => .next t
        | none =>
          let code := (p.faults.head?.map (·.2)).getD 0
          let t := p.s.tagAway s (c.blk, c.claim, true)
          let t := if p.bytes = [] then t else t.progress c.blk
          .next (if t.writesAway (c.blk, c.claim, true) then t.putEpi core c.claim fun c => { c with fin := some code }
            else t.epiEnd core c rows code)

end Sys2Proof.Machine
end

