-- ==== Sys2Proof/Machine/Preempt.lean ====
section
/-! DEFINITION. Pre-emption, the saved image and resumption (R216, R286, R326, R371-R373). -/

namespace Sys2Proof.Machine

/-- An open supervisor entry of a kind other than 1 names the block. -/
def State.entryNames (s : State) (b : Block) : Bool :=
  (List.range 9).any fun d => (s.die d).entries.any fun e => e.kind != 1 && e.launch == b.cfg.launch && e.bid == b.cfg.bid

/-- Some block of the cluster is resident: not complete, saved or discarded. -/
def State.clusterResident (s : State) (c : Nat) : Bool :=
  (tgetD s.clusters c {}).blocks.any fun u => !(s.block u).run.completed && !(s.block u).run.preempted && !(s.block u).run.discarded

/-- Whether a cluster may be pre-empted (R371). -/
def State.mayPreempt (s : State) (c : Nat) : Bool :=
  let x := tgetD s.clusters c {}
  (tget s.clusters c).isSome && s.clusterResident c && (s.launch x.launch).ngb == 0 && !x.saved &&
    x.blocks.all fun u => !s.entryNames (s.block u) && !(s.block u).run.confirming

/-- Pre-emption fires a thread's watch; a thread held at MWAIT completes with 1 (R235, R236, R371). -/
def Thread.leaveWatch (t : Thread) (now : Nat) : Thread :=
  match t.st with
  | .waiting (.watch d) | .waiting (.arming d) => ({ t with watch := none }.wr d 1).wake now
  | _ => { t with watch := t.watch.map fun w => { w with fired := some (w.fired.getD false) } }

/-- Pre-emption reaches the watches of a block. -/
def State.leaveWatches (s : State) (u : Nat) : State :=
  let now := s.nowB u
  s.setBlock u fun b => b.wakes fun _ t => t.leaveWatch now

/-- Pre-emption begins: the Mint forms no new bundle (R371). -/
def State.startPreempt (s : State) (c : Nat) : State :=
  let us := (tgetD s.clusters c {}).blocks
  let s := s.setCluster c fun x => { x with saving := true }
  us.foldl (fun s u => (s.setRun u fun r => { r with stopped := true }).leaveWatches u) s

/-- Copy commands of the block stop where they may. -/
def State.stopCopies (s : State) (u : Nat) : State :=
  let core := (s.block u).core
  let s0 := s
  let stop (c : EngCmd) : EngCmd := if c.blk = u ∧ c.active ∧ s0.atBoundary c then { c with active := false, fault := none } else c
  s.setCore core fun k => { k with engq := k.engq.map stop }

/-- Steps 1 and 2 of a pre-emption are behind a block: its bundles, results, fills and scans, octet operations, draining slots,
gathers and ACPs are done (R371). -/
def State.finished (s : State) (u : Nat) : Bool :=
  let b := s.block u
  let k := s.core b.core
  s.bundles.all (fun e => e.2.blk != u) && s.jobs.all (fun e => e.2.kind.block != u) && k.loads.all (·.blk != u) &&
    k.mq.all (·.blk != u) && (s.dm (dieOf b.core)).gathq.all (·.blk != u) &&
    k.epiq.all (fun c => c.blk != u || (!c.draining && c.out.isNone))

/-- Every write that a thread of the block has read has its place in memory's order, so that a load on another die cannot
return an older one, nor a release there pass it (R262, R268, R274). -/
def State.seenSettled (s : State) (b : Block) : Bool :=
  let seen := b.threads.foldl (fun n e => max n e.2.seen) 0
  (s.dm (dieOf b.core)).lines.all fun e => e.2.loc == [] || decide (seen < e.2.firstAt)

/-- Nothing of a block is in flight that its image could not hold (R371, steps 1 to 5). -/
def State.savable (s : State) (u : Nat) : Bool :=
  let b := s.block u
  let k := s.core b.core
  let d := dieOf b.core
  b.run.completed ||
    (s.finished u && k.engq.all (fun c => c.blk != u || !c.active) && b.arrivals == [] && !b.holding &&
      !b.run.confirming && k.fifo.all (fun e => e.blk != u || e.st == .performed) && !s.entryNames b &&
      s.away.all (fun a => a.cmd.map (·.1) != some u) && s.blockSettled d u 0 && s.seenSettled b)

/-- Steps 3 and 4 for a block whose first two are done: it is confirmed, then its copies stop where they may (R371). -/
def State.preemptStep (s : State) (u : Nat) : State :=
  let b := s.block u
  if b.run.completed || !s.finished u then s
  else if b.holding then s.startConfirm u
  else if b.run.confirming then s
  else s.stopCopies u

/-- A thread as the image holds it: an access parked on a fault or a lock is made again, watches are not kept (R372). -/
def Thread.saved (t : Thread) : Thread :=
  let t := { t with watch := none, aged := false, acp := [] }
  match t.st with
  | .waiting (.fault _ _ _ _) | .waiting (.held _ _) | .waiting (.faultFull _ _ _ _ _) | .waiting (.lock _ _ _ _) =>
    { t with st := .ready, hdr := none }
  | .waiting (.heldFull _ _) | .waiting (.stacks _) | .waiting (.acquired _ _) => { t with st := .ready, hdr := none }
  | _ => t

/-- One block's image is written and its resources are free (R371, step 6). -/
def State.saveBlock (s : State) (c u : Nat) : State :=
  let b := s.block u
  let k := s.core b.core
  let cmds := (k.engq.filter (·.blk == u)).map fun x => { x with fault := none }
  let epis := (k.epiq.filter (·.blk == u)).map fun x => { x with fault := none }
  let s := (s.stopCounters b.core b.resIdx).purgeBlock u
  let s := s.setCluster c fun x => { x with cmds := x.cmds ++ cmds, epis := x.epis ++ epis }
  s.setBlock u fun b =>
    { b with run := { b.run with preempted := true, wdog := 0 }, threads := b.threads.map fun (i, t) => (i, t.saved) }

/-- PEGO no longer names a cluster whose pre-emption has ended (R377). -/
def State.pegoDone (s : State) (c : Nat) : State :=
  { s with dies := s.dies.map fun (d, x) => (d, if x.pego = some c then { x with pego := none } else x) }

/-- PREEMPT: the cluster's blocks stop, drain, are confirmed and are saved whole; with no block resident any more there is
nothing to save (R371). -/
def execPreempt (c : Nat) (s : State) : Out1 :=
  let x := tgetD s.clusters c {}
  .next
    (if (tget s.clusters c).isNone || x.saved then s
     else if !x.saving then (if s.mayPreempt c then s.startPreempt c else s)
     else if !s.clusterResident c then (s.setCluster c fun x => { x with saving := false }).pegoDone c
     else
       let s := x.blocks.foldl State.preemptStep (x.blocks.foldl State.leaveWatches s)
       if x.blocks.all s.savable then
         let s := x.blocks.foldl (fun s u => s.saveBlock c u) s
         ((s.setCluster c fun x => { x with saved := true, saving := false, savedAt := s.now 0 }).setLaunch x.launch fun l =>
           { l with back := c :: l.back }).pegoDone c
       else s)

/-- STARVATION_PREEMPT: a block has been unplaced for its STARVE time; the most recently placed cluster of the
lowest-priority launch below it is pre-empted, one at a time (R326). -/
def execStarvationPreempt (number : Nat) (s : State) : Out1 :=
  let l := s.launch number
  let low := s.clusters.filter fun e => decide ((s.launch e.2.launch).prio < l.prio) && !e.2.saving && s.mayPreempt e.1
  let p := (low.map fun e => (s.launch e.2.launch).prio).foldl min 3
  let last := (low.filter fun e => (s.launch e.2.launch).prio == p).foldl
    (fun (b : Option (Nat × Cluster)) e => match b with
      | none => some e
      | some m => if m.2.placedAt < e.2.placedAt then some e else b) none
  match last with
  | some e =>
    event s (s.starved number l && s.clusters.all (fun c => !c.2.saving))
      (s.startPreempt e.1)
  | none => .next s

/-! ## RESUME_BLOCK (R286, R373) -/

/-- A block-scope register as it stands in every later cycle, whatever die's cycles count (R83, R86). -/
def KReg.settled (k : KReg) : KReg := { k with cycle := 0 }

/-- A block stands on its new core; its READY threads start with age 0. What it wrote is visible from the first cycle on,
and its saved claims stay ahead of later ones (R83, R86, R95). -/
def State.moveBlock (s : State) (u core : Nat) (f : Fit) : State :=
  let now := s.now (dieOf core)
  let back (i : Nat) (t : Thread) : Thread :=
    let t := { t with regBase := Config.regBase now core i }
    if t.st = .ready then { t with since := now + 1, hdr := none } else t
  s.setBlock u fun b =>
    { b with core := core, slotBase := f.slot, resIdx := f.res, allotBase := f.allot, ringBase := f.ring,
             run := { b.run with preempted := false, stopped := false, user := b.run.user.settled },
             kregs := b.kregs.map fun (k, v) => (k, v.settled), fmts := b.fmts.map fun (k, v) => (k, v.settled),
             engfault := b.engfault.settled, slots := b.slots.map fun (k, v) => (k, { v with stamp := 0, by_ := [] }),
             claims := b.claims.map fun c => { c with cycle := 0 },
             threads := b.threads.map fun (i, t) => (i, back i t) }

/-- Commands of a resumed cluster register their ranges again, in order, or the first block and members that a full table
refuses, if any (R286, R298). -/
def State.reRegister (s : State) : List (Nat × List Nat × List RangeLock) → Except (Option (Nat × List Nat)) State
  | [] => .ok s
  | (u, ts, ls) :: r =>
    let d := dieOf (s.block u).core
    match s.tryRegister d ls with
    | .room => (s.setDm d fun m => { m with locks := m.locks ++ ls }).reRegister r
    | .full => .error (some (u, ts))
    | .clash _ => .error none

/-- A full table at resumption: the supervisor trap of R298 for the members of the command that does not fit, posted by the
block's core as `t` has it placed. -/
def State.resumeFull (s t : State) (u : Nat) (ts : List Nat) : State :=
  let d := dieOf (t.block u).core
  ((s.tickDie d 0x4A none 1).post d { t.threadPost u (ts.headD 0) 2 0 with tids := ts }).1

/-- RESUME_BLOCK: the first pre-empted cluster of its launch returns to cores that can take it and whose queues hold its
commands, which come behind every store that has passed its check by then (R273), once the supervisor has answered for those
that a full table refused (R16, R298, R373). -/
def execResumeBlock (c : Nat) (s : State) : Out1 :=
  let x := tgetD s.clusters c {}
  let l := s.launch x.launch
  if !(x.saved && l.back.head? == some c && s.canDeal l && s.mayPlace x.launch && s.onTurn x.launch &&
      x.blocks.all fun u => !s.entryNames (s.block u)) then .next s
  else match s.backSite l with
    | none => .next s
    | some (_, h, cores) =>
      let s1 := (x.blocks.zip cores).foldl (fun s e => s.moveBlock e.1 e.2.1 e.2.2) s
      let regs := (x.cmds.map fun k => (k.blk, k.tids, s1.cmdLocks k)) ++ x.epis.map fun k => (k.blk, k.tids, s1.epiLocks k)
      let room := (x.blocks.zip cores).all fun e =>
        decide ((x.cmds.filter (·.blk == e.1)).length ≤ s.queueRoom e.2.1 1 ∧ (x.epis.filter (·.blk == e.1)).length ≤ s.queueRoom e.2.1 4)
      match if room then s1.reRegister regs else .error none with
      | .error none => .next s
      | .error (some (u, ts)) => .next (s.resumeFull s1 u ts)
      | .ok s2 =>
        let s2 := x.cmds.foldl (fun s k => s.setCore (s.block k.blk).core fun y => { y with engq := y.engq ++ [{ k with mark := s.seq }] }) s2
        let s2 := x.epis.foldl (fun s k => s.setCore (s.block k.blk).core fun y => { y with epiq := y.epiq ++ [k] }) s2
        let hw := min l.ncb (8 - s.houseBars h)
        let s2 := s2.setCluster c fun y =>
          { y with saved := false, cmds := [], epis := [], house := h, hw := hw, placedAt := s.mod.orders }
        let s2 := { s2 with mod := { s2.mod with orders := s2.mod.orders + 1 } }
        .next ((s2.setLaunch x.launch fun l =>
          { l with back := l.back.drop 1, lastDie := if l.isGraph then l.lastDie else dieOfHouse h, poolCount := 0 }).dealt
            x.launch)

end Sys2Proof.Machine
end

