-- ==== Sys2Proof/Machine/Cycle.lean ====
section
/-! DEFINITION. Time: what one reference cycle starts, in which order its effects apply, and how a bundle's next word
is fetched (R5, R17, R40, R43, R138, R174, R209, R309, R383; log 3, log 4). -/

namespace Sys2Proof.Config
open Sys2Proof

/-- The events of free time that happen in a cycle: transfers on links and between caches, host accesses, dispatcher
choices, management traffic (log 3). -/
opaque schedule : Nat → List Instr

end Sys2Proof.Config

namespace Sys2Proof.Machine

/-! ## The order of effects in one cycle -/

/-- Rank of an instruction or event among those of one cycle: reads of counters and masks as they stood before, results
that land, SWR (before every flag event, R198, R301), EXITs, deliveries, tile states, then the rejoin-mask changes in the
order of R138, everything else, the cycle's end, and the Mint's work for the next cycles. -/
def cycleRank : Instr → Nat
  | .cntrd _ | .cntrdCfg _ | .jget _ => 0
  | .resultWriteback _ | .wrqComplete _ => 5
  | .cntcfg _ | .counterCfgWrite _ _ _ => 10
  | .swr _ => 12
  | .exit _ => 14
  | .copyEngineDelivery _ _ | .engineCommandComplete _ _ _ | .acpComplete _ | .epilogueComplete _ => 16
  | .blockComplete _ => 17
  | .tfillEnd _ | .tscanEnd _ => 18
  | .tdecl _ | .tfill _ | .tfillIdent _ | .tscan _ | .tfree _ | .tmarkDemote _ | .tmarkRetype _ | .tcopy _
  | .gathTile _ => 20
  | .jdrop _ => 40
  | .jset _ => 45
  | .jarm _ | .call _ | .callx _ => 50
  | .done _ | .emitcCancel _ => 58
  | .windowStoreAck _ => 59
  | .jwait _ => 80
  | .matrixPass _ => 91
  | .octetOperationComplete _ | .steal _ _ => 92
  | .epilogueDrain _ => 93
  | .groupAged _ _ => 94
  | .bundleForm _ => 99
  | i => if (encode i).isSome then 60 else 90

/-- What a bundle's fetch brings at a cycle's start; that word is executed, or that failure taken (R43, R51, R138). -/
def State.peek (s : State) (b : Bundle) : Early :=
  match (s.fetch b.blk (b.base.toNat + 8 * (b.index.toNat + 1))).2 with
  | .ok w => .word w
  | .error f => .failed f

/-- The members of a bundle whose guard is true and that do not trap at decode (R174, R358). -/
def State.actors (s : State) (b : Bundle) (i : Instr) : List Nat :=
  b.tids.filter fun t => (s.thread b.blk t).guards i && (s.illegal b.blk t i).isNone

/-- Whether an EPI or EPIQ of a bundle makes a tile FILLING: DKIND of the parameter block that its actor names. Such a
command is ranked with the other changes of tile states, before the cycle's scratchpad accesses (R171, R200, R201). -/
def State.epiTiled (s : State) (b : Bundle) (i : Instr) (r : RX) : Bool :=
  match (clauseFault b.hdr b.index.toNat i).isNone, s.actors b i with
  | false, _ | _, [] => false
  | true, t :: _ => mread (s.block b.blk).scratch (((s.thread b.blk t).rd r.a.toNat).toNat + 0x0D) 1 / 8 % 2 == 1

/-- The rank of a bundle's instruction. -/
def State.issueRank (s : State) (b : Bundle) (i : Instr) : Nat :=
  match i with
  | .epi r | .epiq r => if s.epiTiled b i r then 20 else cycleRank i
  | _ => cycleRank i

/-- The order that commands enter in: 1 the cohort commands (R279), 2 the epilogue commands (R200), 0 everything else. -/
def queueClass : Instr → Nat
  | .tcopy _ | .bcopy _ | .gath _ | .gathTile _ | .scat _ => 1
  | .epi _ | .epiq _ => 2
  | _ => 0

/-- The bundle and the instruction of an item whose word is known. -/
def State.issuing (s : State) : Work → Option (Bundle × Instr)
  | .issue id (.word w) => (tget s.bundles id).bind fun b => (decodeLoose w).toOption.map fun i => (b, i)
  | _ => none

/-- The lowest thread of a bundle, and its block's index (R40). -/
def State.bundleKey (s : State) (b : Bundle) : Nat × Nat := (b.tids.headD 0, (s.block b.blk).resIdx)

/-- The member that acts for its bundle in an instruction on a tile: the lowest that executes it (R174, R358). -/
def State.acting (s : State) (b : Bundle) (i : Instr) : Nat := (s.actors b i).headD (b.tids.headD 0)

/-- Whether a command that changes no tile enters its queue ahead of one of the same core and class that does, and so is
ranked with it: they enter in ascending order of the bundles' lowest threads (R40, R279, log 86). -/
def State.leads (s : State) (ws : List Work) (b : Bundle) (i : Instr) : Bool :=
  queueClass i != 0 && ws.any fun w => match s.issuing w with
    | some (c, j) =>
      queueClass j == queueClass i && c.core == b.core && s.issueRank c j == 20 &&
        (decide ((s.bundleKey b).1 < (s.bundleKey c).1) ||
          ((s.bundleKey b).1 == (s.bundleKey c).1 && decide ((s.bundleKey b).2 < (s.bundleKey c).2)))
    | none => false

/-- The sort key of an item among the given ones: rank, lowest thread index, resident-block index (R40); an instruction on
a tile goes by its acting thread (R174). -/
def State.workKey (s : State) (ws : List Work) : Work → Nat × Nat × Nat
  | .issue id w =>
    match s.issuing (.issue id w), tget s.bundles id with
    | some (b, i), _ =>
      let rank := if s.leads ws b i then 20 else s.issueRank b i
      (rank, if rank = 20 ∧ queueClass i = 0 then s.acting b i else (s.bundleKey b).1, (s.bundleKey b).2)
    | none, some b => (60, s.bundleKey b)
    | none, none => (60, 0, 0)
  | .exits _ => (15, 0, 0)
  | .order => (19, 0, 0)
  | .arrive u id => (60, (((s.block u).arrivals.find? (·.id == id)).map (·.low)).getD 0, (s.block u).resIdx)
  | .confirms _ => (61, 0, 0)
  | .clearing _ => (90, 0, 0)
  | .thieves => (92, 0, 0)
  | .drain _ => (90, 0, 0)
  | .settle _ => (95, 0, 0)
  | .ev i => (cycleRank i, 0, 0)

def keyLt (a b : Nat × Nat × Nat) : Bool :=
  decide (a.1 < b.1) || (a.1 == b.1 && (decide (a.2.1 < b.2.1) || (a.2.1 == b.2.1 && decide (a.2.2 < b.2.2))))

/-- Items of a cycle in their order. -/
def State.sorted (s : State) (ws : List Work) : List Work :=
  (sortBy (fun a b => keyLt a.1 b.1) (ws.map fun w => (s.workKey ws w, w))).map (·.2)

/-! ## What happens in a cycle -/

/-- The event that a due job is. -/
def JobKind.event (k : Nat) : JobKind → Instr
  | .result _ _ _ _ _ => .resultWriteback k
  | .windowAck _ _ _ _ _ _ _ _ _ => .windowStoreAck k
  | .fillEnd _ _ _ _ _ => .tfillEnd k
  | .scanEnd _ _ _ _ _ => .tscanEnd k
  | .wrq _ _ _ _ _ _ _ _ _ _ => .wrqComplete k
  | .acp _ _ _ _ _ _ _ _ _ => .acpComplete k

/-- Cores that hold a resident block or a bundle, each once. -/
def State.activeCores (s : State) : List Nat :=
  dedupN (((s.blocks.filter fun e => !e.2.run.preempted && !e.2.run.completed).map (·.2.core)) ++
    s.bundles.map (·.2.core) ++ (s.cores.filter fun e => e.2.mq != [] || e.2.epiq != [] || e.2.pass.isSome).map (·.1))

/-- Updates at an L1 up to the last ATOM's whose 48 cycles are over: they are applied in this cycle (R248, R260). -/
def Core.dueUpdates (c : Core) (now : Nat) : Nat :=
  let due (p : Update) : Bool := p.atomAt.any fun t => decide (t + 48 ≤ now)
  (List.range c.upds.length).foldl (fun n i => if (c.upds[i]?).any due then i + 1 else n) 0

/-- Events of one core that the manual times. -/
def State.coreEvents (s : State) (c : Nat) : List Instr :=
  let x := s.core c
  (if x.mq = [] then [] else .matrixPass c :: x.mq.map fun _ => .octetOperationComplete c) ++
  (if x.epiq = [] then [] else [.epilogueComplete c, .epilogueDrain c]) ++ [.bundleForm c]

/-- Events of one block that the manual times: age, watchdog, full ring, completion, another attempt. -/
def State.blockEvents (s : State) (u : Nat) (b : Block) : List Instr :=
  let now := s.nowB u
  ((b.threads.filter fun e => e.2.st == .ready && !e.2.aged && decide (2048 ≤ now - e.2.since)).map fun e =>
    .groupAged u e.1) ++
  (if 2 ^ (s.die (dieOf b.core)).wdlog.toNat ≤ b.run.wdog ∧ !b.run.stopped then [.watchdog u] else []) ++
  (if 65536 ≤ b.run.ringFull then [.ringDeadlock u] else []) ++
  (if b.run.discarded then [.blockRetry u] else [])

/-- Blocks that may complete, or whose DONE event is to be written (R327). -/
def Block.ending (b : Block) : Bool :=
  !b.run.discarded && (if b.run.completed then b.run.eventDue.isSome else b.threads.all fun e => e.2.exited)

/-- Launches in the order in which the dispatcher serves them: by falling priority, then by order (R326). -/
def State.served (s : State) : List (Nat × Launch) :=
  sortBy (fun a b => decide (b.2.prio < a.2.prio) || (a.2.prio == b.2.prio && decide (a.2.order < b.2.order))) s.launches

/-- What the dispatcher and the Clearing Houses try for a launch in a cycle (R324-R341). -/
def State.launchEvents (n : Nat) (l : Launch) : List Instr :=
  match l.st with
  | .waiting => [.launchStart n]
  | .complete => [.launchComplete n]
  | .running =>
    (l.back.head?.toList.map .resumeBlock) ++
    (if l.isGraph then
      (if l.seedsLeft = 0 then [] else [.seedChunk n])
     else if l.unplaced then [.clusterPlace n] else []) ++
    (if l.starveTime = 0 then [] else [.starvationPreempt n]) ++
    (if l.poolCount < 65536 then [] else [.queuePoolExhausted n]) ++
    (if l.isOver then [.launchComplete n] else [])

/-- The launchers of a graph launch with records, as they stand after the cycle's commits (R340). -/
def State.clearingWork (s : State) (n : Nat) : List Work :=
  (s.launch n).filled.flatMap fun e => [.ev (.launcherTimer n e.1 e.2), .ev (.batchLaunch n e.1 e.2)]

/-- The thieves of every graph launch with records, in ascending die and cluster, after all the launches of the cycle (R340). -/
def State.thefts (s : State) : List Work :=
  let ls := (s.served.filter fun e => e.2.st == .running && e.2.isGraph && e.2.filled != []).map (·.1)
  (List.range 108).flatMap fun h => ls.map fun n => .ev (.steal n h)

/-- Queues from which a card may be taken: 0 to 15 of the host, 16 + d of die d (R320, R329). -/
def State.cardQueues (s : State) : List Nat :=
  ((s.mod.queues.filter fun e => decide (e.1 < 16) && e.2.qhead != e.2.qtail && !e.2.qdis).map (·.1)) ++
    ((s.dmem.filter fun e => e.2.devq != []).map fun e => 16 + e.1)

/-- Dies whose clock has an edge in this reference cycle (R383). -/
def State.ticking (s : State) : List Nat :=
  (List.range 9).filter fun d => decide (1050 ≤ (s.die d).acc + (s.die d).pclk.toNat)

/-- The events that the clock brings in a cycle, over the dies that have an edge. -/
def State.dueEvents (s : State) (dies : List Nat) : List Instr :=
  ((s.jobs.filter fun e => dies.contains e.2.die && decide (e.2.due ≤ s.now e.2.die)).map fun e =>
    e.2.kind.event e.1) ++
  ((s.activeCores.filter fun c => dies.contains (dieOf c)).flatMap s.coreEvents) ++
  ((s.cores.filter fun e => dies.contains (dieOf e.1)).flatMap fun e =>
    List.replicate (e.2.dueUpdates (s.now (dieOf e.1))) (.writeUpdate e.1)) ++
  ((s.blocks.filter fun e => dies.contains (dieOf e.2.core) && !e.2.run.preempted && !e.2.run.completed).flatMap fun e =>
    s.blockEvents e.1 e.2) ++
  ((dies.filter fun d => (s.die d).postDue (s.now d) != []).map .supervisorPostRetry) ++
  ((s.blocks.filter fun e => dies.contains (dieOf e.2.core) && e.2.ending).map fun e => .blockComplete e.1) ++
  (if dies.contains 0 && s.mod.boot == .supervisor then s.cardQueues.map .cardTake ++ s.served.flatMap fun e => State.launchEvents e.1 e.2 else []) ++
  ((dies.filter fun d => s.tileStarved d != []).map .tileEntryExhaustion) ++
  ((s.clusters.filter fun e => e.2.saving).map fun e => .preempt e.1) ++
  ((s.hbm.filter fun e => e.2.qreq && !e.2.qack).map fun e => .qreqSet e.1) ++
  if s.powerDue then [.powerControlTick] else []

/-- Host cores that perform in a cycle the stores that they keep, free which (R275). -/
def State.drains (s : State) : List Work :=
  ((dedupN (s.mod.hostBuf.map (·.hart))).filter fun h => Config.choice (s.sched + h) % 2 == 0).map .drain

/-- A block's watchdog and full-ring counts advance (R204, R370); the full-ring count also while the block is saved (log 107). -/
def State.countBlock (s : State) (u : Nat) (b : Block) : Block :=
  let named := (List.range 9).any fun d => (s.die d).entries.any fun e => e.launch == b.cfg.launch && e.bid == b.cfg.bid
  let live := b.threads.any fun e => !e.2.exited
  let full := b.cfg.nring != 0 && (List.range b.cfg.nring).all fun q => (tgetD b.slots q {}).st == .sealed
  let epi := (s.core b.core).epiq.any fun c => c.blk == u
  { b with run := { b.run with
      wdog := if live && !named && !b.run.preempted && !b.run.discarded then b.run.wdog + 1 else b.run.wdog,
      ringFull := if full && !epi then b.run.ringFull + 1 else 0 } }

/-- A die's registers at an edge: the counter values that CNTRD may still return (R309), and the end of a purge (R355). -/
def State.edgeDie (s : State) (d : Nat) : State :=
  let over_ := s.purged (s.die d).sdmark
  s.setDie d fun y =>
    let x := y.tallied
    { x with ctrs := x.ctrs.map (fun (k, c) => (k, { c with past := (c.val :: c.past).take 17 })), sdgo := x.sdgo && !over_ }

/-- The edge of a reference cycle: events 0x00 and 0x10 of the cycle that ends, and every event of it at the counters
(R309); the dies' cycles, the TSC and the counts of blocks and launches. -/
def State.edge (s : State) (dies : List Nat) : State :=
  let s := dies.foldl (fun s d => s.tickDie d 0x00 none 1) s
  let s := (s.cores.map (·.1)).foldl (fun s c =>
    if dies.contains (dieOf c) then
      let s := s.tick c 0x00 none none 1
      (if 64 ≤ (s.core c).fifoUsed then s.tick c 0x10 none none 1 else s).setCore c Core.tallied
    else s) s
  let s := (List.range 9).foldl (fun s d => s.setDie d fun x =>
    if dies.contains d then { x with acc := x.acc + x.pclk.toNat - 1050, cycle := x.cycle + 1 }
    else { x with acc := x.acc + x.pclk.toNat }) (dies.foldl State.edgeDie s)
  let t := s.tscAcc + 1000
  let s := { s with cycle := s.cycle + 1, tsc := if 1050 ≤ t then s.tsc + 1 else s.tsc,
                    tscAcc := if 1050 ≤ t then t - 1050 else t }
  { s with
    blocks := s.blocks.map (fun (u, b) => if dies.contains (dieOf b.core) then (u, s.countBlock u b) else (u, b)),
    launches := s.launches.map (fun (n, l) => (n, s.countLaunch dies n l)),
    hbm := s.hbm.map fun (k, x) => (k, x.edge) }

/-- Events of free time: no instruction of a bundle, and none that the clock brings. -/
def isFree : Instr → Bool
  | .matrixPass _ | .octetOperationComplete _ | .epilogueComplete _ | .epilogueDrain _ | .bundleForm _ | .groupAged _ _
  | .watchdog _ | .ringDeadlock _ | .blockRetry _ | .blockComplete _ | .supervisorPostRetry _ | .powerControlTick
  | .resultWriteback _ | .windowStoreAck _ | .tfillEnd _ | .tscanEnd _ | .wrqComplete _ | .acpComplete _
  | .cardTake _ | .launchStart _ | .launchComplete _ | .resumeBlock _ | .seedChunk _ | .launcherTimer _ _ _
  | .batchLaunch _ _ _ | .steal _ _ | .clusterPlace _ | .starvationPreempt _ | .queuePoolExhausted _
  | .tileEntryExhaustion _ | .preempt _ => false
  | i => (encode i).isNone

/-- What can happen before the supervisor runs (R381, R382): the ROM and the management port; under the loader also
links that train and accesses of host cores. -/
def bootAllows (b : Boot) (i : Instr) : Bool :=
  match b, i with
  | .supervisor, _ => true
  | _, .powerOnBoot _ _ _ _ | _, .mctpPacket _ _ | _, .spdmGetMeasurements _ => true
  | .loader, .cxlLinkTrained _ | .loader, .wofortPortTrained _ | .loader, .hostCoreAccess _ _ _ _ => true
  | _, _ => false

/-- The next reference cycle: its edge, and its work in order. -/
def State.newCycle (s : State) : State :=
  let dies := s.ticking
  let s := s.edge dies
  let issues := (s.bundles.filter fun e =>
    dies.contains (dieOf e.2.core) && !e.2.ended && e.2.next == s.now (dieOf e.2.core)).map fun e =>
    Work.issue e.1 (s.peek e.2)
  let evs : List Work := ((s.dueEvents dies) ++ (Config.schedule s.sched).filter fun i => isFree i && bootAllows s.mod.boot i).map Work.ev
  let cores := s.activeCores.filter fun c => dies.contains (dieOf c)
  let arrivals := cores.flatMap fun c => (s.residents c).flatMap fun e => e.2.arrivals.map fun a => Work.arrive e.1 a.id
  let houses := if dies.contains 0 then ((s.served.filter fun e => e.2.st == .running && e.2.isGraph).map fun e =>
    Work.clearing e.1) ++ [.thieves] else []
  { s with sched := s.sched + 1, cur := none,
           work := s.sorted (issues ++ arrivals ++ evs ++ s.drains ++ houses ++ .order :: cores.map Work.exits ++
             cores.map Work.confirms ++ cores.map Work.settle) }

/-! ## Fetching a bundle's next word -/

/-- A word fetch that does not succeed: every member is parked alone or traps at the word's index (R43, R358, log 67). -/
def State.wordFail (s : State) (bid : Nat) (b : Bundle) (va : Nat) (f : XRes) : State :=
  b.tids.foldl (fun s t =>
    let s := (s.leave bid t).setThread b.blk t fun x => { x with base := b.base, index := b.index, hdr := some b.hdr, gang := none }
    s.fetchFail b.blk t va b.index.toNat f) s

/-- A word that decodes to nothing: every member takes illegal-instruction, subcode 5 hiding 6 and above (R46, R73). -/
def State.wordIllegal (s : State) (bid : Nat) (b : Bundle) (w : DWord) (sub : Nat) : State :=
  let n := if 5 < sub ∧ !s.featsOk ((s.block b.blk).rawFeats (s.nowB b.blk) w) then 5 else sub
  b.tids.foldl (fun s t => (s.leave bid t).trapAt b.blk t b.base b.index.toNat 1 n 0 w 0) s

/-- What a fetch brings, given what it has brought at the cycle's start (R43, R51, R138). -/
def Early.result (e : Early) (now : Except XRes DWord) : Except XRes DWord :=
  match e with
  | .none => now
  | .word w => .ok w
  | .failed f => .error f

/-- A bundle's next word is fetched and decoded: the instruction, or the state after the failure. What the fetch has
brought at the cycle's start is what counts. -/
def State.nextInstr (s : State) (bid : Nat) (early : Early) : State × Option Instr :=
  match tget s.bundles bid with
  | none => (s, none)
  | some b =>
    if b.ended then (s, none)
    else
      let va := b.base.toNat + 8 * (b.index.toNat + 1)
      let (s, now) := s.fetch b.blk va
      match early.result now with
      | .error f => (s.wordFail bid b va f, none)
      | .ok w =>
        match decodeLoose w with
        | .ok i => (s, some i)
        | .error n => (s.wordIllegal bid b w n, none)

/-! ## Placing one instruction where the next step fetches it -/

/-- The physical address and the clause that `placeWord` uses: the first word of the clause at virtual address 0. -/
def placedBundle (u w : Nat) : Bundle :=
  { blk := u, core := 0, members := (List.range 16).map fun t => (t, t), base := 0, index := 0,
    hdr := BitVec.ofNat 64 (classOf (w / 2 ^ 56 % 256) * 2 ^ 60 + 2 ^ 55 + 6 * 2 ^ 45), quads := [0], next := 0 }

/-- A block of sixteen threads on core 0 of die 0 stands in a cohort-gathering clause of one word; the word is at
physical address 8, mapped at virtual address 8 (log 9). -/
def State.placeWord (s : State) (w : Nat) : State :=
  let s := s.physPut 8 (leBytes 8 w)
  let s := { s with stale := s.stale.filter fun e => e.1 != 1 }
  let t : Tlb := { slice := 0, vpage := 0, cid := 0, level := 0, entry := 0xCF }
  let s := s.setDm 0 fun m => { m with tlb := t :: m.tlb }
  let u := s.mod.uids
  let l := tfresh s.launches
  let bid := tfresh s.bundles
  let b : Block := { cfg := { launch := l, limit := 256 }, core := 0,
                     threads := (List.range 16).map fun t => (t, { st := .issuing, limit := 256 }) }
  { s with mod := { s.mod with uids := u + 1, boot := .supervisor }, blocks := tset s.blocks u b, launches := tset s.launches l { st := .running },
           bundles := tset s.bundles bid (placedBundle u w), work := .issue bid .none :: s.work }

end Sys2Proof.Machine
end

