-- ==== Sys2Proof/Machine/Floating.lean ====
section
/-! DEFINITION. Floating-point arithmetic, comparison and special functions (R120-R126). -/

namespace Sys2Proof.Machine

/-- A binary32 result of registers A and B. -/
def float2 (s : State) (i : Instr) (r : RR) (f : Nat → Nat → Nat) : Out1 :=
  alu s i 1 fun _ _ th =>
    { regs := [(r.d.toNat, BitVec.ofNat 32 (f (th.rd r.a.toNat).toNat (th.rd r.b.toNat).toNat))] }
/-- A binary32 result of register A, of fixed latency. -/
def float1 (s : State) (i : Instr) (r : RR) (f : Nat → Nat) : Out1 :=
  alu s i 1 fun _ _ th => { regs := [(r.d.toNat, BitVec.ofNat 32 (f (th.rd r.a.toNat).toNat))] }
/-- A binary32 result of register A, of variable latency (R111, R112). -/
def floatV (s : State) (i : Instr) (r : RR) (f : Nat → Nat) : Out1 :=
  aluV s i 4 fun _ _ th => { regs := [(r.d.toNat, BitVec.ofNat 32 (f (th.rd r.a.toNat).toNat))] }

/-- FADD (R121, R122). -/
def execFadd (r : RR) (m : Rnd) (s : State) : Out1 := float2 s (.fadd r m) r (fAdd f32 m)
/-- FMUL (R121). -/
def execFmul (r : RR) (m : Rnd) (s : State) : Out1 := float2 s (.fmul r m) r (fMul f32 m)
/-- FFMA: one rounding (R121). -/
def execFfma (r : RR) (m : Rnd) (s : State) : Out1 :=
  alu s (.ffma r m) 1 fun _ _ th =>
    { regs := [(r.d.toNat, BitVec.ofNat 32
        (fFma f32 m (th.rd r.a.toNat).toNat (th.rd r.b.toNat).toNat (th.rd r.c.toNat).toNat))] }
/-- FMIN (R123). -/
def execFmin (r : RR) (s : State) : Out1 := float2 s (.fmin r) r (fMinMax f32 false)
/-- FMAX (R123). -/
def execFmax (r : RR) (s : State) : Out1 := float2 s (.fmax r) r (fMinMax f32 true)
/-- FCMP (R120). -/
def execFcmp (r : RR) (c : Cmp) (s : State) : Out1 :=
  alu s (.fcmp r c) 1 fun _ _ th =>
    { preds := [(r.d.toNat, fCmp f32 c (th.rd r.a.toNat).toNat (th.rd r.b.toNat).toNat && th.rdP r.c.toNat)] }
/-- FCLASS (R125). -/
def execFclass (r : RR) (s : State) : Out1 := float1 s (.fclass r) r fClass
/-- FRND (R124). -/
def execFrnd (r : RR) (m : Rnd) (s : State) : Out1 := float1 s (.frnd r m) r (fRnd m)
/-- FSQRT (R124). -/
def execFsqrt (r : RR) (m : Rnd) (s : State) : Out1 := floatV s (.fsqrt r m) r (fSqrt m)

/-! ## Packed pairs of 16-bit elements (R96, R121) -/

/-- The 16-bit format of a packed instruction. -/
def halfFmt (bf : Bool) : Fmt := if bf then bf16 else f16
/-- An element-wise operation on two packed registers. -/
def pack2 (f : Nat → Nat → Nat) (a b : Nat) : Nat :=
  f (a % 65536) (b % 65536) + 65536 * f (a / 65536) (b / 65536)

/-- HADD2 (R121). -/
def execHadd2 (r : RR) (bf : Bool) (m : Rnd) (s : State) : Out1 :=
  float2 s (.hadd2 r bf m) r (pack2 (fAdd (halfFmt bf) m))
/-- HMUL2 (R121). -/
def execHmul2 (r : RR) (bf : Bool) (m : Rnd) (s : State) : Out1 :=
  float2 s (.hmul2 r bf m) r (pack2 (fMul (halfFmt bf) m))
/-- HFMA2 (R121). -/
def execHfma2 (r : RR) (bf : Bool) (m : Rnd) (s : State) : Out1 :=
  alu s (.hfma2 r bf m) 1 fun _ _ th =>
    let a := (th.rd r.a.toNat).toNat
    let b := (th.rd r.b.toNat).toNat
    let c := (th.rd r.c.toNat).toNat
    { regs := [(r.d.toNat, BitVec.ofNat 32
        (fFma (halfFmt bf) m (a % 65536) (b % 65536) (c % 65536) +
          65536 * fFma (halfFmt bf) m (a / 65536) (b / 65536) (c / 65536)))] }
/-- HMIN2 (R123). -/
def execHmin2 (r : RR) (bf : Bool) (s : State) : Out1 := float2 s (.hmin2 r bf) r (pack2 (fMinMax (halfFmt bf) false))
/-- HMAX2 (R123). -/
def execHmax2 (r : RR) (bf : Bool) (s : State) : Out1 := float2 s (.hmax2 r bf) r (pack2 (fMinMax (halfFmt bf) true))

/-! ## binary64 (R121) -/

/-- DADD. -/
def execDadd (r : RR) (m : Rnd) (s : State) : Out1 :=
  alu s (.dadd r m) 4 fun _ _ th =>
    { regs := resW true r.d.toNat (fAdd f64 m (th.rdN true r.a.toNat) (th.rdN true r.b.toNat)) }
/-- DMUL. -/
def execDmul (r : RR) (m : Rnd) (s : State) : Out1 :=
  alu s (.dmul r m) 4 fun _ _ th =>
    { regs := resW true r.d.toNat (fMul f64 m (th.rdN true r.a.toNat) (th.rdN true r.b.toNat)) }
/-- DFMA. -/
def execDfma (r : RR) (m : Rnd) (s : State) : Out1 :=
  alu s (.dfma r m) 4 fun _ _ th =>
    { regs := resW true r.d.toNat
        (fFma f64 m (th.rdN true r.a.toNat) (th.rdN true r.b.toNat) (th.rdN true r.c.toNat)) }
/-- DCMP (R120). -/
def execDcmp (r : RR) (c : Cmp) (s : State) : Out1 :=
  alu s (.dcmp r c) 4 fun _ _ th =>
    { preds := [(r.d.toNat, fCmp f64 c (th.rdN true r.a.toNat) (th.rdN true r.b.toNat) && th.rdP r.c.toNat)] }

/-! ## Special functions (R126) -/

/-- FRCP. -/
def execFrcp (r : RR) (s : State) : Out1 := floatV s (.frcp r) r fRcp
/-- FRSQ. -/
def execFrsq (r : RR) (s : State) : Out1 := floatV s (.frsq r) r fRsq
/-- FEXP2. -/
def execFexp2 (r : RR) (s : State) : Out1 := floatV s (.fexp2 r) r fExp2
/-- FLOG2. -/
def execFlog2 (r : RR) (s : State) : Out1 := floatV s (.flog2 r) r fLog2
/-- FSIN. -/
def execFsin (r : RR) (s : State) : Out1 := floatV s (.fsin r) r fSin
/-- FCOS. -/
def execFcos (r : RR) (s : State) : Out1 := floatV s (.fcos r) r fCos
/-- FTANH. -/
def execFtanh (r : RR) (s : State) : Out1 := floatV s (.ftanh r) r fTanh

end Sys2Proof.Machine
end

