-- ==== Sys2Proof/Machine/HostControl.lean ====
section
/-! DEFINITION. Control space: what a host core's write to each register does, and what it reads (R314-R316, R319,
R349, R374-R378). -/

namespace Sys2Proof.Machine

/-! ## Module block (R376, R378) -/

/-- FEATCAP: capability bits 0 to 12 (R76). -/
def featCap : BitVec 128 := 0x1FFF

/-- A change of FEATSEL or ROUTE may take effect (R378). -/
def State.quietLaunches (s : State) : Bool :=
  s.running.isEmpty && s.mod.queues.all fun e => e.2.qhead == e.2.qtail

def State.setMerr (s : State) : State := { s with mod := { s.mod with merr := true } }

/-- One of the four held words of FEATSEL; the highest commits. A held word that has not been written is 0, which the manual
leaves open (R378, log 12). -/
def State.writeFeat (s : State) (i : Nat) (v : Word) : State :=
  let s := { s with mod := { s.mod with feath := tset s.mod.feath i v } }
  if i ≠ 3 then s
  else if s.quietLaunches then
    let w (k : Nat) := tgetD s.mod.feath k 0
    { s with mod := { s.mod with featsel := (w 3 ++ w 2 ++ w 1 ++ w 0) &&& featCap } }
  else s.setMerr

/-- FEATSEL_COMMIT: an 8-byte write at 0x018 or a 4-byte write at 0x01C (R378). -/
def execFeatselCommit (size : Nat) (v : DWord) (s : State) : Out1 :=
  .next (if size = 8 then (s.writeFeat 2 (loHalf v)).writeFeat 3 (hiHalf v) else s.writeFeat 3 (loHalf v))

/-- ROUTE[d] (R376, R378). -/
def State.writeRoute (s : State) (d : Nat) (v : Word) : State :=
  if s.quietLaunches then { s with mod := { s.mod with route := tset s.mod.route d (fld v 0 12) } } else s.setMerr
def execRouteWrite (d : Nat) (v : DWord) (s : State) : Out1 := event s (decide (d < 64)) (s.writeRoute d (loHalf v))

/-- MERR is cleared by writing 1 (R376). -/
def State.clearMerr (s : State) (v : Word) : State := { s with mod := { s.mod with merr := s.mod.merr && !v.getLsbD 0 } }
def execMerrClear (v : Word) (s : State) : Out1 := .next (s.clearMerr v)

/-- PLIM: a value outside 1,000 to 6,800 stores the nearer bound (R376). -/
def State.writePlim (s : State) (v : Word) : State :=
  { s with mod := { s.mod with plim := BitVec.ofNat 13 (min 6800 (max 1000 (fld v 0 13).toNat)) } }
def execPlimWrite (v : Word) (s : State) : Out1 := .next (s.writePlim v)

/-! ## Launch queues (R319, R320, R349) -/

/-- QTAIL (R320). -/
def State.writeQtail (s : State) (q : Nat) (v : Word) : State := s.setQueue q fun k => { k with qtail := v }
def execQtailWrite (q : Nat) (v : Word) (s : State) : Out1 := event s (decide (q < 16)) (s.writeQtail q v)

/-- QSIZE: ignored while cards wait; while QDIS is 1 it discards them and enables the queue (R319, R320). -/
def State.writeQsize (s : State) (q : Nat) (v : Word) : State :=
  s.setQueue q fun k =>
    if k.qdis then { k with qsize := v, qhead := k.qtail, qdis := false, fault := none, bad := false }
    else if k.qhead = k.qtail then { k with qsize := v } else k
def execQsizeWrite (q : Nat) (v : Word) (s : State) : Out1 := event s (decide (q < 16)) (s.writeQsize q v)

/-- Replace a half of a doubleword register. -/
def putHalf (x : DWord) (high : Bool) (v : Word) : DWord := if high then v ++ loHalf x else hiHalf x ++ v

/-- The other words of a queue's block: QBASE, and the context of R349. -/
def State.writeQueue (s : State) (q o : Nat) (v : Word) : State :=
  if o = 0 ∨ o = 4 then
    s.setQueue q fun k => if k.qdis || k.qhead == k.qtail then { k with qbase := putHalf k.qbase (o == 4) v } else k
  else if o = 8 then s.writeQsize q v
  else if o = 0xC then s.writeQtail q v
  else if o = 0x20 then s.setQueue q fun k => { k with root := fld k.root 32 20 ++ fld v 12 20 ++ (0 : BitVec 12) }
  else if o = 0x24 then s.setQueue q fun k => { k with root := fld v 0 20 ++ fld k.root 0 32 }
  else if o = 0x28 then s.setQueue q fun k => { k with xen := v.getLsbD 31, cid := fld v 0 16 }
  else s

/-- A word of the module block (R376). -/
def State.writeModule (s : State) (o : Nat) (v : Word) : State :=
  if 0x10 ≤ o ∧ o < 0x20 then s.writeFeat ((o - 0x10) / 4) v
  else if o = 0x20 then
    let s := s.clearMerr v
    { s with mod := { s.mod with devnum := fld v 8 6 } }
  else if o = 0x28 then s.writePlim v
  else if 0x1000 ≤ o ∧ o < 0x1400 then s.writeQueue ((o - 0x1000) / 0x40) (o % 0x40) v
  else if 0x2000 ≤ o ∧ o < 0x2200 ∧ o % 8 = 0 then s.writeRoute ((o - 0x2000) / 8) v
  else s

/-! ## Die windows (R377) -/

def State.setCmderr (s : State) (d : Nat) : State := s.setDie d fun x => { x with cmderr := true }

/-- WDLOG: a value outside 16 to 40 stores the nearer bound. -/
def State.writeWdlog (s : State) (d : Nat) (v : Word) : State :=
  s.setDie d fun x => { x with wdlog := BitVec.ofNat 6 (min 40 (max 16 (fld v 0 6).toNat)) }
def execWdlogWrite (d : Nat) (v : Word) (s : State) : Out1 := event s (decide (d < 9)) (s.writeWdlog d v)

/-- CMDERR is cleared by writing 1 in bit 8. -/
def State.clearCmderr (s : State) (d : Nat) (v : Word) : State :=
  s.setDie d fun x => { x with cmderr := x.cmderr && !v.getLsbD 8 }
def execCmderrClear (d : Nat) (v : Word) (s : State) : Out1 := event s (decide (d < 9)) (s.clearCmderr d v)

/-- The command that the four held words give (R369). -/
def State.runCommand (s : State) (d : Nat) : State :=
  let w (k : Nat) := tgetD (s.die d).cmdw k 0
  let tok := (w 0).toNat
  let reg := (fld (w 1) 8 8).toNat
  let v : DWord := w 3 ++ w 2
  match (fld (w 1) 0 4).toNat with
  | 1 => s.cmdResolved d tok
  | 2 => s.cmdUnresolved d tok
  | 3 => s.cmdRetry d tok
  | 4 => s.cmdNext d tok
  | 5 => s.cmdSetreg d tok reg v
  | 6 => s.cmdSetpred d tok reg v
  | 7 => s.cmdEndBlock d tok
  | 8 => s.cmdGrow d tok v
  | 9 => s.cmdAbort d tok
  | 10 => s.cmdResume d tok
  | 11 => s.cmdAck d tok
  | _ => s.setCmderr d

/-- A word of the command register; the highest performs the command (R377). -/
def State.writeCommand (s : State) (d i : Nat) (v : Word) : State :=
  let s := s.setDie d fun x => { x with cmdw := tset x.cmdw i v }
  if i = 3 then s.runCommand d else s

/-- SDCID and SDGO: the purge of R355 runs for the operands held (R377). -/
def State.writeSdgo (s : State) (d : Nat) (v : Word) : State :=
  let x := s.die d
  if !v.getLsbD 31 then s.setDie d fun x => { x with sdcid := fld v 0 16 }
  else if x.sdcnt = 0 ∨ x.sdva.toNat % 4096 ≠ 0 ∨ x.sdgo then s.setCmderr d
  else
    (s.purge x.sdva.toNat x.sdcnt.toNat (fld v 0 16).toNat).setDie d fun x =>
      { x with sdcid := fld v 0 16, sdgo := true, sdmark := s.seq }
def execSdgoWrite (d : Nat) (v : Word) (s : State) : Out1 := event s (decide (d < 9)) (s.writeSdgo d v)

/-- The cluster with the resident block that PELAUNCH and PEBID name. -/
def State.peTarget (s : State) (d : Nat) : Option Nat :=
  let x := s.die d
  (s.blocks.find? fun e => e.2.cfg.launch == x.pelaunch.toNat && e.2.cfg.bid == x.pebid.toNat && !e.2.run.completed &&
    !e.2.run.preempted).map (·.2.cfg.cluster)

/-- PEGO: the cluster that holds the block is pre-empted (R371, R377). -/
def State.writePego (s : State) (d : Nat) (v : Word) : State :=
  if !v.getLsbD 0 then s
  else match s.peTarget d with
    | some c =>
      if s.mayPreempt c then
        (if (tgetD s.clusters c {}).saving then s else s.startPreempt c).setDie d fun x => { x with pego := some c }
      else s.setCmderr d
    | none => s.setCmderr d
def execPegoWrite (d : Nat) (v : Word) (s : State) : Out1 := event s (decide (d < 9)) (s.writePego d v)

/-- PEGO reads 1 until the cluster is saved, or no block of it is left (R377). -/
def State.pegoBusy (s : State) (d : Nat) : Bool := (s.die d).pego.any fun c => (tgetD s.clusters c {}).saving

/-- CXLROLE, of an edge die that carries a port; a change of role drops a link that is up (R377, R379). -/
def State.writeCxlrole (s : State) (d : Nat) (v : Word) : State :=
  if d % 2 = 0 then s
  else if fld v 0 2 = 3 ∨ (fld v 0 2 = 1 ∧ ([1, 3, 5, 7].any fun e => e != d && (s.link e).cxlrole == 1)) then s.setCmderr d
  else
    let s := if fld v 0 2 = (s.link d).cxlrole ∨ !(s.link d).cxlup then s else s.linkDown (d / 2)
    s.setLink d fun x => { x with cxlrole := fld v 0 2 }
def execCxlroleWrite (d : Nat) (v : Word) (s : State) : Out1 := event s (decide (d < 9)) (s.writeCxlrole d v)

/-- CFG of a die counter: as CNTCFG, whatever CNTLOCK holds (R377). -/
def State.writeCfg (s : State) (d n : Nat) (v : Word) : State :=
  if cfgBad true v then s.setCmderr d
  else s.setDie d fun x => { x with ctrs := tset x.ctrs n ((tgetD x.ctrs n {}).configure (s.now d) 0 v) }
def execCounterCfgWrite (d n : Nat) (v : Word) (s : State) : Out1 := event s (decide (d < 9 ∧ n < 32)) (s.writeCfg d n v)

/-- The stacks of a die, in ascending number (R12). -/
def dieStacks (d : Nat) : List Nat := (List.range 16).filter fun k => stackDie k == d

/-- HMASK (R316). -/
def State.writeHmask (s : State) (k : Nat) (v : Word) : State :=
  s.setStack k fun x => if x.qack then { x with hmask := fld v 0 24 } else { x with werr := true }
/-- HPLACE (R316). -/
def State.writeHplace (s : State) (v : DWord) : State :=
  if (List.range 16).all fun k => (s.stack k).qack then ({ s with mod := { s.mod with hplace := v } } : State).rehome
  else s.setStack 0 fun x => { x with werr := true }
/-- WERR and QREQ (R314). -/
def State.writeStack (s : State) (k : Nat) (v : Word) : State :=
  s.setStack k fun x => { x with werr := x.werr && !v.getLsbD 16, qreq := v.getLsbD 0 }

/-- A word of an HBM block (R314). -/
def State.writeHbm (s : State) (k o : Nat) (v : Word) : State :=
  if o = 0 then s.writeHmask k v
  else if o = 8 then s.writeStack k v
  else if k = 0 ∧ (o = 0x10 ∨ o = 0x14) then s.writeHplace (putHalf s.mod.hplace (o == 0x14) v)
  else s

/-- PEER and WEN of a Wofort port (R377). -/
def DieLinks.writePort (x : DieLinks) (j : Nat) (v : Word) : DieLinks :=
  { x with peer := tset x.peer j (fld v 0 6), wen := tset x.wen j (v.getLsbD 8),
           wup := tset x.wup j (tgetD x.wup j false && v.getLsbD 8) }
/-- Ports of a die (R380). -/
def diePorts (d : Nat) : Nat := ((List.range 12).filter fun p => (wofortPlace p).1 == d).length

/-- What a word written in a die's window does (R377). -/
def State.writeDieWord (s : State) (d o : Nat) (v : Word) : State :=
  if o = 0x1000 ∨ o = 0x1004 then s.setDie d fun x => { x with sqbase := putHalf x.sqbase (o == 0x1004) v }
  else if o = 0x1008 then s.setDie d fun x => { x with sqsize := v }
  else if o = 0x1010 then s.setDie d fun x => { x with sqhead := v }
  else if o = 0x1014 then ((s.writeWdlog d v).clearCmderr d v).setDie d fun x => { x with sqirq := fld v 16 3 }
  else if 0x1100 ≤ o ∧ o < 0x1110 then s.writeCommand d ((o - 0x1100) / 4) v
  else if 0x2000 ≤ o ∧ o < 0x2200 then (if o % 16 = 0 then s.writeCfg d ((o - 0x2000) / 16) v else s)
  else if o = 0x2200 then s.setDie d fun x => { x with cntlock := v }
  else if 0x2208 ≤ o ∧ o < 0x2508 then
    if o % 8 = 4 then s.setCore (96 * d + (o - 0x2208) / 8) fun x => { x with lock := fld v 0 8 } else s
  else if 0x3000 ≤ o ∧ o < 0x3200 then
    match (dieStacks d)[(o - 0x3000) / 0x100]? with
    | some k => s.writeHbm k (o % 0x100) v
    | none => s
  else if o = 0x4000 ∨ o = 0x4004 then s.setDie d fun x => { x with sdva := putHalf x.sdva (o == 0x4004) v }
  else if o = 0x4008 then s.setDie d fun x => { x with sdcnt := v }
  else if o = 0x400C then s.writeSdgo d v
  else if o = 0x4100 then s.setDie d fun x => { x with pelaunch := v }
  else if o = 0x4104 then s.setDie d fun x => { x with pebid := v }
  else if o = 0x4108 then s.writePego d v
  else if o = 0x5000 then s.writeCxlrole d v
  else if 0x6000 ≤ o ∧ o < 0x6000 + 0x100 * diePorts d ∧ o % 0x100 = 0 then
    s.setLink d fun x => x.writePort ((o - 0x6000) / 0x100) v
  else s

/-- A word of a die's window is written; the die's interrupt follows SQHEAD, SQTAIL and SQIRQ (R377). -/
def State.writeDie (s : State) (d o : Nat) (v : Word) : State := (s.writeDieWord d o v).irqFrom d s

/-! ## Accesses (R374, R375) -/

/-- The window of a control-space address: a die, or 15 for the module block. -/
def ctrlUnit (a : Nat) : Nat := (a - 2 ^ 40) / 2 ^ 32

/-- One 4-byte word is written. -/
def State.writeWord (s : State) (a : Nat) (v : Word) : State :=
  if ctrlUnit a = 15 then s.writeModule (a % 2 ^ 32) v
  else if ctrlUnit a < 9 then s.writeDie (ctrlUnit a) (a % 2 ^ 32) v
  else s

/-- A host core's store to control space: aligned, of 4 or 8 bytes, else ignored (R375). -/
def State.writeControl (s : State) (a size : Nat) (v : DWord) : State :=
  if a < 2 ^ 40 ∨ 2 ^ 41 ≤ a ∨ a % size ≠ 0 then s
  else if size = 4 then s.writeWord a (loHalf v)
  else if size = 8 then (s.writeWord a (loHalf v)).writeWord (a + 4) (hiHalf v)
  else s

/-- CONTROL_REGISTER_WRITE (R375). -/
def execControlRegisterWrite (a size : Nat) (v : DWord) (s : State) : Out1 := .next (s.writeControl a size v)

/-- A word of a queue's block as it reads. -/
def HostQueue.word (k : HostQueue) (o : Nat) : Nat :=
  match o with
  | 0x00 => (loHalf k.qbase).toNat
  | 0x04 => (hiHalf k.qbase).toNat
  | 0x08 => k.qsize.toNat
  | 0x0C => k.qtail.toNat
  | 0x10 => k.qhead.toNat
  | 0x14 => b2n k.qdis
  | 0x20 => k.root.toNat / 4096 * 4096 % 2 ^ 32
  | 0x24 => k.root.toNat / 2 ^ 32
  | 0x28 => k.cid.toNat + 2 ^ 31 * b2n k.xen
  | _ => 0

/-- A word of the module block as it reads (R376). -/
def State.readModule (s : State) (o : Nat) : Nat :=
  let m := s.mod
  if o < 0x10 then featCap.toNat / 2 ^ (8 * o) % 2 ^ 32
  else if o < 0x20 then m.featsel.toNat / 2 ^ (8 * (o - 0x10)) % 2 ^ 32
  else if o = 0x20 then b2n m.merr + 256 * m.devnum.toNat
  else if o = 0x28 then m.plim.toNat
  else if 0x1000 ≤ o ∧ o < 0x1400 then (tgetD m.queues ((o - 0x1000) / 0x40) {}).word (o % 0x40)
  else if 0x2000 ≤ o ∧ o < 0x2200 ∧ o % 8 = 0 then (tgetD m.route ((o - 0x2000) / 8) 0).toNat
  else 0

/-- A word of an HBM block as it reads (R314). -/
def State.readHbm (s : State) (k o : Nat) : Nat :=
  let x := s.stack k
  if o = 0 then x.hmask.toNat
  else if o = 8 then b2n x.qreq + 256 * b2n x.qack + 65536 * b2n x.werr
  else if k = 0 ∧ o = 0x10 then (loHalf s.mod.hplace).toNat
  else if k = 0 ∧ o = 0x14 then (hiHalf s.mod.hplace).toNat
  else 0

/-- A word of a die's window as it reads (R377). -/
def State.readDie (s : State) (d o : Nat) : Nat :=
  let x := s.die d
  if o = 0 then x.pnow.toNat + 65536 * x.pclk.toNat
  else if o = 0x1000 then (loHalf x.sqbase).toNat
  else if o = 0x1004 then (hiHalf x.sqbase).toNat
  else if o = 0x1008 then x.sqsize.toNat
  else if o = 0x100C then x.sqtail.toNat
  else if o = 0x1010 then x.sqhead.toNat
  else if o = 0x1014 then x.wdlog.toNat + 256 * b2n x.cmderr + 65536 * x.sqirq.toNat
  else if 0x2000 ≤ o ∧ o < 0x2200 then
    let c := tgetD x.ctrs ((o - 0x2000) / 16) {}
    if o % 16 = 0 then c.cfg.toNat else if o % 16 = 8 then (loHalf c.val).toNat
    else if o % 16 = 12 then (hiHalf c.val).toNat else 0
  else if o = 0x2200 then x.cntlock.toNat
  else if 0x2208 ≤ o ∧ o < 0x2508 then
    if o % 8 = 4 then (s.core (96 * d + (o - 0x2208) / 8)).lock.toNat else 0
  else if 0x3000 ≤ o ∧ o < 0x3200 then
    match (dieStacks d)[(o - 0x3000) / 0x100]? with
    | some k => s.readHbm k (o % 0x100)
    | none => 0
  else if o = 0x4000 then (loHalf x.sdva).toNat
  else if o = 0x4004 then (hiHalf x.sdva).toNat
  else if o = 0x4008 then x.sdcnt.toNat
  else if o = 0x400C then x.sdcid.toNat + 2 ^ 31 * b2n x.sdgo
  else if o = 0x4100 then x.pelaunch.toNat
  else if o = 0x4104 then x.pebid.toNat
  else if o = 0x4108 then b2n (s.pegoBusy d)
  else if o = 0x5000 ∧ d % 2 = 1 then (s.link d).cxlrole.toNat + 256 * b2n (s.link d).cxlup
  else if 0x6000 ≤ o ∧ o < 0x6000 + 0x100 * diePorts d ∧ o % 0x100 = 0 then
    let j := (o - 0x6000) / 0x100
    (tgetD (s.link d).peer j 0).toNat + 256 * b2n (tgetD (s.link d).wen j false) + 512 * b2n (tgetD (s.link d).wup j false)
  else 0

/-- One 4-byte word as it reads. -/
def State.readWord (s : State) (a : Nat) : Nat :=
  if ctrlUnit a = 15 then s.readModule (a % 2 ^ 32) else if ctrlUnit a < 9 then s.readDie (ctrlUnit a) (a % 2 ^ 32) else 0

/-- A host core's load from control space (R375). -/
def State.readControl (s : State) (a size : Nat) : DWord :=
  if a % size ≠ 0 then 0
  else if size = 4 then BitVec.ofNat 64 (s.readWord a)
  else if size = 8 then BitVec.ofNat 64 (s.readWord a + 2 ^ 32 * s.readWord (a + 4))
  else 0

/-! ## Host cores (R275, R374) -/

/-- Harts that may act: in the ROM only hart 0 runs, and none after a failed check (R382). -/
def State.hartRuns (s : State) (hart : Nat) : Bool :=
  match s.mod.boot with
  | .rom => hart == 0
  | .stopped => false
  | _ => decide (hart < 72)

/-- The result of a host core's access goes to it. -/
def State.toHost (s : State) (hart v : Nat) : State := { s with out := s.out ++ [.host hart (BitVec.ofNat 64 v)] }

/-- The operator of an AMO. -/
def amoOper : HostAmo → Oper
  | .add => .add | .swap => .exch | .and => .and | .or => .or | .xor => .xor
  | .min => .minS | .max => .maxS | .minu => .minN | .maxu => .maxN

/-- Stores of a hart that are not performed yet, oldest first. -/
def State.hartStores (s : State) (hart : Nat) : List HostStore := s.mod.hostBuf.filter (·.hart == hart)
def State.setHostBuf (s : State) (l : List HostStore) : State := { s with mod := { s.mod with hostBuf := l } }

/-- A store shares a byte with an access, and holds all of its bytes. -/
def HostStore.meets (e : HostStore) (a size : Nat) : Bool := decide (e.pa < a + size) && decide (a < e.pa + e.size)
def HostStore.covers (e : HostStore) (a size : Nat) : Bool := decide (e.pa ≤ a) && decide (a + size ≤ e.pa + e.size)

/-- What a hart's load takes from the hart's own youngest store to its bytes. -/
def State.forwarded (s : State) (hart a size : Nat) : Option HostStore :=
  (s.hartStores hart).reverse.find? fun e => e.meets a size

/-- The hart is at a FENCE whose earlier stores are not all performed (R275). -/
def State.atFence (s : State) (hart : Nat) : Bool := s.mod.hostFence.contains hart

/-- A hart waits at a FENCE while it has stores that are not performed. -/
def State.setFence (s : State) (hart : Nat) (on : Bool) : State :=
  { s with mod := { s.mod with hostFence := s.mod.hostFence.filter (· != hart) ++
      (if on && s.hartStores hart != [] then [hart] else []) } }

/-- A hart's stores are performed in order, as far as their lines are free; a FENCE behind the last of them is over (R275). -/
def State.drainHart (s : State) (hart : Nat) : State :=
  let fenced := s.atFence hart
  ((s.hartStores hart).foldl (fun s e =>
    if (s.hartStores hart).head? = some e ∧ s.canTouch e.pa e.size then
      (s.setHostBuf (s.mod.hostBuf.erase e)).putLine (e.pa / 128) (lineOf (e.pa % 128) e.size e.val)
    else s) s).setFence hart fenced

/-- A FENCE of a hart: until the stores before it are performed the hart waits at it (R275). -/
def State.hartFence (s : State) (hart : Nat) : State := (s.drainHart hart).setFence hart true

/-- A host core's access is performed (R275): what it writes, and what the core receives. A store stands in the hart's store
buffer until it is performed, and the hart's own loads take their values from there. -/
def State.hostMemory (s : State) (hart a size : Nat) (op : HostOp) : State :=
  let line := a / 128
  let ks := halvesAt line a size
  let read := s.settleLine none line ks
  let old := lineVal (read.viewLine line) (a % 128) size
  let put (s : State) (v : Nat) : State := s.putLine line (lineOf (a % 128) size v)
  let drop (s : State) : State := { s with mod := { s.mod with hostResv := tdel s.mod.hostResv hart } }
  match op with
  | .load => match s.forwarded hart a size with
    | some e => s.toHost hart (e.val / 2 ^ (8 * (a - e.pa)) % 2 ^ (8 * size))
    | none => read.toHost hart old
  | .store v => s.setHostBuf (s.mod.hostBuf ++ [{ hart := hart, pa := a, size := size, val := v.toNat % 2 ^ (8 * size) }])
  | .amo f v _ _ =>
    let new (old : Nat) := opVal (amoOper f) size old (v.toNat % 2 ^ (8 * size)) 0
    let (t, b) := s.changeLine line ks fun b => lineOf (a % 128) size (new (lineVal b (a % 128) size))
    t.toHost hart (lineVal b (a % 128) size)
  | .lr _ _ =>
    ({ read with mod := { read.mod with hostResv := tset s.mod.hostResv hart line } } : State).toHost hart old
  | .sc v _ _ =>
    if tget s.mod.hostResv hart = some line then (put (drop s) v.toNat).toHost hart 0 else (drop s).toHost hart 1
  | .fence => s

/-- Whether an access may be performed before the hart's own stores that are not: none behind a FENCE; a load behind a store that
holds all its bytes or none; an AMO, LR or SC behind no store to its line, and with .rl behind none at all; a store always
(R275). -/
def State.hartFree (s : State) (hart a size : Nat) (op : HostOp) : Bool :=
  let apart := (s.hartStores hart).all fun e => e.pa / 128 != a / 128
  !s.atFence hart && match op with
  | .load => match s.forwarded hart a size with
    | some e => e.covers a size
    | none => true
  | .amo _ _ _ rl | .lr _ rl | .sc _ _ rl => if rl then s.hartStores hart == [] else apart
  | .store _ | .fence => true

/-- HOST_CORE_ACCESS: a load, store, AMO, LR, SC or FENCE of a host core takes effect (R275, R375). The order of these events
is one that the weak ordering leaves to a hart's accesses; a store then waits in the hart's buffer, and the accesses behind a
FENCE wait until the stores before it are performed. Each access is performed at its home for every agent at once, so that .aq
adds nothing to the order of the events (log 52). -/
def execHostCoreAccess (hart a size : Nat) (op : HostOp) (s : State) : Out1 :=
  if !s.hartRuns hart then .next s
  else if op = .fence then .next (s.hartFence hart)
  else match s.region a with
    | .control =>
      event s (!s.atFence hart) (match op with
        | .load => s.toHost hart (s.readControl a size).toNat
        | .store v => s.writeControl a size v
        | _ => s.toHost hart 0)
    | .undecoded => .next s
    | _ =>
      event s ((size == 1 || size == 2 || size == 4 || size == 8) && a % size == 0 && s.hartFree hart a size op &&
        s.canTouch a size) (s.hostMemory hart a size op)

end Sys2Proof.Machine
end

