-- ==== Sys2Proof/Machine/MintEvents.lean ====
section
/-! DEFINITION. The Mint's cycle, age, and results that land (R26-R37, R112). -/

namespace Sys2Proof.Machine

/-- BUNDLE_FORM: the Mint's work on the core. -/
def execBundleForm (core : Nat) (s : State) : Out1 := .next (s.mint core)

/-- GROUP_AGED: a thread has been READY for 2,048 cycles (R27). -/
def execGroupAged (u t : Nat) (s : State) : Out1 :=
  let x := s.thread u t
  event s (x.st == .ready && decide (2048 ≤ s.nowB u - x.since)) (s.setThread u t fun h => { h with aged := true })

/-- RESULT_WRITEBACK: a variable-latency result is written (R47, R112). -/
def execResultWriteback (job : Nat) (s : State) : Out1 :=
  match tget s.jobs job with
  | some ⟨d, due, .result u t regs preds sb⟩ =>
    event s (decide (due ≤ s.now d)) (({ s with jobs := tdel s.jobs job } : State).setThread u t fun h => h.landed regs preds sb)
  | _ => .next s

end Sys2Proof.Machine
end

