-- ==== Sys2Proof/Machine/Registers.lean ====
section
/-! DEFINITION. Moves, special registers, k registers, indirect access and the register pool (R83-R95). -/

namespace Sys2Proof.Machine

/-- MOV (R87). -/
def execMov (r : RR) (pair : Bool) (s : State) : Out1 :=
  alu s (.mov r pair) 1 fun _ _ t => { regs := resW pair r.d.toNat (t.rdN pair r.a.toNat) }

/-- MOVI.b32 (R88). -/
def execMoviB32 (r : RI) (s : State) : Out1 := alu s (.moviB32 r) 1 fun _ _ _ => { regs := [(r.d.toNat, r.imm)] }
/-- MOVI.s64 (R88). -/
def execMoviS64 (r : RI) (s : State) : Out1 :=
  alu s (.moviS64 r) 1 fun _ _ _ => { regs := pairW r.d.toNat (r.imm.signExtend 64) }
/-- MOVI.n64 (R88). -/
def execMoviN64 (r : RI) (s : State) : Out1 :=
  alu s (.moviN64 r) 1 fun _ _ _ => { regs := pairW r.d.toNat (r.imm.setWidth 64) }

/-- KMOV kD, vA (R83, R89). -/
def execKmovToK (r : RR) (s : State) : Out1 :=
  issue s (.kmovToK r) fun x =>
    .go (x.act.foldl (fun s t =>
      let v := (x.thr t).rd64 r.a.toNat
      (s.setThread x.u t fun h => h.kills ((Instr.kmovToK r).kills x.oc)).setBlock x.u fun b =>
        { b with kregs := tset b.kregs r.d.toNat ((tgetD b.kregs r.d.toNat {}).write x.now t v) }) x.s) 1

/-- KMOV vD, kA (R83, R89). -/
def execKmovFromK (r : RR) (s : State) : Out1 :=
  alu s (.kmovFromK r) 1 fun x _ _ =>
    { regs := pairW r.d.toNat ((tgetD x.blk.kregs r.a.toNat {}).read x.now) }

/-- Logical lane of a member of the issuing bundle (R33). -/
def Iss.lane (x : Iss) (t : Nat) : Nat :=
  match tget x.s.bundles x.bid with
  | some b => ((b.members.find? fun m => m.1 == t).map (·.2)).getD 0
  | none => 0

/-- The physical lane of a lane of a core: the lane itself, or a spare of its own quad; no two lanes have one (R15). The
spares of quad q are numbered 128 + 2 q and 129 + 2 q (log 6). -/
def physicalLane (core lane : Nat) : Nat :=
  let q := lane / 32
  let gone (k : Nat) := Config.fusedLane core q k % 33
  if gone 0 = lane % 32 then 128 + 2 * q else if gone 1 = lane % 32 then 129 + 2 * q else lane

/-- FEATCAP: bits 0 to 12 (R376). -/
def featcap : BitVec 128 := 0x1FFF

/-- The value of a special register for a thread (R85, R361), and whether it is 64 bits wide; the reserved 0x43 to 0x4F, for
which R361 gives no width, are 32 bits (log 106). -/
def srdVal (x : Iss) (t : Nat) (th : Thread) (n : Nat) : Bool × Nat :=
  let b := x.blk
  let c := b.cfg
  let feat := x.s.mod.featsel
  match n with
  | 0x00 => (false, t)
  | 0x01 => (false, c.bid)
  | 0x02 => (false, c.clid)
  | 0x03 => (false, b.cohort t)
  | 0x04 => (false, b.cohPos t)
  | 0x05 => (false, b.cohPos t % 8)
  | 0x06 => (false, b.role t)
  | 0x07 => (false, c.stage)
  | 0x08 => (false, c.depth)
  | 0x09 => (false, c.rcount)
  | 0x0A => (false, c.rbase)
  | 0x0B => (false, x.core % 96)
  | 0x0C => (false, x.die)
  | 0x0D => (false, physicalLane x.core (x.lane t))
  | 0x0E => (false, c.n)
  | 0x0F => (false, c.w)
  | 0x10 => (false, th.limit)
  | 0x11 => (false, b.pool)
  | 0x18 => (true, (x.s.tscAt x.die).toNat)
  | 0x19 => (true, feat.toNat % 2 ^ 64)
  | 0x1A => (true, feat.toNat / 2 ^ 64)
  | 0x1B => (true, featcap.toNat % 2 ^ 64)
  | 0x1C => (true, featcap.toNat / 2 ^ 64)
  | 0x20 => (false, th.mstatus.toNat)
  | 0x21 => (false, (b.engfault.read x.now).toNat)
  | 0x22 => (false, th.wrqstat.toNat)
  | 0x40 => (true, c.tbase.toNat)
  | 0x41 => (false, b2n th.inh)
  | 0x42 => (false, c.frameAddr)
  | n => if 0x30 ≤ n ∧ n ≤ 0x3F then (false, (b.fmt x.now (n - 0x30)).toNat) else (false, 0)

/-- SRD (R85, R86, R361). -/
def execSrd (r : RI) (s : State) : Out1 :=
  alu s (.srd r) 1 fun x t th =>
    let (w, v) := srdVal x t th r.imm.toNat
    { regs := resW w r.d.toNat v }

/-- Write of one special register by a thread: reserved bits are ignored (R7), an f8-f15 value is stored as written,
block-scope registers follow R83 (R86, R198, R301, R361). -/
def State.swrOne (s : State) (x : Iss) (n t : Nat) (v : Word) : State :=
  if n = 0x20 then s.setThread x.u t fun h => { h with mstatus := v &&& mstatusMask }
  else if n = 0x41 then s.setThread x.u t fun h => { h with inh := v.getLsbD 0 }
  else if n = 0x21 then
    s.setBlock x.u fun b => { b with engfault := b.engfault.write x.now t ((v &&& engfaultMask).setWidth 64) }
  else s.setBlock x.u fun b =>
    { b with fmts := tset b.fmts (n - 0x30) ((tgetD b.fmts (n - 0x30) {}).write x.now t (v.setWidth 64)) }

/-- SWR (R85, R86). -/
def execSwr (r : RI) (s : State) : Out1 :=
  issue s (.swr r) fun x =>
    .go (x.act.foldl (fun s t =>
      (s.setThread x.u t fun h => h.kills ((Instr.swr r).kills x.oc)).swrOne x r.imm.toNat t
        ((x.thr t).rd r.a.toNat)) x.s) 1

/-- Index of VGET and VSET (R92). -/
def Iss.index92 (x : Iss) (t a : Nat) : Nat := ((x.thr t).rd a).toNat % 256

/-- What VGET and VSET share: the check of the indexed register, then an effect per thread. A park on the register that
VGET reads counts (R92, R307, R358). -/
def Iss.indirect (x : Iss) (a : Nat) (source : Bool) (f : State → Nat → Nat → State) : Eff :=
  let busy := x.act.filter fun t => (x.thr t).pend.contains (x.index92 t a)
  if busy ≠ [] then
    .parkRest { x with s := x.s.tick x.core 0x07 none (some x.blk.resIdx) (b2n source) } fun t =>
      if busy.contains t then some (.pending [x.index92 t a] [] none) else none
  else
    .go (x.act.foldl (fun s t =>
      let i := x.index92 t a
      if (x.thr t).limit ≤ i ∧ i ≠ 255 then x.trap s t 1 10 else f s t i) x.s) 1

/-- VGET (R92). -/
def execVget (r : RR) (s : State) : Out1 :=
  issue s (.vget r) fun x => x.indirect r.a.toNat true fun s t i =>
    s.setThread x.u t fun h => h.put ((Instr.vget r).kills x.oc) { regs := [(r.d.toNat, (x.thr t).rd i)] }

/-- VSET (R92). -/
def execVset (r : RR) (s : State) : Out1 :=
  issue s (.vset r) fun x => x.indirect r.a.toNat false fun s t i =>
    s.setThread x.u t fun h => h.put ((Instr.vset r).kills x.oc) { regs := [(i, (x.thr t).rd r.b.toNat)] }

/-- The target T of R93: bits 8:0 rounded up to a multiple of 8, at least 8. -/
def regTarget (v : Word) : Nat := max 8 (roundUp (v.toNat % 512) 8)

/-- L′ of R93: the smallest multiple of 8 at or above T with only dead registers from it up to L; `k` chunks are left
to try. -/
def giveLimit (t : Thread) (target : Nat) : Nat → Nat
  | 0 => t.limit
  | k + 1 =>
    let l := t.limit - 8 * (k + 1)
    if target ≤ l ∧ (t.live.all fun e => decide (e.1 < l ∨ t.limit ≤ e.1)) ∧ (t.pend.all fun p => decide (p < l ∨ t.limit ≤ p)) then l
    else giveLimit t target k

/-- GIVEREG (R93). -/
def execGivereg (r : RR) (s : State) : Out1 :=
  issue s (.givereg r) fun x =>
    .go (x.act.foldl (fun s t =>
      let th := (x.thr t).kills ((Instr.givereg r).kills x.oc)
      let l := giveLimit th (regTarget ((x.thr t).rd r.a.toNat)) (th.limit / 8)
      s.setBlock x.u fun b =>
        ({ b with pool := b.pool + (th.limit - l) / 8 } : Block).setThread t fun h =>
          { (h.put ((Instr.givereg r).kills x.oc) { regs := [(r.d.toNat, BitVec.ofNat 32 l)] }) with limit := l }) x.s) 1

/-- CLAIMREG (R94): a claim that is not met at once joins the queue, ordered by cycle and thread index. -/
def execClaimreg (r : RR) (s : State) : Out1 :=
  issue s (.claimreg r) fun x =>
    .go (x.act.foldl (fun s t =>
      let l := (x.thr t).limit
      let tgt := min 256 (regTarget ((x.thr t).rd r.a.toNat))
      let s := s.setThread x.u t fun h => h.kills ((Instr.claimreg r).kills x.oc)
      if tgt ≤ l then s.setThread x.u t fun h => h.wr r.d.toNat (BitVec.ofNat 32 l)
      else
        (x.wait s t .claim).setBlock x.u fun b =>
          { b with claims := insertBy (fun a c => decide (a.cycle < c.cycle) || (a.cycle == c.cycle && decide (a.tid < c.tid)))
                               ⟨x.now, t, (tgt - l) / 8, r.d.toNat⟩ b.claims }) x.s) 1

/-- SEL (R90). -/
def execSel (r : RR) (pair : Bool) (s : State) : Out1 :=
  alu s (.sel r pair) 1 fun _ _ t =>
    { regs := resW pair r.d.toNat (t.rdN pair (if t.rdP r.c.toNat then r.a.toNat else r.b.toNat)) }

/-- PLOP (R91). -/
def execPlop (r : RR) (tbl : BitVec 8) (s : State) : Out1 :=
  alu s (.plop r tbl) 1 fun _ _ t =>
    { preds := [(r.d.toNat, tbl.getLsbD (4 * b2n (t.rdP r.a.toNat) + 2 * b2n (t.rdP r.b.toNat) + b2n (t.rdP r.c.toNat)))] }

end Sys2Proof.Machine
end

