-- ==== Sys2Proof/Machine/Dispatch.lean ====
section
/-! DEFINITION. The dispatcher: one arm for each constructor of `Instr`. -/

namespace Sys2Proof.Machine

def exec (i : Instr) (s : State) : Host.Outcome State Fault Refusal :=
  match i with
  | .bundleForm core => Sys2Proof.Machine.execBundleForm core s
  | .groupAged blk tid => Sys2Proof.Machine.execGroupAged blk tid s
  | .resultWriteback job => Sys2Proof.Machine.execResultWriteback job s
  | .blockRetry blk => Sys2Proof.Machine.execBlockRetry blk s
  | .bra r => Sys2Proof.Machine.execBra r s
  | .brx r => Sys2Proof.Machine.execBrx r s
  | .call r => Sys2Proof.Machine.execCall r s
  | .callx r => Sys2Proof.Machine.execCallx r s
  | .ret r => Sys2Proof.Machine.execRet r s
  | .exit r => Sys2Proof.Machine.execExit r s
  | .yieldHint r => Sys2Proof.Machine.execYieldHint r s
  | .nop r => Sys2Proof.Machine.execNop r s
  | .jarm r => Sys2Proof.Machine.execJarm r s
  | .jwait r => Sys2Proof.Machine.execJwait r s
  | .jdrop r => Sys2Proof.Machine.execJdrop r s
  | .jget r => Sys2Proof.Machine.execJget r s
  | .jset r => Sys2Proof.Machine.execJset r s
  | .mov r pair => Sys2Proof.Machine.execMov r pair s
  | .moviB32 r => Sys2Proof.Machine.execMoviB32 r s
  | .moviS64 r => Sys2Proof.Machine.execMoviS64 r s
  | .moviN64 r => Sys2Proof.Machine.execMoviN64 r s
  | .kmovToK r => Sys2Proof.Machine.execKmovToK r s
  | .kmovFromK r => Sys2Proof.Machine.execKmovFromK r s
  | .srd r => Sys2Proof.Machine.execSrd r s
  | .swr r => Sys2Proof.Machine.execSwr r s
  | .vget r => Sys2Proof.Machine.execVget r s
  | .vset r => Sys2Proof.Machine.execVset r s
  | .givereg r => Sys2Proof.Machine.execGivereg r s
  | .claimreg r => Sys2Proof.Machine.execClaimreg r s
  | .sel r pair => Sys2Proof.Machine.execSel r pair s
  | .plop r tbl => Sys2Proof.Machine.execPlop r tbl s
  | .iadd r t sat => Sys2Proof.Machine.execIadd r t sat s
  | .isub r t sat => Sys2Proof.Machine.execIsub r t sat s
  | .imul r t sat => Sys2Proof.Machine.execImul r t sat s
  | .imulh r t => Sys2Proof.Machine.execImulh r t s
  | .imad r t sat => Sys2Proof.Machine.execImad r t sat s
  | .imin r t => Sys2Proof.Machine.execImin r t s
  | .imax r t => Sys2Proof.Machine.execImax r t s
  | .iabs r wide sat => Sys2Proof.Machine.execIabs r wide sat s
  | .shl r wide => Sys2Proof.Machine.execShl r wide s
  | .shr r wide => Sys2Proof.Machine.execShr r wide s
  | .sar r wide => Sys2Proof.Machine.execSar r wide s
  | .and r => Sys2Proof.Machine.execAnd r s
  | .or r => Sys2Proof.Machine.execOr r s
  | .xor r => Sys2Proof.Machine.execXor r s
  | .lut3 r tbl => Sys2Proof.Machine.execLut3 r tbl s
  | .popc r => Sys2Proof.Machine.execPopc r s
  | .clz r => Sys2Proof.Machine.execClz r s
  | .brev r => Sys2Proof.Machine.execBrev r s
  | .bfx r signed => Sys2Proof.Machine.execBfx r signed s
  | .bfi r => Sys2Proof.Machine.execBfi r s
  | .icmp r c t => Sys2Proof.Machine.execIcmp r c t s
  | .lea r sh => Sys2Proof.Machine.execLea r sh s
  | .iaddImm r => Sys2Proof.Machine.execIaddImm r s
  | .andImm r => Sys2Proof.Machine.execAndImm r s
  | .orImm r => Sys2Proof.Machine.execOrImm r s
  | .xorImm r => Sys2Proof.Machine.execXorImm r s
  | .shlImm r => Sys2Proof.Machine.execShlImm r s
  | .shrImm r => Sys2Proof.Machine.execShrImm r s
  | .sarImm r => Sys2Proof.Machine.execSarImm r s
  | .fadd r m => Sys2Proof.Machine.execFadd r m s
  | .fmul r m => Sys2Proof.Machine.execFmul r m s
  | .ffma r m => Sys2Proof.Machine.execFfma r m s
  | .fmin r => Sys2Proof.Machine.execFmin r s
  | .fmax r => Sys2Proof.Machine.execFmax r s
  | .fcmp r c => Sys2Proof.Machine.execFcmp r c s
  | .fclass r => Sys2Proof.Machine.execFclass r s
  | .frnd r m => Sys2Proof.Machine.execFrnd r m s
  | .fsqrt r m => Sys2Proof.Machine.execFsqrt r m s
  | .hadd2 r bf m => Sys2Proof.Machine.execHadd2 r bf m s
  | .hmul2 r bf m => Sys2Proof.Machine.execHmul2 r bf m s
  | .hfma2 r bf m => Sys2Proof.Machine.execHfma2 r bf m s
  | .hmin2 r bf => Sys2Proof.Machine.execHmin2 r bf s
  | .hmax2 r bf => Sys2Proof.Machine.execHmax2 r bf s
  | .dadd r m => Sys2Proof.Machine.execDadd r m s
  | .dmul r m => Sys2Proof.Machine.execDmul r m s
  | .dfma r m => Sys2Proof.Machine.execDfma r m s
  | .dcmp r c => Sys2Proof.Machine.execDcmp r c s
  | .frcp r => Sys2Proof.Machine.execFrcp r s
  | .frsq r => Sys2Proof.Machine.execFrsq r s
  | .fexp2 r => Sys2Proof.Machine.execFexp2 r s
  | .flog2 r => Sys2Proof.Machine.execFlog2 r s
  | .fsin r => Sys2Proof.Machine.execFsin r s
  | .fcos r => Sys2Proof.Machine.execFcos r s
  | .ftanh r => Sys2Proof.Machine.execFtanh r s
  | .cvt r dst src m sat => Sys2Proof.Machine.execCvt r dst src m sat s
  | .cvtfEnc r => Sys2Proof.Machine.execCvtfEnc r s
  | .cvtfDec r => Sys2Proof.Machine.execCvtfDec r s
  | .keyord r wide nantop => Sys2Proof.Machine.execKeyord r wide nantop s
  | .idiv payload => Sys2Proof.Machine.execIdiv payload s
  | .shfl r m => Sys2Proof.Machine.execShfl r m s
  | .voteAll r => Sys2Proof.Machine.execVoteAll r s
  | .voteAny r => Sys2Proof.Machine.execVoteAny r s
  | .voteBallot r => Sys2Proof.Machine.execVoteBallot r s
  | .voteEq r => Sys2Proof.Machine.execVoteEq r s
  | .matchBits r wide => Sys2Proof.Machine.execMatchBits r wide s
  | .cred r op t => Sys2Proof.Machine.execCred r op t s
  | .cscan r op t excl => Sys2Proof.Machine.execCscan r op t excl s
  | .segred r op t => Sys2Proof.Machine.execSegred r op t s
  | .segscan r op t excl => Sys2Proof.Machine.execSegscan r op t excl s
  | .bqnt r => Sys2Proof.Machine.execBqnt r s
  | .selhist r => Sys2Proof.Machine.execSelhist r s
  | .selcut r => Sys2Proof.Machine.execSelcut r s
  | .selpack r => Sys2Proof.Machine.execSelpack r s
  | .selmerge r => Sys2Proof.Machine.execSelmerge r s
  | .lds r => Sys2Proof.Machine.execLds r s
  | .sts r => Sys2Proof.Machine.execSts r s
  | .windowStoreAck job => Sys2Proof.Machine.execWindowStoreAck job s
  | .ldl r => Sys2Proof.Machine.execLdl r s
  | .stl r => Sys2Proof.Machine.execStl r s
  | .atoms r => Sys2Proof.Machine.execAtoms r s
  | .tdecl r => Sys2Proof.Machine.execTdecl r s
  | .tfill r => Sys2Proof.Machine.execTfill r s
  | .tfillIdent r => Sys2Proof.Machine.execTfillIdent r s
  | .tfillEnd job => Sys2Proof.Machine.execTfillEnd job s
  | .tscan r => Sys2Proof.Machine.execTscan r s
  | .tscanEnd job => Sys2Proof.Machine.execTscanEnd job s
  | .tqry r => Sys2Proof.Machine.execTqry r s
  | .tfree r => Sys2Proof.Machine.execTfree r s
  | .tmarkDemote r => Sys2Proof.Machine.execTmarkDemote r s
  | .tmarkRetype r => Sys2Proof.Machine.execTmarkRetype r s
  | .mma r => Sys2Proof.Machine.execMma r s
  | .mmax r => Sys2Proof.Machine.execMmax r s
  | .matrixPass core => Sys2Proof.Machine.execMatrixPass core s
  | .octetOperationComplete core => Sys2Proof.Machine.execOctetOperationComplete core s
  | .slotz r => Sys2Proof.Machine.execSlotz r s
  | .slotrd r => Sys2Proof.Machine.execSlotrd r s
  | .slotwr r => Sys2Proof.Machine.execSlotwr r s
  | .epi r => Sys2Proof.Machine.execEpi r s
  | .epiq r => Sys2Proof.Machine.execEpiq r s
  | .epilogueDrain core => Sys2Proof.Machine.execEpilogueDrain core s
  | .epilogueComplete core => Sys2Proof.Machine.execEpilogueComplete core s
  | .ringDeadlock blk => Sys2Proof.Machine.execRingDeadlock blk s
  | .barv r => Sys2Proof.Machine.execBarv r s
  | .barw r => Sys2Proof.Machine.execBarw r s
  | .barx r => Sys2Proof.Machine.execBarx r s
  | .bart r => Sys2Proof.Machine.execBart r s
  | .bartOvf r => Sys2Proof.Machine.execBartOvf r s
  | .bars r => Sys2Proof.Machine.execBars r s
  | .ldg r => Sys2Proof.Machine.execLdg r s
  | .stg r => Sys2Proof.Machine.execStg r s
  | .stgw r => Sys2Proof.Machine.execStgw r s
  | .pref r => Sys2Proof.Machine.execPref r s
  | .atom r => Sys2Proof.Machine.execAtom r s
  | .red r => Sys2Proof.Machine.execRed r s
  | .fence r => Sys2Proof.Machine.execFence r s
  | .fenceSc r => Sys2Proof.Machine.execFenceSc r s
  | .mwatch r => Sys2Proof.Machine.execMwatch r s
  | .mwait r => Sys2Proof.Machine.execMwait r s
  | .cctlL1inv r => Sys2Proof.Machine.execCctlL1inv r s
  | .cctlL1all r => Sys2Proof.Machine.execCctlL1all r s
  | .cctlPub r => Sys2Proof.Machine.execCctlPub r s
  | .wrq r => Sys2Proof.Machine.execWrq r s
  | .wrqComplete job => Sys2Proof.Machine.execWrqComplete job s
  | .sliceStore core entry => Sys2Proof.Machine.execSliceStore core entry s
  | .writeUpdate core => Sys2Proof.Machine.execWriteUpdate core s
  | .l1Invalidate core line => Sys2Proof.Machine.execL1Invalidate core line s
  | .gets line => Sys2Proof.Machine.execGets line s
  | .getm line => Sys2Proof.Machine.execGetm line s
  | .getw line => Sys2Proof.Machine.execGetw line s
  | .getu line => Sys2Proof.Machine.execGetu line s
  | .writeBackData die line => Sys2Proof.Machine.execWriteBackData die line s
  | .writeBackPartial die line => Sys2Proof.Machine.execWriteBackPartial die line s
  | .cleanEviction die line => Sys2Proof.Machine.execCleanEviction die line s
  | .writeBackAck die line => Sys2Proof.Machine.execWriteBackAck die line s
  | .grant die line => Sys2Proof.Machine.execGrant die line s
  | .forwardShare die line => Sys2Proof.Machine.execForwardShare die line s
  | .forwardOwn die line => Sys2Proof.Machine.execForwardOwn die line s
  | .invalidate die line => Sys2Proof.Machine.execInvalidate die line s
  | .recall die line => Sys2Proof.Machine.execRecall die line s
  | .releaseNote core entry => Sys2Proof.Machine.execReleaseNote core entry s
  | .publishNow core entry => Sys2Proof.Machine.execPublishNow core entry s
  | .publishRequest line => Sys2Proof.Machine.execPublishRequest line s
  | .publishReply die line => Sys2Proof.Machine.execPublishReply die line s
  | .snpData line half => Sys2Proof.Machine.execSnpData line half s
  | .snpInv line half => Sys2Proof.Machine.execSnpInv line half s
  | .hostHdmAccess line half data => Sys2Proof.Machine.execHostHdmAccess line half data s
  | .translationRequest core load => Sys2Proof.Machine.execTranslationRequest core load s
  | .tcopy r => Sys2Proof.Machine.execTcopy r s
  | .bcopy r => Sys2Proof.Machine.execBcopy r s
  | .gath r => Sys2Proof.Machine.execGath r s
  | .gathTile r => Sys2Proof.Machine.execGathTile r s
  | .scat r => Sys2Proof.Machine.execScat r s
  | .engineCommandStart gather unit => Sys2Proof.Machine.execEngineCommandStart gather unit s
  | .gatherGroup die cmd home => Sys2Proof.Machine.execGatherGroup die cmd home s
  | .copyEngineDelivery core cmd => Sys2Proof.Machine.execCopyEngineDelivery core cmd s
  | .engineCommandComplete gather unit cmd => Sys2Proof.Machine.execEngineCommandComplete gather unit cmd s
  | .acp r => Sys2Proof.Machine.execAcp r s
  | .acpComplete job => Sys2Proof.Machine.execAcpComplete job s
  | .acpwait r tag => Sys2Proof.Machine.execAcpwait r tag s
  | .engqFree r => Sys2Proof.Machine.execEngqFree r s
  | .engqLast r => Sys2Proof.Machine.execEngqLast r s
  | .engqMark r => Sys2Proof.Machine.execEngqMark r s
  | .emit r => Sys2Proof.Machine.execEmit r s
  | .emita r => Sys2Proof.Machine.execEmita r s
  | .emitc r => Sys2Proof.Machine.execEmitc r s
  | .emitcCancel r => Sys2Proof.Machine.execEmitcCancel r s
  | .launch r => Sys2Proof.Machine.execLaunch r s
  | .done r => Sys2Proof.Machine.execDone r s
  | .confirm r => Sys2Proof.Machine.execConfirm r s
  | .qstatPool r => Sys2Proof.Machine.execQstatPool r s
  | .qstatNode r => Sys2Proof.Machine.execQstatNode r s
  | .qstatFail r => Sys2Proof.Machine.execQstatFail r s
  | .qstatLive r => Sys2Proof.Machine.execQstatLive r s
  | .trap r => Sys2Proof.Machine.execTrap r s
  | .eret r => Sys2Proof.Machine.execEret r s
  | .frld r n => Sys2Proof.Machine.execFrld r n s
  | .frst r n => Sys2Proof.Machine.execFrst r n s
  | .invva r => Sys2Proof.Machine.execInvva r s
  | .cntcfg r => Sys2Proof.Machine.execCntcfg r s
  | .cntrd r => Sys2Proof.Machine.execCntrd r s
  | .cntrdCfg r => Sys2Proof.Machine.execCntrdCfg r s
  | .halt r => Sys2Proof.Machine.execHalt r s
  | .supervisorPostRetry die => Sys2Proof.Machine.execSupervisorPostRetry die s
  | .resolved die token => Sys2Proof.Machine.execResolved die token s
  | .unresolved die token => Sys2Proof.Machine.execUnresolved die token s
  | .retry die token => Sys2Proof.Machine.execRetry die token s
  | .next die token => Sys2Proof.Machine.execNext die token s
  | .setreg die token reg value => Sys2Proof.Machine.execSetreg die token reg value s
  | .setpred die token reg value => Sys2Proof.Machine.execSetpred die token reg value s
  | .endBlock die token => Sys2Proof.Machine.execEndBlock die token s
  | .grow die token value => Sys2Proof.Machine.execGrow die token value s
  | .abort die token => Sys2Proof.Machine.execAbort die token s
  | .resume die token => Sys2Proof.Machine.execResume die token s
  | .ack die token => Sys2Proof.Machine.execAck die token s
  | .watchdog blk => Sys2Proof.Machine.execWatchdog blk s
  | .tileEntryExhaustion die => Sys2Proof.Machine.execTileEntryExhaustion die s
  | .queuePoolExhausted launch => Sys2Proof.Machine.execQueuePoolExhausted launch s
  | .cardTake queue => Sys2Proof.Machine.execCardTake queue s
  | .launchStart launch => Sys2Proof.Machine.execLaunchStart launch s
  | .clusterPlace launch => Sys2Proof.Machine.execClusterPlace launch s
  | .starvationPreempt launch => Sys2Proof.Machine.execStarvationPreempt launch s
  | .preempt cluster => Sys2Proof.Machine.execPreempt cluster s
  | .resumeBlock cluster => Sys2Proof.Machine.execResumeBlock cluster s
  | .blockComplete blk => Sys2Proof.Machine.execBlockComplete blk s
  | .launchComplete launch => Sys2Proof.Machine.execLaunchComplete launch s
  | .seedChunk launch => Sys2Proof.Machine.execSeedChunk launch s
  | .launcherTimer launch house node => Sys2Proof.Machine.execLauncherTimer launch house node s
  | .batchLaunch launch house node => Sys2Proof.Machine.execBatchLaunch launch house node s
  | .steal launch house => Sys2Proof.Machine.execSteal launch house s
  | .qtailWrite queue value => Sys2Proof.Machine.execQtailWrite queue value s
  | .qsizeWrite queue value => Sys2Proof.Machine.execQsizeWrite queue value s
  | .featselCommit size value => Sys2Proof.Machine.execFeatselCommit size value s
  | .routeWrite device value => Sys2Proof.Machine.execRouteWrite device value s
  | .merrClear value => Sys2Proof.Machine.execMerrClear value s
  | .plimWrite value => Sys2Proof.Machine.execPlimWrite value s
  | .qreqSet stack => Sys2Proof.Machine.execQreqSet stack s
  | .qreqClear stack => Sys2Proof.Machine.execQreqClear stack s
  | .hmaskWrite stack value => Sys2Proof.Machine.execHmaskWrite stack value s
  | .hplaceWrite value => Sys2Proof.Machine.execHplaceWrite value s
  | .werrClear stack value => Sys2Proof.Machine.execWerrClear stack value s
  | .wdlogWrite die value => Sys2Proof.Machine.execWdlogWrite die value s
  | .cmderrClear die value => Sys2Proof.Machine.execCmderrClear die value s
  | .sdgoWrite die value => Sys2Proof.Machine.execSdgoWrite die value s
  | .pegoWrite die value => Sys2Proof.Machine.execPegoWrite die value s
  | .cxlroleWrite die value => Sys2Proof.Machine.execCxlroleWrite die value s
  | .counterCfgWrite die counter value => Sys2Proof.Machine.execCounterCfgWrite die counter value s
  | .controlRegisterWrite address size value => Sys2Proof.Machine.execControlRegisterWrite address size value s
  | .powerOnBoot key image signature version => Sys2Proof.Machine.execPowerOnBoot key image signature version s
  | .spdmGetMeasurements port => Sys2Proof.Machine.execSpdmGetMeasurements port s
  | .mctpPacket kind body => Sys2Proof.Machine.execMctpPacket kind body s
  | .cxlLinkDown port => Sys2Proof.Machine.execCxlLinkDown port s
  | .wofortFlit port src dst address kind data => Sys2Proof.Machine.execWofortFlit port src dst address kind data s
  | .powerControlTick => Sys2Proof.Machine.execPowerControlTick s
  | .hostCoreAccess hart address size op => Sys2Proof.Machine.execHostCoreAccess hart address size op s
  | .cxlResponse port line half data => Sys2Proof.Machine.execCxlResponse port line half data s
  | .cxlLinkTrained die => Sys2Proof.Machine.execCxlLinkTrained die s
  | .wofortPortTrained port => Sys2Proof.Machine.execWofortPortTrained port s

end Sys2Proof.Machine
end

