-- ==== Sys2Proof/Machine/Step.lean ====
section
/-! DEFINITION. One step of the module: the next item of the cycle's work, or the next cycle (log 3, log 4). -/

namespace Sys2Proof.Machine

/-- One step. An issuing bundle fetches, decodes and executes its next word; an event happens; a core ends its cycle;
with no work left the next cycle begins. -/
def step (s : State) : Host.Outcome State Fault Refusal :=
  match s.work with
  | [] => .next s.newCycle
  | .issue bid w :: r =>
    match ({ s with work := r, cur := some bid } : State).nextInstr bid w with
    | (t, some i) => exec i t
    | (t, none) => .next t
  | .exits c :: r => .next (({ s with work := r, cur := none } : State).applyExits c)
  | .order :: r => .next { s with work := s.sorted r, cur := none }
  | .arrive u id :: r => .next (({ s with work := r, cur := none } : State).tryArrival u id)
  | .confirms c :: r => .next (({ s with work := r, cur := none } : State).endConfirms c)
  | .clearing n :: r => .next { s with work := s.clearingWork n ++ r, cur := none }
  | .thieves :: r => .next { s with work := s.thefts ++ r, cur := none }
  | .drain h :: r => .next (({ s with work := r, cur := none } : State).drainHart h)
  | .settle c :: r => .next (({ s with work := r, cur := none } : State).settleCore c)
  | .ev i :: r => exec i { s with work := r, cur := none }

/-- The state in which the next step fetches and runs the given instruction word (log 9). -/
def State.withFetchWord (s : State) (_nbits w : Nat) : State := s.placeWord w

end Sys2Proof.Machine
end

