-- ==== Sys2Proof/Safety.lean ====
section
/-! DEFINITION. The terms in which claims speak: an instruction that can issue, what a thread-by-thread instruction
leaves, and a run that never stops. -/

namespace Sys2Proof.Machine

/-- A step that goes on. -/
def Goes (s : State) : Prop := ∃ t, step s = .next t

/-- A thread of a block that the machine holds. -/
def State.has (s : State) (u t : Nat) : Bool :=
  match tget s.blocks u with
  | some b => (tget b.threads t).isSome
  | none => false

/-- What decides the operand rules of an instruction of the bundle. -/
def State.opCtxOf (s : State) (b : Bundle) (i : Instr) : OpCtx := (s.block b.blk).opCtx (s.nowB b.blk) i

/-- The current bundle can issue an instruction: no member's word is illegal (R73, R74), and no member waits for an
operand, its guard or a scoreboard slot (R47, R48). -/
structure Issues (s : State) (i : Instr) (bid : Nat) (b : Bundle) : Prop where
  current : s.cur = some bid
  held : tget s.bundles bid = some b
  goesOn : b.ended = false
  someone : b.tids ≠ []
  legal : ∀ t ∈ b.tids, s.illegal b.blk t i = none
  placed : clauseFault b.hdr b.index.toNat i = none
  ready : ∀ t ∈ b.tids,
    (s.thread b.blk t).blocked i (s.opCtxOf b i) (if i.varLat then hdrSetSb b.hdr else none) = none

/-- A member as it stands at the next index, or at the fall-through position (R29, R42). -/
def State.stood (s : State) (b : Bundle) (t : Nat) : Thread :=
  (s.thread b.blk t).advance b.base b.index.toNat b.hdr

/-- The members whose guard is true (R46, R52). -/
def State.executing (s : State) (i : Instr) (b : Bundle) : List Nat :=
  b.tids.filter fun t => (s.thread b.blk t).guards i

/-- The instruction on its way, as its meaning finds it: every member stands at the next index. -/
def State.issued (s : State) (i : Instr) (bid : Nat) (b : Bundle) : Iss :=
  { s := b.tids.foldl (fun s t => s.setThread b.blk t fun h => h.advance b.base b.index.toNat b.hdr) s,
    bid := bid, u := b.blk, core := b.core, now := s.now (dieOf b.core), base := b.base, index := b.index.toNat,
    hdr := b.hdr, i := i, oc := s.opCtxOf b i, members := b.tids, act := s.executing i b }

/-- A core but for its event counters and what they are about to count. -/
def Core.uncounted (c : Core) : Core := { c with ctrs := [], evs := [] }
/-- A block but for its threads and its watchdog count. -/
def Block.unthreaded (b : Block) : Block := { b with threads := [], run := { b.run with wdog := 0 } }

/-- Two states agree on everything but the threads and the watchdog count of one block, the bundles, the event counters
of cores, the pending jobs and the count of free values drawn. -/
structure SameBut (s t : State) (u : Nat) : Prop where
  cycle : t.cycle = s.cycle
  tsc : t.tsc = s.tsc ∧ t.tscAcc = s.tscAcc
  work : t.work = s.work ∧ t.cur = s.cur ∧ t.sched = s.sched
  seq : t.seq = s.seq
  dies : t.dies = s.dies ∧ t.dmem = s.dmem ∧ t.links = s.links
  cores : ∀ c, (t.core c).uncounted = (s.core c).uncounted
  hbm : t.hbm = s.hbm ∧ t.mod = s.mod
  launches : t.launches = s.launches ∧ t.clusters = s.clusters
  others : ∀ v, v ≠ u → tget t.blocks v = tget s.blocks v
  own : (t.block u).unthreaded = (s.block u).unthreaded
  links : t.hostLines = s.hostLines ∧ t.msgs = s.msgs ∧ t.away = s.away ∧ t.out = s.out
  mem : t.mem = s.mem ∧ t.stale = s.stale

/-- A thread-by-thread instruction of fixed latency: the machine goes on, each executing thread has the results written
after its last-use sources have ended (R60, R79), every other thread of the bundle only advances, and nothing else
changes but counters; no job is added. -/
def Writes (s : State) (i : Instr) (b : Bundle) (f : Nat → Thread → Res) : Prop :=
  ∃ s', exec i s = .next s' ∧ SameBut s s' b.blk ∧ s'.jobs = s.jobs ∧ s'.draws = s.draws ∧
    ∀ t, s.has b.blk t = true → s'.thread b.blk t =
      if t ∈ s.executing i b then (s.stood b t).put (i.kills (s.opCtxOf b i)) (f t (s.stood b t))
      else if t ∈ b.tids then s.stood b t else s.thread b.blk t

/-- The job that will land a thread's results is pending. -/
def State.hasResult (s : State) (d lo hi u t : Nat) (r : Res) (sb : Option Nat) : Prop :=
  ∃ k j, tget s.jobs k = some j ∧ j.die = d ∧ lo ≤ j.due ∧ j.due ≤ hi ∧ j.kind = .result u t r.regs r.preds sb

/-- A thread-by-thread instruction of variable latency: the destinations of each executing thread are pending, its
scoreboard slot counts, and a job lands the results within `bound` cycles of issue (R47, R48, R112). -/
def Sends (s : State) (i : Instr) (b : Bundle) (bound : Nat) (f : Nat → Thread → Res) : Prop :=
  ∃ s', exec i s = .next s' ∧ SameBut s s' b.blk ∧
    (∀ t, s.has b.blk t = true → s'.thread b.blk t =
      if t ∈ s.executing i b then
        (s.stood b t).sent (i.kills (s.opCtxOf b i)) ((f t (s.stood b t)).regs.map (·.1))
          ((f t (s.stood b t)).preds.map (·.1)) (hdrSetSb b.hdr)
      else if t ∈ b.tids then s.stood b t else s.thread b.blk t) ∧
    ∀ t ∈ s.executing i b, s.has b.blk t = true →
      s'.hasResult (dieOf b.core) (s.now (dieOf b.core) + 1) (s.now (dieOf b.core) + bound) b.blk t (f t (s.stood b t))
        (hdrSetSb b.hdr)

/-! ## The terms of the integer rules (R113) -/

/-- An operand as the exact integer that its type gives. -/
def operand (t : IntTy) (h : Thread) (r : BitVec 8) : Int :=
  match t with
  | .s32 => (h.rd r.toNat).toInt
  | .n32 => (h.rd r.toNat).toNat
  | .s64 => (h.rd64 r.toNat).toInt
  | .n64 => (h.rd64 r.toNat).toNat

/-- The registers that an exact value writes: its low 32 or 64 bits. -/
def written (t : IntTy) (d : BitVec 8) (v : Int) : List (Nat × Word) :=
  match t with
  | .s32 | .n32 => [(d.toNat, BitVec.ofInt 32 v)]
  | .s64 | .n64 => [(d.toNat, loHalf (BitVec.ofInt 64 v)), (d.toNat + 1, hiHalf (BitVec.ofInt 64 v))]

/-- The lowest and the highest value of a type. -/
def lowest : IntTy → Int
  | .s32 => -(2 ^ 31) | .s64 => -(2 ^ 63) | .n32 => 0 | .n64 => 0
def highest : IntTy → Int
  | .s32 => 2 ^ 31 - 1 | .s64 => 2 ^ 63 - 1 | .n32 => 2 ^ 32 - 1 | .n64 => 2 ^ 64 - 1

/-- An exact value, saturated where SAT says so. -/
def satIf (t : IntTy) (sat : Bool) (v : Int) : Int := if sat then min (max v (lowest t)) (highest t) else v

/-- An instruction goes on to a state with a property. -/
def Leaves (s : State) (i : Instr) (P : State → Prop) : Prop := ∃ s', exec i s = .next s' ∧ P s'

/-- An instruction whose effect outside the threads of its block turns the machine into `base`: the machine goes on, each
executing thread becomes what `f` makes of it, every other thread of the bundle only advances, and nothing else of
`base` changes but counters. -/
def Turns (s : State) (i : Instr) (b : Bundle) (base : State) (f : Nat → Thread → Thread) : Prop :=
  ∃ s', exec i s = .next s' ∧ SameBut base s' b.blk ∧ s'.jobs = base.jobs ∧ s'.draws = base.draws ∧
    ∀ t, s.has b.blk t = true → s'.thread b.blk t =
      if t ∈ s.executing i b then f t (s.stood b t) else if t ∈ b.tids then s.stood b t else s.thread b.blk t

/-- The registers that an instruction's last-use bits end (R60). -/
def State.ends (s : State) (i : Instr) (b : Bundle) : List Nat := i.kills (s.opCtxOf b i)

/-- A block-scope register after the executing threads of a bundle have written it in one cycle: in that cycle it reads
as before, later it holds the value of the highest thread that has written it in the cycle (R83). -/
def Rewritten (old new : KReg) (now last : Nat) (v : DWord) : Prop :=
  new.read now = old.read now ∧ ∀ m, m ≠ now → new.read m = if old.cycle = now + 1 ∧ last < old.tid then old.val else v

/-! ## The terms of the floating-point rules (R97-R126) -/

/-- The real number of a finite value. -/
def FVal.real : FVal → ℚ
  | .fin neg m e => (if neg then -1 else 1) * m * 2 ^ e
  | _ => 0

def FVal.finite : FVal → Bool
  | .fin _ _ _ => true
  | _ => false

/-- The largest finite value of an IEEE format with bias and mantissa width. -/
def Fmt.top (f : Fmt) : ℚ := (f.value f.maxCode).real

/-- A code is the rounding of a nonzero real number in an IEEE format (R102, R103 with SUBN 1 and OVF 1). -/
def Rounded (f : Fmt) (mode : Rnd) (q : ℚ) (code : Nat) : Prop :=
  match f.value code with
  | .nan => False
  | .inf neg => neg = decide (q < 0) ∧ f.top < |q| ∧
    match mode with
    | .rz => False
    | .ru => neg = false
    | .rd => neg = true
    | .rne => f.top + 2 ^ (f.bias + 1) ≤ 2 * |q|
  | .fin neg m e => neg = decide (q < 0) ∧
    let r := (FVal.fin neg m e).real
    ∀ z, (f.value z).finite = true →
      let y := (f.value z).real
      match mode with
      | .rd => r ≤ q ∧ (y ≤ q → y ≤ r)
      | .ru => q ≤ r ∧ (q ≤ y → r ≤ y)
      | .rz => |r| ≤ |q| ∧ (|y| ≤ |q| → |y| ≤ |r|)
      | .rne => 2 * |q| < f.top + 2 ^ (f.bias + 1) ∧ |r - q| ≤ |y - q| ∧ (|r - q| = |y - q| → y = r ∨ code % 2 = 0)

/-- The value that a code without its sign has in the set of a format with an unbounded exponent and subnormals (R102). -/
def Fmt.ext (f : Fmt) (k : Nat) : ℚ :=
  if k < 2 ^ f.manw then k * 2 ^ (1 - f.bias - f.manw)
  else (2 ^ f.manw + k % 2 ^ f.manw : ℕ) * 2 ^ ((k / 2 ^ f.manw : ℕ) - f.bias - f.manw)

/-- The code of that set which a mode selects for a magnitude (R102). -/
def Fmt.Picks (f : Fmt) (mode : Rnd) (neg : Bool) (q : ℚ) (k : Nat) : Prop :=
  let less := f.ext k ≤ q ∧ ∀ j, f.ext j ≤ q → f.ext j ≤ f.ext k
  let more := q ≤ f.ext k ∧ ∀ j, q ≤ f.ext j → f.ext k ≤ f.ext j
  match mode with
  | .rne => ∀ j, |f.ext k - q| ≤ |f.ext j - q| ∧ (|f.ext k - q| = |f.ext j - q| → j = k ∨ k % 2 = 0)
  | .rz => less
  | .ru => if neg then less else more
  | .rd => if neg then more else less

/-- The code that the random bits select for a magnitude, and whether it is the larger neighbour (R105). -/
def Fmt.Draws (f : Fmt) (rnd : Nat) (q : ℚ) (k : Nat) (larger : Bool) : Prop :=
  ∃ a, f.ext a ≤ q ∧ q < f.ext (a + 1) ∧ k = a + larger.toNat ∧
    larger = decide (((rnd % 65536 : ℕ) : ℤ) < ⌊65536 * (q - f.ext a) / (f.ext (a + 1) - f.ext a)⌋)

/-- The sign bit, the canonical NaN (R97), and what becomes of a rounded code: flushed, kept, or overflowed to the largest
finite value or beyond (R103, steps 6 and 7). -/
def Fmt.signBit (f : Fmt) (neg : Bool) : Nat := if neg ∧ f.sgn then 2 ^ (f.expw + f.manw) else 0
def Fmt.canonical (f : Fmt) : Nat :=
  match f.spec with
  | 0 => (2 ^ f.expw - 1) * 2 ^ f.manw + 2 ^ (f.manw - 1)
  | 1 => 2 ^ (f.expw + f.manw) - 1
  | _ => 0
def Fmt.settled (f : Fmt) (toLargest neg : Bool) (k : Nat) : Conv :=
  if f.subn = false ∧ k < 2 ^ f.manw then ⟨f.signBit neg, false, false⟩
  else if k ≤ f.maxCode then ⟨f.signBit neg + k, false, false⟩
  else if f.ovf = false ∨ toLargest then ⟨f.signBit neg + f.maxCode, false, true⟩
  else ⟨if f.spec = 0 then f.signBit neg + f.maxCode + 1 else f.canonical, false, true⟩

/-- The integer that a mode selects for a real number (R102). -/
def picksInt (m : Rnd) (q : ℚ) (n : ℤ) : Prop :=
  match m with
  | .rd => n ≤ q ∧ q < n + 1
  | .ru => q ≤ n ∧ n < q + 1
  | .rz => |(n : ℚ)| ≤ |q| ∧ |q| < |(n : ℚ)| + 1 ∧ 0 ≤ n * q
  | .rne => 2 * |(n : ℚ) - q| ≤ 1 ∧ (2 * |(n : ℚ) - q| = 1 → n % 2 = 0)

/-- A code is the rounding to nearest of a real number in an IEEE format (R102, R126). -/
def Nearest (f : Fmt) (q : ℝ) (code : Nat) : Prop :=
  match f.value code with
  | .nan => False
  | .inf neg => (neg = true ↔ q < 0) ∧ (f.top : ℝ) + 2 ^ (f.bias + 1) ≤ 2 * |q|
  | .fin neg m e =>
    (q < 0 → neg = true) ∧ (0 < q → neg = false) ∧ 2 * |q| < (f.top : ℝ) + 2 ^ (f.bias + 1) ∧
    ∀ z, (f.value z).finite = true →
      let r : ℝ := (FVal.fin neg m e).real
      let y : ℝ := (f.value z).real
      |r - q| ≤ |y - q| ∧ (|r - q| = |y - q| → y = r ∨ code % 2 = 0)

/-- The four IEEE formats (R96). -/
def ieee : List Fmt := [f16, bf16, f32, f64]

/-! ## The terms of the cohort rules (R143-R158) -/

/-- Position of a thread in its cohort (R21). -/
def State.posOf (s : State) (b : Bundle) (t : Nat) : Nat := t % (s.block b.blk).cfg.w

/-- The participant at a cohort position (R144). -/
def State.atPos (s : State) (i : Instr) (b : Bundle) (p : Nat) : Option Thread :=
  ((s.executing i b).find? fun t => s.posOf b t == p).map (s.stood b)

/-- The mask of the participants with a property (R149, R150). -/
def State.maskAt (s : State) (i : Instr) (b : Bundle) (f : Thread → Bool) : Nat :=
  maskOf (((s.executing i b).filter fun t => f (s.stood b t)).map (s.posOf b))

/-- A register of the participant at a position. -/
def State.regAt (s : State) (i : Instr) (b : Bundle) (p r : Nat) : Nat :=
  (((s.atPos i b p).getD {}).rd r).toNat

/-- Every position of the cohort takes part (R153). -/
def State.whole (s : State) (i : Instr) (b : Bundle) : Prop :=
  (s.executing i b).length = (s.block b.blk).cfg.w ∧ ∀ p < (s.block b.blk).cfg.w, (s.atPos i b p).isSome = true

/-- A result of 32 or 64 bits. -/
def outcome (wide : Bool) (d : BitVec 8) (v : Nat) : List (Nat × Word) :=
  if wide then pairW d.toNat (BitVec.ofNat 64 v) else [(d.toNat, BitVec.ofNat 32 v)]

/-- The operands of a reduction in the positions from `lo` to below `hi` (R146, R151). -/
def State.addends (s : State) (i : Instr) (b : Bundle) (wide : Bool) (a lo hi : Nat) : List (Option Nat) :=
  (List.range (s.block b.blk).cfg.w).map fun q =>
    if lo ≤ q ∧ q < hi then (s.atPos i b q).map fun h => if wide then (h.rd64 a).toNat else (h.rd a).toNat else none

/-- The largest head at or below a position, and the next head above it (R151). -/
def State.headAt (s : State) (i : Instr) (b : Bundle) (c p : Nat) : Nat :=
  ((((s.executing i b).filter fun t => (s.stood b t).rdP c).map (s.posOf b)).filter (· ≤ p)).foldl max 0
def State.headAfter (s : State) (i : Instr) (b : Bundle) (c p : Nat) : Nat :=
  ((((s.executing i b).filter fun t => (s.stood b t).rdP c).map (s.posOf b)).filter (p < ·)).foldl min
    (s.block b.blk).cfg.w

/-- One count of a histogram held by a cohort (R155). -/
def State.countAt (s : State) (i : Instr) (b : Bundle) (base k : Nat) : Nat :=
  let n := 128 / (s.block b.blk).cfg.w
  let v := s.regAt i b (k / (2 * n)) (base + k % (2 * n) / 2)
  if k % 2 = 0 then v % 2 ^ 16 else v / 2 ^ 16

/-- The entries that the positions of a cohort hold in a pair of registers (R153). -/
def State.entriesAt (s : State) (i : Instr) (b : Bundle) (a off : Nat) : List SelEnt :=
  (List.range (s.block b.blk).cfg.w).map fun q => ⟨s.regAt i b q a, s.regAt i b q (a + 1), q + off⟩

/-- The four registers of a selection list at a position: an entry, the length and a count (R157, R158). -/
def listed (d : BitVec 8) (p : Nat) (l : List SelEnt) (n : Nat) : List (Nat × Word) :=
  [(d.toNat, BitVec.ofNat 32 ((l[p]?.map (·.key)).getD 0)),
   (d.toNat + 1, BitVec.ofNat 32 ((l[p]?.map (·.idx)).getD 0xFFFFFFFF)),
   (d.toNat + 2, BitVec.ofNat 32 l.length), (d.toNat + 3, BitVec.ofNat 32 n)]

/-- Each of some members takes a trap at the instruction and leaves the bundle; the others stand at the next index
(R46, R359). -/
def AllTrap (s : State) (i : Instr) (bid : Nat) (b : Bundle) (ts : List Nat) (cause sub : Nat) (cost : Nat := 1) : Prop :=
  exec i s = .next ((ts.foldl (fun r t => (r.leave bid t).trapAt b.blk t b.base b.index.toNat cause sub 0
    ((encode i).getD 0) 0) (s.issued i bid b).s).afterIssue (s.issued i bid b) cost)

/-- The value that an element has under a block scale, before scaling (R108). -/
def Fmt.element (f : Fmt) (code : Nat) : ℚ := if f.intm then (f.value code).real / 64 else (f.value code).real

/-! ## The terms of the control and trap rules (R131-R141, R356-R366) -/

/-- A block takes traps of a cause into its handler: it has one, and the condition does not discard it (R346, R359). -/
def State.handles (s : State) (u cause sub : Nat) : Prop :=
  (s.block u).run.discarded = false ∧ s.discards u cause sub = false ∧ (s.block u).cfg.tbase ≠ 0

/-- A thread at its handler after a trap: doublewords 0 to 7 of its frame are written and INH is set; it is READY 8 cycles
later (R359, R360). -/
def State.entered (s : State) (u : Nat) (base : DWord) (index cause sub : Nat) (info : Word) (word faddr : DWord)
    (h : Thread) : Thread :=
  { h with
    slice := putFrame h.slice (s.block u).cfg.frameAddr
      (frameWords base index cause sub info word faddr (s.tscAt (dieOf (s.block u).core)) h.preds),
    inh := true, base := (s.block u).cfg.tbase, index := 0, st := .ready, since := s.nowB u + 8, hdr := none, gang := none,
    atSlot := none, resuming := false, aged := false, drain := none, card := none }

/-- A member at its handler after a trap at the bundle's instruction. -/
def State.trapped (s : State) (i : Instr) (b : Bundle) (cause sub : Nat) (info : Word) (faddr : DWord) (h : Thread) :
    Thread :=
  s.entered b.blk b.base b.index.toNat cause sub info ((encode i).getD 0) faddr h

/-- The executing positions of one cohort (R136). -/
def State.cohortMask (s : State) (i : Instr) (b : Bundle) (c : Nat) : BitVec 64 :=
  BitVec.ofNat 64 (maskOf (((s.executing i b).filter fun t => t / (s.block b.blk).cfg.w == c).map (s.posOf b)))

/-- Cohort `c` of a bundle has an executing member. -/
def State.inCohort (s : State) (i : Instr) (b : Bundle) (c : Nat) : Prop :=
  ∃ t ∈ s.executing i b, t / (s.block b.blk).cfg.w = c

/-- Rejoin-mask register `j` of cohort `c` in a table (R135). -/
def jreg (js : Tab JReg) (c j : Nat) : JReg := tgetD js (16 * c + j) {}

/-- An open supervisor entry of a die (R367). -/
def State.holdsEntry (s : State) (d token kind : Nat) (tids : List Nat) : Prop :=
  ∃ e ∈ (s.die d).entries, e.token = token ∧ e.kind = kind ∧ e.tids = tids

/-- A barrier after one update: arrivals, a byte delta, and the evaluation (R209). -/
def Barrier.after (b : Barrier) (arrivals : Nat) (delta : Int) : Barrier :=
  let sum := b.tx + delta
  let c : Barrier := { b with pend := b.pend - arrivals, tx := (BitVec.ofInt 32 sum).toInt,
                              ovf := b.ovf || decide (sum < -(2 ^ 31) ∨ 2 ^ 31 ≤ sum) }
  if c.pend = 0 ∧ c.tx = 0 then { c with phase := !c.phase, pend := c.memb } else c

/-- The block, its cluster and its launch are held. -/
def State.rooted (s : State) (u : Nat) : Prop :=
  (tget s.blocks u).isSome = true ∧ (tget s.clusters (s.block u).cfg.cluster).isSome = true ∧
    (tget s.launches (s.block u).cfg.launch).isSome = true

/-- A thread is held at MWAIT: a write of its line completes the instruction (R236). -/
def Thread.atWatch (t : Thread) : Bool :=
  match t.st with
  | .waiting (.watch _) => true
  | _ => false

/-! ## The terms of the scratchpad rules (R160-R180) -/

/-- As `Sends`, with a bound for each thread, or none, in a machine that the instruction turns into `base` outside the
threads of its block. -/
def SendsFrom (s : State) (i : Instr) (b : Bundle) (base : State) (bound : Nat → Option Nat) (f : Nat → Thread → Res)
    (g : Thread → Thread := id) : Prop :=
  ∃ s', exec i s = .next s' ∧ SameBut base s' b.blk ∧
    (∀ t, s.has b.blk t = true → s'.thread b.blk t =
      if t ∈ s.executing i b then
        g ((s.stood b t).sent (s.ends i b) ((f t (s.stood b t)).regs.map (·.1)) ((f t (s.stood b t)).preds.map (·.1))
          (hdrSetSb b.hdr))
      else if t ∈ b.tids then s.stood b t else s.thread b.blk t) ∧
    ∀ t ∈ s.executing i b, s.has b.blk t = true → ∃ hi,
      (∀ n, bound t = some n → hi ≤ s.now (dieOf b.core) + n) ∧
      s'.hasResult (dieOf b.core) (s.now (dieOf b.core) + 1) hi b.blk t (f t (s.stood b t)) (hdrSetSb b.hdr)

/-- The address of a scratchpad or slice access: the register plus the signed offset, modulo 2^32 (R163). -/
def localAddr (r : RM) (h : Thread) : Nat := (h.rd r.a.toNat + r.off.signExtend 32).toNat

/-- The data of a store of a size (R163, R219). -/
def stored (z : Size) (h : Thread) (d : Nat) : Nat :=
  match z with
  | .b8 => (h.rd d).toNat % 2 ^ 8
  | .b16 => (h.rd d).toNat % 2 ^ 16
  | .b32 => (h.rd d).toNat
  | .b64 => (h.rd64 d).toNat
  | .b128 => (h.rd64 d).toNat + 2 ^ 64 * (h.rd64 (d + 2)).toNat

/-- The passes of an own-allotment access: the most distinct 8-byte rows that its members touch in one of the 64 banks
(R166). -/
def BankPasses (out : List Nat) (a : Nat → Nat) (n c : Nat) : Prop :=
  let rows (k : Nat) : Nat := ((List.range 0x10000).filter fun w =>
    w % 64 == k && out.any fun t => decide (a t < 0x80000 ∧ a t < 8 * w + 8 ∧ 8 * w < a t + n)).length
  1 ≤ c ∧ (∀ k < 64, rows k ≤ c) ∧ (c = 1 ∨ ∃ k < 64, rows k = c)

/-- Tile entries that stores have left as they were, but for forms that fall to GENERAL (R172). -/
def KeptTiles (old new : Tab Tile) : Prop :=
  ∀ e, ((tget new e).isSome = (tget old e).isSome) ∧ ∀ x y, tget old e = some x → tget new e = some y →
    y = { x with form := y.form, cval := y.cval, next := y.next } ∧
    ((y.form = x.form ∧ y.cval = x.cval) ∨ (y.form = .general ∧ y.cval = 0))

/-- A thread once a tile has left FILLING or DRAINING: READY if it waited for that tile alone (R170). -/
def Waited (now e : Nat) (old new : Thread) : Prop :=
  (∀ l, old.st = .waiting (.tile l) →
    if l.all (· == e) then new = old.wake now else new = { old with st := .waiting (.tile (l.filter (· != e))) }) ∧
  ((∀ l, old.st ≠ .waiting (.tile l)) → new = old)

/-- The block with another allotment and tile table. -/
def State.withScratch (s : State) (u : Nat) (m : Mem) (ts : Tab Tile) : State :=
  s.setBlock u fun x => { x with scratch := m, tiles := ts }

/-- The earlier accesses of a thread are performed at a scope, as a release needs (R268). -/
def State.drained (s : State) (b : Bundle) (scope t : Nat) : Prop :=
  s.waitOver b.blk (s.block b.blk) t (s.stood b t) (.fence true scope ((s.stood b t).drain.getD s.seq)) = true

/-- Every element of a tile agrees with the form that its entry holds (R172, R173). -/
def Tile.sound (t : Tile) (m : Mem) : Prop := ∀ k < t.count, t.agrees m (t.form, t.cval) k = true

end Sys2Proof.Machine
end

