-- ==== Sys2Proof/Certificates/Slice0/Obligations.lean ====
section
/-! DEFINITION. The statements about the model, from the numbered rules of spec/. A statement of several parts is the
conjunction of the parts named before it. -/

open Sys2Proof Sys2Proof.Machine

/-! ## Vector arithmetic -/

/-- R113, R114: IADD, ISUB, IMUL, IMULH, IMAD, IMIN, IMAX, IABS and IADD with an immediate give the exact value, wrapped
or saturated. -/
def Sys2Proof.Claims.IntegerValues : Prop :=
  ∀ (s : State) (bid : Nat) (b : Bundle) (r : RR) (t : IntTy) (sat : Bool),
    (Issues s (.iadd r t sat) bid b → Writes s (.iadd r t sat) b fun _ h =>
      { regs := written t r.d (satIf t sat (operand t h r.a + operand t h r.b)) }) ∧
    (Issues s (.isub r t sat) bid b → Writes s (.isub r t sat) b fun _ h =>
      { regs := written t r.d (satIf t sat (operand t h r.a - operand t h r.b)) }) ∧
    (Issues s (.imul r t sat) bid b → Writes s (.imul r t sat) b fun _ h =>
      { regs := written t r.d (satIf t sat (operand t h r.a * operand t h r.b)) }) ∧
    (Issues s (.imad r t sat) bid b → Writes s (.imad r t sat) b fun _ h =>
      { regs := written t r.d (satIf t sat (operand t h r.a * operand t h r.b + operand t h r.c)) }) ∧
    (Issues s (.imulh r t) bid b → Writes s (.imulh r t) b fun _ h =>
      { regs := written t r.d ((operand t h r.a * operand t h r.b) / 2 ^ (if t.wide then 64 else 32)) }) ∧
    (Issues s (.imin r t) bid b → Writes s (.imin r t) b fun _ h =>
      { regs := written t r.d (min (operand t h r.a) (operand t h r.b)) }) ∧
    (Issues s (.imax r t) bid b → Writes s (.imax r t) b fun _ h =>
      { regs := written t r.d (max (operand t h r.a) (operand t h r.b)) }) ∧
    (Issues s (.iabs r false sat) bid b → Writes s (.iabs r false sat) b fun _ h =>
      { regs := written .s32 r.d (satIf .s32 sat (operand .s32 h r.a).natAbs) }) ∧
    (Issues s (.iabs r true sat) bid b → Writes s (.iabs r true sat) b fun _ h =>
      { regs := written .s64 r.d (satIf .s64 sat (operand .s64 h r.a).natAbs) }) ∧
    ∀ q : RI, Issues s (.iaddImm q) bid b → Writes s (.iaddImm q) b fun _ h =>
      { regs := [(q.d.toNat, h.rd q.a.toNat + q.imm)] }

/-- R114, R115: SHL, SHR and SAR, their immediate forms, and LEA (R119). -/
def Sys2Proof.Claims.ShiftsAndLea : Prop :=
  ∀ (s : State) (bid : Nat) (b : Bundle) (r : RR) (q : RI),
    (Issues s (.shl r false) bid b → Writes s (.shl r false) b fun _ h =>
      { regs := [(r.d.toNat, h.rd r.a.toNat <<< (h.rd r.b.toNat).toNat)] }) ∧
    (Issues s (.shl r true) bid b → Writes s (.shl r true) b fun _ h =>
      { regs := pairW r.d.toNat (h.rd64 r.a.toNat <<< (h.rd r.b.toNat).toNat) }) ∧
    (Issues s (.shr r false) bid b → Writes s (.shr r false) b fun _ h =>
      { regs := [(r.d.toNat, h.rd r.a.toNat >>> (h.rd r.b.toNat).toNat)] }) ∧
    (Issues s (.shr r true) bid b → Writes s (.shr r true) b fun _ h =>
      { regs := pairW r.d.toNat (h.rd64 r.a.toNat >>> (h.rd r.b.toNat).toNat) }) ∧
    (Issues s (.sar r false) bid b → Writes s (.sar r false) b fun _ h =>
      { regs := [(r.d.toNat, (h.rd r.a.toNat).sshiftRight (h.rd r.b.toNat).toNat)] }) ∧
    (Issues s (.sar r true) bid b → Writes s (.sar r true) b fun _ h =>
      { regs := pairW r.d.toNat ((h.rd64 r.a.toNat).sshiftRight (h.rd r.b.toNat).toNat) }) ∧
    (Issues s (.shlImm q) bid b → Writes s (.shlImm q) b fun _ h =>
      { regs := [(q.d.toNat, h.rd q.a.toNat <<< q.imm.toNat)] }) ∧
    (Issues s (.shrImm q) bid b → Writes s (.shrImm q) b fun _ h =>
      { regs := [(q.d.toNat, h.rd q.a.toNat >>> q.imm.toNat)] }) ∧
    (Issues s (.sarImm q) bid b → Writes s (.sarImm q) b fun _ h =>
      { regs := [(q.d.toNat, (h.rd q.a.toNat).sshiftRight q.imm.toNat)] }) ∧
    ∀ sh : BitVec 3, Issues s (.lea r sh) bid b → Writes s (.lea r sh) b fun _ h =>
      { regs := pairW r.d.toNat (h.rd64 r.a.toNat + (h.rd r.b.toNat).setWidth 64 <<< sh.toNat) }

/-- Integer arithmetic, shifts and LEA give the exact value, wrapped or saturated. -/
def Obligations.IntegerArithmetic : Prop :=
  Sys2Proof.Claims.IntegerValues ∧ Sys2Proof.Claims.ShiftsAndLea

/-- R114, R116, R118, bit by bit: AND, OR, XOR and their immediate forms, LUT3, BFX and BFI. -/
def Obligations.LogicAndBitFields : Prop :=
  ∀ (s : State) (bid : Nat) (b : Bundle) (r : RR) (q : RI),
    (Issues s (.and r) bid b → Writes s (.and r) b fun _ h =>
      { regs := [(r.d.toNat, h.rd r.a.toNat &&& h.rd r.b.toNat)] }) ∧
    (Issues s (.or r) bid b → Writes s (.or r) b fun _ h =>
      { regs := [(r.d.toNat, h.rd r.a.toNat ||| h.rd r.b.toNat)] }) ∧
    (Issues s (.xor r) bid b → Writes s (.xor r) b fun _ h =>
      { regs := [(r.d.toNat, h.rd r.a.toNat ^^^ h.rd r.b.toNat)] }) ∧
    (Issues s (.andImm q) bid b → Writes s (.andImm q) b fun _ h => { regs := [(q.d.toNat, h.rd q.a.toNat &&& q.imm)] }) ∧
    (Issues s (.orImm q) bid b → Writes s (.orImm q) b fun _ h => { regs := [(q.d.toNat, h.rd q.a.toNat ||| q.imm)] }) ∧
    (Issues s (.xorImm q) bid b → Writes s (.xorImm q) b fun _ h => { regs := [(q.d.toNat, h.rd q.a.toNat ^^^ q.imm)] }) ∧
    (∀ tbl : BitVec 8, ∃ v : Word → Word → Word → Word,
      (∀ x y z k, k < 32 → (v x y z).getLsbD k =
        tbl.getLsbD (4 * (x.getLsbD k).toNat + 2 * (y.getLsbD k).toNat + (z.getLsbD k).toNat)) ∧
      (Issues s (.lut3 r tbl) bid b → Writes s (.lut3 r tbl) b fun _ h =>
        { regs := [(r.d.toNat, v (h.rd r.a.toNat) (h.rd r.b.toNat) (h.rd r.c.toNat))] })) ∧
    (∀ signed : Bool, ∃ v : Word → Word → Word,
      (∀ x c k, k < 32 →
        let pos := (fld c 0 8).toNat
        let len := min (fld c 8 8).toNat 32
        let bit (p : Nat) := if p < 32 then x.getLsbD p else signed && x.msb
        (v x c).getLsbD k = (if k < len then bit (pos + k) else decide (len ≠ 0) && signed && bit (pos + (len - 1)))) ∧
      (Issues s (.bfx r signed) bid b → Writes s (.bfx r signed) b fun _ h =>
        { regs := [(r.d.toNat, v (h.rd r.a.toNat) (h.rd r.b.toNat))] })) ∧
    (∃ v : Word → Word → Word → Word,
      (∀ x y c k, k < 32 →
        let pos := (fld c 0 8).toNat
        let len := min (fld c 8 8).toNat 32
        (v x y c).getLsbD k = if pos ≤ k ∧ k < pos + len then x.getLsbD (k - pos) else y.getLsbD k) ∧
      (Issues s (.bfi r) bid b → Writes s (.bfi r) b fun _ h =>
        { regs := [(r.d.toNat, v (h.rd r.a.toNat) (h.rd r.b.toNat) (h.rd r.c.toNat))] }))

/-- R82, R87, R88, R90, R91, R120: moves, selections, predicate logic and integer comparison. -/
def Obligations.MovesAndPredicates : Prop :=
  ∀ (s : State) (bid : Nat) (b : Bundle) (r : RR) (q : RI),
    (Issues s (.mov r false) bid b → Writes s (.mov r false) b fun _ h => { regs := [(r.d.toNat, h.rd r.a.toNat)] }) ∧
    (Issues s (.mov r true) bid b → Writes s (.mov r true) b fun _ h =>
      { regs := [(r.d.toNat, h.rd r.a.toNat), (r.d.toNat + 1, h.rd (r.a.toNat + 1))] }) ∧
    (Issues s (.moviB32 q) bid b → Writes s (.moviB32 q) b fun _ _ => { regs := [(q.d.toNat, q.imm)] }) ∧
    (Issues s (.moviS64 q) bid b → Writes s (.moviS64 q) b fun _ _ =>
      { regs := [(q.d.toNat, q.imm), (q.d.toNat + 1, if q.imm.msb then 0xFFFFFFFF else 0)] }) ∧
    (Issues s (.moviN64 q) bid b → Writes s (.moviN64 q) b fun _ _ => { regs := [(q.d.toNat, q.imm), (q.d.toNat + 1, 0)] }) ∧
    (Issues s (.sel r false) bid b → Writes s (.sel r false) b fun _ h =>
      { regs := [(r.d.toNat, if h.rdP r.c.toNat then h.rd r.a.toNat else h.rd r.b.toNat)] }) ∧
    (Issues s (.sel r true) bid b → Writes s (.sel r true) b fun _ h =>
      { regs := pairW r.d.toNat (if h.rdP r.c.toNat then h.rd64 r.a.toNat else h.rd64 r.b.toNat) }) ∧
    (∀ tbl : BitVec 8, Issues s (.plop r tbl) bid b → Writes s (.plop r tbl) b fun _ h =>
      { preds := [(r.d.toNat, tbl.getLsbD (4 * (h.rdP r.a.toNat).toNat + 2 * (h.rdP r.b.toNat).toNat +
          (h.rdP r.c.toNat).toNat))] }) ∧
    ∀ (t : IntTy) (c : Cmp), Issues s (.icmp r c t) bid b → Writes s (.icmp r c t) b fun _ h =>
      { preds := [(r.d.toNat, h.rdP r.c.toNat && match c with
        | .eq => decide (operand t h r.a = operand t h r.b)
        | .ne => decide (operand t h r.a ≠ operand t h r.b)
        | .lt => decide (operand t h r.a < operand t h r.b)
        | .le => decide (operand t h r.a ≤ operand t h r.b)
        | .gt => decide (operand t h r.a > operand t h r.b)
        | .ge => decide (operand t h r.a ≥ operand t h r.b)
        | .ord => true
        | .unord => false)] }

/-- R60, R79, R80, R82: what a result leaves of a thread's registers. Sources marked as last use end and read poison,
destinations become live, v255 discards, p7 stays true, and every other register and predicate is kept. -/
def Obligations.ResultFrame : Prop :=
  ∀ (h : Thread) (kills : List Nat) (d : Nat) (v : Word) (p : Nat) (c : Bool),
    (∀ k, (h.put kills { regs := [(d, v)] }).rd k =
      if k = 255 then 0 else if k = d then v else if k ∈ kills then poison else h.rd k) ∧
    (∀ k, (h.put kills { regs := [(d, v)] }).rdP k = h.rdP k) ∧
    (∀ k, (h.put kills { preds := [(p, c)] }).rdP k = if k = p ∧ p < 7 then c else h.rdP k) ∧
    (∀ k, (h.put kills { preds := [(p, c)] }).rd k = if k = 255 then 0 else if k ∈ kills then poison else h.rd k) ∧
    (h.put kills { regs := [(d, v)], preds := [(p, c)] }).mstatus = h.mstatus ∧
    (h.put kills { regs := [(d, v)], preds := [(p, c)] }).slice = h.slice ∧
    (h.put kills { regs := [(d, v)], preds := [(p, c)] }).base = h.base ∧
    (h.put kills { regs := [(d, v)], preds := [(p, c)] }).index = h.index ∧
    (h.put kills { regs := [(d, v)], preds := [(p, c)] }).inh = h.inh ∧
    h.rd 255 = 0 ∧ h.rdP 7 = true

/-! ## Registers -/

/-- R83, R89: KMOV to a k register, seen from the next cycle on, and from one. No other k register changes. -/
def Sys2Proof.Claims.BlockRegisters : Prop :=
  ∀ (s : State) (bid : Nat) (b : Bundle) (r : RR),
    let now := s.now (dieOf b.core)
    let old (n : Nat) := tgetD (s.block b.blk).kregs n {}
    (Issues s (.kmovToK r) bid b → s.executing (.kmovToK r) b ≠ [] → ∃ ks,
      Turns s (.kmovToK r) b (s.setBlock b.blk fun x => { x with kregs := ks })
        (fun _ h => h.kills (s.ends (.kmovToK r) b)) ∧
      (∀ n, n ≠ r.d.toNat → tget ks n = tget (s.block b.blk).kregs n) ∧
      let last := (s.executing (.kmovToK r) b).getLastD 0
      Rewritten (old r.d.toNat) (tgetD ks r.d.toNat {}) now last ((s.stood b last).rd64 r.a.toNat)) ∧
    (Issues s (.kmovFromK r) bid b → Writes s (.kmovFromK r) b fun _ _ =>
      { regs := pairW r.d.toNat ((old r.a.toNat).read now) })

/-- R15, R85, R361: what SRD reads. The physical lane (0x0D) is the lane itself or a spare of its quad, and no two lanes
have one; the numbers of the spares are the model's (log 6). -/
def Sys2Proof.Claims.SpecialRegisterReads : Prop :=
  ∀ (s : State) (bid : Nat) (b : Bundle) (r : RI),
    let k := s.block b.blk
    let die := dieOf b.core
    let one (n : Nat) (f : Nat → Thread → Nat) := r.imm = BitVec.ofNat 32 n → Issues s (.srd r) bid b →
      Writes s (.srd r) b fun t h => { regs := [(r.d.toNat, BitVec.ofNat 32 (f t h))] }
    let two (n : Nat) (v : DWord) := r.imm = BitVec.ofNat 32 n → Issues s (.srd r) bid b →
      Writes s (.srd r) b fun _ _ => { regs := pairW r.d.toNat v }
    one 0x00 (fun t _ => t) ∧ one 0x01 (fun _ _ => k.cfg.bid) ∧ one 0x02 (fun _ _ => k.cfg.clid) ∧
    one 0x03 (fun t _ => t / k.cfg.w) ∧ one 0x04 (fun t _ => t % k.cfg.w) ∧ one 0x05 (fun t _ => t % k.cfg.w % 8) ∧
    one 0x06 (fun t _ => (if k.cfg.b1 ≤ t then 1 else 0) + (if k.cfg.b2 ≤ t then 1 else 0) +
      (if k.cfg.b3 ≤ t then 1 else 0)) ∧
    one 0x07 (fun _ _ => k.cfg.stage) ∧ one 0x08 (fun _ _ => k.cfg.depth) ∧ one 0x09 (fun _ _ => k.cfg.rcount) ∧
    one 0x0A (fun _ _ => k.cfg.rbase) ∧ one 0x0B (fun _ _ => b.core % 96) ∧ one 0x0C (fun _ _ => die) ∧
    (∃ phys : Nat → Nat, (∀ l < 128, phys l = l ∨ phys l = 128 + 2 * (l / 32) ∨ phys l = 129 + 2 * (l / 32)) ∧
      (∀ l < 128, ∀ m < 128, phys l = phys m → l = m) ∧ one 0x0D (fun t _ => phys ((b.members.lookup t).getD 0))) ∧
    one 0x0E (fun _ _ => k.cfg.n) ∧ one 0x0F (fun _ _ => k.cfg.w) ∧ one 0x10 (fun _ h => h.limit) ∧
    one 0x11 (fun _ _ => k.pool) ∧ two 0x18 (s.tscAt die) ∧
    two 0x19 (fld s.mod.featsel 0 64) ∧ two 0x1A (fld s.mod.featsel 64 64) ∧ two 0x1B 0x1FFF ∧ two 0x1C 0 ∧
    one 0x20 (fun _ h => h.mstatus.toNat) ∧ one 0x21 (fun _ _ => (k.engfault.read (s.now die)).toNat) ∧
    one 0x22 (fun _ h => h.wrqstat.toNat) ∧
    (∀ n < 8, one (0x30 + n) (fun _ _ => (presetFmt n).toNat)) ∧
    (∀ n < 16, 8 ≤ n → one (0x30 + n) (fun _ _ => ((tgetD k.fmts n {}).read (s.now die)).toNat % 2 ^ 32)) ∧
    two 0x40 k.cfg.tbase ∧ one 0x41 (fun _ h => if h.inh then 1 else 0) ∧ one 0x42 (fun _ _ => k.cfg.slice - 128)

/-- R86, R198, R301, R361: what SWR writes. Reserved bits are ignored (R7). -/
def Sys2Proof.Claims.SpecialRegisterWrites : Prop :=
  ∀ (s : State) (bid : Nat) (b : Bundle) (r : RI), Issues s (.swr r) bid b →
    let now := s.now (dieOf b.core)
    let last := (s.executing (.swr r) b).getLastD 0
    let v := (s.stood b last).rd r.a.toNat
    (r.imm = 0x20 → Turns s (.swr r) b s fun _ h => { h with mstatus := h.rd r.a.toNat &&& 0x373 }) ∧
    (r.imm = 0x41 → Turns s (.swr r) b s fun _ h => { h with inh := (h.rd r.a.toNat).getLsbD 0 }) ∧
    (s.executing (.swr r) b ≠ [] → r.imm = 0x21 → ∃ e,
      Turns s (.swr r) b (s.setBlock b.blk fun x => { x with engfault := e }) (fun _ h => h) ∧
      Rewritten (s.block b.blk).engfault e now last ((v &&& 0x80FF00FF).setWidth 64)) ∧
    ∀ n, 8 ≤ n → n < 16 → s.executing (.swr r) b ≠ [] → r.imm = BitVec.ofNat 32 (0x30 + n) → ∃ fs,
      Turns s (.swr r) b (s.setBlock b.blk fun x => { x with fmts := fs }) (fun _ h => h) ∧
      (∀ m, m ≠ n → tget fs m = tget (s.block b.blk).fmts m) ∧
      Rewritten (tgetD (s.block b.blk).fmts n {}) (tgetD fs n {}) now last (v.setWidth 64)

/-- Block-scope and special registers: what KMOV, SRD and SWR read and write. -/
def Obligations.SpecialRegisters : Prop :=
  Sys2Proof.Claims.BlockRegisters ∧ Sys2Proof.Claims.SpecialRegisterReads ∧ Sys2Proof.Claims.SpecialRegisterWrites

/-- R92, R358: VGET and VSET name their second register by bits 7:0 of vA, where that register is not pending; where every
executing thread's index is at or above its limit, v255 aside, each takes illegal-instruction, subcode 10. -/
def Sys2Proof.Claims.IndirectAccess : Prop :=
  ∀ (s : State) (bid : Nat) (b : Bundle) (r : RR),
    let idx (h : Thread) : Nat := (fld (h.rd r.a.toNat) 0 8).toNat
    let inside (i : Instr) := ∀ t ∈ s.executing i b,
      (idx (s.stood b t) < (s.stood b t).limit ∨ idx (s.stood b t) = 255) ∧ idx (s.stood b t) ∉ (s.stood b t).pend
    (Issues s (.vget r) bid b → inside (.vget r) →
      Writes s (.vget r) b fun _ h => { regs := [(r.d.toNat, h.rd (idx h))] }) ∧
    (Issues s (.vset r) bid b → inside (.vset r) →
      Writes s (.vset r) b fun _ h => { regs := [(idx h, h.rd r.b.toNat)] }) ∧
    ∀ i : Instr, i = .vget r ∨ i = .vset r → Issues s i bid b →
      (∀ t ∈ s.executing i b, (s.stood b t).limit ≤ idx (s.stood b t) ∧ idx (s.stood b t) ≠ 255 ∧
        idx (s.stood b t) ∉ (s.stood b t).pend) →
      AllTrap s i bid b (s.executing i b) 1 10

/-- R93, R94: GIVEREG lowers the limit to the smallest multiple of 8 at or above the target with only dead registers
above it, and the chunks go to the pool; CLAIMREG of no more than the thread holds writes the limit, any other joins the
claim queue. -/
def Sys2Proof.Claims.RegisterPool : Prop :=
  ∀ (s : State) (bid : Nat) (b : Bundle) (r : RR),
    let target (h : Thread) := max 8 (((fld (h.rd r.a.toNat) 0 9).toNat + 7) / 8 * 8)
    let dead (h : Thread) (l : Nat) := ∀ k, l ≤ k → k < h.limit → k ∉ h.pend ∧
      (tget h.live k = none ∨ k ∈ s.ends (.givereg r) b)
    (Issues s (.givereg r) bid b → (∀ t ∈ s.executing (.givereg r) b, (s.stood b t).limit % 8 = 0) →
      ∃ l : Nat → Nat,
        (∀ t ∈ s.executing (.givereg r) b,
          let h := s.stood b t
          (h.limit ≤ target h → l t = h.limit) ∧
          (target h < h.limit → l t % 8 = 0 ∧ target h ≤ l t ∧ l t ≤ h.limit ∧ dead h (l t) ∧
            ∀ m, m % 8 = 0 → target h ≤ m → m < l t → ¬ dead h m)) ∧
        Turns s (.givereg r) b
          (s.setBlock b.blk fun x =>
            { x with pool := x.pool +
                ((s.executing (.givereg r) b).map fun t => ((s.stood b t).limit - l t) / 8).sum }) fun t h =>
            { h.put (s.ends (.givereg r) b) { regs := [(r.d.toNat, BitVec.ofNat 32 (l t))] } with limit := l t }) ∧
    (Issues s (.claimreg r) bid b →
      let claim (t : Nat) (h : Thread) : Claim :=
        ⟨s.now (dieOf b.core), t, (min 256 (target h) - h.limit) / 8, r.d.toNat⟩
      ∃ cs, Turns s (.claimreg r) b (s.setBlock b.blk fun x => { x with claims := cs }) (fun _ h =>
          if min 256 (target h) ≤ h.limit then
            h.put (s.ends (.claimreg r) b) { regs := [(r.d.toNat, BitVec.ofNat 32 h.limit)] }
          else { h.kills (s.ends (.claimreg r) b) with st := .waiting .claim, hdr := none, gang := none }) ∧
        ∀ c, c ∈ cs ↔ c ∈ (s.block b.blk).claims ∨ ∃ t ∈ s.executing (.claimreg r) b,
          (s.stood b t).limit < min 256 (target (s.stood b t)) ∧ c = claim t (s.stood b t))

/-- Indirect access, and the register pool. -/
def Obligations.RegisterStorage : Prop :=
  Sys2Proof.Claims.IndirectAccess ∧ Sys2Proof.Claims.RegisterPool

/-! ## Floating point -/

/-- R121, R123-R125: every floating-point instruction of fixed latency completes, with the result of its operation. -/
def Sys2Proof.Claims.FloatResults : Prop :=
  ∀ (s : State) (bid : Nat) (b : Bundle) (r : RR) (m : Rnd) (c : Cmp) (bf : Bool),
    let x (h : Thread) := (h.rd r.a.toNat).toNat
    let y (h : Thread) := (h.rd r.b.toNat).toNat
    let z (h : Thread) := (h.rd r.c.toNat).toNat
    let x2 (h : Thread) := (h.rd64 r.a.toNat).toNat
    let y2 (h : Thread) := (h.rd64 r.b.toNat).toNat
    let z2 (h : Thread) := (h.rd64 r.c.toNat).toNat
    let lo (v : Nat) := v % 2 ^ 16
    let hi (v : Nat) := v / 2 ^ 16
    let f := if bf then bf16 else f16
    (Issues s (.fadd r m) bid b → Writes s (.fadd r m) b fun _ h =>
      { regs := [(r.d.toNat, BitVec.ofNat 32 (fAdd f32 m (x h) (y h)))] }) ∧
    (Issues s (.fmul r m) bid b → Writes s (.fmul r m) b fun _ h =>
      { regs := [(r.d.toNat, BitVec.ofNat 32 (fMul f32 m (x h) (y h)))] }) ∧
    (Issues s (.ffma r m) bid b → Writes s (.ffma r m) b fun _ h =>
      { regs := [(r.d.toNat, BitVec.ofNat 32 (fFma f32 m (x h) (y h) (z h)))] }) ∧
    (Issues s (.fmin r) bid b → Writes s (.fmin r) b fun _ h =>
      { regs := [(r.d.toNat, BitVec.ofNat 32 (fMinMax f32 false (x h) (y h)))] }) ∧
    (Issues s (.fmax r) bid b → Writes s (.fmax r) b fun _ h =>
      { regs := [(r.d.toNat, BitVec.ofNat 32 (fMinMax f32 true (x h) (y h)))] }) ∧
    (Issues s (.fclass r) bid b → Writes s (.fclass r) b fun _ h =>
      { regs := [(r.d.toNat, BitVec.ofNat 32 (fClass (x h)))] }) ∧
    (Issues s (.frnd r m) bid b → Writes s (.frnd r m) b fun _ h =>
      { regs := [(r.d.toNat, BitVec.ofNat 32 (fRnd m (x h)))] }) ∧
    (Issues s (.fcmp r c) bid b → Writes s (.fcmp r c) b fun _ h =>
      { preds := [(r.d.toNat, fCmp f32 c (x h) (y h) && h.rdP r.c.toNat)] }) ∧
    (Issues s (.hadd2 r bf m) bid b → Writes s (.hadd2 r bf m) b fun _ h =>
      { regs := [(r.d.toNat, BitVec.ofNat 32 (
        fAdd f m (lo (x h)) (lo (y h)) + 2 ^ 16 * fAdd f m (hi (x h)) (hi (y h))))] }) ∧
    (Issues s (.hmul2 r bf m) bid b → Writes s (.hmul2 r bf m) b fun _ h =>
      { regs := [(r.d.toNat, BitVec.ofNat 32 (
        fMul f m (lo (x h)) (lo (y h)) + 2 ^ 16 * fMul f m (hi (x h)) (hi (y h))))] }) ∧
    (Issues s (.hfma2 r bf m) bid b → Writes s (.hfma2 r bf m) b fun _ h =>
      { regs := [(r.d.toNat, BitVec.ofNat 32 (
        fFma f m (lo (x h)) (lo (y h)) (lo (z h)) + 2 ^ 16 * fFma f m (hi (x h)) (hi (y h)) (hi (z h))))] }) ∧
    (Issues s (.hmin2 r bf) bid b → Writes s (.hmin2 r bf) b fun _ h =>
      { regs := [(r.d.toNat, BitVec.ofNat 32 (
        fMinMax f false (lo (x h)) (lo (y h)) + 2 ^ 16 * fMinMax f false (hi (x h)) (hi (y h))))] }) ∧
    (Issues s (.hmax2 r bf) bid b → Writes s (.hmax2 r bf) b fun _ h =>
      { regs := [(r.d.toNat, BitVec.ofNat 32 (
        fMinMax f true (lo (x h)) (lo (y h)) + 2 ^ 16 * fMinMax f true (hi (x h)) (hi (y h))))] }) ∧
    (Issues s (.dadd r m) bid b → Writes s (.dadd r m) b fun _ h =>
      { regs := pairW r.d.toNat (BitVec.ofNat 64 (fAdd f64 m (x2 h) (y2 h))) }) ∧
    (Issues s (.dmul r m) bid b → Writes s (.dmul r m) b fun _ h =>
      { regs := pairW r.d.toNat (BitVec.ofNat 64 (fMul f64 m (x2 h) (y2 h))) }) ∧
    (Issues s (.dfma r m) bid b → Writes s (.dfma r m) b fun _ h =>
      { regs := pairW r.d.toNat (BitVec.ofNat 64 (fFma f64 m (x2 h) (y2 h) (z2 h))) }) ∧
    (Issues s (.dcmp r c) bid b → Writes s (.dcmp r c) b fun _ h =>
      { preds := [(r.d.toNat, fCmp f64 c (x2 h) (y2 h) && h.rdP r.c.toNat)] })

/-- R111, R112, R124, R126: FSQRT and the special functions send their result within 64 cycles; the special inputs of
R126, and the rounding of FRCP and FRSQ. -/
def Sys2Proof.Claims.SpecialFunctions : Prop :=
  (∀ (s : State) (bid : Nat) (b : Bundle) (r : RR) (m : Rnd),
    let x (h : Thread) := (h.rd r.a.toNat).toNat
    (Issues s (.fsqrt r m) bid b → Sends s (.fsqrt r m) b 64 fun _ h => { regs := [(r.d.toNat, BitVec.ofNat 32 (fSqrt m (x h)))] }) ∧
    (Issues s (.frcp r) bid b → Sends s (.frcp r) b 64 fun _ h => { regs := [(r.d.toNat, BitVec.ofNat 32 (fRcp (x h)))] }) ∧
    (Issues s (.frsq r) bid b → Sends s (.frsq r) b 64 fun _ h => { regs := [(r.d.toNat, BitVec.ofNat 32 (fRsq (x h)))] }) ∧
    (Issues s (.fexp2 r) bid b → Sends s (.fexp2 r) b 64 fun _ h => { regs := [(r.d.toNat, BitVec.ofNat 32 (fExp2 (x h)))] }) ∧
    (Issues s (.flog2 r) bid b → Sends s (.flog2 r) b 64 fun _ h => { regs := [(r.d.toNat, BitVec.ofNat 32 (fLog2 (x h)))] }) ∧
    (Issues s (.fsin r) bid b → Sends s (.fsin r) b 64 fun _ h => { regs := [(r.d.toNat, BitVec.ofNat 32 (fSin (x h)))] }) ∧
    (Issues s (.fcos r) bid b → Sends s (.fcos r) b 64 fun _ h => { regs := [(r.d.toNat, BitVec.ofNat 32 (fCos (x h)))] }) ∧
    (Issues s (.ftanh r) bid b → Sends s (.ftanh r) b 64 fun _ h => { regs := [(r.d.toNat, BitVec.ofNat 32 (fTanh (x h)))] })) ∧
  (∀ a, f32.value a = .nan → ∀ f ∈ [fRcp, fRsq, fExp2, fLog2, fSin, fCos, fTanh], f a = 0x7FC00000) ∧
  (∀ a, (f32.value a).finite = true → (f32.value a).real < 0 → fRsq a = 0x7FC00000 ∧ fLog2 a = 0x7FC00000) ∧
  (∀ a, (f32.value a).finite = true → (f32.value a).real ≠ 0 →
    Rounded f32 .rne (1 / (f32.value a).real) (fRcp a)) ∧
  (∀ a, (f32.value a).finite = true → 0 < (f32.value a).real →
    Nearest f32 (1 / Real.sqrt (f32.value a).real) (fRsq a)) ∧
  fRcp 0 = 0x7F800000 ∧ fRcp 0x80000000 = 0xFF800000 ∧ fRcp 0x7F800000 = 0 ∧ fRcp 0xFF800000 = 0x80000000 ∧
  fRsq 0 = 0x7F800000 ∧ fRsq 0x80000000 = 0xFF800000 ∧ fRsq 0x7F800000 = 0 ∧ fRsq 0xFF800000 = 0x7FC00000 ∧
  fExp2 0xFF800000 = 0 ∧ fExp2 0x7F800000 = 0x7F800000 ∧
  fLog2 0 = 0xFF800000 ∧ fLog2 0x80000000 = 0xFF800000 ∧ fLog2 0x3F800000 = 0 ∧ fLog2 0x7F800000 = 0x7F800000 ∧
  fLog2 0xFF800000 = 0x7FC00000 ∧
  fSin 0 = 0 ∧ fSin 0x80000000 = 0x80000000 ∧ fSin 0x7F800000 = 0x7FC00000 ∧ fSin 0xFF800000 = 0x7FC00000 ∧
  fCos 0 = 0x3F800000 ∧ fCos 0x80000000 = 0x3F800000 ∧ fCos 0x7F800000 = 0x7FC00000 ∧ fCos 0xFF800000 = 0x7FC00000 ∧
  fTanh 0 = 0 ∧ fTanh 0x80000000 = 0x80000000 ∧ fTanh 0x7F800000 = 0x3F800000 ∧ fTanh 0xFF800000 = 0xBF800000

/-- Every floating-point instruction completes with the result of its operation. -/
def Obligations.FloatArithmetic : Prop :=
  Sys2Proof.Claims.FloatResults ∧ Sys2Proof.Claims.SpecialFunctions

/-- R103 (steps 4, 5, 7), R121: a nonzero exact result is rounded correctly in every format and mode. -/
def Obligations.RoundingIsCorrect : Prop :=
  ∀ f ∈ ieee, ∀ (mode : Rnd) (neg : Bool) (m : Nat) (e : Int), m ≠ 0 →
    Rounded f mode (FVal.fin neg m e).real (f.result mode (.fin neg m e))

/-- R97, R121, R122: sums and products before rounding: exact real arithmetic, the rules of NaN and infinity, and the
signs of zeros. -/
def Sys2Proof.Claims.ExactSums : Prop :=
  (∀ (mode : Rnd) (x y : FVal), x.finite = true → y.finite = true →
    (FVal.add mode x y).finite = true ∧ (FVal.add mode x y).real = x.real + y.real ∧
    (FVal.mul x y).finite = true ∧ (FVal.mul x y).real = x.real * y.real ∧
    (FVal.mul x y).neg = (x.neg != y.neg) ∧
    (x.real + y.real = 0 → (FVal.add mode x y).neg =
      ((x.real == 0 && x.neg && y.neg) || (mode == .rd && (x.neg != y.neg))))) ∧
  (∀ (mode : Rnd) (x : FVal), FVal.add mode .nan x = .nan ∧ FVal.add mode x .nan = .nan ∧ FVal.mul .nan x = .nan ∧
    FVal.mul x .nan = .nan) ∧
  (∀ (mode : Rnd) (p q : Bool), FVal.add mode (.inf p) (.inf q) = (if p = q then .inf p else .nan) ∧
    FVal.mul (.inf p) (.inf q) = .inf (p != q)) ∧
  (∀ (mode : Rnd) (p : Bool) (x : FVal), x.finite = true →
    FVal.add mode (.inf p) x = .inf p ∧ FVal.add mode x (.inf p) = .inf p ∧
    FVal.mul (.inf p) x = (if x.real = 0 then .nan else .inf (p != x.neg)) ∧
    FVal.mul x (.inf p) = (if x.real = 0 then .nan else .inf (x.neg != p))) ∧
  ∀ f ∈ ieee, ∀ mode : Rnd,
    f.result mode .nan = f.nanCode ∧ f.value f.nanCode = .nan ∧
    ∀ p : Bool, f.value (f.result mode (.inf p)) = .inf p ∧
      (f.value (f.result mode (.fin p 0 0))).real = 0 ∧ (f.value (f.result mode (.fin p 0 0))).neg = p

/-- R103, R121, R122: FADD, FMUL and FFMA, packed and binary64 forms with them, compute their sum or product exactly and
round it once, in every format and mode. -/
def Sys2Proof.Claims.OperationsRound : Prop :=
  ∀ f ∈ ieee, ∀ (mode : Rnd) (a b c : Nat),
    let x := f.value a
    let y := f.value b
    let z := f.value c
    fAdd f mode a b = f.result mode (FVal.add mode x y) ∧ fMul f mode a b = f.result mode (FVal.mul x y) ∧
    fFma f mode a b c = f.result mode (FVal.add mode (FVal.mul x y) z) ∧
    (x.finite = true → y.finite = true →
      (x.real + y.real ≠ 0 → Rounded f mode (x.real + y.real) (fAdd f mode a b)) ∧
      (x.real * y.real ≠ 0 → Rounded f mode (x.real * y.real) (fMul f mode a b)) ∧
      (z.finite = true → x.real * y.real + z.real ≠ 0 → Rounded f mode (x.real * y.real + z.real) (fFma f mode a b c)))

/-- Sums and products are exact before they are rounded once; NaN, infinities and zeros as ruled. -/
def Obligations.ExactArithmetic : Prop :=
  Sys2Proof.Claims.ExactSums ∧ Sys2Proof.Claims.OperationsRound

/-- R126: FEXP2, FLOG2, FSIN, FCOS and FTANH round the exact function of a finite input once, to nearest. That a working
precision of the model's list decides every input is log 8 (DEDUCED). -/
def Obligations.SpecialFunctionsRound : Prop :=
  ∀ a : Nat, (f32.value a).finite = true →
    let x : ℝ := (f32.value a).real
    Nearest f32 ((2 : ℝ) ^ x) (fExp2 a) ∧ (0 < x → Nearest f32 (Real.logb 2 x) (fLog2 a)) ∧
    Nearest f32 (Real.sin x) (fSin a) ∧ Nearest f32 (Real.cos x) (fCos a) ∧ Nearest f32 (Real.tanh x) (fTanh a)

/-- R120, R123: FMIN, FMAX and the floating comparisons agree with the order of the real numbers; NaN and signed zeros
as their tables say. -/
def Sys2Proof.Claims.FloatComparisons : Prop :=
  ∀ f ∈ ieee, ∀ a b : Nat,
    let x := f.value a
    let y := f.value b
    (x.finite = true → y.finite = true →
      fCmp f .eq a b = decide (x.real = y.real) ∧ fCmp f .ne a b = decide (x.real ≠ y.real) ∧
      fCmp f .lt a b = decide (x.real < y.real) ∧ fCmp f .le a b = decide (x.real ≤ y.real) ∧
      fCmp f .gt a b = decide (x.real > y.real) ∧ fCmp f .ge a b = decide (x.real ≥ y.real) ∧
      fCmp f .ord a b = true ∧ fCmp f .unord a b = false ∧
      (x.real < y.real → fMinMax f false a b = a ∧ fMinMax f true a b = b) ∧
      (y.real < x.real → fMinMax f false a b = b ∧ fMinMax f true a b = a) ∧
      (x.real = 0 → y.real = 0 → x.neg = true → y.neg = false →
        fMinMax f false a b = a ∧ fMinMax f true a b = b ∧ fMinMax f false b a = a ∧ fMinMax f true b a = b)) ∧
    (x = .nan ∨ y = .nan → ∀ c : Cmp, fCmp f c a b = (c == .ne || c == .unord)) ∧
    (x = .nan → y = .nan → ∀ g, fMinMax f g a b = f.nanCode) ∧
    (x = .nan → y ≠ .nan → ∀ g, fMinMax f g a b = b ∧ fMinMax f g b a = b)

/-- R102, R124, R125: FRND gives the integer that the mode selects, the even one on a tie under RNE, with the sign of its
operand; FSQRT is the rounded square
root; FCLASS names the one class of its operand, and the poison pattern. -/
def Sys2Proof.Claims.FloatUnary : Prop :=
  ∀ (mode : Rnd) (a : Nat), a < 2 ^ 32 →
    let x := f32.value a
    (x.finite = true →
      let r := f32.value (fRnd mode a)
      r.finite = true ∧ r.neg = x.neg ∧ (∃ n : ℤ, r.real = n) ∧ ∀ n : ℤ, match mode with
        | .rd => r.real ≤ x.real ∧ (n ≤ x.real → (n : ℚ) ≤ r.real)
        | .ru => x.real ≤ r.real ∧ (x.real ≤ n → r.real ≤ (n : ℚ))
        | .rz => |r.real| ≤ |x.real| ∧ (|(n : ℚ)| ≤ |x.real| → |(n : ℚ)| ≤ |r.real|)
        | .rne => |r.real - x.real| ≤ |(n : ℚ) - x.real| ∧
            (|r.real - x.real| = |(n : ℚ) - x.real| → (n : ℚ) = r.real ∨ ∃ k : ℤ, r.real = 2 * k)) ∧
    (x.finite = false → fRnd mode a = f32.result mode x) ∧
    (x.finite = true → 0 < x.real →
      let r := f32.value (fSqrt mode a)
      r.finite = true ∧ 0 < r.real ∧ ∀ z, (f32.value z).finite = true → 0 ≤ (f32.value z).real →
        let y := (f32.value z).real
        match mode with
        | .ru => x.real ≤ r.real * r.real ∧ (x.real ≤ y * y → r.real ≤ y)
        | .rd | .rz => r.real * r.real ≤ x.real ∧ (y * y ≤ x.real → y ≤ r.real)
        | .rne => (y < r.real → (y + r.real) ^ 2 ≤ 4 * x.real) ∧ (r.real < y → 4 * x.real ≤ (y + r.real) ^ 2)) ∧
    (x.finite = true → x.real = 0 → fSqrt mode a = a) ∧ fSqrt mode 0x7F800000 = 0x7F800000 ∧
    (x.finite = true → x.real < 0 → fSqrt mode a = 0x7FC00000) ∧
    (x = .nan ∨ x = .inf true → fSqrt mode a = 0x7FC00000) ∧
    fClass a = (match x with
      | .nan => if a = 0x7FFFFFFF then 0x300 else 0x100
      | .inf neg => if neg then 1 else 0x80
      | .fin neg _ _ =>
        if x.real = 0 then (if neg then 8 else 0x10)
        else if |x.real| < 2 ^ (-126 : ℤ) then (if neg then 4 else 0x20)
        else if neg then 2 else 0x40)

/-- Comparisons, minima, FRND, FSQRT and FCLASS agree with the real numbers. -/
def Obligations.FloatOrder : Prop :=
  Sys2Proof.Claims.FloatComparisons ∧ Sys2Proof.Claims.FloatUnary

/-- R127-R129: CVT, CVTF and KEYORD complete; their conversions set the flags of MSTATUS that R104 names. -/
def Sys2Proof.Claims.ConversionResults : Prop :=
  ∀ (s : State) (bid : Nat) (b : Bundle),
    let k := s.block b.blk
    let fmt (r : RX) := fmtOf (k.fmt (s.now (dieOf b.core)) r.fa.toNat)
    let mode (r : RX) : Rnd := match fld r.flags 0 2 with
      | 0 => .rne | 1 => .rz | 2 => .ru | _ => .rd
    (∀ (r : RR) (dst src : VTy) (m : Rnd) (sat : Bool), Issues s (.cvt r dst src m sat) bid b →
      Writes s (.cvt r dst src m sat) b fun _ h =>
        let c := cvtVal dst src m sat (if src.wide then (h.rd64 r.a.toNat).toNat else (h.rd r.a.toNat).toNat)
        { regs := if dst.wide then pairW r.d.toNat (BitVec.ofNat 64 c.code) else [(r.d.toNat, BitVec.ofNat 32 c.code)],
          flags := (if c.inv then 1 else 0) ||| (if c.ovf then 2 else 0) }) ∧
    (∀ r : RX, Issues s (.cvtfEnc r) bid b →
      let conv (h : Thread) (e : Nat) : Conv :=
        let v := f32.value (h.rd (r.a.toNat + e)).toNat
        if r.flags.getLsbD 2 then (fmt r).convertStoch (h.rd (r.b.toNat + e)).toNat v else (fmt r).convert (mode r) v
      ∃ f : Thread → Conv,
      (∀ h, ((f h).code < 2 ^ 32) ∧ ∀ e, e < 32 / (fmt r).cont →
        (f h).code / 2 ^ ((fmt r).cont * e) % 2 ^ (fmt r).cont = (conv h e).code) ∧
      (∀ h, (f h).inv = (List.range (32 / (fmt r).cont)).any (fun e => (conv h e).inv) ∧
        (f h).ovf = (List.range (32 / (fmt r).cont)).any (fun e => (conv h e).ovf)) ∧
      Writes s (.cvtfEnc r) b fun _ h =>
        { regs := [(r.d.toNat, BitVec.ofNat 32 (f h).code)],
          flags := (if (f h).inv then 1 else 0) ||| (if (f h).ovf then 2 else 0) }) ∧
    (∀ r : RX, Issues s (.cvtfDec r) bid b → Writes s (.cvtfDec r) b fun _ h =>
      let e (n : Nat) : Conv := f32.convert (mode r)
        ((fmt r).value ((h.rd r.a.toNat).toNat / 2 ^ ((fmt r).cont * n) % 2 ^ (fmt r).cont))
      { regs := (List.range (32 / (fmt r).cont)).map fun n => (r.d.toNat + n, BitVec.ofNat 32 (e n).code),
        flags := (if (List.range (32 / (fmt r).cont)).any (fun n => (e n).inv) then 1 else 0) |||
          (if (List.range (32 / (fmt r).cont)).any (fun n => (e n).ovf) then 2 else 0) }) ∧
    (∀ (r : RR) (top : Bool), Issues s (.keyord r false top) bid b → Writes s (.keyord r false top) b fun _ h =>
      { regs := [(r.d.toNat, BitVec.ofNat 32 (keyOf 32 top (h.rd r.a.toNat).toNat))] }) ∧
    (∀ (r : RR) (top : Bool), Issues s (.keyord r true top) bid b → Writes s (.keyord r true top) b fun _ h =>
      { regs := pairW r.d.toNat (BitVec.ofNat 64 (keyOf 64 top (h.rd64 r.a.toNat).toNat)) })

/-- R103, R104, R106: the values and events of conversions between the fixed types. That a negative value into n32 or n64 is
invalid, and an overflow too where it saturates, is the model's reading of R104 and R106 (log 70). -/
def Sys2Proof.Claims.ConversionValues : Prop :=
  let signed (t : IntTy) : VTy := match t with
    | .s32 => .s32 | .n32 => .n32 | .s64 => .s64 | .n64 => .n64
  let width (t : IntTy) : Nat := if t.wide then 64 else 32
  let exact (t : IntTy) (x : Nat) : Int := match t with
    | .s32 => (BitVec.ofNat 32 x).toInt | .n32 => x | .s64 => (BitVec.ofNat 64 x).toInt | .n64 => x
  (∀ (t : VTy) (m : Rnd) (sat : Bool) (x : Nat),
    cvtVal .b32 t m sat x = cvtVal .n32 t m sat x ∧ cvtVal t .b32 m sat x = cvtVal t .n32 m sat x) ∧
  (∀ (dst src : IntTy) (m : Rnd) (sat : Bool) (x : Nat), x < 2 ^ width src →
    let v := exact src x
    let c := cvtVal (signed dst) (signed src) m sat x
    (c.inv = true ↔ lowest dst = 0 ∧ v < 0) ∧ c.code = (satIf dst sat v % 2 ^ width dst).toNat ∧
    (c.ovf = true ↔ satIf dst sat v ≠ v)) ∧
  (∀ (dst : IntTy) (src : VTy) (f : Fmt), vtyFloat src = some f → ∀ (m : Rnd) (sat : Bool) (x : Nat), x < 2 ^ f.width →
    let c := cvtVal (signed dst) src m sat x
    match f.value x with
    | .nan => c.code = 0 ∧ c.inv = true ∧ c.ovf = false
    | .inf neg => (c.code : Int) = (if neg then lowest dst else highest dst) % 2 ^ width dst ∧ c.ovf = true ∧
        (c.inv = true ↔ lowest dst = 0 ∧ neg = true)
    | .fin neg k e => ∃ n : Int, picksInt m (FVal.fin neg k e).real n ∧
        (c.code : Int) = satIf dst true n % 2 ^ width dst ∧ (c.inv = true ↔ lowest dst = 0 ∧ n < 0) ∧
        (c.ovf = true ↔ satIf dst true n ≠ n)) ∧
  ∀ (dst : VTy) (f : Fmt), vtyFloat dst = some f → ∀ (m : Rnd) (sat : Bool),
    let beyond (q : ℚ) (ovf : Bool) := ∃ k, f.Picks m (decide (q < 0)) |q| k ∧ ovf = decide (f.top < f.ext k)
    (∀ (src : IntTy) (x : Nat), x < 2 ^ width src →
      let c := cvtVal dst (signed src) m sat x
      c.inv = false ∧ (exact src x = 0 → c.code = 0) ∧
      (exact src x = 0 → c.ovf = false) ∧
      (exact src x ≠ 0 → Rounded f m (exact src x) c.code ∧ beyond (exact src x) c.ovf)) ∧
    ∀ (src : VTy) (g : Fmt), vtyFloat src = some g → ∀ x, x < 2 ^ g.width →
      let c := cvtVal dst src m sat x
      match g.value x with
      | .nan => c = ⟨f.nanCode, false, false⟩
      | .inf neg => f.value c.code = .inf neg ∧ c.inv = false ∧ c.ovf = false
      | .fin neg k e => c.inv = false ∧
          (k = 0 → (f.value c.code).real = 0 ∧ (f.value c.code).neg = neg ∧ c.ovf = false) ∧
          (k ≠ 0 → Rounded f m (FVal.fin neg k e).real c.code ∧ beyond (FVal.fin neg k e).real c.ovf)

/-- R97, R102-R106: conversions into the entries of the format table, and into the four IEEE formats, on which CVTF, EPI and
EPIQ rest: NaN, negative values without a sign bit, infinities, zeros, rounding in the extended set, the flush of SUBN 0, and
overflow, with their events; stochastic rounding by the random bits; integer entries saturate. What an overflowing stochastic
choice gives is the model's (log 71), and so is invalid for a negative value into an unsigned integer entry (log 70). -/
def Sys2Proof.Claims.FormatConversions : Prop :=
  ∀ f : Fmt, (f ∈ ieee ∨ ∃ w, fmtValid w = true ∧ f = fmtOf w) →
    (f.intm = false →
      ((f.value f.maxCode).finite = true ∧ f.top = f.ext f.maxCode ∧ ∀ z, (f.value z).finite = true → (f.value z).real ≤ f.top) ∧
      ∀ (mode : Rnd) (rnd : Nat),
        (∀ conv ∈ [f.convert mode, f.convertStoch rnd],
          conv .nan = ⟨f.canonical, decide (f.spec = 2), false⟩ ∧
          (∀ neg : Bool, conv (.inf neg) =
            if neg = true ∧ f.sgn = false then ⟨0, true, false⟩
            else if f.ovf = true ∧ f.spec = 0 then ⟨f.signBit neg + f.maxCode + 1, false, false⟩
            else if f.ovf = true ∧ f.spec = 1 then ⟨f.canonical, false, true⟩
            else ⟨f.signBit neg + f.maxCode, false, true⟩) ∧
          (∀ (neg : Bool) (e : Int), conv (.fin neg 0 e) = ⟨f.signBit neg, false, false⟩) ∧
          ∀ (m : Nat) (e : Int), m ≠ 0 → f.sgn = false → conv (.fin true m e) = ⟨0, true, false⟩) ∧
        ∀ (neg : Bool) (m : Nat) (e : Int), m ≠ 0 → (neg = true → f.sgn = true) →
          let q := |(FVal.fin neg m e).real|
          (∃ k, f.Picks mode neg q k ∧ f.convert mode (.fin neg m e) =
            f.settled (mode == .rz || (mode == .ru && neg) || (mode == .rd && !neg)) neg k) ∧
          ∃ k larger, f.Draws rnd q k larger ∧ f.convertStoch rnd (.fin neg m e) = f.settled (!larger) neg k) ∧
    (f.intm = true → ∀ (mode : Rnd) (rnd : Nat),
      let lo : ℤ := if f.sgn then -2 ^ (f.width - 1) else 0
      let hi : ℤ := if f.sgn then 2 ^ (f.width - 1) - 1 else 2 ^ f.width - 1
      let is (c : Conv) (n : ℤ) := (c.code : ℤ) = min (max n lo) hi % 2 ^ f.width ∧
        (c.inv = true ↔ f.sgn = false ∧ n < 0) ∧ (c.ovf = true ↔ n < lo ∨ hi < n)
      (∀ conv ∈ [f.convert mode, f.convertStoch rnd], conv .nan = ⟨0, true, false⟩ ∧
        is (conv (.inf false)) (hi + 1) ∧ is (conv (.inf true)) (lo - 1)) ∧
      ∀ (neg : Bool) (m : Nat) (e : Int),
        let q := (FVal.fin neg m e).real
        (∃ n, picksInt mode q n ∧ is (f.convert mode (.fin neg m e)) n) ∧
        is (f.convertStoch rnd (.fin neg m e)) ((if neg then -1 else 1) *
          if ((rnd % 65536 : ℕ) : ℤ) < ⌊65536 * (|q| - ⌊|q|⌋)⌋ then ⌊|q|⌋ + 1 else ⌊|q|⌋))

/-- CVT, CVTF and KEYORD: their results, values and events. -/
def Obligations.Conversions : Prop :=
  Sys2Proof.Claims.ConversionResults ∧ Sys2Proof.Claims.ConversionValues ∧ Sys2Proof.Claims.FormatConversions

/-- R129: the key of KEYORD keeps the order of the numbers, both zeros share a key, key 0 comes from no number, and a
NaN has key 0 or all ones. -/
def Obligations.KeyOrder : Prop :=
  ∀ (wide top : Bool) (a b : Nat),
    let w := if wide then 64 else 32
    let f := if wide then f64 else f32
    a < 2 ^ w → b < 2 ^ w →
    keyOf w top a < 2 ^ w ∧
    (f.value a = .nan → keyOf w top a = if top then 2 ^ w - 1 else 0) ∧
    (f.value a ≠ .nan → keyOf w top a ≠ 0) ∧
    (f.value a ≠ .nan → f.value b ≠ .nan →
      (keyOf w top a < keyOf w top b ↔ fCmp f .lt a b = true) ∧ (keyOf w top a = keyOf w top b ↔ fCmp f .eq a b = true))

/-! ## Cohorts -/

/-- R148-R150: SHFL, VOTE and MATCH in a cohort-gathering clause. -/
def Obligations.ShuffleVoteMatch : Prop :=
  ∀ (s : State) (bid : Nat) (b : Bundle) (r : RR), hdrGather b.hdr = 2 →
    let w64 := decide ((s.block b.blk).cfg.w = 64)
    (∀ m : ShflMode, Issues s (.shfl r m) bid b → Writes s (.shfl r m) b fun t h =>
      let p := s.posOf b t
      let o := (h.rd r.b.toNat).toNat
      let from_ : Option Nat := match m with
        | .idx => some o
        | .up => if o ≤ p then some (p - o) else none
        | .down => some (p + o)
        | .xor => some (p ^^^ o)
      { regs := [(r.d.toNat, ((from_.bind (s.atPos (.shfl r m) b)).getD h).rd r.a.toNat)] }) ∧
    (Issues s (.voteAll r) bid b → Writes s (.voteAll r) b fun _ _ =>
      { preds := [(r.d.toNat, decide (∀ t ∈ s.executing (.voteAll r) b, (s.stood b t).rdP r.a.toNat = true))] }) ∧
    (Issues s (.voteAny r) bid b → Writes s (.voteAny r) b fun _ _ =>
      { preds := [(r.d.toNat, decide (∃ t ∈ s.executing (.voteAny r) b, (s.stood b t).rdP r.a.toNat = true))] }) ∧
    (Issues s (.voteBallot r) bid b → Writes s (.voteBallot r) b fun _ _ =>
      { regs := outcome w64 r.d (s.maskAt (.voteBallot r) b fun h => h.rdP r.a.toNat) }) ∧
    (Issues s (.voteEq r) bid b → Writes s (.voteEq r) b fun _ h =>
      { preds := [(r.d.toNat,
          decide (∀ t ∈ s.executing (.voteEq r) b, (s.stood b t).rd r.a.toNat = h.rd r.a.toNat))] }) ∧
    (Issues s (.matchBits r false) bid b → Writes s (.matchBits r false) b fun _ h =>
      { regs := outcome w64 r.d (s.maskAt (.matchBits r false) b fun g => g.rd r.a.toNat == h.rd r.a.toNat) }) ∧
    (Issues s (.matchBits r true) bid b → Writes s (.matchBits r true) b fun _ h =>
      { regs := outcome w64 r.d (s.maskAt (.matchBits r true) b fun g => g.rd64 r.a.toNat == h.rd64 r.a.toNat) })

/-- R146, R151: CRED, CSCAN, SEGRED and SEGSCAN give the tree over their positions, or the identity over none. -/
def Sys2Proof.Claims.TreeResults : Prop :=
  ∀ (s : State) (bid : Nat) (b : Bundle) (r : RR) (op : RedOp) (t : RedTy) (excl : Bool), hdrGather b.hdr = 2 →
    let w := (s.block b.blk).cfg.w
    let result (i : Instr) (lo hi : Nat) : Res :=
      { regs := outcome t.wide r.d
          ((tree (redVal op t) (log2 w) (s.addends i b t.wide r.a.toNat lo hi)).getD (redIdent op t)) }
    (Issues s (.cred r op t) bid b → Writes s (.cred r op t) b fun _ _ => result (.cred r op t) 0 w) ∧
    (Issues s (.cscan r op t excl) bid b → Writes s (.cscan r op t excl) b fun q _ =>
      result (.cscan r op t excl) 0 (if excl then s.posOf b q else s.posOf b q + 1)) ∧
    (Issues s (.segred r op t) bid b → Writes s (.segred r op t) b fun q _ =>
      result (.segred r op t) (s.headAt (.segred r op t) b r.c.toNat (s.posOf b q))
        (s.headAfter (.segred r op t) b r.c.toNat (s.posOf b q))) ∧
    (Issues s (.segscan r op t excl) bid b → Writes s (.segscan r op t excl) b fun q _ =>
      result (.segscan r op t excl) (s.headAt (.segscan r op t excl) b r.c.toNat (s.posOf b q))
        (if excl then s.posOf b q else s.posOf b q + 1))

/-- R146: the tree joins the trees of the two halves; a half without a value passes the other through. -/
def Sys2Proof.Claims.TreeOfHalves : Prop :=
  ∀ (op : Nat → Nat → Nat) (n : Nat) (l r : List (Option Nat)), l.length = 2 ^ n → r.length = 2 ^ n →
    tree op (n + 1) (l ++ r) = match tree op n l, tree op n r with
      | none, b => b
      | a, none => a
      | some a, some b => some (op a b)

/-- R113, R146, R151: an integer sum does not depend on the shape of the tree: it is the sum of the values modulo 2^w. -/
def Sys2Proof.Claims.IntegerSums : Prop :=
  ∀ (t : IntTy) (n : Nat) (l : List (Option Nat)), l.length = 2 ^ n →
    (∀ x ∈ l, ∀ v, x = some v → v < 2 ^ (if t.wide then 64 else 32)) →
    tree (redVal .add (.int t)) n l =
      if l.all (·.isNone) then none
      else some ((l.map fun x => x.getD 0).sum % 2 ^ (if t.wide then 64 else 32))

/-- Reductions and scans give the tree over their positions; integer sums are exact sums. -/
def Obligations.ReductionsAndScans : Prop :=
  Sys2Proof.Claims.TreeResults ∧ Sys2Proof.Claims.TreeOfHalves ∧ Sys2Proof.Claims.IntegerSums

/-- R152: BQNT gives each participant its element and the scale of its quantisation block, and sets the flags. -/
def Sys2Proof.Claims.QuantisedResults : Prop :=
  ∀ (s : State) (bid : Nat) (b : Bundle) (r : RX), hdrGather b.hdr = 2 → Issues s (.bqnt r) bid b →
    let f := fmtOf (presetFmt r.fa.toNat)
    let same (t : Nat) := (s.executing (.bqnt r) b).filter fun q => s.posOf b q / 32 == s.posOf b t / 32
    let out (t : Nat) := quantise f (r.flags.getLsbD 0)
      ((same t).map fun q => f32.value ((s.stood b q).rd r.a.toNat).toNat)
    Writes s (.bqnt r) b fun t _ =>
      let e := ((out t).2.1[(same t).idxOf t]?).getD ⟨0, false, false⟩
      { regs := [(r.d.toNat, BitVec.ofNat 32 e.code), (r.d.toNat + 1, BitVec.ofNat 32 (out t).1)],
        flags := (if (out t).2.2 then 1 else 0) ||| (if e.ovf then 2 else 0) }

/-- R107, R109: the scale and the elements of an MX block: the NaN case, the zero case, the scale of each kind, and
each element the nearest of its format to the scaled value, with overflow where the scaled value lies beyond the largest. -/
def Sys2Proof.Claims.MxBlocks : Prop :=
  ∀ (n : Nat) (e8m2 : Bool) (vs : List FVal), 2 ≤ n → n < 8 → vs ≠ [] →
    let f := fmtOf (presetFmt n)
    let emax : Int := match n with
      | 2 => 8 | 3 => 15 | 4 => 2 | 5 => 4 | 6 => 2 | _ => 0
    let top : ℚ := if n = 7 then 127 / 64 else f.top
    let (x, es, nan) := quantise f e8m2 vs
    let scale (c : Nat) : ℚ := (scaleVal e8m2 c).real
    es.length = vs.length ∧
    ((∃ v ∈ vs, v.finite = false) → nan = true ∧ x = (if e8m2 then 0x3FC else 0xFF) ∧
      ∀ e ∈ es, e.code = if n = 2 then 0x7F else if n = 3 then 0x7E else 0) ∧
    ((∀ v ∈ vs, v.finite = true ∧ v.real = 0) → nan = false ∧ x = 0 ∧
      ∀ (k : Nat) (e : Conv) (v : FVal), es[k]? = some e → vs[k]? = some v →
        f.element e.code = 0 ∧ (n ≠ 7 → (f.value e.code).neg = v.neg)) ∧
    ∀ big ∈ vs, (∀ v ∈ vs, v.finite = true ∧ |v.real| ≤ |big.real|) → big.real ≠ 0 →
      nan = false ∧ (scaleVal e8m2 x).finite = true ∧
      (e8m2 = false → ∀ g : Int, (2 : ℚ) ^ (g + emax) ≤ |big.real| → |big.real| < (2 : ℚ) ^ (g + emax + 1) →
        scale x = 2 ^ max (-127) (min 127 g)) ∧
      (e8m2 = true → (|big.real| ≤ top * scale x ∨ x = 0x3FB) ∧
        ∀ c < 0x3FC, |big.real| ≤ top * scale c → scale x ≤ scale c) ∧
      ∀ (k : Nat) (e : Conv) (v : FVal), es[k]? = some e → vs[k]? = some v →
        ∀ z, (f.value z).finite = true → |f.element z| ≤ top →
        |f.element e.code - v.real / scale x| ≤ |f.element z - v.real / scale x| ∧
        (|f.element e.code - v.real / scale x| = |f.element z - v.real / scale x| →
          f.element z = f.element e.code ∨ e.code % 2 = 0) ∧
        (e.ovf = true ↔ top < |v.real / scale x|)

/-- Block quantisation: BQNT, the scales and the elements of MX blocks. -/
def Obligations.BlockQuantisation : Prop :=
  Sys2Proof.Claims.QuantisedResults ∧ Sys2Proof.Claims.MxBlocks

/-- R153-R158: the selection instructions over a whole cohort. -/
def Sys2Proof.Claims.SelectionResults : Prop :=
  ∀ (s : State) (bid : Nat) (b : Bundle) (r : RR), hdrGather b.hdr = 2 →
    let w := (s.block b.blk).cfg.w
    let bucket (c key : Nat) : Option Nat :=
      let k := c % 4
      if key ≠ 0 ∧ key / 2 ^ (8 * (k + 1)) = c / 2 ^ (8 * (k + 1)) then some (key / 2 ^ (8 * k) % 256) else none
    (Issues s (.selhist r) bid b → s.whole (.selhist r) b → Sends s (.selhist r) b 64 fun t _ =>
      let i : Instr := .selhist r
      let n := 128 / w
      let count (k : Nat) := min (s.countAt i b r.d.toNat k +
        ((List.range w).filter fun q => bucket (s.regAt i b 0 r.b.toNat) (s.regAt i b q r.a.toNat) = some k).length) 0xFFFF
      { regs := (List.range n).map fun j =>
          (r.d.toNat + j, BitVec.ofNat 32 (count (2 * n * s.posOf b t + 2 * j) +
            2 ^ 16 * count (2 * n * s.posOf b t + 2 * j + 1))) }) ∧
    (Issues s (.selcut r) bid b → s.whole (.selcut r) b →
      let i : Instr := .selcut r
      let h (k : Nat) := s.countAt i b r.a.toNat k
      let above (k : Nat) := ((List.range 256).map fun j => if k ≤ j then h j else 0).sum
      let k := s.regAt i b 0 r.b.toNat
      ∃ t, t ≤ 255 ∧ (t ≠ 0 → k ≤ above t) ∧ (∀ u, t < u → u ≤ 255 → above u < k) ∧
        Sends s (.selcut r) b 64 fun _ _ => { regs := [(r.d.toNat, BitVec.ofNat 32 (t + 256 * above (t + 1)))] }) ∧
    (Issues s (.selpack r) bid b → s.whole (.selpack r) b →
      let i : Instr := .selpack r
      let ctl := s.regAt i b 0 r.b.toNat
      let c := s.regAt i b 0 r.c.toNat
      let es := s.entriesAt i b r.a.toNat 0
      let above := es.filter fun e => match bucket c e.key with
        | some k => decide (ctl % 256 < k)
        | none => false
      let at_ := (sortBy SelEnt.byIdx (es.filter fun e => bucket c e.key == some (ctl % 256))).take
        (min (ctl / 256 % 256) w)
      Sends s (.selpack r) b 64 fun t _ =>
        { regs := listed r.d (s.posOf b t) (sortBy SelEnt.before (above ++ at_)) at_.length }) ∧
    (Issues s (.selmerge r) bid b → s.whole (.selmerge r) b →
      let i : Instr := .selmerge r
      let e := sortBy SelEnt.before
        ((s.entriesAt i b r.a.toNat 0 ++ s.entriesAt i b r.b.toNat w).filter fun e => e.key ≠ 0)
      ∃ l : List SelEnt, l.Sublist e ∧ (l.map (·.idx)).Nodup ∧ (∀ x ∈ e, ∃ y ∈ l, y.idx = x.idx) ∧
        (∀ x ∈ l, ∀ y ∈ e, x.idx = y.idx → x = y ∨ x.before y = true) ∧
        Sends s (.selmerge r) b 64 fun t _ =>
          { regs := listed r.d (s.posOf b t) (l.take (min (s.regAt i b 0 r.c.toNat) w)) (e.length - l.length) })

/-- R143, R145, R153: a cohort instruction outside a cohort-gathering clause raises partial mask, subcause 1, in each
member whose guard is true; a selection instruction that a position misses raises subcause 2. Either way it takes its
instruction's issue cycles. -/
def Sys2Proof.Claims.PartialMasks : Prop :=
  ∀ (s : State) (bid : Nat) (b : Bundle) (r : RR) (q : RX) (i : Instr), Issues s i bid b →
    let cost : Nat := match i with
      | .cred _ _ t | .segred _ _ t | .cscan _ _ t _ | .segscan _ _ t _ => if t.wide then 4 else 2
      | .matchBits _ true | .bqnt _ | .selhist _ | .selcut _ => 2
      | .selpack _ | .selmerge _ => 4
      | _ => 1
    (hdrGather b.hdr ≠ 2 →
      (∃ m, i = .shfl r m) ∨ i = .voteAll r ∨ i = .voteAny r ∨ i = .voteBallot r ∨ i = .voteEq r ∨
      (∃ w, i = .matchBits r w) ∨ (∃ op t, i = .cred r op t ∨ i = .segred r op t) ∨
      (∃ op t x, i = .cscan r op t x ∨ i = .segscan r op t x) ∨ i = .bqnt q ∨ i = .selhist r ∨ i = .selcut r ∨
      i = .selpack r ∨ i = .selmerge r →
      AllTrap s i bid b (s.executing i b) 6 1 cost) ∧
    (hdrGather b.hdr = 2 → (s.executing i b).length ≠ (s.block b.blk).cfg.w →
      i = .selhist r ∨ i = .selcut r ∨ i = .selpack r ∨ i = .selmerge r → AllTrap s i bid b (s.executing i b) 6 2 cost)

/-- The selection instructions over a whole cohort, and the partial-mask traps. -/
def Obligations.Selection : Prop :=
  Sys2Proof.Claims.SelectionResults ∧ Sys2Proof.Claims.PartialMasks

/-! ## Control flow and traps -/

/-- R131, R132, R141: a branch takes each executing thread to its target at index 0; a call also writes the link and closes
the arming windows of the cohorts that take it; a target that is no multiple of 8 traps at the branch. -/
def Sys2Proof.Claims.BranchTargets : Prop :=
  ∀ (s : State) (bid : Nat) (b : Bundle) (r : RB),
    let direct (_ : Thread) : DWord := b.base + r.off.signExtend 64 * 8
    let indirect (h : Thread) : DWord := h.rd64 r.a.toNat + r.off.signExtend 64 * 8
    let taken (target : Thread → DWord) (h : Thread) := fld (target h) 0 3 = 0
    let may (i : Instr) (target : Thread → DWord) := ∀ t ∈ s.executing i b, ¬ taken target (s.stood b t) →
      s.handles b.blk 3 1 ∧ (s.stood b t).inh = false
    let after (i : Instr) (target : Thread → DWord) (link : List (Nat × Word)) (_ : Nat) (h : Thread) : Thread :=
      if taken target h then { h.wrs link with base := target h, index := 0 }
      else s.trapped i b 3 1 0 (target h) h
    let link : List (Nat × Word) := pairW r.d.toNat (b.base + BitVec.ofNat 64 (8 * (hdrCount b.hdr + 2)))
    let with_ (js : Tab JReg) : State := s.setBlock b.blk fun x => { x with joins := js }
    let closed (i : Instr) (target : Thread → DWord) (js : Tab JReg) := ∀ c j, j < 16 →
        ((∃ t ∈ s.executing i b, t / (s.block b.blk).cfg.w = c ∧ taken target (s.stood b t)) →
          jreg js c j = { jreg (s.block b.blk).joins c j with opened := false }) ∧
        ((¬ ∃ t ∈ s.executing i b, t / (s.block b.blk).cfg.w = c ∧ taken target (s.stood b t)) →
          jreg js c j = jreg (s.block b.blk).joins c j)
    (Issues s (.bra r) bid b → may (.bra r) direct → Turns s (.bra r) b s (after (.bra r) direct [])) ∧
    (Issues s (.brx r) bid b → may (.brx r) indirect → Turns s (.brx r) b s (after (.brx r) indirect [])) ∧
    (Issues s (.ret r) bid b → may (.ret r) indirect → Turns s (.ret r) b s (after (.ret r) indirect [])) ∧
    (Issues s (.call r) bid b → may (.call r) direct → ∃ js,
      Turns s (.call r) b (with_ js) (after (.call r) direct link) ∧ closed (.call r) direct js) ∧
    (Issues s (.callx r) bid b → may (.callx r) indirect → ∃ js,
      Turns s (.callx r) b (with_ js) (after (.callx r) indirect link) ∧ closed (.callx r) indirect js)

/-- R134: NOP has no effect, YIELD only ranks the thread's next group last. -/
def Sys2Proof.Claims.Hints : Prop :=
  ∀ (s : State) (bid : Nat) (b : Bundle) (r : RR),
    (Issues s (.nop r) bid b → Turns s (.nop r) b s fun _ h => h) ∧
    (Issues s (.yieldHint r) bid b → Turns s (.yieldHint r) b s fun _ h => { h with yielded := true })

/-- Branches, calls, NOP and YIELD. -/
def Obligations.Branches : Prop :=
  Sys2Proof.Claims.BranchTargets ∧ Sys2Proof.Claims.Hints

/-- R95, R133, R138: EXIT of threads without pending writes: they are EXITED with all registers dead, their chunks go to
the pool, they leave the claim queue and every rejoin mask of their cohort, and stand among the exits that their barriers
count at the cycle's end; no other thread's registers and no byte of memory change. -/
def Obligations.ThreadExit : Prop :=
  ∀ (s : State) (bid : Nat) (b : Bundle) (r : RR), Issues s (.exit r) bid b →
    let out := s.executing (.exit r) b
    (∀ t ∈ out, s.has b.blk t = true ∧ (s.stood b t).pend = [] ∧ (s.stood b t).ppend = [] ∧
      (s.thread b.blk t).st ≠ .exited) →
    Leaves s (.exit r) fun s' =>
      (∀ t ∈ out, (s'.thread b.blk t).st = .exited ∧ (s'.thread b.blk t).live = [] ∧
        (s'.thread b.blk t).preds = (s.thread b.blk t).preds) ∧
      (∀ t, t ∉ out → s.has b.blk t = true → (s'.thread b.blk t).live = (s.thread b.blk t).live ∧
        (s'.thread b.blk t).preds = (s.thread b.blk t).preds ∧ (s'.thread b.blk t).slice = (s.thread b.blk t).slice) ∧
      (s'.block b.blk).pool = (s.block b.blk).pool + (out.map fun t => (s.thread b.blk t).limit / 8).sum ∧
      (∀ c, c ∈ (s'.block b.blk).claims ↔ c ∈ (s.block b.blk).claims ∧ c.tid ∉ out) ∧
      (∀ c j p, j < 16 → p < 64 →
        let old := jreg (s.block b.blk).joins c j
        let new := jreg (s'.block b.blk).joins c j
        let gone := decide (∃ t ∈ out, t / (s.block b.blk).cfg.w = c ∧ s.posOf b t = p)
        new.mask.getLsbD p = (old.mask.getLsbD p && !gone) ∧ new.out.getLsbD p = (old.out.getLsbD p && !gone) ∧
        new.arrived.getLsbD p = (old.arrived.getLsbD p && !gone) ∧ new.opened = old.opened) ∧
      s'.mem = s.mem ∧ (s'.block b.blk).scratch = (s.block b.blk).scratch ∧
      (s'.core b.core).exits = (s.core b.core).exits ++ out.map fun t => (b.blk, t)

/-- R136, R139, R140: JARM, JWAIT, JDROP, JGET and JSET on the registers of each cohort that executes them. -/
def Obligations.RejoinMasks : Prop :=
  ∀ (s : State) (bid : Nat) (b : Bundle) (r : RR),
    let k := s.block b.blk
    let old (c j : Nat) := jreg k.joins c j
    let only (i : Instr) (js : Tab JReg) (f : Nat → JReg) := ∀ c j, j < 16 →
      (j = r.d.toNat → s.inCohort i b c → jreg js c j = { f c with changed := true }) ∧
      (j ≠ r.d.toNat ∨ ¬ s.inCohort i b c → jreg js c j = old c j)
    let with_ (js : Tab JReg) : State := s.setBlock b.blk fun x => { x with joins := js }
    (Issues s (.jarm r) bid b →
      let i : Instr := .jarm r
      let m (c : Nat) := s.cohortMask i b c
      let v (c : Nat) := old c r.d.toNat
      let again (c : Nat) := (v c).opened = true ∧ (v c).armBase = b.base ∧ (v c).armIndex = b.index
      let conflict (c : Nat) := ¬ again c ∧ (v c).arrived ≠ 0 ∧ m c &&& ~~~(v c).out ≠ 0
      (∀ t ∈ s.executing i b, conflict (t / k.cfg.w) → s.handles b.blk 7 r.d.toNat ∧ (s.stood b t).inh = false) →
      ∃ js, Turns s (.jarm r) b (with_ js) (fun t h =>
          if conflict (t / k.cfg.w) then s.trapped i b 7 r.d.toNat 0 0 h else h) ∧
        ∀ c j, j < 16 →
          ((j ≠ r.d.toNat ∨ ¬ s.inCohort i b c ∨ conflict c) → jreg js c j = old c j) ∧
          (j = r.d.toNat → s.inCohort i b c → again c →
            jreg js c j = { v c with mask := (v c).mask ||| m c, out := (v c).out ||| m c, changed := true }) ∧
          (j = r.d.toNat → s.inCohort i b c → ¬ again c → ¬ conflict c →
            jreg js c j = { v c with mask := m c, out := if (v c).arrived = 0 then m c else (v c).out ||| m c,
                                     armBase := b.base, armIndex := b.index, opened := true, changed := true })) ∧
    (Issues s (.jwait r) bid b →
      let i : Instr := .jwait r
      let waits (t : Nat) := (old (t / k.cfg.w) r.d.toNat).out.getLsbD (s.posOf b t) = true
      ∃ js, Turns s (.jwait r) b (with_ js) (fun t h =>
          if waits t then { h with st := .waiting (.join r.d.toNat), hdr := none, gang := none } else h) ∧
        ∀ c j, j < 16 → (jreg js c j).mask = (old c j).mask ∧ (jreg js c j).out = (old c j).out ∧
          (jreg js c j).opened = (old c j).opened ∧ (jreg js c j).armBase = (old c j).armBase ∧
          (jreg js c j).armIndex = (old c j).armIndex ∧
          ∀ p < 64, (jreg js c j).arrived.getLsbD p = ((old c j).arrived.getLsbD p ||
            decide (j = r.d.toNat ∧ ∃ t ∈ s.executing i b, t / k.cfg.w = c ∧ s.posOf b t = p ∧ waits t))) ∧
    (Issues s (.jdrop r) bid b → ∃ js, Turns s (.jdrop r) b (with_ js) (fun _ h => h) ∧
      only (.jdrop r) js fun c =>
        let m := s.cohortMask (.jdrop r) b c
        { old c r.d.toNat with mask := (old c r.d.toNat).mask &&& ~~~m, out := (old c r.d.toNat).out &&& ~~~m,
                               opened := false }) ∧
    (Issues s (.jget r) bid b → Writes s (.jget r) b fun t _ =>
      { regs := outcome (decide (k.cfg.w = 64)) r.d (old (t / k.cfg.w) r.a.toNat).mask.toNat }) ∧
    (Issues s (.jset r) bid b → ∃ js,
      Turns s (.jset r) b (with_ js) (fun _ h => h.kills (s.ends (.jset r) b)) ∧
      only (.jset r) js fun c =>
        let low := ((s.executing (.jset r) b).filter fun t => t / k.cfg.w == c).headD 0
        let v := if k.cfg.w = 64 then ((s.stood b low).rd64 r.a.toNat).toNat else ((s.stood b low).rd r.a.toNat).toNat
        let m := BitVec.ofNat 64 (v % 2 ^ k.cfg.w) &&& BitVec.ofNat 64 (k.liveMask c)
        { old c r.d.toNat with mask := m, out := if (old c r.d.toNat).arrived = 0 then m
                                                 else (old c r.d.toNat).out ||| m, opened := false })

/-- R359-R361: a trap into a handler: the thread alone changes; its frame reads back as R360 lays down, the rest of its
slice, its registers and its predicates are kept. -/
def Sys2Proof.Claims.TrapIntoHandler : Prop :=
  ∀ (s : State) (u t : Nat) (base : DWord) (index cause sub : Nat) (info : Word) (word faddr : DWord),
    s.has u t = true → s.handles u cause sub → (s.thread u t).inh = false → index < 16 →
    let s' := s.trapAt u t base index cause sub info word faddr
    let h := s.thread u t
    let h' := s'.thread u t
    let a := (s.block u).cfg.slice - 128
    let frame (n : Nat) : DWord := BitVec.ofNat 64 (mread h'.slice (a + 8 * n) 8)
    SameBut s s' u ∧ s'.jobs = s.jobs ∧ s'.draws = s.draws ∧ (∀ k, k ≠ t → s'.thread u k = s.thread u k) ∧
    h' = s.entered u base index cause sub info word faddr h ∧
    h'.base = (s.block u).cfg.tbase ∧ h'.index = 0 ∧ h'.inh = true ∧ h'.live = h.live ∧ h'.preds = h.preds ∧
    fld (frame 0) 60 4 = BitVec.ofNat 4 index ∧ fld (frame 0) 57 3 = 0 ∧ fld (frame 0) 0 57 = fld base 0 57 ∧
    fld (frame 1) 0 8 = BitVec.ofNat 8 cause ∧ fld (frame 1) 8 16 = BitVec.ofNat 16 sub ∧ fld (frame 1) 24 8 = 0 ∧
    fld (frame 1) 32 32 = info ∧ frame 2 = word ∧ frame 3 = faddr ∧
    frame 4 = s.tscAt (dieOf (s.block u).core) ∧ frame 5 = h.preds.setWidth 64 ∧ frame 6 = 0 ∧ frame 7 = 0 ∧
    ∀ x, (x < a ∨ a + 64 ≤ x) → mget h'.slice x = mget h.slice x

/-- R362: under a null trap base the frame is written and the thread parks on an entry of kind 7; a thread in its handler
parks on an entry of kind 8, and its frame is kept. -/
def Sys2Proof.Claims.TrapWithoutHandler : Prop :=
  ∀ (s : State) (u t : Nat) (base : DWord) (index cause sub : Nat) (info : Word) (word faddr : DWord),
    s.has u t = true → (s.thread u t).atWatch = false → (s.block u).run.discarded = false →
    s.discards u cause sub = false →
    let s' := s.trapAt u t base index cause sub info word faddr
    let h := s.thread u t
    let h' := s'.thread u t
    let d := dieOf (s.block u).core
    (h.inh = true → ∃ tok, h'.st = .waiting (.entry d tok) ∧ s'.holdsEntry d tok 8 [t] ∧ h'.slice = h.slice ∧
      h'.live = h.live ∧ h'.preds = h.preds ∧ h'.inh = true) ∧
    (h.inh = false → (s.block u).cfg.tbase = 0 → ∃ tok, h'.st = .waiting (.entry d tok) ∧ s'.holdsEntry d tok 7 [t] ∧
      h'.slice = (s.entered u base index cause sub info word faddr h).slice ∧ h'.live = h.live ∧ h'.preds = h.preds ∧
      h'.inh = false)

/-- R365: TRAP raises breakpoint at its own index with its code in INFO. R72: an emulation opcode raises illegal
instruction, subcode 4, in every member. -/
def Sys2Proof.Claims.TrapInstructions : Prop :=
  ∀ (s : State) (bid : Nat) (b : Bundle),
    (∀ r : RI, Issues s (.trap r) bid b → s.handles b.blk 9 0 →
      (∀ t ∈ s.executing (.trap r) b, (s.stood b t).inh = false) →
      Turns s (.trap r) b s fun _ h => s.trapped (.trap r) b 9 0 r.imm 0 h) ∧
    (∀ w : BitVec 56, s.cur = some bid → tget s.bundles bid = some b → b.ended = false → s.handles b.blk 1 4 →
      (∀ t ∈ b.tids, (s.thread b.blk t).inh = false) →
      ∃ s', exec (.idiv w) s = .next s' ∧ SameBut s s' b.blk ∧ s'.jobs = s.jobs ∧
        ∀ t, s.has b.blk t = true → s'.thread b.blk t =
          if t ∈ b.tids then s.trapped (.idiv w) b 1 4 0 0 (s.thread b.blk t) else s.thread b.blk t)

/-- Taking a trap: the frame, the handler, the posts without one; TRAP and the emulation opcode. -/
def Obligations.TrapEntry : Prop :=
  Sys2Proof.Claims.TrapIntoHandler ∧ Sys2Proof.Claims.TrapWithoutHandler ∧ Sys2Proof.Claims.TrapInstructions

/-- R363: ERET restores the predicates from the frame, clears INH and stands where the frame says, given COUNT of the
clause there, which it fetches; that fetch may count a read of its stack (log 85), and asks for code that lies outside the
module (R257, R380). -/
def Sys2Proof.Claims.EretResumes : Prop :=
  ∀ (s : State) (bid : Nat) (b : Bundle) (r : RR), Issues s (.eret r) bid b →
    let i : Instr := .eret r
    let frame (h : Thread) (n : Nat) : DWord :=
      BitVec.ofNat 64 (mread h.slice ((s.block b.blk).cfg.frameAddr + 8 * n) 8)
    (∀ t ∈ s.executing i b, fld (frame (s.stood b t) 0) 0 3 = 0) →
    ∀ hdr : Nat → DWord, s.stale = [] →
    (∀ t ∈ s.executing i b, ∃ pa rd, s.translate (dieOf (s.block b.blk).core) (s.ctxOf b.blk) .fetch
      (fld (frame (s.stood b t) 0) 0 57).toNat = (s, .ok pa rd) ∧ s.stopped (pa / 128) = false ∧
      s.portDown (pa / 128) = false ∧ BitVec.ofNat 64 (s.view pa 8) = hdr t) →
    let inside := ∀ t ∈ s.executing i b, ∀ pa rd, s.translate (dieOf (s.block b.blk).core) (s.ctxOf b.blk) .fetch
      (fld (frame (s.stood b t) 0) 0 57).toNat = (s, .ok pa rd) → inHbm (pa / 128) = true
    ∃ ds n o, (∀ d, { tgetD ds d {} with evs := (s.die d).evs } = s.die d) ∧
    (inside → n = s.draws + (s.executing i b).length ∧ o = s.out) ∧
    Turns s (.eret r) b { s with dies := ds, draws := n, out := o } fun t h =>
      let w := frame h 0
      let base : DWord := (fld w 0 57).setWidth 64
      let n := (fld w 60 4).toNat
      let past : DWord := base + BitVec.ofNat 64 (8 * (hdrCount (hdr t) + 2))
      { h with
        preds := fld (frame h 5) 0 7, inh := false, resuming := false,
        base := if hdrCount (hdr t) < n ∨ (w.getLsbD 59 = true ∧ n = hdrCount (hdr t)) then past else base,
        index := if hdrCount (hdr t) < n ∨ (w.getLsbD 59 = true ∧ n = hdrCount (hdr t)) then 0
                 else if w.getLsbD 59 then fld w 60 4 + 1 else fld w 60 4 }

/-- R364: FRLD sends a doubleword of the frame to a pair; FRST writes one, and no other byte of the slice. -/
def Sys2Proof.Claims.FrameAccess : Prop :=
  ∀ (s : State) (bid : Nat) (b : Bundle) (r : RR) (n : BitVec 4),
    let a := (s.block b.blk).cfg.slice - 128 + 8 * n.toNat
    (Issues s (.frld r n) bid b → Sends s (.frld r n) b 64 fun _ h =>
      { regs := pairW r.d.toNat (BitVec.ofNat 64 (mread h.slice a 8)) }) ∧
    (Issues s (.frst r n) bid b → ∃ f : Thread → Mem,
      (∀ h, mread (f h) a 8 = (h.rd64 r.a.toNat).toNat ∧ ∀ x, x < a ∨ a + 8 ≤ x → mget (f h) x = mget h.slice x) ∧
      Turns s (.frst r n) b s fun _ h => { h.kills (s.ends (.frst r n) b) with slice := f h })

/-- ERET resumes from the frame; FRLD and FRST move one frame doubleword. -/
def Obligations.TrapReturn : Prop :=
  Sys2Proof.Claims.EretResumes ∧ Sys2Proof.Claims.FrameAccess

/-- R366: HALT posts an entry of kind 9 for each executing thread, which waits on it at the instruction; no register, frame
or INH changes. -/
def Sys2Proof.Claims.HaltPosts : Prop :=
  ∀ (s : State) (bid : Nat) (b : Bundle) (r : RR), Issues s (.halt r) bid b →
    (∀ t ∈ b.tids, s.has b.blk t = true ∧ (s.thread b.blk t).atWatch = false) → (s.block b.blk).core = b.core →
    Leaves s (.halt r) fun s' =>
      (∀ t ∈ s.executing (.halt r) b, ∃ tok, (s'.thread b.blk t).st = .waiting (.entry (dieOf b.core) tok) ∧
        s'.holdsEntry (dieOf b.core) tok 9 [t] ∧ (s'.thread b.blk t).base = b.base ∧
        (s'.thread b.blk t).index = b.index) ∧
      ∀ t, s.has b.blk t = true → ((s.thread b.blk t).atWatch = false →
          (s'.thread b.blk t).live = (s.thread b.blk t).live) ∧
        (s'.thread b.blk t).preds = (s.thread b.blk t).preds ∧ (s'.thread b.blk t).slice = (s.thread b.blk t).slice ∧
        (s'.thread b.blk t).inh = (s.thread b.blk t).inh ∧ (s'.thread b.blk t).mstatus = (s.thread b.blk t).mstatus

/-- R355: INVVA with legal operands drops the translations of its pages on every die, and each thread waits; no register is
written. That the wait is for every access issued before, and not only for those made through the dropped translations, is
the model's (logs 46 and 18). -/
def Sys2Proof.Claims.TranslationPurge : Prop :=
  ∀ (s : State) (bid : Nat) (b : Bundle) (r : RR), Issues s (.invva r) bid b →
    let out := s.executing (.invva r) b
    let va (t : Nat) := ((s.stood b t).rd64 r.a.toNat).toNat
    let n (t : Nat) := ((s.stood b t).rd r.b.toNat).toNat
    let cid (t : Nat) := ((s.stood b t).rd r.c.toNat).toNat
    (∀ t ∈ out, s.has b.blk t = true ∧ n t ≠ 0 ∧ cid t < 2 ^ 16 ∧ cid t = (s.ctxOf b.blk).cid ∧ va t % 4096 = 0) →
    Leaves s (.invva r) fun s' => ∀ t ∈ out,
      (∃ mark, s.seq ≤ mark ∧ (s'.thread b.blk t).st = .waiting (.purge mark)) ∧
      (s'.thread b.blk t).live = ((s.stood b t).kills (s.ends (.invva r) b)).live ∧
      (s'.thread b.blk t).preds = (s.stood b t).preds ∧
      ∀ d, ∀ e ∈ (s'.dm d).tlb, (e.cid = cid t ∨ e.entry.getLsbD 5 = true) →
        va t + 4096 * n t ≤ e.vpage * 2 ^ e.pageBits ∨ (e.vpage + 1) * 2 ^ e.pageBits ≤ va t

/-- HALT posts an entry of kind 9; INVVA purges translations. -/
def Obligations.SupervisorCalls : Prop :=
  Sys2Proof.Claims.HaltPosts ∧ Sys2Proof.Claims.TranslationPurge

/-! ## Barriers -/

/-- R209: an update of a barrier, its evaluation, and what a completed phase does to the threads that share it. -/
def Obligations.BarrierUpdates : Prop :=
  ∀ (s : State) (u level e : Nat) (ts : List Nat) (delta : Int), s.rooted u → ts.Nodup → level < 3 →
    let b := s.bar u level e
    let c := b.after ts.length delta
    let s' := s.barUpdate u level e ts delta
    s'.bar u level e = c ∧
    (c.phase = b.phase → ∀ t, s.has u t = true →
      s'.thread u t = if t ∈ ts then (s.thread u t).setArv level e true else s.thread u t) ∧
    (c.phase ≠ b.phase → ∀ v t, s.has v t = true →
      shares level u (s.block u).cfg v (s.block v).cfg = true →
      (s'.thread v t).arrived level e = false ∧ (s'.thread v t).live = (s.thread v t).live ∧
      (s'.thread v t).preds = (s.thread v t).preds ∧
      ((s.thread v t).st = .waiting (.barrier level e b.phase) → (s'.thread v t).st = .ready) ∧
      ((s.thread v t).st ≠ .waiting (.barrier level e b.phase) → (s'.thread v t).st = (s.thread v t).st)) ∧
    s'.mem = s.mem ∧ s'.cores = s.cores

/-- R212, R214: BARV, BARX and BARS by threads that have not arrived in the phase and whose earlier accesses are performed:
one update counts them all; BARV and BARX write the phase of the update, BARS waits for it to end. -/
def Obligations.BarrierArrivals : Prop :=
  ∀ (s : State) (bid : Nat) (b : Bundle) (r : RX), s.rooted b.blk →
    let l := (fld r.flags 0 2).toNat
    let e := r.e.toNat
    let old := s.bar b.blk l e
    let sum (i : Instr) := ((s.executing i b).map fun t => ((s.stood b t).rd r.a.toNat).toInt).sum
    let may (i : Instr) := s.virtualBar b.blk l e = false ∧ (s.block b.blk).arrivals = [] ∧ s.executing i b ≠ [] ∧
      ∀ t ∈ s.executing i b, s.has b.blk t = true ∧ (s.thread b.blk t).arrived l e = false ∧
        s.fenceOver b.blk (s.block b.blk).core t true (levelScope l) s.seq = true
    let counted (i : Instr) (delta : Int) (s' : State) :=
      s'.bar b.blk l e = old.after (s.executing i b).length delta ∧
      ∀ t ∈ s.executing i b, (s'.thread b.blk t).rd r.d.toNat = (if r.d = 255 then 0 else if old.phase then 1 else 0) ∧
        (∀ k, k ≠ r.d.toNat → (s'.thread b.blk t).rd k = (s.thread b.blk t).rd k) ∧
        (s'.thread b.blk t).preds = (s.thread b.blk t).preds
    (Issues s (.barv r) bid b → may (.barv r) → Leaves s (.barv r) (counted (.barv r) 0)) ∧
    (Issues s (.barx r) bid b → may (.barx r) → Leaves s (.barx r) (counted (.barx r) (sum (.barx r)))) ∧
    (Issues s (.bars r) bid b → may (.bars r) → Leaves s (.bars r) fun s' =>
      let new := old.after (s.executing (.bars r) b).length 0
      s'.bar b.blk l e = new ∧ ∀ t ∈ s.executing (.bars r) b,
        (new.phase ≠ old.phase → (s'.thread b.blk t).st = .ready) ∧
        (new.phase = old.phase → (s'.thread b.blk t).st = .waiting (.barrier l e old.phase)) ∧
        ∀ k, (s'.thread b.blk t).rd k = (s.thread b.blk t).rd k)

/-- R212: BARW waits while PHASE is the parity, BART tells whether it differs, BART.OVF reads and clears OVF. -/
def Sys2Proof.Claims.BarrierReads : Prop :=
  ∀ (s : State) (bid : Nat) (b : Bundle) (r : RX), s.rooted b.blk →
    let l := (fld r.flags 0 2).toNat
    let e := r.e.toNat
    let k := s.bar b.blk l e
    s.virtualBar b.blk l e = false →
    (Issues s (.barw r) bid b → Turns s (.barw r) b s fun _ h =>
      if k.phase = (h.rd r.a.toNat).getLsbD 0 then { h with st := .waiting (.barrier l e k.phase), hdr := none, gang := none }
      else h) ∧
    (Issues s (.bart r) bid b → Writes s (.bart r) b fun _ h =>
      { preds := [(r.d.toNat, k.phase != (h.rd r.a.toNat).getLsbD 0)] }) ∧
    (Issues s (.bartOvf r) bid b → s.executing (.bartOvf r) b ≠ [] →
      Turns s (.bartOvf r) b (s.setBar b.blk l e { k with ovf := false }) fun _ h => h.wrP r.d.toNat k.ovf)

/-- R215: on a virtual cluster barrier every barrier instruction holds each executing thread by a supervisor entry of kind
4, and changes no register and no barrier; the arrivals of BARV, BARX and BARS come once the thread's earlier accesses are
performed, as at a hardware barrier (R214, R268; that the entry waits is log 105). -/
def Sys2Proof.Claims.VirtualBarriers : Prop :=
  ∀ (s : State) (bid : Nat) (b : Bundle) (r : RX) (i : Instr),
    i ∈ [.barv r, .barw r, .barx r, .bart r, .bartOvf r, .bars r] → Issues s i bid b →
    s.virtualBar b.blk (fld r.flags 0 2).toNat r.e.toNat = true → (s.block b.blk).core = b.core →
    (i ∈ [.barv r, .barx r, .bars r] → ∀ t ∈ s.executing i b, s.drained b (levelScope (fld r.flags 0 2).toNat) t) →
    (∀ t ∈ b.tids, s.has b.blk t = true ∧ (s.thread b.blk t).atWatch = false) →
    Leaves s i fun s' =>
      (∀ t ∈ s.executing i b, ∃ tok, (s'.thread b.blk t).st = .waiting (.entry (dieOf b.core) tok) ∧
        s'.holdsEntry (dieOf b.core) tok 4 [t]) ∧
      (∀ t, s.has b.blk t = true → ((s.thread b.blk t).atWatch = false →
          (s'.thread b.blk t).live = (s.thread b.blk t).live) ∧
        (s'.thread b.blk t).preds = (s.thread b.blk t).preds) ∧
      s'.clusters = s.clusters

/-- BARW, BART, BART.OVF, and every barrier instruction on a virtual barrier. -/
def Obligations.BarrierObservers : Prop :=
  Sys2Proof.Claims.BarrierReads ∧ Sys2Proof.Claims.VirtualBarriers

/-! ## Scratchpads, slices and tiles -/

/-- R161, R164, R171: where a scratchpad address leads, and the checks of an access in their order. The window's bytes of the
block itself are those of its own allotment (log 96). -/
def Obligations.ScratchpadMap : Prop :=
  ∀ (s : State) (u a n : Nat) (store : Bool), n ∈ [1, 2, 4, 8, 16] →
    let c := (s.block u).cfg
    let rank := (tgetD s.clusters c.cluster {}).blocks[a / 2 ^ 19 % 8]?
    let l := s.launch c.launch
    let check := s.spadCheck u a n store
    (a % n ≠ 0 → check = .error (3, 1)) ∧
    (a % n = 0 →
      (a ≤ 0x7FFFF → c.allot < a + n → check = .error (3, 2)) ∧
      (0x1000000 ≤ a → a ≤ 0x13FFFFF → (rank = none ∨ ∃ v, rank = some v ∧ (s.block v).cfg.allot < a % 2 ^ 19 + n) →
        check = .error (3, 2)) ∧
      (0x40000000 ≤ a → a ≤ 0x63FFFFFF → l.chipSize < a % 2 ^ 26 + n → check = .error (3, 2)) ∧
      (¬ a ≤ 0x7FFFF → ¬ (0x1000000 ≤ a ∧ a ≤ 0x13FFFFF) → ¬ (0x40000000 ≤ a ∧ a ≤ 0x63FFFFFF) → check = .error (3, 2)) ∧
      ∀ p : Spad,
        (a ≤ 0x7FFFF ∧ a + n ≤ c.allot ∧ p = .own a) ∨
        (0x1000000 ≤ a ∧ a ≤ 0x13FFFFF ∧ ∃ v, rank = some v ∧ a % 2 ^ 19 + n ≤ (s.block v).cfg.allot ∧
          p = if v = u then .own (a % 2 ^ 19) else .win v (a % 2 ^ 19)) ∨
        (0x40000000 ≤ a ∧ a ≤ 0x63FFFFFF ∧ a % 2 ^ 26 + n ≤ l.chipSize ∧
          p = .chip (a / 2 ^ 26 % 16) (l.chipBase + a % 2 ^ 26)) →
        let at_ : Option (Nat × Nat) := match p with
          | .own o => some (u, o) | .win v o => some (v, o) | .chip _ _ => none
        let hit (x : TileSt) := ∃ v o, at_ = some (v, o) ∧ ∃ e ∈ (s.block v).tiles, e.2.st = x ∧
          o < e.2.base + e.2.size ∧ e.2.base < o + n
        (hit .filling → check = .error (5, if store then 1 else 3)) ∧
        (¬ hit .filling → store = true → hit .draining → check = .error (5, 2)) ∧
        (¬ hit .filling → ¬ (store = true ∧ hit .draining) →
          check = match s.spadLock u p n store with
            | some k => .error (4, k)
            | none => .ok p))

/-- R163, R165, R166: LDS, LDL and STL whose accesses pass their checks; an LDS comes after the acquires before it (R165,
R268). That a window or chip-scratchpad LDS takes its value as it issues is the model's (log 72). -/
def Sys2Proof.Claims.LocalResults : Prop :=
  ∀ (s : State) (bid : Nat) (b : Bundle) (r : RM),
    let n := r.size.bytes
    (Issues s (.lds r) bid b → ∀ loc : Nat → Spad,
      (∀ t ∈ s.executing (.lds r) b, s.spadCheck b.blk (localAddr r (s.stood b t)) n false = .ok (loc t) ∧
        (s.core b.core).acquiring b.blk t s.seq = false) →
      ∃ c, BankPasses (s.executing (.lds r) b) (fun t => localAddr r (s.stood b t)) n c ∧ SendsFrom s (.lds r) b s
        (fun t => if localAddr r (s.stood b t) < 0x80000 then some (6 + c) else match loc t with
          | .chip _ _ => none | _ => some 64)
        fun t _ => { regs := loadRegs r.d.toNat r.size (s.spGet b.blk (loc t) n) }) ∧
    (Issues s (.ldl r) bid b →
      (∀ t ∈ s.executing (.ldl r) b, localAddr r (s.stood b t) % n = 0 ∧
        localAddr r (s.stood b t) + n ≤ (s.block b.blk).cfg.slice) →
      Sends s (.ldl r) b 7 fun _ h => { regs := loadRegs r.d.toNat r.size (mread h.slice (localAddr r h) n) }) ∧
    (Issues s (.stl r) bid b →
      (∀ t ∈ s.executing (.stl r) b, localAddr r (s.stood b t) % n = 0 ∧
        localAddr r (s.stood b t) + n ≤ (s.block b.blk).cfg.slice) →
      ∃ f : Thread → Mem,
        (∀ h, mread (f h) (localAddr r h) n = stored r.size h r.d.toNat ∧
          ∀ x, x < localAddr r h ∨ localAddr r h + n ≤ x → mget (f h) x = mget h.slice x) ∧
        Turns s (.stl r) b s fun _ h => { h.kills (s.ends (.stl r) b) with slice := f h })

/-- R164: an access that fails a check traps in its thread, with the address in the frame, and does nothing else; the tiles
that a window store touches are checked at its target (R171). -/
def Sys2Proof.Claims.LocalTraps : Prop :=
  ∀ (s : State) (bid : Nat) (b : Bundle) (r : RM) (k : Nat → Nat × Nat),
    let n := r.size.bytes
    let a (t : Nat) := localAddr r (s.stood b t)
    let slice (t : Nat) := (a t % n ≠ 0 ∧ k t = (3, 1)) ∨
      (a t % n = 0 ∧ (s.block b.blk).cfg.slice < a t + n ∧ k t = (3, 2))
    let free (store : Bool) (t : Nat) := (s.core b.core).barred b.blk t s.seq store = false
    let may (i : Instr) (fails : Nat → Prop) := ∀ t ∈ s.executing i b,
      fails t ∧ s.handles b.blk (k t).1 (k t).2 ∧ (s.stood b t).inh = false
    let after (i : Instr) (t : Nat) (h : Thread) : Thread :=
      s.trapped i b (k t).1 (k t).2 0 (BitVec.ofNat 64 (localAddr r h)) h
    (Issues s (.lds r) bid b → may (.lds r) (fun t => free false t ∧ s.spadCheck b.blk (a t) n false = .error (k t)) →
      Turns s (.lds r) b s (after (.lds r))) ∧
    (Issues s (.ldl r) bid b → may (.ldl r) slice → Turns s (.ldl r) b s (after (.ldl r))) ∧
    (Issues s (.stl r) bid b → may (.stl r) slice → Turns s (.stl r) b s (after (.stl r))) ∧
    (Issues s (.sts r) bid b → (r.order.isRel = true → ∀ t ∈ s.executing (.sts r) b, s.drained b r.scope.num t) →
      may (.sts r) (fun t => free true t ∧ s.storeCheck b.blk (a t) n = .error (k t)) →
      Turns s (.sts r) b { s with draws := s.draws + (s.executing (.sts r) b).length } (after (.sts r))) ∧
    ∀ (u x : Nat), s.storeCheck u x n = match s.spad u x n with
      | some (.win v o) => if x % n ≠ 0 then .error (3, 1) else match s.spadLock u (.win v o) n true with
        | some e => .error (4, e)
        | none => .ok (.win v o)
      | _ => s.spadCheck u x n true

/-- LDS, LDL and STL, and the traps of local accesses. -/
def Obligations.LocalAccesses : Prop :=
  Sys2Proof.Claims.LocalResults ∧ Sys2Proof.Claims.LocalTraps

/-- R163-R166, R172: STS to the own allotment: each byte takes the value of the highest member that stores it, no other byte
changes, and every tile keeps its entry but for a form that falls to GENERAL; a window or chip-scratchpad store leaves, and
its thread waits for the acknowledgement with its registers as they were; stores to one place arrive together. A store comes
after the acquires and fences before it (R165, R268). The model's choices: a store through the window at the block's own rank
is a store to the own allotment that stands as it issues, and its thread waits for the acknowledgement alone (log 96); the
range locks of a window store are checked at its issue too (log 101). -/
def Sys2Proof.Claims.OwnStores : Prop :=
  ∀ (s : State) (bid : Nat) (b : Bundle) (r : RM), Issues s (.sts r) bid b → (tget s.blocks b.blk).isSome = true →
    let i : Instr := .sts r
    let n := r.size.bytes
    let out := s.executing i b
    let a (t : Nat) := localAddr r (s.stood b t)
    (r.order.isRel = true → ∀ t ∈ out, s.drained b r.scope.num t) →
    (∀ t ∈ out, (s.core b.core).barred b.blk t s.seq true = false) →
    (∀ o : Nat → Nat,
      (∀ t ∈ out, s.spadCheck b.blk (a t) n true = .ok (.own (o t)) ∧ (s.pinnedAt b.blk (.own (o t)) n).2 = []) →
      ∃ m ts s', exec (.sts r) s = .next s' ∧ SameBut (s.withScratch b.blk m ts) s' b.blk ∧
        s'.draws = s.draws + out.length ∧ ((∀ t ∈ out, a t < 0x80000) → s'.jobs = s.jobs) ∧
        (∀ t, s.has b.blk t = true → s'.thread b.blk t =
          if t ∈ out then
            if a t < 0x80000 then { (s.stood b t).kills (s.ends i b) with drain := none }
            else { s.stood b t with drain := none, st := .waiting .ack, hdr := none, gang := none }
          else if t ∈ b.tids then s.stood b t else s.thread b.blk t) ∧
        (∀ t ∈ out, 0x80000 ≤ a t → ∃ k due, due ≤ s.now (dieOf b.core) + 64 ∧ tget s'.jobs k =
          some ⟨dieOf b.core, due, .windowAck b.blk t (.own (o t)) [] (a t) b.base b.index ((encode i).getD 0) (s.ends i b)⟩) ∧
        (∀ x, (∀ t ∈ out, x < o t ∨ o t + n ≤ x) → mget m x = mget (s.block b.blk).scratch x) ∧
        (∀ t ∈ out, (∀ q ∈ out, t < q → o q ≠ o t) → mread m (o t) n = stored r.size (s.stood b t) r.d.toNat) ∧
        KeptTiles (s.block b.blk).tiles ts) ∧
    ∀ loc : Nat → Spad,
      (∀ t ∈ out, s.storeCheck b.blk (a t) n = .ok (loc t) ∧ (∀ o, loc t ≠ .own o)) →
      ∃ s', exec (.sts r) s = .next s' ∧ SameBut s s' b.blk ∧
        (∀ t, s.has b.blk t = true → s'.thread b.blk t =
          if t ∈ out then { s.stood b t with drain := none, st := .waiting .ack, hdr := none, gang := none }
          else if t ∈ b.tids then s.stood b t else s.thread b.blk t) ∧
        ∃ due : Nat → Nat, (∀ t ∈ out, ∀ q ∈ out, loc t = loc q → due t = due q) ∧
          ∀ t ∈ out, (∃ k, tget s'.jobs k = some ⟨dieOf b.core, due t, .windowAck b.blk t (loc t)
              (leBytes n (stored r.size (s.stood b t) r.d.toNat)) (a t) b.base b.index ((encode i).getD 0)
              (s.ends i b)⟩) ∧
            ∀ v o, loc t = .win v o → due t ≤ s.now (dieOf b.core) + 64

/-- R60, R166, R171: a window or chip-scratchpad store reaches its target: its bytes are written and its thread goes on with
its last uses over; where a tile or a lock of the target forbids it, the thread traps at the store with its registers as
they were, and no byte changes. -/
def Sys2Proof.Claims.WindowStores : Prop :=
  ∀ (s : State) (k d due u t a : Nat) (p : Spad) (bytes : List Byte) (base : DWord) (index : BitVec 4) (word : DWord)
    (kills : List Nat),
    tget s.jobs k = some ⟨d, due, .windowAck u t p bytes a base index word kills⟩ → due ≤ s.now d →
    (s.pinnedAt u p bytes.length).2 = [] →
    (s.arriveFault u p bytes.length = none →
      (∀ v o, p = .win v o → (tget s.blocks v).isSome = true) → (∀ o, p = .own o → (tget s.blocks u).isSome = true) →
      Leaves s (.windowStoreAck k) fun s' =>
        s'.spGet u p bytes.length = leVal bytes ∧ (s'.jobs = tdel s.jobs k) ∧ s'.mem = s.mem ∧
        (s.has u t = true → (s.thread u t).st = .waiting .ack → (s'.thread u t).st = .ready ∧
          (s'.thread u t).live = ((s.thread u t).kills kills).live ∧ (s'.thread u t).preds = (s.thread u t).preds) ∧
        ∀ v q, (v ≠ u ∨ q ≠ t ∨ (s.thread u t).st ≠ .waiting .ack) → s'.thread v q = s.thread v q) ∧
    ∀ cause sub, s.arriveFault u p bytes.length = some (cause, sub) → s.has u t = true → s.handles u cause sub →
      (s.thread u t).inh = false → Leaves s (.windowStoreAck k) fun s' =>
        s'.jobs = tdel s.jobs k ∧ s'.mem = s.mem ∧ s'.dmem = s.dmem ∧
        s'.thread u t = s.entered u base index.toNat cause sub 0 word (BitVec.ofNat 64 a) (s.thread u t) ∧
        (∀ q, q ≠ t → s'.thread u q = s.thread u q) ∧ ∀ v, (s'.block v).scratch = (s.block v).scratch

/-- STS to the own allotment and through windows, to its end. -/
def Obligations.ScratchpadStores : Prop :=
  Sys2Proof.Claims.OwnStores ∧ Sys2Proof.Claims.WindowStores

/-- R165-R167, R172: ATOMS in the own allotment: member after member, in rising thread index, reads the location and writes
what the operator gives; a destination receives the value that its member found, within 6 cycles and the passes of the
banks; every tile keeps its entry but for a form that falls to GENERAL. -/
def Sys2Proof.Claims.AtomicSteps : Prop :=
  ∀ (s : State) (bid : Nat) (b : Bundle) (r : RO), Issues s (.atoms r) bid b →
    let i : Instr := .atoms r
    let n := r.size.bytes
    let out := s.executing i b
    let a (t : Nat) := ((s.stood b t).rd r.a.toNat).toNat
    (r.order.isRel = true → ∀ t ∈ out, s.drained b r.scope.num t) → (∀ t ∈ out, s.has b.blk t = true) →
    (∀ t ∈ out, (s.core b.core).barred b.blk t s.seq true = false) →
    ∀ o : Nat → Nat,
    (∀ t ∈ out, s.spadCheck b.blk (a t) n true = .ok (.own (o t)) ∧ (s.pinnedAt b.blk (.own (o t)) n).2 = []) →
    let one (m : Mem) (t : Nat) : Mem := mwrite m (o t) n (opVal r.op n (mread m (o t) n)
      (stored r.size (s.stood b t) r.b.toNat) (if r.op = .cas then stored r.size (s.stood b t) r.d.toNat else 0))
    let before (t : Nat) : Mem := (out.takeWhile (· ≠ t)).foldl one (s.block b.blk).scratch
    ∃ c ts, BankPasses out a n c ∧ KeptTiles (s.block b.blk).tiles ts ∧
    SendsFrom s (.atoms r) b (s.withScratch b.blk (out.foldl one (s.block b.blk).scratch) ts)
      (fun t => some (if a t < 0x80000 then 6 + c else 64))
      (fun t _ => { regs := if r.d = 255 then [] else loadRegs r.d.toNat r.size (mread (before t) (o t) n) })
      fun h => { h with drain := none }

/-- R229, R167: what an operator of an atomic gives, on w bits. -/
def Sys2Proof.Claims.AtomicOperators : Prop :=
  ∀ (wide : Bool) (x y c : BitVec 64),
    let z := if wide then 8 else 4
    let w := 8 * z
    let old := x.toNat % 2 ^ w
    let v := y.toNat % 2 ^ w
    let s (q : Nat) : Int := if q < 2 ^ (w - 1) then q else (q : Int) - 2 ^ w
    opVal .add z old v c.toNat = (old + v) % 2 ^ w ∧
    opVal .minN z old v c.toNat = min old v ∧ opVal .maxN z old v c.toNat = max old v ∧
    s (opVal .minS z old v c.toNat) = min (s old) (s v) ∧ s (opVal .maxS z old v c.toNat) = max (s old) (s v) ∧
    opVal .and z old v c.toNat = (x &&& y).toNat % 2 ^ w ∧ opVal .or z old v c.toNat = (x ||| y).toNat % 2 ^ w ∧
    opVal .xor z old v c.toNat = (x ^^^ y).toNat % 2 ^ w ∧ opVal .exch z old v c.toNat = v ∧
    opVal .cas z old v c.toNat = (if old = v then c.toNat else old) ∧
    opVal .addF32 4 old v c.toNat = fAdd f32 .rne old v ∧
    opVal .addF16x2 4 old v c.toNat =
      fAdd f16 .rne (old % 2 ^ 16) (v % 2 ^ 16) + 2 ^ 16 * fAdd f16 .rne (old / 2 ^ 16) (v / 2 ^ 16) ∧
    opVal .minF 4 old v c.toNat = fMinMax f32 false old v ∧ opVal .maxF 4 old v c.toNat = fMinMax f32 true old v

/-- ATOMS in thread order, and what the operators give. -/
def Obligations.ScratchpadAtomics : Prop :=
  Sys2Proof.Claims.AtomicSteps ∧ Sys2Proof.Claims.AtomicOperators

/-- R168, R174-R179: the tile instructions act once for the bundle, with the operands of the lowest executing thread. -/
def Obligations.TileInstructions : Prop :=
  ∀ (s : State) (bid : Nat) (b : Bundle) (r : RX) (t : Nat),
    let k := s.block b.blk
    let e := r.e.toNat
    let old := k.tile e
    let fmt := k.fmt (s.now (dieOf b.core)) r.fa.toNat
    let idle := old.st ≠ .filling ∧ old.st ≠ .draining ∧ old.pins = 0
    let first (i : Instr) := Issues s i bid b ∧ (s.executing i b).head? = some t
    let tiles (new : Tile) : State := s.setBlock b.blk fun x => { x with tiles := tset x.tiles e new }
    (first (.tdecl r) → idle →
      let h := s.stood b t
      let base := h.rd r.a.toNat
      let size := h.rd r.b.toNat
      let new : Tile := { base := base.toNat, st := .ready, layout := r.flags.toNat, fmt := r.fa.toNat,
                          rows := (fld size 0 8).toNat, cols := (fld size 8 8).toNat, fval := fmt }
      base.toNat % 128 = 0 → (new.count * new.cont) % 64 = 0 → base.toNat + new.size ≤ k.cfg.allot →
      Turns s (.tdecl r) b (tiles new) fun _ h => h) ∧
    (first (.tfree r) → idle → Turns s (.tfree r) b (tiles {}) fun _ h => h) ∧
    (first (.tmarkDemote r) → idle → old.st ≠ .empty →
      Turns s (.tmarkDemote r) b (tiles { old with form := .general, cval := 0 }) fun _ h => h) ∧
    (first (.tmarkRetype r) → idle → old.st ≠ .empty → (fmtOf fmt).cont = old.cont →
      Turns s (.tmarkRetype r) b (tiles { old with form := .general, cval := 0, fmt := r.fa.toNat, fval := fmt })
        fun _ h => h) ∧
    (Issues s (.tqry r) bid b → Writes s (.tqry r) b fun _ _ =>
      let word1 := old.form.code * 2 ^ 24 + old.st.code * 2 ^ 22 + old.layout * 2 ^ 20 + old.fmt * 2 ^ 16 +
        old.cols * 2 ^ 8 + old.rows
      { regs := [(r.d.toNat, BitVec.ofNat 32 old.base), (r.d.toNat + 1, BitVec.ofNat 32 word1),
                 (r.d.toNat + 2, old.cval), (r.d.toNat + 3, 0)] })

/-- R165, R174, R176, R177: TFILL and TSCAN start: the bytes of a fill stand at once, the tile is FILLING or DRAINING,
every executing member's destination is pending, and the end is due after the cycles that the tile's bytes take; at the end
the tile is READY with the form it then has, every member receives that form's code, and a thread that waits for the tile
alone is READY (R170). That a fill's bytes stand at once is log 14, and that the entry keeps its form while FILLING is log 73;
both are the model's. They come after the acquires before them, a fill after the fences too (R165, R261, R268). -/
def Obligations.TileFillsAndScans : Prop :=
  (∀ (s : State) (bid : Nat) (b : Bundle) (r : RX) (t : Nat),
    let k := s.block b.blk
    let e := r.e.toNat
    let old := k.tile e
    let now := s.now (dieOf b.core)
    let cycles := (old.size + 511) / 512
    let filled (form : Form) (value : Word) : State := s.setBlock b.blk fun x =>
      (x.spWrite old.base (old.fillBytes form value)).setTile e fun y =>
        { y with st := .filling, next := some (form, if form = Form.const then value else 0) }
    let started (i : Instr) (base : State) (due : Nat) (kind : JobKind) (s' : State) :=
      SameBut base s' b.blk ∧ s'.jobs = tset s.jobs (tfresh s.jobs) ⟨dieOf b.core, due, kind⟩ ∧
        ∀ q, s.has b.blk q = true → s'.thread b.blk q =
          if q ∈ s.executing i b then (s.stood b q).sent [] [r.d.toNat] [] (hdrSetSb b.hdr)
          else if q ∈ b.tids then s.stood b q else s.thread b.blk q
    let ready := old.st = .ready ∧ old.pins = 0
    let free (i : Instr) (store : Bool) := ∀ q ∈ s.executing i b, (s.core b.core).barred b.blk q s.seq store = false
    let clear := ∀ x ∈ k.tiles, (x.1 = e ∨ x.2.overlaps old.base old.size = true) → x.2.st = .ready ∧ x.2.pins = 0
    (Issues s (.tfill r) bid b → (s.executing (.tfill r) b).head? = some t → ready → clear → free (.tfill r) true →
      let f := fmtOf old.fval
      let v := ((s.stood b t).rd r.a.toNat).toNat % 2 ^ f.width
      Leaves s (.tfill r) (started (.tfill r)
        (filled (if (f.value v).isZero then Form.zero else Form.const) (BitVec.ofNat 32 v)) (now + cycles + 2)
        (.fillEnd b.blk e (s.executing (.tfill r) b) r.d.toNat (hdrSetSb b.hdr)))) ∧
    (Issues s (.tfillIdent r) bid b → (s.executing (.tfillIdent r) b).head? = some t → ready → clear →
      free (.tfillIdent r) true → (oneCode (fmtOf old.fval)).isSome = true →
      Leaves s (.tfillIdent r) (started (.tfillIdent r) (filled .ident 0) (now + cycles + 2)
        (.fillEnd b.blk e (s.executing (.tfillIdent r) b) r.d.toNat (hdrSetSb b.hdr)))) ∧
    (Issues s (.tscan r) bid b → (s.executing (.tscan r) b).head? = some t → ready → free (.tscan r) false →
      Leaves s (.tscan r) (started (.tscan r)
        (s.setTile b.blk e fun y => { y with st := .draining, next := some (old.classify k.scratch) }) (now + cycles + 4)
        (.scanEnd b.blk e (s.executing (.tscan r) b) r.d.toNat (hdrSetSb b.hdr))))) ∧
  ∀ (s : State) (j d due u e : Nat) (ts : List Nat) (dest : Nat) (sb : Option Nat) (f : Form × Word),
    due ≤ s.now d → ts.Nodup → (tget s.blocks u).isSome = true → ((s.block u).tile e).next = some f →
    let ended (s' : State) :=
      (s'.block u).tile e = { (s.block u).tile e with st := .ready, form := f.1, cval := f.2, next := none } ∧
      (s'.block u).scratch = (s.block u).scratch ∧
      (∀ t ∈ ts, s.has u t = true → ∃ h, Waited (s.nowB u) e (s.thread u t) h ∧
        s'.thread u t = h.landed [(dest, BitVec.ofNat 32 f.1.code)] [] sb) ∧
      (∀ t, t ∉ ts → s.has u t = true → Waited (s.nowB u) e (s.thread u t) (s'.thread u t)) ∧
      s'.jobs = tdel s.jobs j ∧ s'.mem = s.mem
    (tget s.jobs j = some ⟨d, due, .fillEnd u e ts dest sb⟩ → Leaves s (.tfillEnd j) ended) ∧
    (tget s.jobs j = some ⟨d, due, .scanEnd u e ts dest sb⟩ → Leaves s (.tscanEnd j) ended)

/-- R172, R173, R176, R177: a tile's form agrees with its bytes after each operation that sets either: a store keeps the form
only where every element it touches agrees, never raises one, and TFILL and TSCAN give a form that the bytes have. -/
def Obligations.FormsAreSound : Prop :=
  (∀ (b : Block) (a : Nat) (l : List Byte) (e : Nat) (t : Tile), tget b.tiles e = some t →
    t.count * t.cont % 8 = 0 → t.st ≠ .empty → t.sound b.scratch →
    ∃ t', tget (b.spWrite a l).tiles e = some t' ∧ t'.sound (b.spWrite a l).scratch ∧
      ((t'.form = t.form ∧ t'.cval = t.cval) ∨ t'.form = .general)) ∧
  (∀ (t : Tile) (m : Mem),
    let t' := { t with form := (t.classify m).1, cval := (t.classify m).2 }
    t'.sound m ∧ (t'.form = .general → ¬ { t with form := .zero, cval := 0 }.sound m ∧
      ¬ { t with form := .ident, cval := 0 }.sound m)) ∧
  ∀ (t : Tile) (m : Mem) (form : Form) (value : Word), t.count * t.cont % 8 = 0 → fmtValid t.fval = true →
    (form = .zero ∨ form = .const ∨ form = .ident) →
    (form = .zero → ((fmtOf t.fval).value value.toNat).isZero = true) →
    (form ≠ .ident → value.toNat < 2 ^ (fmtOf t.fval).width) →
    (form = .ident → (oneCode (fmtOf t.fval)).isSome = true) →
    ({ t with form := form, cval := if form = Form.const then value else 0 } : Tile).sound (mputs m t.base (t.fillBytes form value))

/-! ## Matrix unit and epilogue -/

/-- R185, R186, R189, R190, R194: MMA and MMAX by whole octets on a READY or DRAINING B tile of the right format and shape,
with room in the matrix queue: one operation for each octet enters the queue with its operands, for MMAX with the scales of
A from the registers (0 for an absent or exited position, log 74) and those of B from the sidecar; the latch of the octet
holds the rows after REUSE; its slot opens or is sealed, the tile is pinned, and nothing else changes but that the members
advance and events count. The tile and the sidecar are read after the acquires before the instruction (R165, R268). -/
def Obligations.MatrixIssue : Prop :=
  ∀ (s : State) (bid : Nat) (b : Bundle) (r : RX),
    let k := s.block b.blk
    let t := k.tile r.e.toNat
    let fa := k.fmt (s.now (dieOf b.core)) r.fa.toNat
    let c := (fmtOf fa).cont
    let octs (i : Instr) := dedupN ((s.executing i b).map (· / 8))
    let low (i : Instr) (o : Nat) := ((s.executing i b).find? fun t => t / 8 == o).getD 0
    let q (i : Instr) (o : Nat) := ((s.stood b (low i o)).rd r.d.toNat).toNat % 128
    let side (i : Instr) (o : Nat) := ((s.stood b (low i o)).rd r.c.toNat).toNat
    let n := sideBytes c (r.flags.getLsbD 3)
    let may (i : Instr) (mx : Bool) := s.executing i b ≠ [] ∧ hdrGather b.hdr ≠ 0 ∧ (t.st = .ready ∨ t.st = .draining) ∧
      t.isB r.fb.toNat c = true ∧ (octs i).length ≤ s.queueRoom b.core 3 ∧
      (∀ m ∈ s.executing i b, (s.core b.core).barred b.blk m s.seq false = false) ∧
      ∀ o ∈ octs i, (∀ m ∈ k.liveOctet o, m ∈ b.tids) ∧ q i o < k.cfg.nring ∧ (k.slot (q i o)).st ≠ .sealed ∧
        (k.slot (q i o)).st ≠ .draining ∧ (mx = true → side i o % 64 = 0 ∧ side i o + n ≤ k.cfg.allot ∧
          s.spadFault b.blk (.own (side i o)) n false = none)
    let queued (i : Instr) (mx : Bool) (s' : State) := ∃ ops ts sl ls,
      SameBut ((s.setCore b.core fun x => { x with mq := x.mq ++ ops }).setBlock b.blk fun x =>
        { x with tiles := ts, slots := sl, latches := ls }) s' b.blk ∧ s'.jobs = s.jobs ∧ s'.draws = s.draws ∧
      (ops.length = (octs i).length ∧
        ∀ (j o : Nat) (op : OctetOp), (octs i)[j]? = some o → ops[j]? = some op →
          let l := tgetD k.latches o {}
          op.blk = b.blk ∧ op.tid = low i o ∧ op.q = q i o ∧ op.tile = r.e.toNat ∧ op.form = t.form ∧ op.fa = fa ∧
          op.entered = s.now (dieOf b.core) ∧ op.zeroC = r.flags.getLsbD 0 ∧ op.mx = mx ∧
          op.bytes = mbytes k.scratch t.base 1024 ∧ op.fb = k.fmt (s.now (dieOf b.core)) r.fb.toNat ∧ op.cval = t.cval ∧
          (mx = true → op.e8m2 = r.flags.getLsbD 3 ∧
            (∀ n < 16, (op.scalesA.getD n 0) = match tget k.threads (8 * o + n / 2) with
              | some h => if h.exited then 0 else h.rd (r.b.toNat + n % 2)
              | none => 0) ∧
            ∀ n < 256 / c, op.scalesB.getD n 0 =
              let z := if r.flags.getLsbD 3 then 2 else 1
              mread k.scratch (side i o + z * n) z) ∧
          tgetD ls o {} = (if r.flags.getLsbD 2 then ⟨true, r.a.toNat, op.rows⟩ else {}) ∧
          op.rows = if l.valid = true ∧ l.base = r.a.toNat then l.rows else k.rowsOf o r.a.toNat) ∧
      (∀ e, tgetD ts e {} = if e = r.e.toNat then { t with pins := t.pins + (octs i).length } else k.tile e) ∧
      (∀ p, tgetD sl p {} = { k.slot p with
        queued := (k.slot p).queued + ((octs i).filter fun o => q i o == p).length,
        st := if (octs i).any (fun o => q i o == p) then (if r.flags.getLsbD 1 then .sealed else .accum) else (k.slot p).st }) ∧
      (∀ o, o ∉ octs i → tgetD ls o {} = tgetD k.latches o {}) ∧
      ∀ m, s.has b.blk m = true → s'.thread b.blk m = if m ∈ b.tids then s.stood b m else s.thread b.blk m
    (Issues s (.mma r) bid b → may (.mma r) false → Leaves s (.mma r) (queued (.mma r) false)) ∧
    (Issues s (.mmax r) bid b → may (.mmax r) true → Leaves s (.mmax r) (queued (.mmax r) true))

/-- R108, R110, R190, R191, R196: an element becomes the exact sum of C and the products, under MMAX of elements times
their block scales, rounded once; integers without scales wrap; a NaN scale gives NaN; with a B of zeros the table of R196
holds. -/
def Obligations.MatrixElements : Prop :=
  ∀ (o : OctetOp) (old : Word) (i j : Nat), fmtValid o.fa = true → fmtValid o.fb = true →
    let fa := fmtOf o.fa
    let fb := fmtOf o.fb
    let ks := List.range (256 / fa.cont)
    let a (k : Nat) := rowCont (o.rows.getD i []) fa.cont k % 2 ^ fa.width
    let e (k : Nat) := o.codeB k j % 2 ^ fb.width
    let c := if o.zeroC then 0 else old
    let int (f : Fmt) (x : Nat) : Int := if f.sgn ∧ 2 ^ (f.width - 1) ≤ x then (x : Int) - 2 ^ f.width else x
    let special (v : FVal) := v.finite = false
    let xa (k : Nat) := scaleVal o.e8m2 ((o.scalesA.getD i 0).toNat / 2 ^ (16 * (k / 32)) % 65536)
    let xb (k : Nat) := scaleVal o.e8m2 (o.scalesB.getD (32 * (k / 32) + j) 0)
    (o.mx = true → (f32.value c.toNat).finite = true →
      (∀ k ∈ ks, (fa.value (a k)).finite = true ∧ (fb.value (e k)).finite = true ∧ (xa k).finite = true ∧
        (xb k).finite = true) →
      let sum : ℚ := (f32.value c.toNat).real +
        (ks.map fun k => ((xa k).real * fa.element (a k)) * ((xb k).real * fb.element (e k))).sum
      (sum ≠ 0 → Rounded f32 .rne sum (o.elem old i j).1.toNat) ∧ (sum = 0 → (o.elem old i j).1 = 0)) ∧
    (o.mx = true → (∃ k ∈ ks, xa k = .nan ∨ xb k = .nan) → (o.elem old i j).1 = 0x7FC00000) ∧
    (o.mx = false → fa.intm = true →
      (o.elem old i j).1 = BitVec.ofInt 32 (c.toInt + (ks.map fun k => int fa (a k) * int fb (e k)).sum)) ∧
    (o.mx = false → fa.intm = false → (f32.value c.toNat).finite = true →
      (∀ k ∈ ks, (fa.value (a k)).finite = true ∧ (fb.value (e k)).finite = true) →
      let sum : ℚ := (f32.value c.toNat).real + (ks.map fun k => (fa.value (a k)).real * (fb.value (e k)).real).sum
      (sum ≠ 0 → Rounded f32 .rne sum (o.elem old i j).1.toNat) ∧ (sum = 0 → (o.elem old i j).1 = 0)) ∧
    (o.mx = false → fa.intm = false → (∀ k ∈ ks, (fb.value (e k)).isZero = true) →
      let w := (o.elem old i j).1
      (((f32.value c.toNat).isNan = true ∨ ∃ k ∈ ks, special (fa.value (a k))) → w = 0x7FC00000) ∧
      ((∀ k ∈ ks, ¬ special (fa.value (a k))) → (f32.value c.toNat).isNan = false →
        w = if (f32.value c.toNat).isZero then 0 else c))

/-- R193, R195: a pass begins with the operation at the head of the queue, and in the GENERAL form with those behind it, up
to four, that share its tile, formats and instruction and entered at most two cycles later; the pins of the tile end as the
pass begins (log 15). In the last cycle of the pass they complete in order, each into its slot; a ZERO operation completes
outside a pass, from the cycle after its entry on. -/
def Obligations.MatrixPasses : Prop :=
  ∀ (s : State) (core : Nat) (h : OctetOp) (q : List OctetOp), (s.core core).mq = h :: q →
    let now := s.now (dieOf core)
    let mate (o : OctetOp) := o.blk = h.blk ∧ o.tile = h.tile ∧ o.faNo = h.faNo ∧ o.fbNo = h.fbNo ∧ o.mx = h.mx ∧
      o.e8m2 = h.e8m2 ∧ o.form = .general ∧ o.entered ≤ h.entered + 2
    let written (s' : State) :=
      let old := (s.block h.blk).slot h.q
      (s'.core core).mq = q ∧
      (s'.block h.blk).slot h.q = { old with words := (h.apply old.words).1, queued := old.queued - 1 } ∧
      (∀ x, x ≠ h.q → (s'.block h.blk).slot x = (s.block h.blk).slot x) ∧
      (s'.thread h.blk h.tid).mstatus = (s.thread h.blk h.tid).mstatus ||| (h.apply old.words).2 ∧
      (∀ t, (s'.thread h.blk t).live = (s.thread h.blk t).live ∧ (s'.thread h.blk t).preds = (s.thread h.blk t).preds) ∧
      s'.mem = s.mem
    ((s.core core).pass = none → h.form = .zero → h.entered + 1 ≤ now → s.has h.blk h.tid = true →
      Leaves s (.octetOperationComplete core) fun s' => written s' ∧ (s'.core core).pass = none ∧
        (s'.block h.blk).tile h.tile =
          { (s.block h.blk).tile h.tile with pins := ((s.block h.blk).tile h.tile).pins - 1 }) ∧
    ((s.core core).pass = none → h.form ≠ .zero → h.earliest ≤ now →
      ((s.core core).passEnd = 0 ∨ (s.core core).passEnd < now) → (tget s.blocks h.blk).isSome = true →
      Leaves s (.matrixPass core) fun s' => ∃ n, 1 ≤ n ∧ n ≤ 4 ∧ n ≤ q.length + 1 ∧ (h.form ≠ .general → n = 1) ∧
        (h.form = .general → (∀ j, j + 1 < n → ∃ o, q[j]? = some o ∧ mate o) ∧
          (n = 4 ∨ n = q.length + 1 ∨ ∃ o, q[n - 1]? = some o ∧ ¬ mate o)) ∧
        (s'.core core).pass = some ⟨n, n, now, now + max n 2 - 1⟩ ∧ (s'.core core).mq = (s.core core).mq ∧
        ((s'.block h.blk).tile h.tile).pins = ((s.block h.blk).tile h.tile).pins - n ∧
        (∀ p, (s'.block h.blk).slot p = (s.block h.blk).slot p) ∧ s'.mem = s.mem) ∧
    ∀ p : Pass, ((s.core core).pass = some p → p.last ≤ now → s.has h.blk h.tid = true →
      Leaves s (.octetOperationComplete core) fun s' => written s' ∧
        (s'.core core).pass = (if p.left ≤ 1 then none else some { p with left := p.left - 1 }) ∧
        (s'.block h.blk).tile h.tile = (s.block h.blk).tile h.tile)

/-- R187, R199: SLOTZ, SLOTRD and SLOTWR on slots of the ring that are open and idle. -/
def Obligations.SlotAccess : Prop :=
  ∀ (s : State) (bid : Nat) (b : Bundle) (r : RX),
    let k := s.block b.blk
    let q (h : Thread) := (h.rd r.a.toNat).toNat % 128
    let w (h : Thread) := 4 * (fld (h.rd r.a.toNat) 10 7).toNat
    let inRing (i : Instr) := ∀ t ∈ s.executing i b, q (s.stood b t) < k.cfg.nring
    let idle (i : Instr) := ∀ t ∈ s.executing i b,
      let x := k.slot (q (s.stood b t))
      x.queued = 0 ∧ x.st ≠ .sealed ∧ x.st ≠ .draining ∧ x.stamp ≠ s.now (dieOf b.core) + 1
    let named (i : Instr) (p : Nat) := ∃ t ∈ s.executing i b, q (s.stood b t) = p
    let with_ (sl : Tab Slot) : State := s.setBlock b.blk fun x => { x with slots := sl }
    (Issues s (.slotrd r) bid b → inRing (.slotrd r) →
      (∀ t ∈ s.executing (.slotrd r) b, (k.slot (q (s.stood b t))).queued = 0) →
      SendsFrom s (.slotrd r) b s (fun _ => none) fun _ h =>
        { regs := (List.range 4).map fun m => (r.d.toNat + m, tgetD (k.slot (q h)).words (w h + m) 0) }) ∧
    (Issues s (.slotz r) bid b → inRing (.slotz r) → idle (.slotz r) → ∃ sl,
      Turns s (.slotz r) b (with_ sl) (fun _ h => h) ∧
      ∀ p, (named (.slotz r) p → (tgetD sl p {}).st = .free ∧ ∀ n < 512, tgetD (tgetD sl p {}).words n 0 = 0) ∧
        (¬ named (.slotz r) p → tgetD sl p {} = k.slot p)) ∧
    (Issues s (.slotwr r) bid b → inRing (.slotwr r) → idle (.slotwr r) → ∃ sl,
      Turns s (.slotwr r) b (with_ sl) (fun _ h => h) ∧
      (∀ t ∈ s.executing (.slotwr r) b, let h := s.stood b t
        (∀ u ∈ s.executing (.slotwr r) b, t < u → q (s.stood b u) = q h → w (s.stood b u) ≠ w h) →
        ∀ m < 4, tgetD (tgetD sl (q h) {}).words (w h + m) 0 = h.rd (r.b.toNat + m)) ∧
      ∀ p, (¬ named (.slotwr r) p → tgetD sl p {} = k.slot p) ∧
        (named (.slotwr r) p → (tgetD sl p {}).st = .accum ∧ (tgetD sl p {}).queued = 0 ∧
          ∀ n, (∀ t ∈ s.executing (.slotwr r) b, q (s.stood b t) = p → n / 4 * 4 ≠ w (s.stood b t)) →
            tgetD (tgetD sl p {}).words n 0 = tgetD (k.slot p).words n 0))

/-- R200, R201, R295: EPI and EPIQ with a legal parameter block, room in the queue and in the ring, and no range lock in the
way: the command enters the queue on the block's claim cursor, which moves on, with the scales and biases that stand at SCADDR
and BIADDR in the own allotment, and every executing thread receives the slot number; a destination tile is FILLING. -/
def Obligations.EpilogueIssue : Prop :=
  ∀ (s : State) (bid : Nat) (b : Bundle) (r : RX) (t : Nat),
    let k := s.block b.blk
    let a := ((s.stood b t).rd r.a.toNat).toNat
    let cmd (quant : Bool) : EpiCmd :=
      let i : Instr := if quant then .epiq r else .epi r
      let c : EpiCmd := { blk := b.blk, q := k.cursor, params := mbytes k.scratch a 64, quant := quant,
                          e8m2 := r.flags.getLsbD 0, tid := t, tids := s.executing i b, claim := s.seq }
      { c with fval := k.fmt (s.now (dieOf b.core)) c.ofmt }
    let may (i : Instr) (c : EpiCmd) :=
      let x := s.issued i bid b
      (s.executing i b).head? = some t ∧ hdrGather b.hdr = 2 ∧ a % 64 = 0 ∧ a + 64 ≤ k.cfg.allot ∧ s.drained b 3 t ∧
      ({ x with s := x.drainEnd x.s [t] } : Iss).epiTrap c = none ∧ (c.toTile = true → (k.tile c.tile).moving = false) ∧
      s.queueRoom b.core 4 ≠ 0 ∧ s.claimRoom b.blk k ≠ 0 ∧ s.tryRegister (dieOf b.core) (s.epiLocks c) = .room
    let queued (i : Instr) (c : EpiCmd) (s' : State) :=
      (∃ d, (s'.core b.core).epiq = (s.core b.core).epiq ++ [d] ∧ d = { c with scales := d.scales, biases := d.biases } ∧
        (c.scl = true → ∀ j < 32, d.scales.getD j 0 = BitVec.ofNat 32 (s.spGet b.blk (.own (c.scaddr + 4 * j)) 4) ∨
          0x80000 ≤ c.scaddr) ∧
        (c.bias = true → ∀ j < 32, d.biases.getD j 0 = BitVec.ofNat 32 (s.spGet b.blk (.own (c.biaddr + 4 * j)) 4) ∨
          0x80000 ≤ c.biaddr)) ∧
      (s'.block b.blk).cursor = (k.cursor + 1) % k.cfg.nring ∧ (s'.block b.blk).tail = k.tail ∧
      (s'.dm (dieOf b.core)).locks = (s.dm (dieOf b.core)).locks ++ s.epiLocks c ∧
      (c.toTile = true → ((s'.block b.blk).tile c.tile).st = .filling) ∧
      (∀ e, (c.toTile = false ∨ e ≠ c.tile) → (s'.block b.blk).tile e = k.tile e) ∧
      (s'.block b.blk).scratch = k.scratch ∧ s'.mem = s.mem ∧
      ∀ m, s.has b.blk m = true → m ∈ s.executing i b →
        (s'.thread b.blk m).rd r.d.toNat = (if r.d = 255 then 0 else BitVec.ofNat 32 k.cursor) ∧
        (s'.thread b.blk m).preds = (s.thread b.blk m).preds
    (Issues s (.epi r) bid b → may (.epi r) (cmd false) → Leaves s (.epi r) (queued (.epi r) (cmd false))) ∧
    (Issues s (.epiq r) bid b → may (.epiq r) (cmd true) → Leaves s (.epiq r) (queued (.epiq r) (cmd true)))

/-- R101, R109, R121, R202: the elements of a row that the epilogue engine writes: x scaled and biased exactly and rounded
once, the activation, then binary32 bits, the conversion of R103 or R106 with its events, or one MX block with its scale. A
packed row holds element j at bit j times the element's width. -/
def Sys2Proof.Claims.EpilogueValues : Prop :=
  (∀ (c : EpiCmd) (w : Word) (j : Nat),
    let x : FVal := if c.iacc then .fin (decide (w.toInt < 0)) w.toInt.natAbs 0 else f32.value w.toNat
    let m := f32.value (c.scales.getD j 0).toNat
    let n := f32.value (c.biases.getD j 0).toNat
    let q : ℚ := x.real * (if c.scl then m.real else 1) + (if c.bias then n.real else 0)
    (x.finite = true → (c.scl = true → m.finite = true) → (c.bias = true → n.finite = true) →
      (q ≠ 0 → Rounded f32 .rne q (c.affine w j)) ∧ (q = 0 → (f32.value (c.affine w j)).isZero = true)) ∧
    ((x = .nan ∨ (c.scl = true ∧ m = .nan) ∨ (c.bias = true ∧ n = .nan)) → c.affine w j = 0x7FC00000)) ∧
  (∀ t : Nat, t < 2 ^ 32 →
    epiAct 0 t = t ∧
    (f32.value t = .nan → epiAct 1 t = 0x7FC00000) ∧
    ((f32.value t).finite = true → epiAct 1 t = if 0 < (f32.value t).real then t else 0) ∧
    (f32.value t = .inf false → epiAct 1 t = t) ∧ (f32.value t = .inf true → epiAct 1 t = 0) ∧
    epiAct 2 t =
      let u := fMul f32 .rne (fMul f32 .rne t t) t
      let h := fTanh (fMul f32 .rne (fFma f32 .rne u 0x3D372713 t) 0x3F4C422A)
      fMul f32 .rne (fMul f32 .rne t 0x3F000000) (fAdd f32 .rne h 0x3F800000)) ∧
  (∀ (c : EpiCmd) (out : Tab Word) (i : Nat),
    let ys := (List.range 32).map fun j => epiAct c.act (c.affine (tgetD out (32 * i + j) 0) j)
    let f := fmtOf c.fval
    (c.of32 = true → c.row out i = (ys, 0, false, false)) ∧
    (c.of32 = false → c.quant = false →
      let es := ys.map fun y => f.convert c.rnd (f32.value y)
      c.row out i = (es.map (·.code), 0, es.any (·.inv), es.any (·.ovf))) ∧
    (c.of32 = false → c.quant = true →
      let (x, es, nan) := quantise f c.e8m2 (ys.map f32.value)
      c.row out i = (es.map (·.code), x, nan, es.any (·.ovf)))) ∧
  ∀ (w : Nat) (l : List Nat), l.length = 32 →
    (packRow w l).length = 4 * w ∧ ∀ j < 32, leVal (packRow w l) / 2 ^ (w * j) % 2 ^ w = l.getD j 0 % 2 ^ w

/-- R188, R202, R203: a drain starts and ends; the command completes, to a tile once no pinned tile shares a byte with what it
writes, to global memory once its bytes are written: its locks are released, the events stand in the actor's MSTATUS, and
with BAREN the barrier has the bytes subtracted. -/
def Sys2Proof.Claims.DrainSteps : Prop :=
  (∀ (s : State) (core : Nat) (c : EpiCmd), s.nextDrain core = some c → (tget s.blocks c.blk).isSome = true →
    ((s.core core).epiq.map (·.claim)).Nodup →
    Leaves s (.epilogueDrain core) fun s' =>
      ((s'.block c.blk).slot c.q).st = .draining ∧
      ((s'.block c.blk).slot c.q).words = ((s.block c.blk).slot c.q).words ∧
      { c with draining := true, drainEnd := s.now (dieOf core) + 16 } ∈ (s'.core core).epiq ∧
      (∀ e ∈ (s.core core).epiq, e ≠ c → e ∈ (s'.core core).epiq) ∧ s'.mem = s.mem) ∧
  (∀ (s : State) (core : Nat) (c : EpiCmd), c ∈ (s.core core).epiq → c.draining = true → c.out = none →
    c.drainEnd ≤ s.now (dieOf core) → (∀ e ∈ (s.core core).epiq, e.draining = true → e.out = none → e = c) →
    (tget s.blocks c.blk).isSome = true → (s.block c.blk).tail < (s.block c.blk).cfg.nring →
    (∀ e ∈ (s.core core).epiq, e.draining = false → e.q ≠ c.q ∨ e.blk ≠ c.blk) →
    ((s.core core).epiq.map (·.claim)).Nodup →
    Leaves s (.epilogueDrain core) fun s' =>
      ((s'.block c.blk).slot c.q).st = .free ∧
      (s'.block c.blk).tail = ((s.block c.blk).tail + 1) % (s.block c.blk).cfg.nring ∧
      { c with out := some ((s.block c.blk).slot c.q).words } ∈ (s'.core core).epiq ∧ s'.mem = s.mem) ∧
  ∀ (s : State) (core : Nat) (c : EpiCmd), (s.core core).epiq.find? (·.out.isSome) = some c → c.fault = none →
    c.fin = none → (s.block c.blk).core = core → s.rooted c.blk → s.has c.blk c.tid = true →
    let k := s.block c.blk
    let d := dieOf core
    let x := k.tile c.tile
    let row (i : Nat) := c.row (c.out.getD []) i
    let z := if c.e8m2 then 2 else 1
    let scales := (List.range 16).flatMap fun i => leBytes z (row i).2.1
    let bytes : Nat := 16 * (if c.toTile then 4 * (fmtOf c.fval).cont else c.rowBytes) + (if c.quant then 16 * z else 0)
    let events := epiFlags ((List.range 16).any fun i => (row i).2.2.1) ((List.range 16).any fun i => (row i).2.2.2)
    let done (s' : State) :=
      (s'.core core).epiq = ((s.core core).epiq.filter fun e => e.claim != c.claim) ∧
      (s'.dm d).locks = ((s.dm d).locks.filter fun l => l.owner != (c.blk, c.claim, true)) ∧
      (s'.thread c.blk c.tid).mstatus = (s.thread c.blk c.tid).mstatus ||| events ∧
      (c.barEn = true → s'.bar c.blk 0 c.bar = (s.bar c.blk 0 c.bar).after 0 (-(bytes : Int))) ∧
      (c.barEn = false → ∀ e, s'.bar c.blk 0 e = s.bar c.blk 0 e) ∧
      (∀ t, (s'.thread c.blk t).live = (s.thread c.blk t).live ∧ (s'.thread c.blk t).preds = (s.thread c.blk t).preds)
    (c.toTile = true → x.layout = 0 → fmtValid x.fval = true → x.cont = (fmtOf c.fval).cont → c.of32 = false →
      c.ro + 16 ≤ x.r → c.co + 32 ≤ x.c → x.pins = 0 → (k.tiles.map (·.1)).Nodup → (k.threads.map (·.1)).Nodup →
      (∀ e y, tget k.tiles e = some y → y.st ≠ .empty → y.pins ≠ 0 → y.base + y.size ≤ x.base ∨ x.base + x.size ≤ y.base) →
      (c.quant = true → (s.spad c.blk c.scdest (16 * z)).isSome = true ∧
        s.padFree c.blk (s.spad c.blk c.scdest (16 * z)) 0 (16 * z) = true) →
      Leaves s (.epilogueComplete core) fun s' => done s' ∧
        ((s'.block c.blk).tile c.tile).st = .ready ∧ (s'.block c.blk).run.wdog = 0 ∧ s'.mem = s.mem ∧
        (c.quant = true → s'.padRead c.blk (s.spad c.blk c.scdest (16 * z)) 0 (16 * z) = scales) ∧
        ((c.quant = false ∨ ∃ o, s.spad c.blk c.scdest (16 * z) = some (.own o) ∧
            (o + 16 * z ≤ x.base ∨ x.base + x.size ≤ o)) →
          ∀ i < 16, ∀ j < 32, x.elem (s'.block c.blk).scratch (x.lin (c.ro + i) (c.co + j)) =
            (row i).1.getD j 0 % 2 ^ (fmtOf x.fval).width) ∧
        (c.barEn = false → ∀ t, s.has c.blk t = true →
          Waited (s.now d) c.tile ((s.thread c.blk t).flag (if t = c.tid then events else 0)) (s'.thread c.blk t))) ∧
    (c.toTile = false →
      let e : EngCmd := { op := .bcopy, blk := c.blk, seq := 0, bad := c.bad.map (0, ·, true), down := c.down }
      let elements := (List.range 16).flatMap fun i => (packRow c.elemBits (row i).1).mapIdx fun n v =>
        (c.rowBytes * i + n, wrapN 64 ((c.dest : Int) + (i : Int) * c.stride + (n : Int)), v)
      let sides := if c.quant then scales.mapIdx fun n v => (16 * c.rowBytes + n, wrapN 64 ((c.scdest + n : Nat) : Int), v)
        else []
      let p := s.engWrite d e (elements ++ sides)
      p.stop = none → p.faults = [] → p.s.rooted c.blk →
      c.rowBytes ≠ 0 → p.s.away = s.away → (∀ w ∈ s.away, w.cmd ≠ some (c.blk, c.claim, true)) →
      (p.s.core core).epiq = (s.core core).epiq → (p.s.dm d).locks = (s.dm d).locks →
      (p.s.block c.blk).core = core → (∀ l n, p.s.bar c.blk l n = s.bar c.blk l n) →
      (∀ t, p.s.thread c.blk t = s.thread c.blk t) →
      Leaves s (.epilogueComplete core) fun s' => done s' ∧ (s'.block c.blk).run.wdog = 0 ∧ s'.mem = p.s.mem)

/-- R204: after 65,536 cycles every thread that is parked on a SEALED slot takes ring deadlock with the slot's number, at the
word at which it parked, and the count starts again; without such a thread only the count changes. -/
def Sys2Proof.Claims.RingDeadlocks : Prop :=
  ∀ (s : State) (u : Nat), 65536 ≤ (s.block u).run.ringFull → ((s.block u).threads.map (·.1)).Nodup →
    (tget s.blocks u).isSome = true →
    let hit (t q : Nat) (w : DWord) := s.has u t = true ∧ (s.thread u t).atSlot = some (q, w) ∧
      ((s.block u).slot q).st = .sealed
    (∀ t q w, hit t q w → s.handles u 8 q ∧ (s.thread u t).inh = false ∧ q < 65536) →
    Leaves s (.ringDeadlock u) fun s' => (s'.block u).run.ringFull = 0 ∧
      (∀ t q w, hit t q w →
        let h := s.thread u t
        s'.thread u t = s.entered u h.base h.index.toNat 8 q 0 w 0 h) ∧
      (∀ t, s.has u t = true → (∀ q w, ¬ hit t q w) → s'.thread u t = s.thread u t) ∧ s'.mem = s.mem

/-- Values, drains and completion of epilogue commands, and ring deadlock. -/
def Obligations.EpilogueDrains : Prop :=
  Sys2Proof.Claims.EpilogueValues ∧ Sys2Proof.Claims.DrainSteps ∧ Sys2Proof.Claims.RingDeadlocks

/-! ## Global memory -/

/-- R219-R222, R224, R235, R242, R244: LDG, and MWATCH in a confirmed block, whose members all pass the checks: in the machine
that the checks leave, whose walks may have read page tables (R351), each member's load is under way, or served at once with
the value that its core's L1 and the member's own stores in the FIFO give, under the writes that the block holds, and its
destinations are pending; no byte of memory changes. -/
def Obligations.GlobalLoads : Prop :=
  ∀ (s : State) (bid : Nat) (b : Bundle) (r : RM) (s2 : State) (ps : List Passed),
    let may (i : Instr) := (s.issued i bid b).accesses .load r.size.bytes (fun t => (s.stood b t).ea r.a r.off) = (s2, ps) ∧
      ps.map (·.1) = s.executing i b ∧ ∀ t ∈ s.executing i b, s2.has b.blk t = true
    let loading (i : Instr) (watch : Bool) (s' : State) :=
      s'.mem = s2.mem ∧ s'.seq = s2.seq + ps.length ∧ (s'.core b.core).fifo = (s2.core b.core).fifo ∧
      (∀ (j : Nat) (p : Passed), ps[j]? = some p →
        let regs := (List.range r.size.regs).map (r.d.toNat + ·)
        (s'.thread b.blk p.1).pend = (s2.thread b.blk p.1).pend ++ regs.filter (· != 255) ∧
        (s'.thread b.blk p.1).live = ((s2.thread b.blk p.1).kills (s.ends i b)).live ∧
        (s'.thread b.blk p.1).preds = (s2.thread b.blk p.1).preds ∧
        let l : Load := { seq := s2.seq + j, blk := b.blk, tid := p.1, va := (s.stood b p.1).ea r.a r.off,
                          cid := (s.ctxOf b.blk).cid, line := p.2.1 / 128, off := p.2.1 % 128, readOk := p.2.2, size := r.size,
                          dest := r.d.toNat, acquire := r.order.isAcq, watch := watch, alloc := r.hint != 1,
                          sb := hdrSetSb b.hdr, grp := s.seq, site := ⟨b.base, b.index, (encode i).getD 0⟩ }
        let own (v : Nat) := ∃ bytes, (s2.core b.core).hit l = some bytes ∧
          v = lineVal (s2.heldView b.blk l.line l.seq bytes) l.off r.size.bytes
        (l ∈ (s'.core b.core).loads ∨ ∃ v, own v ∧ ({ l with value := some v } ∈ (s'.core b.core).loads ∨
          ∃ hi, s'.hasResult (dieOf b.core) (s.now (dieOf b.core) + 1) hi b.blk p.1
            { regs := loadWrites r.d.toNat r.size v } (hdrSetSb b.hdr)))) ∧
      ∀ t, s2.has b.blk t = true → t ∉ s.executing i b → s'.thread b.blk t = s2.thread b.blk t
    (Issues s (.ldg r) bid b → may (.ldg r) → Leaves s (.ldg r) (loading (.ldg r) false)) ∧
    (Issues s (.mwatch r) bid b → (s.block b.blk).unconfirmed = false → may (.mwatch r) →
      Leaves s (.mwatch r) (loading (.mwatch r) true))

/-- R222, R225, R226, R229, R230, R263: STG, STGW, ATOM and RED of a block that holds nothing back, whose members all pass
the checks and find room, which an ATOM with a result does not take (R222): in the machine that the checks leave, one FIFO
entry for each line, with the bytes or operations of the members on it; no byte of memory changes yet, and only an ATOM with a
destination makes registers pending. That an ATOM with a result stands in the thread's part of the store FIFO is R263. -/
def Obligations.GlobalStores : Prop :=
  ∀ (s : State) (bid : Nat) (b : Bundle) (s2 : State) (ps : List Passed),
    let may (i : Instr) (n : Nat) (a : Acc) (ea : Nat → Nat) (room : Bool := true) := (s.block b.blk).unconfirmed = false ∧
      (s.issued i bid b).accesses a n ea = (s2, ps) ∧ ps.map (·.1) = s.executing i b ∧
      (∀ t ∈ s.executing i b, s2.has b.blk t = true) ∧
      (room = true → (s2.core b.core).fifoUsed + (lineSet ps).length ≤ 64)
    let put (i : Instr) (on : Nat → Prop) (scope : Nat) (rel acq : Bool) (regs : List Nat) (kind : Entry → Passed → Prop)
        (s' : State) : Prop :=
      s'.mem = s2.mem ∧ (s'.core b.core).loads = (s2.core b.core).loads ∧
      (∃ es, (s'.core b.core).fifo = (s2.core b.core).fifo ++ es ∧ s'.seq = s2.seq + es.length ∧
        (es.map (·.line)).Nodup ∧
        (∀ (j : Nat) (e : Entry), es[j]? = some e → e.seq = s2.seq + j ∧ e.blk = b.blk ∧ e.st = .queued ∧
          e.scope = scope ∧ e.release = rel ∧ e.acquire = acq ∧
          e.tids = (ps.filter fun p => p.2.1 / 128 == e.line && decide (p.1 ∈ e.tids)).map (·.1)) ∧
        ∀ p ∈ ps, (on p.1 → ∃ e ∈ es, e.line = p.2.1 / 128 ∧ p.1 ∈ e.tids ∧ kind e p) ∧
          (¬ on p.1 → ∀ e ∈ es, p.1 ∉ e.tids)) ∧
      ∀ t, s2.has b.blk t = true →
        (s'.thread b.blk t).preds = (s2.thread b.blk t).preds ∧
        (t ∈ s.executing i b → (s'.thread b.blk t).live = ((s2.thread b.blk t).kills (s.ends i b)).live ∧
          (s'.thread b.blk t).pend = (s2.thread b.blk t).pend ++ regs.filter (· != 255)) ∧
        (t ∉ s.executing i b → s'.thread b.blk t = s2.thread b.blk t)
    let bytes (r : RM) (mask : Nat → Nat → Bool) (e : Entry) (p : Passed) : Prop :=
      ∃ parts masked l, e.kind = .store parts masked ∧ (p.1, l) ∈ parts ∧ ∀ o, tget l o =
        if p.2.1 % 128 ≤ o ∧ o < p.2.1 % 128 + r.size.bytes ∧ mask p.1 (o - p.2.1 % 128) = true then
          some (BitVec.ofNat 8 (stored r.size (s.stood b p.1) r.d.toNat / 2 ^ (8 * (o - p.2.1 % 128)))) else none
    let ea (r : RM) (t : Nat) := (s.stood b t).ea r.a r.off
    let at_ (r : RO) (t : Nat) := ((s.stood b t).rd64 r.a.toNat).toNat
    (∀ r : RM, Issues s (.stg r) bid b → may (.stg r) r.size.bytes .store (ea r) →
      Leaves s (.stg r) (put (.stg r) (fun _ => True) r.scope.num r.order.isRel false [] (bytes r fun _ _ => true))) ∧
    (∀ r : RM, Issues s (.stgw r) bid b → may (.stgw r) r.size.bytes .store (ea r) →
      let mask (t k : Nat) := ((s.stood b t).rd r.b.toNat).getLsbD k
      Leaves s (.stgw r) (put (.stgw r) (fun t => ∃ k < r.size.bytes, mask t k = true) r.scope.num r.order.isRel false []
        (bytes r mask))) ∧
    (∀ r : RO, Issues s (.atom r) bid b → may (.atom r) r.size.bytes .atom (at_ r) (r.d = 255) →
      let regs := if r.d = 255 then [] else (List.range r.size.regs).map (r.d.toNat + ·)
      Leaves s (.atom r) (put (.atom r) (fun _ => True) r.scope.num r.order.isRel r.order.isAcq regs fun e p =>
        ∃ ops o, e.kind = .atoms ops ∧ o ∈ ops ∧ o.tid = p.1 ∧
          o.off = p.2.1 % 128 ∧ o.op = r.op ∧ o.size = r.size.bytes ∧ o.opnd = stored r.size (s.stood b p.1) r.b.toNat ∧
          (r.op = .cas → o.cmp = stored r.size (s.stood b p.1) r.d.toNat) ∧
          o.dest = if r.d = 255 then none else some r.d.toNat)) ∧
    ∀ r : RO, Issues s (.red r) bid b → may (.red r) r.size.bytes .store (at_ r) →
      Leaves s (.red r) (put (.red r) (fun _ => True) r.scope.num r.order.isRel false [] fun e p =>
        ∃ ops, e.kind = .red (redTag r) ops ∧
          (p.1, p.2.1 % 128 / r.size.bytes, stored r.size (s.stood b p.1) r.b.toNat) ∈ ops)

/-- R234, R268: FENCE enters a marker for a release and waits for loads and atomics for an acquire; FENCE.SC waits for
everything at its scope. A fence with nothing outstanding only advances. -/
def Sys2Proof.Claims.FenceWaits : Prop :=
  ∀ (s : State) (bid : Nat) (b : Bundle) (r : RM),
    let waits (sc : Bool) (at_ t : Nat) (h : Thread) : Thread :=
      if s.waitOver b.blk (s.block b.blk) t h (.fence sc r.scope.num at_) then h
      else { h with st := .waiting (.fence sc r.scope.num at_), hdr := none, gang := none }
    (Issues s (.fence r) bid b →
      let out := s.executing (.fence r) b
      let n := if r.order.isRel then out.length else 0
      let marks : List Entry := if r.order.isRel then out.mapIdx fun k t =>
          { seq := s.seq + k, blk := b.blk, tids := [t], line := 0, kind := .fence, scope := r.scope.num } else []
      Turns s (.fence r) b
        { s.setCore b.core fun c => { c with fifo := c.fifo ++ marks } with seq := s.seq + n }
        fun t h =>
          let h := if r.order.isRel = true ∧ r.scope.num < 4 then { h with relSeq := some (s.seq + out.idxOf t) } else h
          if r.order.isAcq then waits false (s.seq + n) t h else h) ∧
    (Issues s (.fenceSc r) bid b → Turns s (.fenceSc r) b s fun t h =>
      waits true s.seq t (if r.scope.num < 4 then { h with relSeq := some s.seq } else h))

/-- R236: MWAIT answers 2 without a watch, 0 or 1 for a watch that has fired, which it disarms, and else waits; behind an
MWATCH that is not yet performed it waits for the watch that this one will arm (log 28). -/
def Sys2Proof.Claims.Watches : Prop :=
  ∀ (s : State) (bid : Nat) (b : Bundle) (r : RM), Issues s (.mwait r) bid b →
    Turns s (.mwait r) b s fun t h =>
      if (s.core b.core).watchPending b.blk t = true then
        { h with st := .waiting (.arming r.d.toNat), hdr := none, gang := none }
      else match h.watch with
        | none => h.wr r.d.toNat 2
        | some ⟨_, some write, _⟩ => { h with watch := none }.wr r.d.toNat (if write then 0 else 1)
        | some ⟨_, none, _⟩ => { h with st := .waiting (.watch r.d.toNat), hdr := none, gang := none }

/-- FENCE, FENCE.SC and MWAIT. -/
def Obligations.Fences : Prop :=
  Sys2Proof.Claims.FenceWaits ∧ Sys2Proof.Claims.Watches

/-- R218, R227, R237, R315: PREF and CCTL complete; they write no register, and where no page is walked PREF, CCTL.L1INV and
CCTL.L1ALL no byte of memory; a page counts as one that they may use when the thread may read it (log 80). PREF puts a line of
the module among those that the core fetches, and both halves of a line of the host or of a device, for the L1 too under
HINT 0 and 2, to be retained in the L2 under 3; CCTL.L1INV and CCTL.L1ALL drop L1 lines, CCTL.PUB of an owned dirty line
brings its bytes to memory. A thread waits only for a quiesced stack. -/
def Obligations.CacheHints : Prop :=
  ∀ (s : State) (bid : Nat) (b : Bundle) (r : RM),
    let d := dieOf b.core
    let found (t : Nat) := s.translate d (s.ctxOf b.blk) .load ((s.stood b t).ea r.a r.off)
    let settled (i : Instr) := ∀ t ∈ s.executing i b, (found t).1 = s ∧ ∀ line, (found t).2 ≠ .later line
    let quiet (i : Instr) (s' : State) :=
      (∀ t, s.has b.blk t = true → (s'.thread b.blk t).preds = (s.thread b.blk t).preds ∧
        ((s.thread b.blk t).atWatch = false → (s'.thread b.blk t).live =
            (if t ∈ s.executing i b then ((s.stood b t).kills (s.ends i b)).live else (s.thread b.blk t).live) ∨
          (t ∈ s.executing i b ∧ ¬ settled i ∧ (s'.thread b.blk t).live = (s.thread b.blk t).live ∧
            ∃ line, (s'.thread b.blk t).st = .waiting (.stacks line)))) ∧
      s'.jobs = s.jobs ∧ (settled i → s'.mem = s.mem)
    let each (i : Instr) (P : Nat → Nat → Prop) := settled i → ∀ t ∈ s.executing i b, ∀ pa rd,
      found t = (s, .ok pa rd) → P t (pa / 128)
    (Issues s (.pref r) bid b → Leaves s (.pref r) fun s' => quiet (.pref r) s' ∧
      each (.pref r) fun t line =>
        let asked (off : Nat) := ∃ l ∈ (s'.core b.core).prefs, l.blk = b.blk ∧ l.tid = t ∧ l.line = line ∧ l.off = off ∧
          (l.alloc = true ↔ r.hint = 0 ∨ r.hint = 2) ∧ (l.first = true ↔ r.hint = 2) ∧ (l.retain = true ↔ r.hint = 3)
        (inHbm line = true → asked 0) ∧
        ((∃ p, s.region (line * 128) = .cxl p) ∨ (∃ d o, s.region (line * 128) = .linked d o) → asked 0 ∧ asked 64)) ∧
    (Issues s (.cctlL1inv r) bid b → Leaves s (.cctlL1inv r) fun s' => quiet (.cctlL1inv r) s' ∧
      each (.cctlL1inv r) fun _ line => tget (s'.core b.core).l1 line = none) ∧
    (Issues s (.cctlL1all r) bid b → Leaves s (.cctlL1all r) fun s' => quiet (.cctlL1all r) s' ∧ s'.mem = s.mem ∧
      (s.executing (.cctlL1all r) b ≠ [] → (s'.core b.core).l1 = [])) ∧
    (Issues s (.cctlPub r) bid b → (s.block b.blk).unconfirmed = false → ∀ t pa rd l,
      s.executing (.cctlPub r) b = [t] → found t = (s, .ok pa rd) → pa < 2 ^ 40 → s.stopped (pa / 128) = false →
      s.l2 d (pa / 128) = some l → (l.st = some .M ∨ l.st = some .O) → l.data.map (·.1) = List.range 128 →
      Leaves s (.cctlPub r) fun s' =>
        (∀ k < 128, mget s'.mem (s.cell (pa / 128 * 128) + k) = tgetD l.data k 0) ∧
        (∀ x, (x < s.cell (pa / 128 * 128) ∨ s.cell (pa / 128 * 128) + 128 ≤ x) → mget s'.mem x = mget s.mem x) ∧
        ∀ t, s.has b.blk t = true → (s'.thread b.blk t).preds = (s.thread b.blk t).preds)

/-- R165, R238-R241: WRQ of a confirmed block with legal operands reads its payload, after the acquires before it, and leaves;
when it ends the thread's predicate and WRQSTAT tell the outcome: 0 written, 1 full, 3 bad queue. With 0 the payload stands at
its pages, the descriptor's 16 bytes hold ADDR, LEN, SRC and SEQ, and TAIL is one more. -/
def Obligations.QueueWrites : Prop :=
  (∀ (s : State) (bid : Nat) (b : Bundle) (r : RX), Issues s (.wrq r) bid b → (s.block b.blk).unconfirmed = false →
    let k := s.block b.blk
    let n := 16 * r.e.toNat
    let data (t : Nat) := ((s.stood b t).rd64 r.a.toNat).toNat
    let pay (t : Nat) := ((s.stood b t).rd r.b.toNat).toNat
    let hdr (t : Nat) := ((s.stood b t).rd64 r.c.toNat).toNat
    (∀ t ∈ s.executing (.wrq r) b, (s.core b.core).barred b.blk t s.seq false = false) →
    (∀ t ∈ s.executing (.wrq r) b, s.has b.blk t = true ∧ data t % 16 = 0 ∧ pay t % 16 = 0 ∧ hdr t % 32 = 0 ∧
      pay t + n ≤ k.cfg.allot ∧ ∀ e ∈ k.tiles, e.2.st = .filling → e.2.overlaps (pay t) n = false) →
    ∃ s', exec (.wrq r) s = .next s' ∧ SameBut { s with seq := s.seq + 1 } s' b.blk ∧
      (∀ t, s.has b.blk t = true → s'.thread b.blk t =
        if t ∈ s.executing (.wrq r) b then (s.stood b t).sent (s.ends (.wrq r) b) [] [r.d.toNat] (hdrSetSb b.hdr)
        else if t ∈ b.tids then s.stood b t else s.thread b.blk t) ∧
      ∀ t ∈ s.executing (.wrq r) b, ∃ j due, tget s'.jobs j = some ⟨dieOf b.core, due, .wrq b.blk t r.d.toNat
        (mbytes k.scratch (pay t) n) (data t) (hdr t) s.seq (r.flags.getLsbD 0) (hdrSetSb b.hdr) none⟩) ∧
  ∀ (s s2 : State) (j d due u t dest addr hdr seq : Nat) (data : List Byte) (sys : Bool) (sb : Option Nat) (w : WrqPages),
    tget s.jobs j = some ⟨d, due, .wrq u t dest data addr hdr seq sys sb none⟩ → due ≤ s.now d → s.has u t = true →
    s.fenceOver u (s.block u).core t true (if sys then 5 else 4) seq = true → s.wrqFirst u t hdr due = true →
    s.wrqPages u d addr data.length hdr = (s2, .ok w) →
    s.canTouch w.first (min (4096 - addr % 4096) data.length) = true →
    (4096 - addr % 4096 < data.length → s.canTouch w.second (data.length - (4096 - addr % 4096)) = true) →
    s.canTouch w.header 32 = true → (∀ p, w.desc = some p → s.canTouch p 16 = true) → dest < 7 →
    Leaves s (.wrqComplete j) fun s' =>
      let code := if w.desc = none then 3 else if w.qsize ≤ (w.tail + 2 ^ 32 - w.head) % 2 ^ 32 then 1 else 0
      (s'.thread u t).rdP dest = decide (code = 0) ∧ (s'.thread u t).wrqstat = BitVec.ofNat 32 code ∧
      s'.jobs = tdel s2.jobs j ∧ dest ∉ (s'.thread u t).ppend ∧
      (code = 3 → s'.mem = s2.mem) ∧
      (w.header % 32 = 0 → w.header < 2 ^ 40 → code = 0 → s'.view (w.header + 12) 4 = (w.tail + 1) % 2 ^ 32) ∧
      (∀ p, w.desc = some p → code = 0 →
        let at_ (a : Nat) (l : List Byte) : List (Nat × Byte) := l.mapIdx fun i x => (a + i, x)
        let k := 4096 - addr % 4096
        let written := at_ w.first (data.take k) ++ at_ w.second (data.drop k) ++
          at_ p (leBytes 8 addr ++ leBytes 2 data.length ++ leBytes 2 (256 * d + (s.block u).core % 96) ++ leBytes 4 w.tail) ++
          at_ (w.header + 12) (leBytes 4 (w.tail + 1))
        (written.map (·.1)).Nodup → (∀ e ∈ written, e.1 < 2 ^ 40) →
        ((dedupN (written.map fun e => e.1 / 128)).map fun l => s2.cell (128 * l)).Nodup →
        ∀ e ∈ written, s'.view e.1 1 = e.2.toNat) ∧
      (w.header % 32 = 0 → w.header < 2 ^ 40 → code = 1 → s'.view (w.header + 20) 4 = (w.drops + 1) % 2 ^ 32)

/-- R224, R247, R262-R264: a load that its own core cannot serve, and before which no WRQ of its thread may still write the
line: from a readable line of the die's L2 it is performed with
the line's bytes and returns once the thread's earlier loads are; a line of the module that the die does not hold is asked
for once. -/
def Obligations.LoadRequests : Prop :=
  ∀ (s : State) (core n : Nat) (l : Load), (s.core core).loads[n]? = some l → l.value = none → l.watch = false →
    (s.core core).loadWaits l = false → s.wrqBars l.blk l.tid l.seq l.line = false → (s.core core).hit l = none →
    (s.core core).ahead l.line = false →
    tget (s.core core).l1 l.line = none → inHbm l.line = true → (s.block l.blk).run.held = [] →
    (∀ (k : Nat) (x : Load), (s.core core).loads[k]? = some x → k ≠ n → x.seq ≠ l.seq ∨ x.tid ≠ l.tid) →
    (∀ x st, s.l2 (dieOf core) l.line = some x → x.st = some st → (st = .S ∨ st = .E ∨ st = .M ∨ st = .O) →
      (∀ y ∈ (s.core core).loads, y.blk = l.blk → y.tid = l.tid → l.seq ≤ y.seq) →
      Leaves s (.translationRequest core n) fun s' =>
        let v := lineVal (lineOver (lineOver x.data x.loc) ((s.core core).ownBytes l)) l.off l.size.bytes
        (∃ lo hi, s'.hasResult (dieOf core) lo hi l.blk l.tid { regs := loadWrites l.dest l.size v } l.sb) ∧
        (∀ y ∈ (s'.core core).loads, y.seq ≠ l.seq ∨ y.tid ≠ l.tid) ∧ s'.mem = s.mem) ∧
    (s.l2 (dieOf core) l.line = none → Leaves s (.translationRequest core n) fun s' =>
      (s'.homeOf l.line).queue = (s.homeOf l.line).queue ++ [(dieOf core, .getS)] ∧ s'.jobs = s.jobs ∧ s'.mem = s.mem)

/-- R117: POPC, CLZ and BREV have opcodes 0x30-0x32, SUB 0, MOD 0x40 and B = C = 0xFF; they write the number of one bits,
the number of zero bits above the highest one bit (32 for a zero input), and vA with bit i moved to bit 31 - i. -/
def Obligations.BitCounts : Prop :=
  (∀ r : RR, ∀ e ∈ [(Instr.popc r, (0x30 : BitVec 8)), (Instr.clz r, 0x31), (Instr.brev r, 0x32)],
    e.1.wf = true → ∃ w, encode e.1 = some w ∧ fld w 56 8 = e.2 ∧ fld w 28 8 = 0xFF ∧ fld w 20 8 = 0xFF ∧ fld w 8 6 = 0 ∧
      fld w 0 8 = 0x40 ∧ fld w 44 8 = r.d ∧ fld w 36 8 = r.a ∧ decode w = .ok e.1) ∧
  ∀ (s : State) (bid : Nat) (b : Bundle) (r : RR),
    (Issues s (.popc r) bid b → Writes s (.popc r) b fun _ h =>
      { regs := [(r.d.toNat, BitVec.ofNat 32 ((List.range 32).countP fun k => (h.rd r.a.toNat).getLsbD k))] }) ∧
    (∃ v : Word → Nat, v 0 = 32 ∧ (∀ x, (∀ k, 32 - v x ≤ k → x.getLsbD k = false) ∧
        (x ≠ 0 → v x < 32 ∧ x.getLsbD (31 - v x) = true)) ∧
      (Issues s (.clz r) bid b → Writes s (.clz r) b fun _ h =>
        { regs := [(r.d.toNat, BitVec.ofNat 32 (v (h.rd r.a.toNat)))] })) ∧
    ∃ v : Word → Word, (∀ x k, k < 32 → (v x).getLsbD (31 - k) = x.getLsbD k) ∧
      (Issues s (.brev r) bid b → Writes s (.brev r) b fun _ h => { regs := [(r.d.toNat, v (h.rd r.a.toNat))] })

/-- R222, R235, R245-R249, R267: a store at its slice, which has room: on an owned line its bytes are in the line, every L1 of
the sharer vector but one in U and the writer's own is sent them and every armed watch of the die fires; on a line that the
die does not hold they are kept locally and the home is asked. A contribution is combined into the L1's partial. An update is
applied and acknowledged; an L1 that drops a line flushes its partial into the die's. -/
def Sys2Proof.Claims.SliceStores : Prop :=
  (∀ (s : State) (core n : Nat) (e : Entry) (parts : List (Nat × LineBytes)) (masked : Bool),
    let d := dieOf core
    (s.core core).entry? n = some e → s.entryReady core e = true → e.kind = .store parts masked →
    inHbm e.line = true → (∀ x, tget (s.core core).l1 e.line = some x → x.tag = none) → core < 864 →
    (s.sliceLoad d e.line).1 < 49152 → (s.sliceLoad d e.line).2 + 2 ≤ 49152 →
    let sent (s' : State) := s'.mem = s.mem ∧
      (∀ c, (c = core ∨ ∃ l, s.l2 d e.line = some l ∧ c ∈ l.sharers ∧
          ∀ x, tget (s.core c).l1 e.line = some x → x.tag = none) →
        ∃ p ∈ (s'.core c).upds, p.line = e.line ∧ p.bytes = storeBytes parts ∧ p.core = core ∧ p.seq = n) ∧
      ∀ u t w, s.has u t = true → dieOf (s.block u).core = d → (s.thread u t).watch = some w → w.line = e.line →
        w.fired = none →
        ((s.thread u t).atWatch = false → (s'.thread u t).watch = some { w with fired := some true }) ∧
        ∀ r, (s.thread u t).st = .waiting (.watch r) → (s'.thread u t).st = .ready ∧ (s'.thread u t).rd r = 0 ∧
          (s'.thread u t).watch = none
    (∀ l, s.l2 d e.line = some l → (l.st = some .E ∨ l.st = some .M) → Leaves s (.sliceStore core n) fun s' =>
      s'.l2 d e.line = some { l with st := some .M, data := lineOver l.data (storeBytes parts) } ∧ sent s') ∧
    (s.l2 d e.line = none → ¬ (e.release = true ∧ 4 ≤ e.scope) → Leaves s (.sliceStore core n) fun s' =>
      (∃ l, s'.l2 d e.line = some l ∧ l.st = none ∧ l.loc = lineOver [] (storeBytes parts) ∧ l.asked = true) ∧
      (s'.homeOf e.line).queue = (s.homeOf e.line).queue ++ [(d, if masked then .getW else .getM)] ∧ sent s')) ∧
  (∀ (s : State) (core n : Nat) (e : Entry) (t : Tag) (ops : List (Nat × Nat × Nat)) (l : L2Line),
    (s.core core).entry? n = some e → s.entryReady core e = true → e.kind = .red t ops → inHbm e.line = true →
    t.op ≠ .addx → s.l2 (dieOf core) e.line = some l → l.st = some .U → l.tag = some t → l.loc = [] →
    tget (s.core core).l1 e.line = none →
    ((s.core core).l1.filter fun x => x.1 != e.line && Config.l1Set x.1 % 128 == Config.l1Set e.line % 128).length < 8 →
    Leaves s (.sliceStore core n) fun s' =>
      tget (s'.core core).l1 e.line = some { vline := tgetD e.vas (e.tids.headD 0) 0 / 128, cid := (s.ctxOf e.blk).cid,
                                             tag := some t, part := redAdd t [] ops } ∧ s'.mem = s.mem ∧ s'.hbm = s.hbm ∧
      ∃ sh, s'.l2 (dieOf core) e.line = some { l with sharers := sh } ∧ core ∈ sh ∧ ∀ c, c ≠ core → (c ∈ sh ↔ c ∈ l.sharers)) ∧
  (∀ (s : State) (core line : Nat) (x : L1Line), tget (s.core core).l1 line = some x →
    Leaves s (.l1Invalidate core line) fun s' => tget (s'.core core).l1 line = none ∧ s'.mem = s.mem ∧
      (x.tag = none → s'.dmem = s.dmem) ∧
      ∀ t l, x.tag = some t → s.l2 (dieOf core) line = some l →
        s'.l2 (dieOf core) line = some { l with part := partMerge t l.part x.part }) ∧
  ∀ (s : State) (core : Nat) (p : Update) (q : List Update) (x : L1Line), (s.core core).upds = p :: q → p.core ≠ core →
    tget (s.core core).l1 p.line = some x → x.tag = none → Leaves s (.writeUpdate core) fun s' =>
      tget (s'.core core).l1 p.line =
        some { x with data := lineOver x.data (p.bytes.filter fun e => (tget x.data e.1).isSome) } ∧
      (s'.core core).upds = q ∧ (∀ e ∈ (s'.core p.core).fifo, e.seq = p.seq → core ∉ e.acks) ∧ s'.mem = s.mem

/-- R229, R245, R248, R260: ATOMs of an entry on an owned line are performed at the slice one after another in the order of
the entry, each on what the one before has left: the line holds the last outcome, each operation keeps what it found, and
every L1 of the sharer vector but one in U and the writer's own is sent the words. With the last acknowledgement the entry is
performed, and the old values are on their way to the destinations. -/
def Sys2Proof.Claims.AtomsAtSlice : Prop :=
  (∀ (s : State) (core n : Nat) (e : Entry) (ops : List AtomOp) (l : L2Line) (f : Nat → LineBytes),
    let d := dieOf core
    (s.core core).entry? n = some e → s.entryReady core e = true → e.kind = .atoms ops → inHbm e.line = true → core < 864 →
    (∀ x, tget (s.core core).l1 e.line = some x → x.tag = none) →
    s.l2 d e.line = some l → (l.st = some .E ∨ l.st = some .M) → l.loc = [] →
    (s.sliceLoad d e.line).1 < 49152 → (s.sliceLoad d e.line).2 + 2 ≤ 49152 →
    f 0 = l.data → (∀ (j : Nat) (o : AtomOp), ops[j]? = some o →
      f (j + 1) = lineOver (f j) (lineOf o.off o.size (o.new (lineVal (f j) o.off o.size)))) →
    Leaves s (.sliceStore core n) fun s' =>
      s'.l2 d e.line = some { l with st := some .M, data := f ops.length } ∧ s'.mem = s.mem ∧
      (∃ x ops', (s'.core core).entry? n = some x ∧ x.st = .applied ∧ x.kind = .atoms ops' ∧ ops'.length = ops.length ∧
        ∀ (j : Nat) (o : AtomOp), ops[j]? = some o → ops'[j]? = some { o with old := lineVal (f j) o.off o.size }) ∧
      ∀ c, (c = core ∨ (c ∈ l.sharers ∧ ∀ x, tget (s.core c).l1 e.line = some x → x.tag = none)) →
        ∃ p ∈ (s'.core c).upds, p.line = e.line ∧ p.core = core ∧ p.seq = n ∧
        ∀ k, tget p.bytes k = if ∃ o ∈ ops, o.off ≤ k ∧ k < o.off + o.size then tget (f ops.length) k else none) ∧
  (∀ (s : State) (core n : Nat) (e : Entry) (ops : List AtomOp) (q : List Update) (p : Update), p.core = core → p.seq = n →
    (s.core core).upds = p :: q → (s.core core).entry? n = some e → e.kind = .atoms ops → e.acks = [core] →
    (∀ x ∈ (s.core core).fifo, x.seq = n → x = e) →
    Leaves s (.writeUpdate core) fun s' => (∀ x ∈ (s'.core core).fifo, x.seq = n → x.st = .performed) ∧
      (∀ o ∈ ops, ∀ r, o.dest = some r → ∃ lo hi, s'.hasResult (dieOf core) lo hi e.blk o.tid
        { regs := (List.range (o.size / 4)).map fun i => (r + i, BitVec.ofNat 32 (o.old / 2 ^ (32 * i))) } e.sb) ∧
      s'.mem = s.mem) ∧
  ∀ (o : AtomOp) (old : Nat), o.op ≠ .addx → o.new old = opVal o.op o.size old o.opnd o.cmp

/-- R230-R232, R245, R255: a contribution starts a partial at the operator's identity or is combined into it, with the partial
as left operand; under ADDX it is truncated to the window's grid and added, and the read rule rounds the sum once. A merge
applies the partials of the dies in ascending order over the memory value, and leaves every element that no partial touches
as it was. -/
def Sys2Proof.Claims.PartialSums : Prop :=
  (∀ (t : Tag) (p x : Nat), t.op ≠ .addx →
    eltAdd t none x = .val (opVal t.op t.size (identOf t.op t.size) x 0) ∧
    eltAdd t (some (.val p)) x = .val (opVal t.op t.size p x 0) ∧ eltRead t p (.val x) = opVal t.op t.size p x 0) ∧
  (∀ (t : Tag) (x : Nat) (a : Int) (n p i : Bool), t.op = .addx → t.wide = false →
    let v := f32.value x
    let m : ℤ := ⌊|v.real| * (2 : ℚ) ^ (64 - t.win.toInt)⌋
    let q : ℤ := if v.real < 0 then -m else m
    let old : Elt := .addx a false n p i
    (v.finite = true → m < 2 ^ 95 → |a + q| ≤ 2 ^ 127 - 1 → eltAdd t (some old) x = .addx (a + q) false n p i) ∧
    (v.finite = true → 2 ^ 95 ≤ m → |a| < 2 ^ 126 →
      eltAdd t (some old) x = .addx (a + (if v.real < 0 then -(2 ^ 95 - 1) else 2 ^ 95 - 1)) true n p i) ∧
    (|a| ≤ 2 ^ 127 - 1 → (v = .nan → eltAdd t (some old) x = .addx a false true p i) ∧
      (v = .inf false → eltAdd t (some old) x = .addx a false n true i) ∧
      (v = .inf true → eltAdd t (some old) x = .addx a false n p true))) ∧
  (∀ (t : Tag) (a : Int) (sat n p i : Bool),
    let r := eltOut t (.addx a sat n p i)
    let v : ℚ := a * (2 : ℚ) ^ (t.win.toInt - 64)
    ((n = true ∨ sat = true ∨ (p = true ∧ i = true)) → r = 0x7FC00000) ∧
    (n = false → sat = false → (p = true → i = false → r = 0x7F800000) ∧ (i = true → p = false → r = 0xFF800000) ∧
      (p = false → i = false → (a = 0 → r = 0) ∧ (a ≠ 0 → Rounded f32 .rne v r)))) ∧
  ∀ (t : Tag) (x : LineBytes) (ps : List Partial) (k : Nat), (∀ p ∈ ps, (p.map (·.1)).Nodup) → (k + 1) * t.size ≤ 128 →
    let here := ps.filterMap fun p => tget p k
    let old := lineVal x (k * t.size) t.size
    let new := lineVal (mergeParts t x ps) (k * t.size) t.size
    (here = [] → ∀ j, k * t.size ≤ j → j < (k + 1) * t.size → tget (mergeParts t x ps) j = tget x j) ∧
    (t.op ≠ .addx → new = here.foldl (fun v p => eltRead t v p % 2 ^ (8 * t.size)) old) ∧
    (t.op = .addx → here ≠ [] → new = eltOut t (here.foldl (eltMerge t) (addxOf t.e old)) % 2 ^ (8 * t.size))

/-- R269: a narrow release with earlier stores of the die not yet performed notes itself at its home, or becomes a DEV
release where the log is full; the home asks the noted die once the requests before the note are served, and the die's reply, when
everything before the release but what stands in the queue of its own line is performed, takes those notes from the log; notes
that still stand behind requests are left for later (log 90). -/
def Sys2Proof.Claims.ReleaseNotes : Prop :=
  (∀ (s : State) (core n : Nat) (e : Entry), (s.core core).entry? n = some e → e.st = .queued →
    s.needsNote core e = true → inHbm e.line = true →
    let k := s.stackOf e.line
    ((s.core core).entryFree e = true → (s.stack k).log.length < 256 → Leaves s (.releaseNote core n) fun s' =>
      (s'.stack k).log = (s.stack k).log ++
        [⟨e.line, dieOf core, s.seq, (s.homeOf e.line).queue.length⟩] ∧
      (∀ x ∈ (s'.core core).fifo, x.seq = n → x.st = .noted) ∧ s'.mem = s.mem) ∧
    (256 ≤ (s.stack k).log.length → Leaves s (.publishNow core n) fun s' =>
      (∀ x ∈ (s'.core core).fifo, x.seq = n → x.release = true ∧ 4 ≤ x.scope) ∧ s'.hbm = s.hbm ∧ s'.mem = s.mem)) ∧
  ∀ (s : State) (line : Nat),
    let k := s.stackOf line
    (∀ n, (s.stack k).log.find? (fun n => n.line == line && n.ahead == 0) = some n → ⟨n.die, line, .publish⟩ ∉ s.msgs →
      s.stopped line = false →
      Leaves s (.publishRequest line) fun s' => s'.msgs = s.msgs ++ [⟨n.die, line, .publish⟩] ∧ s'.hbm = s.hbm) ∧
    ∀ d, ⟨d, line, .publish⟩ ∈ s.msgs →
      (∀ n ∈ (s.stack k).log, n.line = line → n.die = d → n.ahead = 0 → s.published d line n.pos = true) →
      Leaves s (.publishReply d line) fun s' => s'.msgs = s.msgs.erase ⟨d, line, .publish⟩ ∧
        (∀ n, n ∈ (s'.stack k).log ↔ n ∈ (s.stack k).log ∧ ¬ (n.line = line ∧ n.die = d ∧ n.ahead = 0)) ∧ s'.mem = s.mem

/-- Stores and ATOMs at their slice, partial sums, L1 upkeep, release notes and publication. -/
def Obligations.SlicesAndNotes : Prop :=
  Sys2Proof.Claims.SliceStores ∧ Sys2Proof.Claims.AtomsAtSlice ∧ Sys2Proof.Claims.PartialSums ∧
  Sys2Proof.Claims.ReleaseNotes

/-- R250, R251, R259: the request at the head of a line's queue starts: the messages to the dies are those of the table, and
without any the die is granted at once, here from I and S; before a share is given, a half that the outside host may have
modified is asked for. -/
def Sys2Proof.Claims.HomeRequests : Prop :=
  ∀ (s : State) (line x : Nat) (r : Req) (q : List (Nat × Req)),
    let h := s.homeOf line
    let k := s.stack (s.stackOf line)
    h.queue = (x, r) :: q → h.txn = none → k.qack = false → k.qreq = false → s.noteFor line x = false →
    k.kept.length + 1 < 65536 →
    let holds (d : Nat) := d < 9 ∧ h.dies.getLsbD d = true
    let owned := h.st = .E ∨ h.st = .O
    let called (out : Nat → MsgKind → Prop) (s' : State) := ∃ cs : List (Nat × MsgKind), (∀ d m, (d, m) ∈ cs ↔ out d m) ∧
      s'.msgs = s.msgs ++ cs.map (fun c => ⟨c.1, line, c.2⟩) ∧
      s'.homeOf line = { h with queue := q, txn := some { die := x, req := r, wait := cs.map (·.1) } } ∧
      s'.mem = s.mem ∧ s'.dmem = s.dmem
    let fresh := h.st = .I ∧ h.host = 0 ∧ h.devs = 0
    let granted (h' : Home) (m : MsgKind) (s' : State) := s'.homeOf line = { h' with queue := q, txn := none } ∧
      s'.msgs = s.msgs ++ [⟨x, line, m⟩] ∧ s'.mem = s.mem ∧ s'.dmem = s.dmem
    let owner (s' : State) := granted { h with st := .E, dies := 0, owner := x, ver := h.ver + 1, tag := none }
      (.grant .E (h.ver + 1) none (s.viewLine line)) s'
    let shareOut (d : Nat) (m : MsgKind) := (owned ∧ d = h.owner ∧ d ≠ x ∧ m = .fwdShare) ∨
      ((h.st = .W ∨ h.st = .U) ∧ holds d ∧ m = .recall)
    let ownOut (d : Nat) (m : MsgKind) := (h.st = .S ∧ holds d ∧ d ≠ x ∧ m = .inval) ∨
      (owned ∧ holds d ∧ d ≠ x ∧ d ≠ h.owner ∧ m = .inval) ∨ (owned ∧ d = h.owner ∧ d ≠ x ∧ m = .fwdOwn) ∨
      ((h.st = .W ∨ h.st = .U) ∧ holds d ∧ m = .recall)
    let maskOut (d : Nat) (m : MsgKind) := (h.st = .S ∧ holds d ∧ m = .inval) ∨
      (owned ∧ holds d ∧ d ≠ h.owner ∧ m = .inval) ∨ (owned ∧ d = h.owner ∧ m = .recall) ∨ (h.st = .U ∧ holds d ∧ m = .recall)
    let updOut (t : Tag) (d : Nat) (m : MsgKind) := (h.st = .S ∧ holds d ∧ m = .inval) ∨
      (owned ∧ holds d ∧ d ≠ h.owner ∧ m = .inval) ∨ (owned ∧ d = h.owner ∧ m = .recall) ∨
      (h.st = .W ∧ holds d ∧ m = .recall) ∨ (h.st = .U ∧ h.tag ≠ some t ∧ holds d ∧ m = .recall)
    (r = .getS → ((∃ d m, shareOut d m) → Leaves s (.gets line) (called shareOut)) ∧
      (fresh → Leaves s (.gets line) owner) ∧
      (h.st = .S → (fld h.host 0 2).toNat ≠ 2 → (fld h.host 2 2).toNat ≠ 2 → Leaves s (.gets line)
        (granted { h with dies := h.dies ||| dieBit x } (.grant .S h.ver h.tag (s.viewLine line)))) ∧
      (h.st = .S → ∀ k < 2, (fld h.host (2 * k) 2).toNat = 2 → Leaves s (.gets line) fun s' =>
        Out.cxl (s.hostPort.getD 0) line k 4 none ∈ s'.out ∧ fld (s'.homeOf line).host (2 * k) 2 = 1)) ∧
    (r = .getM → ((∃ d m, ownOut d m) → Leaves s (.getm line) (called ownOut)) ∧ (fresh → Leaves s (.getm line) owner)) ∧
    (r = .getW → ((∃ d m, maskOut d m) → Leaves s (.getw line) (called maskOut)) ∧
      (fresh → Leaves s (.getw line)
        (granted { h with st := .W, dies := dieBit x, tag := none, ver := h.ver + 1, entered := k.entered }
          (.grant .W (h.ver + 1) none [])))) ∧
    ∀ t, r = .getU t → ((∃ d m, updOut t d m) → Leaves s (.getu line) (called (updOut t))) ∧
      (fresh → Leaves s (.getu line)
        (granted { h with st := .U, dies := dieBit x, tag := some t, ver := h.ver + 1, entered := k.entered }
          (.grant .U (h.ver + 1) (some t) [])))

/-- R247, R251, R267: the dies' answers. A forward-share keeps the line as S or O; a forward-own, an invalidation and a recall
take it from the die and its L1s; the last answer ends the transaction, with the grant to the die that asked: it brings the
bytes of the owner that shares or hands over the line. A recalled owner or W partial is in memory; the recall of a U line ends
with the merge of every die's partial. A message of a home to a die about a line is taken once those before it are (log 79).
-/
def Sys2Proof.Claims.DieAnswers : Prop :=
  ∀ (s : State) (d line : Nat) (t : Txn), (s.homeOf line).txn = some t →
    let next (m : MsgKind) := s.msgs.find? (fun x => x.die == d && x.line == line && x.kind != .publish) = some ⟨d, line, m⟩
    let after (s' : State) := (t.wait.erase d ≠ [] → ∃ p x, (s'.homeOf line).txn =
        some { t with wait := t.wait.erase d, parts := p, data := x }) ∧
      (t.wait.erase d = [] → (s'.homeOf line).txn = none ∧
        (t.req ≠ .merge → ∃ st ver tag data, ⟨t.die, line, .grant st ver tag data⟩ ∈ s'.msgs))
    let gone (s' : State) := after s' ∧ (s'.l2 d line).bind (·.st) = none ∧
      ((s.l2 d line).bind (·.st) ≠ none → ∀ c ∈ coresOf d, tget (s'.core c).l1 line = none)
    let last := t.wait.erase d = [] ∧ t.data = none ∧ inHbm line = true ∧ (s.homeOf line).host = 0 ∧
      (s.homeOf line).devs = 0 ∧ d < 9
    let grants (s' : State) (st : LState) (b : Nat → Option Byte) := ∃ ver tag data,
      ⟨t.die, line, .grant st ver tag data⟩ ∈ s'.msgs ∧ ∀ j < 128, ∀ v, b j = some v → tget data j = some v
    (∀ l, next .fwdShare → last → t.req = .getS → (s.homeOf line).st = .E ∨ (s.homeOf line).st = .O →
      (s.homeOf line).owner = d → t.die ≠ d → s.l2 d line = some l → (l.st = some .M ∨ l.st = some .O) →
      (∀ e x, e ≠ d → s.l2 e line = some x → x.owns = false) → (l.data.map (·.1)).Nodup →
      Leaves s (.forwardShare d line) fun s' => grants s' .S (tget l.data) ∧ (s'.homeOf line).st = .O ∧ s'.mem = s.mem) ∧
    (∀ l, next .fwdOwn → last → t.req = .getM → (s.homeOf line).st ≠ .U → s.l2 d line = some l →
      (l.st = some .E ∨ l.st = some .M ∨ l.st = some .O) →
      Leaves s (.forwardOwn d line) fun s' => s'.mem = s.mem ∧ (s'.homeOf line).st = .E ∧ (s'.homeOf line).owner = t.die ∧
        grants s' (if l.st = some .E then .E else .M) (tget l.data)) ∧
    (∀ l, next .recall → inHbm line = true → (s.homeOf line).host = 0 → (s.homeOf line).st ≠ .U →
      s.l2 d line = some l → (l.st = some .M ∨ l.st = some .O ∨ l.st = some .W) →
      Leaves s (.recall d line) fun s' => s'.mem = memPutLine s.mem (s.cell (line * 128)) l.data) ∧
    (∀ l g, next .recall → last → t.req.asks = true → t.req.isGetU ≠ some g → (s.homeOf line).st = .U →
      (s.homeOf line).tag = some g → s.l2 d line = some l → l.st = some .U → l.tag = some g → tget t.parts d = none →
      (∀ c ∈ coresOf d, tget (s.core c).l1 line = none) →
      Leaves s (.recall d line) fun s' => s'.mem = memPutLine s.mem (s.cell (line * 128)) (mergeParts g
          (memLine s.mem (s.cell (line * 128))) ((List.range 9).map fun e => partMerge g (tgetD (s.homeOf line).parts e [])
            (if e = d then l.part else tgetD t.parts e []))) ∧
        (s'.homeOf line).st = (match t.req with
          | .getW => .W
          | .getU _ => .U
          | _ => .E)) ∧
    (next .fwdShare → Leaves s (.forwardShare d line) fun s' => after s' ∧
      ∀ l, s.l2 d line = some l → s'.l2 d line = some { l with st := match l.st with
        | some .E => some .S
        | some .M => some .O
        | st => st }) ∧
    (next .fwdOwn → Leaves s (.forwardOwn d line) gone) ∧ (next .inval → Leaves s (.invalidate d line) gone) ∧
    (next .recall → Leaves s (.recall d line) gone)

/-- R247, R251, R267: a grant of S, E or M reaches a die whose slice has room for the line: its bytes are installed, and over
them, once the die owns the line, stand those that were performed locally. -/
def Sys2Proof.Claims.GrantsInstalled : Prop :=
  ∀ (s : State) (d line : Nat) (st : LState) (ver : BitVec 16) (tag : Option Tag) (data : LineBytes),
    s.msgs.find? (fun m => m.die == d && m.line == line && m.kind != .publish) = some ⟨d, line, .grant st ver tag data⟩ →
    (s.sliceLoad d line).1 < 49152 → (s.sliceLoad d line).2 + 2 ≤ 49152 →
    let l := (s.l2 d line).getD {}
    (st = .S → l.loc = [] → Leaves s (.grant d line) fun s' => ∃ l', s'.l2 d line = some l' ∧ l'.st = some .S ∧
      l'.data = data ∧ l'.asked = false ∧ l'.ver = ver ∧ s'.mem = s.mem) ∧
    (st = .E ∨ st = .M → Leaves s (.grant d line) fun s' => ∃ l', s'.l2 d line = some l' ∧ l'.asked = false ∧ l'.ver = ver ∧
      (l.loc = [] → l'.data = data ∧ l'.st = some (if st = .M ∨ l.st = some .M ∨ l.st = some .O then .M else .E)) ∧
      (l.loc ≠ [] → l'.data = lineOver data l.loc ∧ l'.st = some .M ∧ l'.loc = []) ∧ s'.mem = s.mem)

/-- R218, R247, R251-R253: evictions leave the die, of a line that is not retained and for which no request is out; for a W or
U line the slice asks the home, for a W line also where it is retained, and the line stays until the home takes it. The home
accepts a write-back of data only from the recorded owner at the current version, applies a W partial whole, and records a
clean eviction in S and E, which in the other states has no effect; an acknowledgement frees the write-back buffer. -/
def Sys2Proof.Claims.Evictions : Prop :=
  ∀ (s : State) (d line : Nat), inHbm line = true →
    let h := s.homeOf line
    let k := s.stack (s.stackOf line)
    let idle := h.txn = none ∧ k.qack = false ∧ k.qreq = false
    let may := s.mayEvict d line = true
    let rest (q : List (Nat × Req)) (s' : State) := (s'.homeOf line).queue = q ∧ (s'.homeOf line).txn = none
    (∀ l, may → h.queue = [] → s.l2 d line = some l → l.asked = false → (l.st = some .M ∨ l.st = some .O) →
      Leaves s (.writeBackData d line) fun s' => (s'.l2 d line).bind (·.st) = none ∧
        (s'.dm d).wb = (s.dm d).wb ++ [⟨line, l.ver, l.data, true⟩] ∧
        (s'.homeOf line).queue = [(d, .wbData l.ver l.data)] ∧ s'.mem = s.mem) ∧
    (∀ l, (may ∨ l.st = some .W) → h.queue = [] → s.l2 d line = some l → (l.st = some .W ∨ l.st = some .U) →
      Leaves s (.writeBackPartial d line) fun s' => s'.dmem = s.dmem ∧
        (s'.homeOf line).queue = [(d, if l.st = some .W then .wbPart else .merge)] ∧ s'.mem = s.mem) ∧
    (∀ l, may → h.queue = [] → s.l2 d line = some l → l.asked = false → (l.st = some .S ∨ l.st = some .E) →
      Leaves s (.cleanEviction d line) fun s' => (s'.l2 d line).bind (·.st) = none ∧
        (s'.homeOf line).queue = [(d, .clean)] ∧ s'.mem = s.mem) ∧
    (∀ q ver data, idle → h.queue = (d, .wbData ver data) :: q → Leaves s (.writeBackData d line) fun s' =>
      let ok := (h.st = .E ∨ h.st = .O) ∧ h.owner = d ∧ h.ver = ver
      rest q s' ∧ s'.msgs = s.msgs ++ [⟨d, line, .wbAck ver⟩] ∧
      (¬ ok → s'.mem = s.mem ∧ (s'.homeOf line).st = h.st) ∧
      (ok → s'.mem = memPutLine s.mem (s.cell (line * 128)) data ∧
        (s'.homeOf line).st = if h.st = .O ∧ h.dies ≠ 0 then .S else .I)) ∧
    (∀ q, idle → h.queue = (d, .wbPart) :: q → h.st = .W → Leaves s (.writeBackPartial d line) fun s' =>
      rest q s' ∧ (s'.l2 d line).bind (·.st) ≠ some .W ∧
      (∀ l, s.l2 d line = some l → l.st = some .W → s'.mem = memPutLine s.mem (s.cell (line * 128)) l.data) ∧
      ((s.l2 d line).bind (·.st) ≠ some .W → s'.mem = s.mem) ∧
      (s'.homeOf line).dies = h.dies &&& ~~~(dieBit d) ∧
      (s'.homeOf line).st = if h.dies &&& ~~~(dieBit d) = 0 then .I else .W) ∧
    (∀ q, idle → h.queue = (d, .clean) :: q → Leaves s (.cleanEviction d line) fun s' => rest q s' ∧ s'.mem = s.mem ∧
      (h.st = .S → (s'.homeOf line).dies = h.dies &&& ~~~(dieBit d) ∧
        (s'.homeOf line).st = if h.dies &&& ~~~(dieBit d) = 0 then .I else .S) ∧
      (h.st = .E → (s'.homeOf line).st = if h.owner = d then .I else .E) ∧
      (h.st ≠ .S → h.st ≠ .E → s'.homeOf line = { h with queue := q })) ∧
    ∀ ver, s.msgs.find? (fun m => m.die == d && m.line == line && m.kind != .publish) = some ⟨d, line, .wbAck ver⟩ →
      Leaves s (.writeBackAck d line) fun s' =>
      (∀ w, w ∈ (s'.dm d).wb ↔ w ∈ (s.dm d).wb ∧ ¬ (w.line = line ∧ w.ver = ver)) ∧ s'.mem = s.mem

/-- Requests at the homes, what dies answer, grants and evictions. -/
def Obligations.HomesAndDies : Prop :=
  Sys2Proof.Claims.HomeRequests ∧ Sys2Proof.Claims.DieAnswers ∧ Sys2Proof.Claims.GrantsInstalled ∧
  Sys2Proof.Claims.Evictions

/-! ## Engines -/

/-- R278-R284, R295, R296, R302: TCOPY, BCOPY, GATH, GATH.TILE and SCAT by the whole live cohort, confirmed where the command
may store, with its earlier accesses performed, a legal parameter block and operands, a tile that is not moving, room in its
queue and no range lock in the way: in the machine that reading the block leaves (R351), the command enters the queue with the
bytes of its block and its indices, its ranges are locked, its tile is FILLING or DRAINING, and every executing thread
receives the block's next command number. -/
def Sys2Proof.Claims.EngineIssue : Prop :=
  ∀ (s s1 : State) (bid : Nat) (b : Bundle) (r : RX) (t m0 pa : Nat) (rd : Bool),
    let d := dieOf b.core
    let k := s.block b.blk
    let e := r.e.toNat
    let read := s1.settle (some d) pa 64
    let z := if inHbm (pa / 128) then read else read.drawn.drawn
    let tile := (z.block b.blk).tile e
    let a := ((s.stood b t).rd64 r.a.toNat).toNat
    let cmd (i : Instr) (op : EngOp) : EngCmd :=
      { op := op, blk := b.blk, seq := (k.run.seq + 1) % 2 ^ 32, tids := s.executing i b, tile := e,
        params := (List.range 64).map fun j => tgetD (read.dieView d b.blk (pa / 128)) (pa % 128 + j) 0 }
    let may (i : Instr) (op : EngOp) : Prop :=
      let c := cmd i op
      let tiled := op = .tcopy ∨ op = .gathTile
      let y := (s.issued i bid b).drainEnd (s.issued i bid b).s (s.executing i b)
      (tget s.blocks b.blk).isSome = true ∧ (s.executing i b).head? = some t ∧ hdrGather b.hdr = 2 ∧
      b.tids.head? = some m0 ∧ (∀ m ∈ k.liveCohort (m0 / k.cfg.w), m ∈ s.executing i b) ∧
      (∀ m ∈ s.executing i b, s.drained b 3 m) ∧ a % 64 = 0 ∧
      (op = .scat ∨ (op = .tcopy ∧ c.dir = 1) ∨ (op = .bcopy ∧ c.dir % 2 = 0) → k.unconfirmed = false) ∧
      s.globalLock b.blk a 64 false = none ∧ y.translate d (y.ctxOf b.blk) .load a = (s1, .ok pa rd) ∧
      s1.canTouch pa 64 = true ∧ z.featsOk c.feats = true ∧ c.breach (z.block b.blk) = false ∧ z.copyOverlap c = false ∧
      c.misaligned = none ∧ z.padRange c = none ∧ (tiled → tile.st ≠ .empty ∧ tile.moving = false) ∧
      (op = .gathTile → c.len * c.esz ≤ tile.size) ∧
      z.queueRoom b.core (if op = .tcopy ∨ op = .bcopy then 1 else 2) ≠ 0 ∧ z.tryRegister d (z.cmdLocks c) = .room
    let queued (i : Instr) (op : EngOp) (s' : State) : Prop :=
      let c := cmd i op
      (if op = .tcopy ∨ op = .bcopy then
        (s'.core b.core).engq = (z.core b.core).engq ++ [{ c with mark := z.seq }] ∧ (s'.dm d).gathq = (z.dm d).gathq
      else
        (s'.core b.core).engq = (z.core b.core).engq ∧ ∃ e, (s'.dm d).gathq = (z.dm d).gathq ++ [e] ∧
          e = { c with indices := e.indices } ∧ ∀ p, z.spad b.blk c.iaddr (c.len * c.idxSize) = some p →
            e.indices = (List.range c.len).map fun j => z.spGet b.blk (p.plus (j * c.idxSize)) c.idxSize) ∧
      (s'.dm d).locks = (z.dm d).locks ++ z.cmdLocks c ∧ (s'.block b.blk).run.seq = c.seq ∧
      (∀ n, (s'.block b.blk).tile n = if n = e ∧ (op = .tcopy ∨ op = .gathTile) then
        { tile with st := if op = .gathTile ∨ c.dir = 0 then .filling else .draining } else (z.block b.blk).tile n) ∧
      (s'.block b.blk).scratch = (z.block b.blk).scratch ∧ s'.mem = z.mem ∧
      ∀ m, z.has b.blk m = true → s'.thread b.blk m =
        if m ∈ s.executing i b then
          (z.thread b.blk m).put (s.ends i b) { regs := [(r.d.toNat, BitVec.ofNat 32 c.seq)] }
        else z.thread b.blk m
    (Issues s (.tcopy r) bid b → may (.tcopy r) .tcopy → Leaves s (.tcopy r) (queued (.tcopy r) .tcopy)) ∧
    (Issues s (.bcopy r) bid b → may (.bcopy r) .bcopy → Leaves s (.bcopy r) (queued (.bcopy r) .bcopy)) ∧
    (Issues s (.gath r) bid b → may (.gath r) .gath → Leaves s (.gath r) (queued (.gath r) .gath)) ∧
    (Issues s (.gathTile r) bid b → may (.gathTile r) .gathTile →
      Leaves s (.gathTile r) (queued (.gathTile r) .gathTile)) ∧
    (Issues s (.scat r) bid b → may (.scat r) .scat → Leaves s (.scat r) (queued (.scat r) .scat))

/-- R284, R292: ENGQ.FREE, which counts a command in progress among the queued (log 35), ENGQ.LAST and ENGQ.MARK. -/
def Sys2Proof.Claims.EngineQueueReads : Prop :=
  ∀ (s : State) (bid : Nat) (b : Bundle) (r : RX),
    (Issues s (.engqFree r) bid b → Writes s (.engqFree r) b fun _ _ =>
      { regs := [(r.d.toNat, BitVec.ofNat 32 (32 - (s.core b.core).engq.length))] }) ∧
    (Issues s (.engqLast r) bid b → Writes s (.engqLast r) b fun _ _ =>
      { regs := [(r.d.toNat, BitVec.ofNat 32 (s.block b.blk).run.seq)] }) ∧
    (Issues s (.engqMark r) bid b → Writes s (.engqMark r) b fun _ _ =>
      { regs := [(r.d.toNat, BitVec.ofNat 32 (s.block b.blk).run.mark)] })

/-- R268, R293, R294, R300, R301: ACP counts up under its tag and reads 32 bytes of its allotment's worth later: bytes from
memory, zeros beyond the valid count; a fault, or a page that stays unresolved, leaves zeros and ENGFAULT; with no valid byte
nothing faults. ACPWAIT waits until the count is at most its bound. -/
def Sys2Proof.Claims.AsyncCopies : Prop :=
  (∀ (s : State) (bid : Nat) (b : Bundle) (r : RX), Issues s (.acp r) bid b →
    let out := s.executing (.acp r) b
    let sp (t : Nat) := ((s.stood b t).rd r.d.toNat).toNat
    let ga (t : Nat) := ((s.stood b t).rd64 r.a.toNat).toNat
    let v (t : Nat) := min ((s.stood b t).rd r.b.toNat).toNat 32
    let tag := r.e.toNat
    (∀ t ∈ out, s.has b.blk t = true ∧ sp t % 32 = 0 ∧ sp t + 32 ≤ (s.block b.blk).cfg.allot ∧
      (v t ≠ 0 → ga t % 32 = 0 ∧ s.globalLock b.blk (ga t) (v t) false = none) ∧
      s.spadFault b.blk (.own (sp t)) 32 true = none ∧ tgetD (s.thread b.blk t).acp tag 0 < 63) →
    ∃ s', exec (.acp r) s = .next s' ∧ SameBut { s with seq := s.seq + out.length } s' b.blk ∧
      (∀ t, s.has b.blk t = true → s'.thread b.blk t =
        if t ∈ out then
          let h := (s.stood b t).kills (s.ends (.acp r) b)
          { h with acp := tset h.acp tag (tgetD h.acp tag 0 + 1) }
        else if t ∈ b.tids then s.stood b t else s.thread b.blk t) ∧
      ∀ t ∈ out, ∃ j due, tget s'.jobs j =
        some ⟨dieOf b.core, due, .acp b.blk t tag (sp t) (ga t) (v t) (s.seq + out.idxOf t) none false⟩) ∧
  (∀ (s : State) (bid : Nat) (b : Bundle) (r : RI) (tag : BitVec 2), Issues s (.acpwait r tag) bid b →
    Turns s (.acpwait r tag) b s fun _ h =>
      if tgetD h.acp tag.toNat 0 ≤ r.imm.toNat then h
      else { h with st := .waiting (.acp tag.toNat r.imm.toNat), hdr := none, gang := none }) ∧
  ∀ (s : State) (j d due u t tag sp ga v seq : Nat) (fault : Option (Nat × Nat)) (bad : Bool),
    tget s.jobs j = some ⟨d, due, .acp u t tag sp ga v seq fault bad⟩ → due ≤ s.now d →
    s.acpFirst u t tag seq = true → (s.pinnedAt u (.own sp) 32).2 = [] → s.has u t = true →
    let done (z : State) (byte : Nat → Byte) (code : Nat) := Leaves s (.acpComplete j) fun s' =>
      s'.jobs = tdel z.jobs j ∧ tgetD (s'.thread u t).acp tag 0 = tgetD (z.thread u t).acp tag 0 - 1 ∧
      (∀ x < 32, mget (s'.block u).scratch (sp + x) = byte x) ∧
      (∀ x, x < sp ∨ sp + 32 ≤ x → mget (s'.block u).scratch x = mget (z.block u).scratch x) ∧
      (s'.block u).engfault.val = (if code = 0 then (z.block u).engfault.val
        else (engFaultUpd ((z.block u).engfault.val.setWidth 32) 3 code).setWidth 64) ∧
      (s'.thread u t).live = (z.thread u t).live ∧ s'.mem = z.mem
    (v = 0 → done s (fun _ => 0) 0) ∧
    (v ≠ 0 → fault = none → (s.core (s.block u).core).acquiring u t seq = false →
      (bad = true → done s (fun _ => 0) 3) ∧
      (bad = false → ∀ s2 : State, (s.translate d (s.ctxOf u) .load ga = (s2, .outside) → done s2 (fun _ => 0) 4) ∧
        (s.translate d (s.ctxOf u) .load ga = (s2, .protection) → done s2 (fun _ => 0) 1) ∧
        ∀ pa rd, s.translate d (s.ctxOf u) .load ga = (s2, .ok pa rd) → s2.canTouch pa v = true →
          let k := s2.core (s2.block u).core
          (∀ e ∈ k.entriesOf u t seq, e.line ≠ pa / 128) → (∀ l ∈ k.loadsOf u t seq, l.line ≠ pa / 128) →
          k.ahead (pa / 128) = false → s2.wrqBars u t seq (pa / 128) = false →
          let z := (s2.settle (some d) pa v).drawn.drawn
          done z (fun x => if x < v then tgetD (z.dieView d u (pa / 128)) (pa % 128 + x) 0 else 0) 0))

/-- R214, R285, R286, R288-R291, R370: a command starts in queue order while the unit has room for it; a copy engine moves to
the next 2,048 bytes of destination (whole moves: log 62), or in a block that is being saved to the next boundary, and the
barrier of the command counts each 2,048 bytes once none of its writes outside the module is under way; a home serves its
group of a gather command's elements. -/
def Sys2Proof.Claims.CommandProgress : Prop :=
  (∀ (s : State) (g : Bool) (unit : Nat) (c : EngCmd),
    (s.cmds g unit).find? (fun k => !k.active && (g || !s.saving k.blk)) = some c →
    ((s.cmds g unit).filter (·.active)).length < (if g then 16 else 4) →
    (g = true ∨ ∀ k ∈ s.cmds g unit, k.fault = none) →
    Leaves s (.engineCommandStart g unit) fun s' =>
      s'.cmds g unit = ((s.cmds g unit).map fun k => if k.blk = c.blk ∧ k.seq = c.seq then
        { c with active := true, since := s.now (unitDie g unit) } else k) ∧ s'.mem = s.mem ∧ s'.blocks = s.blocks) ∧
  (∀ (s : State) (core n : Nat) (c : EngCmd), (s.core core).engq[n]? = some c → c.active = true →
    (∀ k ∈ (s.core core).engq, k.fault = none) → s.halted c = false → c.due = 0 → s.nextStop c < 8 * s.copyTotal c →
    let stop := s.nextStop c
    s.moveEnd core c (stop - c.done) ≤ s.now (dieOf core) → s.rooted c.blk → c.done < stop →
    let m := stop / 16384 * 2048 - c.delivered
    let key := (c.blk, c.seq, false)
    let bar (s' : State) (counts : Prop) := (counts → s'.bar c.blk 0 c.bar = (s.bar c.blk 0 c.bar).after 0 (-(m : Int))) ∧
      (¬ counts → s'.bar c.blk 0 c.bar = s.bar c.blk 0 c.bar)
    (∀ t c2, s.copyMove core c (stop - c.done) = (t, c2, none) →
      let away := (t.tagAway s key).writesAway key = true
      Leaves s (.copyEngineDelivery core n) fun s' => s'.mem = t.mem ∧ bar s' (c.barEn = true ∧ m ≠ 0 ∧ ¬ away) ∧
        (¬ away → (s'.core core).engq[n]? = some { c2 with delivered := c.delivered + m }) ∧
        (away → (s'.core core).engq[n]? = some c2) ∧ c2.done = stop ∧
        (s'.core core).engBusy = s.moveEnd core c (stop - c.done)) ∧
    ∀ o1 o2, c.op = .bcopy → c.dir = 3 → s.spad c.blk c.addr0 c.len = some (.own o1) → c.done % 8 = 0 → stop % 8 = 0 →
      let a := c.done / 8
      let l := (stop - c.done) / 8
      s.spad c.blk c.addr1 c.len = some (.own o2) → (s.pinnedAt c.blk (.own (o2 + a)) l).2 = [] → s.writesAway key = false →
      Leaves s (.copyEngineDelivery core n) fun s' => s'.mem = s.mem ∧ bar s' (c.barEn = true ∧ m ≠ 0) ∧
        (s'.core core).engq[n]? = some { c with done := stop, bad := [], delivered := c.delivered + m } ∧
        (s'.block c.blk).run.wdog = 0 ∧
        (∀ x < l, mget (s'.block c.blk).scratch (o2 + a + x) = mget (s.block c.blk).scratch (o1 + a + x)) ∧
        ∀ x, x < o2 + a ∨ o2 + a + l ≤ x → mget (s'.block c.blk).scratch x = mget (s.block c.blk).scratch x) ∧
  (∀ (s : State) (core n : Nat) (c : EngCmd), (s.core core).engq[n]? = some c → c.due ≠ 0 → s.rooted c.blk →
    (s.writesAway (c.blk, c.seq, false) = true → exec (.copyEngineDelivery core n) s = .next s) ∧
    (s.writesAway (c.blk, c.seq, false) = false → Leaves s (.copyEngineDelivery core n) fun s' =>
      (s'.core core).engq[n]? = some { c with delivered := c.delivered + c.due } ∧ s'.mem = s.mem ∧
      (c.barEn = true → s'.bar c.blk 0 c.bar = (s.bar c.blk 0 c.bar).after 0 (-(c.due : Int))))) ∧
  ∀ (s : State) (die n home : Nat) (c : EngCmd), (s.dm die).gathq[n]? = some c → c.active = true → c.fault = none →
    let here (k : Nat) : Bool := match (s.engX die c k c.acc (c.elemVa k)).2 with
      | .ok pa => s.homeNo pa == home
      | _ => false
    let ks := if c.tag?.isSome then c.left.takeWhile here else c.left.filter here
    (∀ t c2, s.serveElems die c ks = (t, c2, none) → Leaves s (.gatherGroup die n home) fun s' => s'.mem = t.mem ∧
      (s'.dm die).gathq[n]? = some c2 ∧ ∀ k, (tget c2.got k).isSome = true ↔ k ∈ ks ∨ (tget c.got k).isSome = true) ∧
    ∀ (k o pa : Nat), let z := s.settleLine (some die) (pa / 128) [pa / 64 % 2]
      c.gathers = true → ks = [k] → z.gathDest c = some (.own o) → (z.pinnedAt c.blk (.own (o + k * c.esz)) c.esz).2 = [] →
      (tget s.blocks c.blk).isSome = true → s.engX die c k .load (c.elemVa k) = (s, .ok pa) → s.canTouch pa 1 = true →
      s.storesBefore die (pa / 128) c.mark = false → pa % 128 + c.esz ≤ 128 → (inHbm (pa / 128) = true ∨ pa % 64 + c.esz ≤ 64) →
      (∀ x, 0 < x → x < c.esz → z.engX die c k .load (wrapN 64 ((c.elemVa k + x : Nat) : Int)) = (z, .ok (pa + x))) →
      Leaves s (.gatherGroup die n home) fun s' => s'.mem = z.mem ∧
        (s'.dm die).gathq[n]? = some { c with got := tset c.got k [], bad := c.bad.filter (·.1 != k) } ∧
        (∀ x < c.esz, mget (s'.block c.blk).scratch (o + k * c.esz + x) =
          tgetD (z.dieView die c.blk (pa / 128)) (pa % 128 + x) 0) ∧
        ∀ x, x < o + k * c.esz ∨ o + k * c.esz + c.esz ≤ x →
          mget (s'.block c.blk).scratch x = mget (z.block c.blk).scratch x

/-- R284, R291, R300, R301: a command completes when all of it has moved and none of its writes outside the module is under
way: it leaves its queue, its locks go, its tile is READY with a form that its bytes have, its barrier counts the last bytes,
the mark rises, a fault is noted in ENGFAULT, and the status word, if there is one, tells the number, the outcome, the bytes
and the place. -/
def Sys2Proof.Claims.CommandEnds : Prop :=
  ∀ (s t : State) (g : Bool) (unit n : Nat) (c c2 : EngCmd), (s.cmds g unit)[n]? = some c → c.active = true →
    s.rooted c.blk →
    let rest := 8 * s.copyTotal c - c.done
    (if g then c.fault = none ∧ c.left = [] ∧ t = s ∧ c2 = c
     else (∀ k ∈ s.cmds g unit, k.fault = none) ∧ s.halted c = false ∧ c.due = 0 ∧ 8 * s.copyTotal c ≤ s.nextStop c ∧
      s.moveEnd unit c rest ≤ s.now (dieOf unit) ∧ s.copyMove unit c rest = (t, c2, none)) →
    let d := unitDie g unit
    let y := t.tagAway s (c.blk, c.seq, false)
    let z := if g then y else y.setCore unit fun k => { k with engBusy := s.moveEnd unit c rest }
    y.writesAway (c.blk, c.seq, false) = false →
    let ended (code : Nat) (s' : State) :=
      (∀ k ∈ s'.cmds g unit, ¬ (k.blk = c.blk ∧ k.seq = c.seq)) ∧
      (∀ k, k ∈ (s'.dm d).locks ↔ k ∈ (s.dm d).locks ∧ k.owner ≠ (c.blk, c.seq, false)) ∧
      (c.op = .tcopy ∨ c.op = .gathTile → ((s'.block c.blk).tile c.tile).st = .ready) ∧
      ((c.op = .tcopy ∧ c.dir = 0) ∨ c.op = .gathTile → c.classed = false → ((s'.block c.blk).tile c.tile).sound (s'.block c.blk).scratch) ∧
      (c.barEn = true → s'.bar c.blk 0 c.bar =
        (s.bar c.blk 0 c.bar).after 0 (-((s.copyTotal c - c.delivered : Nat) : Int))) ∧
      ((s.block c.blk).run.doneCmds = [] → ((s.block c.blk).run.mark + 1) % 2 ^ 32 = c.seq →
        (s'.block c.blk).run.mark = c.seq) ∧
      (s'.block c.blk).engfault.val = (if code = 0 then (s.block c.blk).engfault.val
        else (engFaultUpd ((s.block c.blk).engfault.val.setWidth 32) c.op.kind code).setWidth 64)
    (c.status = 0 → Leaves s (.engineCommandComplete g unit n) fun s' => ended c2.code s' ∧ s'.mem = t.mem) ∧
    (c.status ≠ 0 → ∀ t2 : State, (∀ k, z.engX d c2 c2.statusKey .store c.status = (t2, .bad k) →
        Leaves s (.engineCommandComplete g unit n) fun s' => ended k s' ∧ s'.mem = t2.mem) ∧
      ∀ pa, z.engX d c2 c2.statusKey .store c.status = (t2, .ok pa) → pa % 16 = 0 → inHbm (pa / 128) = true →
        t2.engFree d (pa / 128) = true → Leaves s (.engineCommandComplete g unit n) fun s' => ended c2.code s' ∧ s'.view pa 4 = c.seq % 2 ^ 32 ∧
          s'.view (pa + 4) 4 = (if c2.code = 0 then 0 else (c2.code + 16) % 2 ^ 32) ∧
          s'.view (pa + 8) 4 = c2.fbytes % 2 ^ 32 ∧ s'.view (pa + 12) 4 = c2.first % 2 ^ 32)

/-- Engine commands from issue to completion, and asynchronous copies. -/
def Obligations.Engines : Prop :=
  Sys2Proof.Claims.EngineIssue ∧ Sys2Proof.Claims.EngineQueueReads ∧ Sys2Proof.Claims.AsyncCopies ∧
  Sys2Proof.Claims.CommandProgress ∧ Sys2Proof.Claims.CommandEnds

/-! ## Graphs, launches and the supervisor -/

/-- R333, R334: EMIT in a block that holds nothing back, with legal payloads, every earlier access performed and room in the
pool: each executing member's payload is a COMMITTED record at the bottom of its node's deque, in member order, and its
predicate will be true; beyond the depth limit the failures are counted and the predicates will be false. -/
def Sys2Proof.Claims.Emits : Prop :=
  ∀ (s : State) (bid : Nat) (b : Bundle) (r : RX), Issues s (.emit r) bid b → s.rooted b.blk →
    s.executing (.emit r) b ≠ [] →
    let k := s.block b.blk
    let n := k.cfg.launch
    let l := s.launch n
    let node := l.node r.e.toNat
    let out := s.executing (.emit r) b
    let a (t : Nat) := ((s.stood b t).rd r.a.toNat).toNat
    let size := node.recBytes
    (node.limit < k.cfg.depth + 1 →
      SendsFrom s (.emit r) b (s.setLaunch n fun l => { l with failures := l.failures + out.length }) (fun _ => none)
        fun _ _ => { preds := [(r.d.toNat, false)] }) ∧
    (k.cfg.depth + 1 ≤ node.limit → k.holding = false → k.run.confirming = false → l.poolWait = [] →
      l.charge + out.length * size ≤ l.poolSize →
      (∀ t ∈ out, s.has b.blk t = true ∧ a t % 16 = 0 ∧ a t + size ≤ k.cfg.allot ∧
        s.spadFault b.blk (.own (a t)) size false = none ∧ s.drained b 4 t) →
      ∃ (l' : Launch) (ids : List Nat),
        SendsFrom s (.emit r) b (s.setLaunch n fun _ => l') (fun _ => none) (fun _ _ => { preds := [(r.d.toNat, true)] })
          (fun h => { h with drain := none }) ∧
        l' = { l with charge := l.charge + out.length * size, records := l'.records, deques := l'.deques } ∧
        ids.length = out.length ∧ ids.Nodup ∧ (∀ id ∈ ids, tget l.records id = none) ∧
        (∀ id, id ∉ ids → tget l'.records id = tget l.records id) ∧
        (∀ q, tgetD l'.deques q [] = if q = 64 * houseOf b.core + r.e.toNat then
          tgetD l.deques q [] ++ ids else tgetD l.deques q []) ∧
        ∀ (j t id : Nat), out[j]? = some t → ids[j]? = some id → ∃ e, tget l'.records id = some e ∧ e.st = .committed ∧
          e.node = r.e.toNat ∧ e.bytes = mbytes k.scratch (a t) size ∧ e.depth = k.cfg.depth + 1)

/-- R335: EMITA reserves a record in the lowest free slot of each executing member and answers the slot and the node; 0xFFFFFFFE
with no slot free, 0xFFFFFFFF beyond the depth limit. -/
def Sys2Proof.Claims.Reservations : Prop :=
  ∀ (s : State) (bid : Nat) (b : Bundle) (r : RX), Issues s (.emita r) bid b → s.rooted b.blk →
    s.executing (.emita r) b ≠ [] →
    let k := s.block b.blk
    let n := k.cfg.launch
    let l := s.launch n
    let node := l.node r.e.toNat
    let out := s.executing (.emita r) b
    let size := node.recBytes
    let slot (t : Nat) := ((s.stood b t).freeResv).getD 0
    (node.limit < k.cfg.depth + 1 →
      SendsFrom s (.emita r) b (s.setLaunch n fun l => { l with failures := l.failures + out.length }) (fun _ => none)
        fun _ _ => { regs := [(r.d.toNat, 0xFFFFFFFF)] }) ∧
    (k.cfg.depth + 1 ≤ node.limit → (∀ t ∈ out, (s.stood b t).freeResv = none) →
      SendsFrom s (.emita r) b s (fun _ => none) fun _ _ => { regs := [(r.d.toNat, 0xFFFFFFFE)] }) ∧
    (k.cfg.depth + 1 ≤ node.limit → l.poolWait = [] → l.charge + out.length * size ≤ l.poolSize →
      (∀ t ∈ out, s.has b.blk t = true ∧ ((s.stood b t).freeResv).isSome = true) →
      ∃ (s' : State) (l' : Launch) (id : Nat → Nat), exec (.emita r) s = .next s' ∧
        SameBut (s.setLaunch n fun _ => l') s' b.blk ∧
        l' = { l with charge := l.charge + out.length * size, records := l'.records } ∧
        (∀ t ∈ out, tget l.records (id t) = none ∧ ∀ u ∈ out, id u = id t → u = t) ∧
        (∀ m, (∀ t ∈ out, id t ≠ m) → tget l'.records m = tget l.records m) ∧
        (∀ t ∈ out, ∃ e, tget l'.records (id t) = some e ∧ e.st = .reserved ∧ e.node = r.e.toNat ∧
          e.depth = k.cfg.depth + 1) ∧
        (∀ t, s.has b.blk t = true → s'.thread b.blk t =
          if t ∈ out then
            let h := (s.stood b t).sent [] [r.d.toNat] [] (hdrSetSb b.hdr)
            { h with resv := tset h.resv (slot t) ⟨true, r.e.toNat, id t⟩ }
          else if t ∈ b.tids then s.stood b t else s.thread b.blk t) ∧
        ∀ t ∈ out, ∃ lo hi, s'.hasResult (dieOf b.core) lo hi b.blk t
          { regs := [(r.d.toNat, BitVec.ofNat 32 (slot t + 256 * r.e.toNat))] } (hdrSetSb b.hdr))

/-- R335: EMITC gives a reservation its payload and commits it, EMITC.CANCEL frees it; both free the slot. A handle that names
no reservation of the thread answers false. -/
def Sys2Proof.Claims.ReservationEnds : Prop :=
  ∀ (s : State) (bid : Nat) (b : Bundle) (r : RX) (v : Nat → Nat × Reservation), s.rooted b.blk →
    let k := s.block b.blk
    let n := k.cfg.launch
    let l := s.launch n
    let names (i : Instr) := s.executing i b ≠ [] ∧ ∀ t ∈ s.executing i b, s.has b.blk t = true ∧
      (s.stood b t).reservation ((s.stood b t).rd r.a.toNat) = some (v t)
    let ids (i : Instr) := (s.executing i b).map fun t => (v t).2.record
    let unnamed (i : Instr) := ∀ t ∈ s.executing i b, (s.stood b t).reservation ((s.stood b t).rd r.a.toNat) = none
    let ended (i : Instr) (s' : State) := SameBut { s with launches := s'.launches } s' b.blk ∧
      (∀ m, m ≠ n → tget s'.launches m = tget s.launches m) ∧
      (∀ t, s.has b.blk t = true →
        (t ∈ s.executing i b → (tgetD (s'.thread b.blk t).resv (v t).1 {}).valid = false ∧
          (s'.thread b.blk t).live = ((s.stood b t).kills (s.ends i b)).live ∧
          (s'.thread b.blk t).ppend = (s.stood b t).ppend ++ [r.d.toNat]) ∧
        (t ∉ s.executing i b → s'.thread b.blk t = if t ∈ b.tids then s.stood b t else s.thread b.blk t)) ∧
      ∀ t ∈ s.executing i b, ∃ lo hi, s'.hasResult (dieOf b.core) lo hi b.blk t { preds := [(r.d.toNat, true)] }
        (hdrSetSb b.hdr)
    let a (t : Nat) := ((s.stood b t).rd r.b.toNat).toNat
    let size (t : Nat) := (l.node (v t).2.node).recBytes
    (Issues s (.emitc r) bid b → unnamed (.emitc r) →
      SendsFrom s (.emitc r) b s (fun _ => none) fun _ _ => { preds := [(r.d.toNat, false)] }) ∧
    (Issues s (.emitcCancel r) bid b → unnamed (.emitcCancel r) →
      SendsFrom s (.emitcCancel r) b s (fun _ => none) fun _ _ => { preds := [(r.d.toNat, false)] }) ∧
    (Issues s (.emitc r) bid b → names (.emitc r) → (ids (.emitc r)).Nodup → k.holding = false → k.run.confirming = false →
      (∀ t ∈ s.executing (.emitc r) b, (s.thread b.blk t).st = .issuing ∧ a t % 16 = 0 ∧ a t + size t ≤ k.cfg.allot ∧
        s.spadFault b.blk (.own (a t)) (size t) false = none ∧ s.drained b 4 t) →
      Leaves s (.emitc r) fun s' => ended (.emitc r) s' ∧
        let l' := s'.launch n
        l' = { l with records := l'.records, deques := l'.deques } ∧
        (∀ q, tgetD l'.deques q [] = tgetD l.deques q [] ++ ((s.executing (.emitc r) b).filter fun t =>
          q == 64 * houseOf b.core + (v t).2.node).map fun t => (v t).2.record) ∧
        (∀ id, id ∉ ids (.emitc r) → tget l'.records id = tget l.records id) ∧
        ∀ t ∈ s.executing (.emitc r) b, ∃ e, tget l'.records (v t).2.record = some e ∧ e.st = .committed ∧
          e.node = (v t).2.node ∧ e.bytes = mbytes k.scratch (a t) (size t) ∧
          ∀ o, tget l.records (v t).2.record = some o → e.depth = o.depth) ∧
    (Issues s (.emitcCancel r) bid b → names (.emitcCancel r) → l.poolWait = [] →
      Leaves s (.emitcCancel r) fun s' => ended (.emitcCancel r) s' ∧
        let l' := s'.launch n
        l' = { l with records := l'.records, charge := l'.charge } ∧
        (∀ id, tget l'.records id = if id ∈ ids (.emitcCancel r) then none else tget l.records id) ∧
        ∀ t e, s.executing (.emitcCancel r) b = [t] → (l.records.map (·.1)).Nodup →
          tget l.records (v t).2.record = some e → l'.charge = l.charge - e.size)

/-- R342-R345: DONE notes USER of the highest executing thread and consumes the records of a confirmed block; QSTAT returns a
sample of the present or of one of the last cycles, and 0 in a plain launch; CONFIRM starts the confirmation of a block that is
not confirmed and waits for it. -/
def Sys2Proof.Claims.BlockReports : Prop :=
  ∀ (s : State) (bid : Nat) (b : Bundle) (r : RX), s.rooted b.blk →
    let k := s.block b.blk
    let n := k.cfg.launch
    let l := s.launch n
    let told (f : QSample → Thread → Nat) (q : QSample) (h : Thread) : Res :=
      { regs := [(r.d.toNat, BitVec.ofNat 32 (if l.isGraph then f q h else 0))] }
    let waits (h : Thread) : Thread := { h with st := .waiting .confirm, hdr := none, gang := none }
    (∀ last, Issues s (.done r) bid b → (s.executing (.done r) b).getLast? = some last → l.poolWait = [] →
      s.has b.blk last = true → ∃ (user : KReg) (l' : Launch),
      let s1 := s.setRun b.blk fun x =>
        { x with user := user, doneRun := true, records := if k.unconfirmed then x.records else [] }
      Turns s (.done r) b (if k.unconfirmed = true ∨ k.run.records = [] then s1 else s1.setLaunch n fun _ => l')
        (fun _ h => h.kills (s.ends (.done r) b)) ∧
      Rewritten k.run.user user (s.now (dieOf b.core)) last (((((s.stood b last).rd r.a.toNat).setWidth 8).setWidth 64)) ∧
      l' = { l with records := l'.records, charge := l'.charge } ∧
      ∀ id, tget l'.records id = if id ∈ k.run.records then none else tget l.records id) ∧
    (Issues s (.qstatPool r) bid b → ∃ q ∈ l.sample :: l.past, Turns s (.qstatPool r) b s.drawn fun _ h =>
      h.put (s.ends (.qstatPool r) b) (told (fun q _ => q.free) q h)) ∧
    (Issues s (.qstatFail r) bid b → ∃ q ∈ l.sample :: l.past, Turns s (.qstatFail r) b s.drawn fun _ h =>
      h.put (s.ends (.qstatFail r) b) (told (fun q _ => q.fail) q h)) ∧
    (Issues s (.qstatLive r) bid b → ∃ q ∈ l.sample :: l.past, Turns s (.qstatLive r) b s.drawn fun _ h =>
      h.put (s.ends (.qstatLive r) b) (told (fun q _ => q.live) q h)) ∧
    (Issues s (.qstatNode r) bid b → ∃ q ∈ l.sample :: l.past, Turns s (.qstatNode r) b s.drawn fun _ h =>
      h.put (s.ends (.qstatNode r) b)
        (told (fun q h => tgetD q.nodes (64 * houseOf b.core + (h.rd r.a.toNat).toNat % 64) 0) q h)) ∧
    l.sample.free = l.poolSize - l.charge ∧ l.sample.fail = l.failures ∧
    (Issues s (.confirm r) bid b → k.unconfirmed = false → Turns s (.confirm r) b s fun _ h => h) ∧
    (Issues s (.confirm r) bid b → k.unconfirmed = true → k.holding = false → s.executing (.confirm r) b ≠ [] →
      Turns s (.confirm r) b s fun _ h => waits h) ∧
    (Issues s (.confirm r) bid b → k.holding = true → s.executing (.confirm r) b ≠ [] → ∃ es : List Entry,
      Turns s (.confirm r) b ((s.setCore k.core fun c => { c with fifo := c.fifo ++ es }).setRun b.blk fun x =>
          { x with confirming := true, held := [], confirmMark := s.seq })
        (fun _ h => waits h) ∧
      es.map (fun e => (e.seq, e.line, e.kind, e.tids)) = k.run.held.map (fun h => (h.seq, h.line, h.kind, h.tids)) ∧
      ∀ e ∈ es, e.blk = b.blk ∧ e.release = true ∧ 4 ≤ e.scope ∧ e.ordered = true ∧ e.st = .queued)

/-- R329: LAUNCH of a confirmed block on cards that can be read, with room in the die's queue: each executing member's 256
bytes enter the device queue under the next launch number, which its destination receives. -/
def Sys2Proof.Claims.Submissions : Prop :=
  ∀ (s : State) (bid : Nat) (b : Bundle) (r : RX) (pa : Nat → Nat) (rd : Nat → Bool), Issues s (.launch r) bid b →
    let out := s.executing (.launch r) b
    let d := dieOf b.core
    let va (t : Nat) := ((s.stood b t).rd64 r.a.toNat).toNat
    let num (j : Nat) := (fun c => c % (2 ^ 31 - 1) + 1)^[j + 1] s.mod.launchCtr
    (s.block b.blk).unconfirmed = false → out ≠ [] → (s.dm d).devq.length + out.length ≤ 64 →
    (∀ t ∈ out, s.has b.blk t = true ∧ ((s.thread b.blk t).card = none →
      va t % 256 = 0 ∧ s.drained b 4 t ∧ s.globalLock b.blk (va t) 256 false = none ∧
      s.translate d (s.ctxOf b.blk) .load (va t) = (s, .ok (pa t) (rd t)) ∧ s.canTouch (pa t) 256 = true ∧
      ∀ line ∈ linesOf (pa t) 256, inHbm line = true → (s.homeOf line).st ≠ .W ∧ (s.homeOf line).st ≠ .U ∧
        (fld (s.homeOf line).host 0 2).toNat ≠ 2 ∧ (fld (s.homeOf line).host 2 2).toNat ≠ 2)) →
    Leaves s (.launch r) fun s' => ∃ card : Nat → List Byte,
      (∀ t ∈ out, match (s.thread b.blk t).card with
        | some l => card t = l
        | none => (card t).length = 256 ∧ ((∀ line ∈ linesOf (pa t) 256, inHbm line = true) →
            card t = (List.range 256).map fun x => tgetD (s.viewLine ((pa t + x) / 128)) ((pa t + x) % 128) 0)) ∧
      s'.mod = { s.mod with launchCtr := num (out.length - 1) } ∧
      (s'.dm d).devq = (s.dm d).devq ++ out.mapIdx (fun j t => (card t, b.blk, num j)) ∧
      s'.mem = s.mem ∧ (∀ c, (s'.core c).uncounted = (s.core c).uncounted) ∧
      (∀ t, s.has b.blk t = true → s'.thread b.blk t =
        if t ∈ out then
          { (s.stood b t).sent (s.ends (.launch r) b) [r.d.toNat] [] (hdrSetSb b.hdr) with drain := none, card := none }
        else if t ∈ b.tids then s.stood b t else s.thread b.blk t) ∧
      ∀ t ∈ out, ∃ lo hi, s'.hasResult (dieOf b.core) lo hi b.blk t
        { regs := [(r.d.toNat, BitVec.ofNat 32 (num (out.idxOf t)))] } (hdrSetSb b.hdr)

/-- R306, R307, R309: at the edge of a cycle a counter that is enabled rises by the events of the cycle that its EVENT, SUBK,
SUBV and FILT name, the cycle itself (0x00) and a full store FIFO (0x10) among them, and every other keeps its value; an
instruction that issues is one event 0x01, each member that executes it one event 0x02, a branch one 0x08 and a RET one 0x09. -/
def Sys2Proof.Claims.EventCounters : Prop :=
  (∀ (s : State) (dies : List Nat), dies.Nodup → (s.cores.map (·.1)).Nodup →
    let named (c : Counter) (e : Tally) : Bool :=
      c.cfg.getLsbD 8 && (fld c.cfg 0 8).toNat == e.ev &&
      ((fld c.cfg 12 4).toNat == 0 || ((fld c.cfg 12 4).toNat == 1 && e.inst == some (fld c.cfg 16 8).toNat)) &&
      ((fld c.cfg 10 2).toNat != 1 || e.blks.isEmpty || e.blks.contains c.owner)
    let rises (c c' : Counter) (es : List Tally) : Prop :=
      c'.cfg = c.cfg ∧ c'.owner = c.owner ∧ c'.val = c.val + BitVec.ofNat 64 ((es.filter (named c)).map (·.n)).sum
    let cycle : Tally := ⟨0x00, none, [], 1⟩
    (∀ core k no, tget s.cores core = some k →
      let k' := (s.edge dies).core core
      if dieOf core ∈ dies then
        rises (tgetD k.ctrs no {}) (tgetD k'.ctrs no {})
          ((if 64 ≤ k.fifoUsed then [⟨0x10, none, [], 1⟩] else []) ++ cycle :: k.evs) ∧ k'.evs = []
      else k' = k) ∧
    ∀ d no,
      let x := s.die d
      let x' := (s.edge dies).die d
      if d ∈ dies then rises (tgetD x.ctrs no {}) (tgetD x'.ctrs no {}) (cycle :: x.evs) ∧ x'.evs = []
      else x'.ctrs = x.ctrs ∧ x'.evs = x.evs) ∧
  ∀ (s : State) (bid : Nat) (b : Bundle),
    let own (n ev : Nat) : List Tally := if n = 0 then [] else [⟨ev, none, [(s.block b.blk).resIdx], n⟩]
    let n (i : Instr) := (s.executing i b).length
    let seen (s : State) := (s.core b.core).evs.filter fun e => e.ev != 0x0D
    let told (i : Instr) (more : List Tally) := Leaves s i fun s' => seen s' = own (n i) 0x02 ++ own 1 0x01 ++ more ++ seen s
    let straight (i : Instr) (target : Thread → DWord) := Issues s i bid b ∧
      ∀ t ∈ s.executing i b, fld (target (s.stood b t)) 0 3 = 0
    let direct (r : RB) (_ : Thread) : DWord := b.base + r.off.signExtend 64 * 8
    let indirect (r : RB) (h : Thread) : DWord := h.rd64 r.a.toNat + r.off.signExtend 64 * 8
    (∀ r t sat, Issues s (.iadd r t sat) bid b → told (.iadd r t sat) []) ∧
    (∀ r, straight (.bra r) (direct r) → told (.bra r) (own (min (n (.bra r)) 1) 0x08)) ∧
    (∀ r, straight (.brx r) (indirect r) → told (.brx r) (own (min (n (.brx r)) 1) 0x08)) ∧
    ∀ r, straight (.ret r) (indirect r) → told (.ret r) (own (min (n (.ret r)) 1) 0x09)

/-- R308, R309: CNTCFG answers 1 for a locked counter, 2 for a word it refuses and else 0, and the highest accepted member
configures the counter; CNTRD and CNTRD.CFG read one. -/
def Sys2Proof.Claims.CounterInstructions : Prop :=
  ∀ (s : State) (bid : Nat) (b : Bundle) (r : RX),
    let d := dieOf b.core
    let die := r.e.getLsbD 6
    let no := r.e.toNat % 64
    let counter (s : State) : Counter := if die then tgetD (s.die d).ctrs no {} else tgetD (s.core b.core).ctrs no {}
    let c := counter s
    let locked := if die then (s.die d).cntlock.getLsbD no else (s.core b.core).lock.getLsbD no
    let code (h : Thread) : Word := if locked then 1 else if cfgBad die (h.rd r.a.toNat) then 2 else 0
    (Issues s (.cntcfg r) bid b → ∃ c2 : Counter,
      let good := (s.executing (.cntcfg r) b).filter fun t => code (s.stood b t) == 0
      (∀ t ∈ good, s.has b.blk t = true) →
      Turns s (.cntcfg r) b (if die ∧ good ≠ [] then s.setDie d fun x => { x with ctrs := tset x.ctrs no c2 } else s)
        (fun _ h => h.put (s.ends (.cntcfg r) b) { regs := [(r.d.toNat, code h)] }) ∧
      ∀ t, good.getLast? = some t → Leaves s (.cntcfg r) fun s' =>
        let w := (s.stood b t).rd r.a.toNat
        let new := counter s'
        new.cfg = w &&& ~~~0x200 ∧ new.owner = (s.block b.blk).resIdx ∧
        new.val = if w.getLsbD 9 then 0 else if c.stamp = s.now d + 1 then c.was else c.val) ∧
    (Issues s (.cntrd r) bid b → ∃ v,
      (if die then v ∈ c.past ∨ (c.past.length < 17 ∧ v = 0) else v = c.val) ∧
      Turns s (.cntrd r) b s.drawn fun _ h => h.put [] { regs := pairW r.d.toNat v }) ∧
    (Issues s (.cntrdCfg r) bid b → Writes s (.cntrdCfg r) b fun _ _ => { regs := pairW r.d.toNat (c.cfg.setWidth 64) })

/-- EMIT and reservations, DONE, QSTAT, CONFIRM, LAUNCH and the counters. -/
def Obligations.StageGraphs : Prop :=
  Sys2Proof.Claims.Emits ∧ Sys2Proof.Claims.Reservations ∧ Sys2Proof.Claims.ReservationEnds ∧
  Sys2Proof.Claims.BlockReports ∧ Sys2Proof.Claims.Submissions ∧ Sys2Proof.Claims.EventCounters ∧
  Sys2Proof.Claims.CounterInstructions

/-- R368, R369: a command whose token names no open entry of a kind that takes it sets CMDERR and does nothing else. RETRY and
NEXT let the threads that the entry holds go on at the instruction or after it, SETREG and SETPRED write their registers and
leave the entry open, RESUME restarts a block or resumes a thread from its frame, ACK only closes the entry. -/
def Sys2Proof.Claims.EntryCommands : Prop :=
  ∀ (s : State) (d tok : Nat),
    let entry := (s.die d).entries.find? fun e => e.token == tok
    let refused (i : Instr) (kinds : List Nat) := (∀ e, entry = some e → e.kind ∉ kinds) →
      exec i s = .next (s.setDie d fun x => { x with cmderr := true })
    let closed (s' : State) := (s'.die d).entries = (s.die d).entries.filter fun e => e.token != tok
    let held (e : SupEntry) (u t : Nat) := e.blk = some u ∧ t ∈ e.tids ∧ (s.thread u t).st = .waiting (.entry d tok)
    let quiet (e : SupEntry) (s' : State) := s'.mem = s.mem ∧ ∀ u t, ¬ held e u t → s'.thread u t = s.thread u t
    refused (.resolved d tok) [1] ∧ refused (.unresolved d tok) [1] ∧ refused (.retry d tok) [2] ∧
    refused (.next d tok) [4, 9] ∧ (∀ reg v, refused (.setreg d tok reg v) [4, 9] ∧ refused (.setpred d tok reg v) [4, 9]) ∧
    refused (.endBlock d tok) [6, 7, 8, 9] ∧ (∀ v, refused (.grow d tok v) [5]) ∧ refused (.abort d tok) [3, 5] ∧
    refused (.resume d tok) [6, 7] ∧ refused (.ack d tok) [3, 10] ∧
    ∀ e, entry = some e → e.tids.Nodup →
      (e.kind = 2 → Leaves s (.retry d tok) fun s' => closed s' ∧ quiet e s' ∧
        ∀ u t, held e u t → s'.thread u t = (s.thread u t).wake (s.nowB u)) ∧
      (e.kind = 4 ∨ e.kind = 9 → Leaves s (.next d tok) fun s' => closed s' ∧ quiet e s' ∧
        ∀ u t, held e u t → let x := s.thread u t
          s'.thread u t = { x with st := .ready, since := s.nowB u + 1, hdr := none, aged := false,
                                   base := (s'.thread u t).base, index := (s'.thread u t).index } ∧
          ∀ h, x.hdr = some h → ((s'.thread u t).base, (s'.thread u t).index) =
            if x.index.toNat < hdrCount h then (x.base, x.index + 1) else (fallThrough x.base h, 0)) ∧
      (∀ reg v, e.kind = 4 ∨ e.kind = 9 → (∀ u t, held e u t → reg < 255 ∧ reg < (s.thread u t).limit) →
        Leaves s (.setreg d tok reg v) fun s' => s'.die d = s.die d ∧ quiet e s' ∧
          ∀ u t, held e u t → s'.thread u t = (s.thread u t).wr reg (v.setWidth 32)) ∧
      (∀ reg v, e.kind = 4 ∨ e.kind = 9 → reg < 7 → Leaves s (.setpred d tok reg v) fun s' => s'.die d = s.die d ∧
        quiet e s' ∧ ∀ u t, held e u t → s'.thread u t = (s.thread u t).wrP reg (v.getLsbD 0)) ∧
      (∀ u, e.kind = 6 → e.blk = some u → (tget s.blocks u).isSome = true → Leaves s (.resume d tok) fun s' =>
        closed s' ∧ (s'.block u).run.stopped = false ∧ (s'.block u).run.wdog = 0 ∧ s'.mem = s.mem ∧
        ∀ v t, s'.thread v t = s.thread v t) ∧
      (∀ u t s2 h, e.kind = 7 → e.tids = [t] → held e u t → s.has u t = true →
        let frame := (s.block u).cfg.frameAddr
        s.fetch u (mread (s.thread u t).slice frame 8 % 2 ^ 57) = (s2, .ok h) → Leaves s (.resume d tok) fun s' =>
          closed s' ∧ s'.mem = s2.mem ∧ s'.thread u t = ((s2.thread u t).resume frame h).wake (s.nowB u) ∧
          ∀ v x, (v, x) ≠ (u, t) → s'.thread v x = s2.thread v x) ∧
      (e.kind = 3 ∨ e.kind = 10 → Leaves s (.ack d tok) fun s' => closed s' ∧ quiet e s' ∧
        ∀ u t, s'.thread u t = s.thread u t)

/-- R369: END lets every thread of the block exit and notes CODE 1; ABORT ends every block of the launch, frees its records
and completes it with CODE 2; GROW enlarges the pool; each closes its entry. -/
def Sys2Proof.Claims.EndCommands : Prop :=
  ∀ (s : State) (d tok : Nat) (e : SupEntry), (s.die d).entries.find? (fun e => e.token == tok) = some e →
    let closed (s' : State) := ∀ x ∈ (s'.die d).entries, x.token ≠ tok ∨ x ∉ (s.die d).entries
    (∀ u, e.kind ∈ [6, 7, 8, 9] → e.blk = some u → (tget s.blocks u).isSome = true → Leaves s (.endBlock d tok) fun s' =>
      closed s' ∧ (s'.block u).run.endCode = 1 ∧ ∀ t, s.has u t = true → (s'.thread u t).st = .exited) ∧
    (∀ v : DWord, e.kind = 5 → v ≠ 0 → v.toNat % 4096 = 0 → (s.launch e.launch).poolSize + v.toNat ≤ 0xFFFFF000 →
      (tget s.launches e.launch).isSome = true → Leaves s (.grow d tok v) fun s' => closed s' ∧ s'.mem = s.mem ∧
        (s'.launch e.launch).poolSize = (s.launch e.launch).poolSize + v.toNat ∧
        (s'.launch e.launch).records = (s.launch e.launch).records) ∧
    (e.kind = 3 ∨ e.kind = 5 → (tget s.launches e.launch).isSome = true → Leaves s (.abort d tok) fun s' => closed s' ∧
      let l := s'.launch e.launch
      l.code = 2 ∧ l.records = [] ∧ l.deques = [] ∧ l.charge = 0 ∧ l.nextBid = l.nblk ∧ l.nextSeed = l.nblk ∧
      ∀ u t, (s.block u).cfg.launch = e.launch → (s.block u).run.completed = false → s.has u t = true →
        (s'.thread u t).st = .exited)

/-- R354, R368: RESOLVED frees the fault-table entry and every thread that is attached to it issues its access again; UNRESOLVED
lets each of these threads take memory fault, subcause 3. -/
def Sys2Proof.Claims.FaultCommands : Prop :=
  ∀ (s : State) (d tok : Nat) (e : SupEntry) (f : FaultEntry),
    (s.die d).entries.find? (fun e => e.token == tok) = some e → e.kind = 1 →
    (s.dm d).faults.find? (fun f => f.token == tok) = some f →
    let closed (s' : State) := (∀ x ∈ (s'.dm d).faults, x.token ≠ tok) ∧
      ∀ x ∈ (s'.die d).entries, x.token ≠ tok ∨ x ∉ (s.die d).entries
    (Leaves s (.resolved d tok) fun s' => closed s' ∧ s'.mem = s.mem ∧ ∀ u t, s.has u t = true →
      ((∃ va w, (s.thread u t).st = .waiting (.fault d tok va w)) → s'.thread u t = (s.thread u t).wake (s.nowB u)) ∧
      ((∀ va w, (s.thread u t).st ≠ .waiting (.fault d tok va w)) → (s.thread u t).st ≠ .waiting (.held d tok) →
        s'.thread u t = s.thread u t)) ∧
    (s.jobs = [] → Leaves s (.unresolved d tok) fun s' => closed s' ∧
      ∀ u t va w, s.has u t = true → (s.thread u t).st = .waiting (.fault d tok va w) → s.handles u 10 3 →
        (s.thread u t).inh = false →
        let x := s.thread u t
        let y := s.entered u x.base (if x.hdr = none ∧ w = 0 then 0 else x.index.toNat) 10 3 0 w (BitVec.ofNat 64 va) x
        let z := s'.thread u t
        z.base = y.base ∧ z.index = y.index ∧ z.inh = true ∧ z.st = .ready ∧ z.slice = y.slice ∧ z.live = x.live ∧
          z.preds = x.preds)

/-- R169, R333, R367, R370, R377: a unit whose time has come posts its first waiting entry into its die's ring when there is
room, at SQBASE as a physical address (log 19), and SQIRQ's host core is interrupted as SQTAIL leaves SQHEAD; with no room the
unit waits 1,024 cycles more, and one cycle more for its turn among the sources of a cycle or for its ring line (R304); a
block without progress for its watchdog's time stops and posts kind 6; a launch that lacks tile entries posts kind 3, and one
whose pool is exhausted kind 5. -/
def Sys2Proof.Claims.SupervisorPosts : Prop :=
  (∀ (s : State) (d src at_ : Nat) (e : List Byte) (p q : List (Nat × List Byte)), (s.die d).posts = p ++ (at_, e) :: q →
    postSource e = src → (∀ x ∈ p, postSource x.2 ≠ src) → (s.die d).postDue (s.now d) = [src] → e.length = 64 →
    let pa := (s.die d).sqbase.toNat + 64 * ((s.die d).sqtail.toNat % (s.die d).sqsize.toNat)
    let turn := s.inPostOrder d src = true ∧ s.canTouch pa 64 = true
    ((s.die d).ringRoom = true → turn → pa % 64 = 0 → inHbm (pa / 128) = true → Leaves s (.supervisorPostRetry d) fun s' =>
      (s'.die d).posts = p ++ q ∧ (s'.die d).sqtail = (s.die d).sqtail + 1 ∧ (s'.die d).entries = (s.die d).entries ∧
      ((s.die d).sqhead = (s.die d).sqtail → s'.out.getLast? = some (.irq d (s.die d).sqirq.toNat true)) ∧ s'.view pa 8 = (s.tscAt d).toNat ∧
      ∀ k, 8 ≤ k → k < 64 → tgetD (s'.viewLine (pa / 128)) (pa % 128 + k) 0 = e.getD k 0) ∧
    ((s.die d).ringRoom = false → Leaves s (.supervisorPostRetry d) fun s' =>
      s' = s.setDie d fun x => { x with posts := p ++ (x.cycle + 1024, e) :: q }) ∧
    ((s.die d).ringRoom = true → ¬ turn → Leaves s (.supervisorPostRetry d) fun s' =>
      s' = s.setDie d fun x => { x with posts := p ++ (x.cycle + 1, e) :: q })) ∧
  (∀ (s : State) (u : Nat), (tget s.blocks u).isSome = true →
    let b := s.block u
    let d := dieOf b.core
    b.run.preempted = false → b.run.discarded = false → b.run.completed = false → b.run.stopped = false →
    (∃ e ∈ b.threads, e.2.st ≠ .exited) → 2 ^ (s.die d).wdlog.toNat ≤ b.run.wdog → s.discards u 0 0 = false →
    Leaves s (.watchdog u) fun s' => (s'.block u).run.stopped = true ∧ ∃ tok, s'.holdsEntry d tok 6 [] ∧
      ∀ e ∈ (s.die d).entries, e.token ≠ tok) ∧
  (∀ (s : State) (u : Nat), s.discards u 0 0 = true →
    let b := s.block u
    b.run.preempted = false → b.run.discarded = false → b.run.completed = false → b.run.stopped = false →
    (∃ e ∈ b.threads, e.2.st ≠ .exited) → 2 ^ (s.die (dieOf b.core)).wdlog.toNat ≤ b.run.wdog →
    Leaves s (.watchdog u) fun s' => (s'.block u).run.discarded = true ∧ (s'.block u).run.retries = b.run.retries + 1) ∧
  (∀ (s : State) (d : Nat), Leaves s (.tileEntryExhaustion d) fun s' => ∀ e ∈ s.launches, e.2.st = .running →
    e.2.finished = false → 2 ^ 20 ≤ tgetD e.2.tileWait d 0 → tgetD (s'.launch e.1).tileWait d 0 = 0 ∧
      ∃ x ∈ (s'.die d).entries, x.kind = 3 ∧ x.launch = e.1) ∧
  ∀ (s : State) (n : Nat), 65536 ≤ (s.launch n).poolCount → (s.launch n).poolPosted = false →
    Leaves s (.queuePoolExhausted n) fun s' => (s'.launch n).poolPosted = true ∧
      ∃ x ∈ (s'.die 0).entries, x.kind = 5 ∧ x.launch = n

/-- Every command of the supervisor, and what posts its entries. -/
def Obligations.SupervisorCommands : Prop :=
  Sys2Proof.Claims.EntryCommands ∧ Sys2Proof.Claims.EndCommands ∧ Sys2Proof.Claims.FaultCommands ∧
  Sys2Proof.Claims.SupervisorPosts

/-- R27-R34, R47, R112: BUNDLE_FORM dissolves what has ended and forms bundles of READY threads at one position;
GROUP_AGED marks a thread that has been READY for 2,048 cycles; RESULT_WRITEBACK lands a due result. -/
def Sys2Proof.Claims.MintSteps : Prop :=
  (∀ (s : State) (core : Nat), (s.blocks.map (·.1)).Pairwise (· < ·) →
    (∀ e ∈ s.blocks, (e.2.threads.map (·.1)).Pairwise (· < ·)) → (s.bundles.map (·.1)).Nodup →
    Leaves s (.bundleForm core) fun s' =>
      (∀ k bd, tget s.bundles k = some bd → bd.core = core → bd.ended = true → bd.next ≤ s.now (dieOf core) →
        tget s'.bundles k ≠ some bd) ∧
      ∀ k bd, tget s'.bundles k = some bd → tget s.bundles k ≠ some bd → bd.core = core ∧ bd.ended = false ∧
        bd.next = s.now (dieOf core) + 1 ∧ (s'.block bd.blk).core = core ∧ (s'.block bd.blk).run.served = true ∧
        ∀ m ∈ bd.members, let t := s'.thread bd.blk m.1
          t.st = .issuing ∧ t.base = bd.base ∧ t.index = bd.index ∧ t.hdr = some bd.hdr) ∧
  (∀ (s : State) (u t : Nat), s.has u t = true → (s.thread u t).st = .ready → 2048 ≤ s.nowB u - (s.thread u t).since →
    Leaves s (.groupAged u t) fun s' => s'.thread u t = { s.thread u t with aged := true } ∧ s'.mem = s.mem ∧
      ∀ v x, (v, x) ≠ (u, t) → s'.thread v x = s.thread v x) ∧
  ∀ (s : State) (j d due u t : Nat) (regs : List (Nat × Word)) (preds : List (Nat × Bool)) (sb : Option Nat),
    tget s.jobs j = some ⟨d, due, .result u t regs preds sb⟩ → due ≤ s.now d → s.has u t = true →
    Leaves s (.resultWriteback j) fun s' => s'.thread u t = (s.thread u t).landed regs preds sb ∧
      s'.jobs = tdel s.jobs j ∧ s'.mem = s.mem ∧ s'.cores = s.cores ∧
      ∀ v x, (v, x) ≠ (u, t) → s'.thread v x = s.thread v x

/-- R27, R31-R33, R35, R49: BUNDLE_FORM ranks the placeable threads of a block at one position with one header. Groups by header
word (log 68), and one member's YIELD or STALL ranking or holding its whole group (log 22), are the model's choices. Without a
reservation the group that ranks first becomes a bundle if a unit of its kind is free: of more than W threads the W lowest,
an aged group's with its oldest; on the free unit with the most home lanes, the lower of equals; a gathering member in the lane
of its position, any other in its home lane if it can, else the lowest left. -/
def Sys2Proof.Claims.BundleForming : Prop :=
  ∀ (s : State) (core : Nat), (s.blocks.map (·.1)).Pairwise (· < ·) →
    (∀ e ∈ s.blocks, (e.2.threads.map (·.1)).Pairwise (· < ·)) →
    let now := s.now (dieOf core)
    let y := (((s.dissolves core).pollWaits core).headers core).gathers core
    let ageOf (g : Grp) (i : Nat) := now - (y.thread g.blk i).since
    let rank (g : Grp) : Nat := if g.aged then 0 else if g.whole then 1 else if g.low then 3 else 2
    let size (g : Grp) := min g.tids.length g.w
    let first (l : List Int) := ∃ n, (∀ j < n, l.getD j 0 = 0) ∧ l.getD n 0 < 0
    let diff (a b : Nat) : Int := (a : Int) - b
    let higher (g h : Grp) : Prop := rank g < rank h ∨ (rank g = rank h ∧
      (g.aged = true → first [diff h.age g.age, diff g.res h.res, diff g.oldest h.oldest]) ∧
      (g.aged = false → first [diff (size h) (size g), diff g.base.toNat h.base.toNat, diff g.index.toNat h.index.toNat,
        diff g.res h.res]))
    let runs (g : Grp) := g ∈ y.groups core ∧ (g.aged = true ∨ g.held = false)
    (∀ g ∈ y.groups core, let k := y.block g.blk
      k.core = core ∧ k.run.served = true ∧ g.w = k.cfg.w ∧ g.res = k.resIdx ∧ g.tids ≠ [] ∧ g.tids.Pairwise (· < ·) ∧
      (∀ i, i ∈ g.tids ↔ ∃ t, tget k.threads i = some t ∧ k.placeable now t = true ∧ t.base = g.base ∧ t.index = g.index ∧
        t.hdr = some g.hdr ∧ k.gatherKey i t g.hdr = g.cohort) ∧
      (g.aged = true ↔ ∃ i ∈ g.tids, (y.thread g.blk i).aged = true) ∧
      (g.low = true ↔ ∃ i ∈ g.tids, (y.thread g.blk i).yielded = true) ∧
      (g.held = true ↔ ∃ i ∈ g.tids, now < (y.thread g.blk i).stallUntil) ∧
      (g.whole = true ↔ hdrGather g.hdr ≠ 0 ∧ g.index = 0 ∧ ∀ i ∈ g.tids, ∀ j ∈ k.unitOf (hdrGather g.hdr) i, j ∈ g.tids) ∧
      g.oldest ∈ g.tids ∧ g.age = ageOf g g.oldest ∧
      ∀ i ∈ g.tids, ageOf g i ≤ g.age ∧ (ageOf g i = g.age → g.oldest ≤ i)) ∧
    ∀ g : Grp, runs g → (∀ h, runs h → h ≠ g → higher g h) → (y.core core).resv = none → g.w ∈ [16, 32, 64] →
      let fits (k : Nat) := k < unitCount g.w ∧ ∀ q ∈ unitQuads g.w k, q ∈ y.freeQuads core
      (∃ k, fits k) → Leaves s (.bundleForm core) fun s' => ∃ bid bd k, tget s'.bundles bid = some bd ∧
        tget y.bundles bid = none ∧ bd.blk = g.blk ∧ bd.base = g.base ∧ bd.index = g.index ∧ bd.hdr = g.hdr ∧ fits k ∧
        bd.quads = unitQuads g.w k ∧
        let ms := bd.members.map (·.1)
        let home (t : Nat) := ((y.block g.blk).slotBase + t) % 128
        let score (j : Nat) := (ms.filter fun t => home t / g.w == j).length
        let unit (l : Nat) := k * g.w ≤ l ∧ l < (k + 1) * g.w
        let homed (t : Nat) := unit (home t) ∧ ∀ u ∈ ms, u < t → home u ≠ home t
        ms.Nodup ∧ (bd.members.map (·.2)).Nodup ∧ (∀ m ∈ bd.members, unit m.2) ∧
        (∀ j, fits j → score j ≤ score k ∧ (score j = score k → k ≤ j)) ∧
        (∀ t, t ∈ ms ↔ if g.tids.length ≤ g.w then t ∈ g.tids
          else if g.aged then t = g.oldest ∨ t ∈ (g.tids.filter (· != g.oldest)).take (g.w - 1)
          else t ∈ g.tids.take g.w) ∧
        ∀ m ∈ bd.members, (hdrGather g.hdr ≠ 0 → m.2 = k * g.w + m.1 % g.w) ∧
          (hdrGather g.hdr = 0 → (homed m.1 → m.2 = home m.1) ∧
            (¬ homed m.1 → ∀ l, unit l → l < m.2 → ∃ n ∈ bd.members, n.2 = l ∧ (homed n.1 ∨ n.1 < m.1)))

/-- R319, R320, R322, R329: a card is taken from an enabled host queue or a device queue: the queue moves on and the launch
waits under its number, or is complete at once with code 1 where its card breaks a rule; an overfull queue is disabled. The
low bits of QBASE are ignored (log 39), and rules on a graph's nodes wait for the start (log 43). -/
def Sys2Proof.Claims.CardsTaken : Prop :=
  (∀ (s : State) (q : Nat), q < 16 →
    let k := tgetD s.mod.queues q {}
    let used := (k.qtail - k.qhead).toNat
    let n := k.qsize.toNat
    k.qdis = false →
    (n < used → Leaves s (.cardTake q) fun s' => (tgetD s'.mod.queues q {}).qdis = true ∧ s'.launches = s.launches) ∧
    ∀ s2 pa rd, used ≤ n → used ≠ 0 → k.xen = true → isPow2 16 n = true → k.fault = none → k.bad = false →
      s.translate 0 { root := k.root.toNat, cid := k.cid.toNat } .load
        (k.qbase.toNat / 256 * 256 + 256 * (k.qhead.toNat % n)) = (s2, .ok pa rd) → s.canTouch pa 256 = true →
      Leaves s (.cardTake q) fun s' =>
        let z := s2.settle none pa 256
        let num := s.mod.launchCtr % (2 ^ 31 - 1) + 1
        let l0 : Launch := { card := (List.range 256).map fun x => tgetD (z.viewLine ((pa + x) / 128)) ((pa + x) % 128) 0,
                             ctx := { root := k.root.toNat, cid := k.cid.toNat }, queue := q }
        let why := if l0.isGraph = true ∧ l0.badFields = false then none else l0.refusal false
        (tgetD s'.mod.queues q {}).qhead = k.qhead + 1 ∧ s'.mod.launchCtr = num ∧ s'.mem = z.mem ∧
        tget s'.launches num = some { l0 with order := s.mod.orders, code := if why.isSome then 1 else 0,
                                              reason := why.getD 0, st := if why.isSome then .complete else .waiting }) ∧
  ∀ (s : State) (d : Nat) (card : List Byte) (parent num : Nat) (rest : List (List Byte × Nat × Nat)), d < 9 →
    (s.dm d).devq = (card, parent, num) :: rest → Leaves s (.cardTake (16 + d)) fun s' =>
      (s'.dm d).devq = rest ∧ ∃ l, tget s'.launches num = some l ∧ l.card = card ∧ l.parent = some parent ∧
        l.nest = (s.launch (s.block parent).cfg.launch).nest + 1 ∧ l.ctx = s.ctxOf parent ∧
        (l.st = .waiting ∨ (l.st = .complete ∧ l.code = 1))

/-- R320, R322, R324, R325: the first waiting launch of a queue starts when its chip allotment is free, or is refused; a plain
launch's next cluster is placed, its threads READY at the entry. -/
def Sys2Proof.Claims.LaunchesStart : Prop :=
  (∀ (s s2 : State) (n base : Nat) (kb : List Byte),
    let l := s.launch n
    (tget s.launches n).isSome = true → l.st = .waiting → s.firstWaiting n = true → l.fault = none → l.bad = false →
    l.isGraph = false → l.ngb = 0 → (s.running.map fun e => e.2.ngb).sum ≤ 16 → s.chipFit l.chipSize = some base →
    s.dispRead l.ctx l.kAddr (8 * l.kCount) = (s2, .bytes kb) → kb.length = 8 * l.kCount →
    let why := { l with nodes := [] }.refusal (decide (15 < l.nest))
    (why = none → Leaves s (.launchStart n) fun s' =>
      (s'.launch n).st = .running ∧ (s'.launch n).chipBase = base ∧ (s'.launch n).card = l.card ∧
      (∀ i < l.kCount, (s'.launch n).kvals.getD i 0 = BitVec.ofNat 64 (leVal ((kb.drop (8 * i)).take 8))) ∧
      ∀ d x, base ≤ x → x < base + l.chipSize → mget (s'.dm d).chip x = 0) ∧
    ∀ w, why = some w → Leaves s (.launchStart n) fun s' => (s'.launch n).st = .complete ∧ (s'.launch n).code = 1 ∧
      (s'.launch n).reason = w) ∧
  ∀ (s : State) (n h : Nat) (cores : List (Nat × Fit)),
    let l := s.launch n
    s.nextSite l = some (h, cores) → s.canDeal l = true → l.isGraph = false → l.back = [] → s.mayPlace n = true →
    s.onTurn n = true → Leaves s (.clusterPlace n) fun s' =>
      let m := min l.cs (l.nblk - l.nextBid)
      (s'.launch n).nextBid = l.nextBid + m ∧ (s'.launch n).placed = l.placed + m ∧
      ∃ (c : Nat) (x : Cluster), tget s'.clusters c = some x ∧ x.launch = n ∧ x.clid = l.nextBid / l.cs ∧ x.house = h ∧
        x.blocks.length = m ∧ ∀ j < m, let u := x.blocks.getD j 0
          let b := s'.block u
          b.cfg.launch = n ∧ b.cfg.bid = l.nextBid + j ∧ b.cfg.cluster = c ∧ b.cfg.n = l.nthr ∧ b.cfg.w = l.w ∧
          b.core = (cores.getD j (0, ⟨0, 0, 0, 0⟩)).1 ∧ b.cfg.tbase = BitVec.ofNat 64 l.trapBase ∧
          ∀ t < l.nthr, s'.thread u t =
            { base := BitVec.ofNat 64 l.entry, regBase := (s'.thread u t).regBase, since := s.now (dieOf b.core) + 1,
              limit := l.limit }

/-- R331, R332, R336-R339, R341: seed records, stolen records, or the batch of a READY launcher, which is fixed when it becomes
READY (log 76), become a block of their node: they stand in its window and leave their deque; the launcher leaves READY. -/
def Sys2Proof.Claims.GraphBlocks : Prop :=
  (∀ (s s2 : State) (n h : Nat) (c : Nat × Fit) (cs : List (Nat × Fit)) (bytes : List Byte),
    let l := s.launch n
    let k := s.chunkSize l
    let sz := (l.node l.seedNode).recBytes
    l.bad = false → s.seedSite l = some (h, c :: cs) → s.canDeal l = true → l.isGraph = true → l.back = [] →
    s.mayPlace n = true → s.onTurn n = true →
    s.dispRead l.ctx (l.seedAddr + l.nextSeed * sz) (k * sz) = (s2, .bytes bytes) → bytes.length = k * sz →
    Leaves s (.seedChunk n) fun s' => (s'.launch n).nextSeed = l.nextSeed + k ∧ (s'.launch n).placed = l.placed + 1 ∧
      ∃ u, let b := s'.block u
        b.cfg.launch = n ∧ b.cfg.stage = l.seedNode ∧ b.cfg.rcount = k ∧ b.core = c.1 ∧ b.cfg.depth = 0 ∧
        b.run.records.length = k ∧ (∀ x ∈ b.run.records, ∃ r, tget (s'.launch n).records x = some r ∧ r.st = .taken) ∧
        ∀ i < k * sz, mget b.scratch (b.cfg.rbase + i) = bytes.getD i 0) ∧
  ∀ (s : State) (n node house : Nat) (c : Nat × Fit),
    let l := s.launch n
    let may (source : Nat) (ids : List Nat) : Prop := l.st = .running ∧ l.code = 0 ∧ s.mayPlace n = true ∧
      s.nodeCore l house node = some c ∧ (∀ x ∈ ids, x ∈ l.deque source node ∧ ∃ r, tget l.records x = some r)
    let started (source : Nat) (ids : List Nat) (s' : State) : Prop :=
      (s'.launch n).deque source node = (l.deque source node).filter (fun x => !ids.contains x) ∧
      (source = house → tget (s'.launch n).ready (64 * house + node) = none) ∧
      (∀ x ∈ ids, ∃ r, tget (s'.launch n).records x = some r ∧ r.st = .taken) ∧
      ∃ u, let b := s'.block u
        b.cfg.launch = n ∧ b.cfg.stage = node ∧ b.core = c.1 ∧ b.run.records = ids ∧ b.cfg.rcount = ids.length ∧
        b.cfg.recs = ids.map (fun x => ((tget l.records x).map (·.bytes)).getD [])
    let oldest := (l.deque house node).take (min (l.deque house node).length (l.node node).maxRec)
    let newest := (l.deque house node).reverse.take (min (l.deque house node).length (l.node node).maxRec)
    (∀ since, s.readiness n house node = some (since, .timer) → may house oldest →
      Leaves s (.launcherTimer n house node) (started house oldest)) ∧
    (∀ since, s.readiness n house node = some (since, .full) → may house newest →
      Leaves s (.batchLaunch n house node) (started house newest)) ∧
    (∀ since, s.readiness n house node = some (since, .idle) → may house oldest →
      Leaves s (.batchLaunch n house node) (started house oldest)) ∧
    ∀ source, s.thief n house = true →
      (thiefOrder (dieOfHouse house)).findSome? (fun d => s.victimOn n house d) = some (source, node) →
      let ids := (l.deque source node).take (min (l.node node).target (((l.deque source node).length + 1) / 2))
      may source ids → Leaves s (.steal n house) (started source ids)

/-- R286, R326, R371-R373: a cluster that may be pre-empted stops, and so does the latest of the lowest priority when a higher one
has starved; with nothing in flight it is saved, and comes back, its threads as they were. -/
def Sys2Proof.Claims.Preemption : Prop :=
  (∀ (s : State) (c : Nat) (x : Cluster),
    let stops (s' : State) := (tgetD s'.clusters c {}).saving = true ∧ s'.mem = s.mem ∧
      ∀ u ∈ x.blocks, (tget s.blocks u).isSome = true → (s'.block u).run.stopped = true
    (s.mayPreempt c = true → tget s.clusters c = some x → x.saving = false → Leaves s (.preempt c) stops) ∧
    ∀ n, let l := s.launch n
      let prio (e : Nat × Cluster) := (s.launch e.2.launch).prio
      let low (e : Nat × Cluster) := e ∈ s.clusters ∧ prio e < l.prio ∧ s.mayPreempt e.1 = true
      low (c, x) → tget s.clusters c = some x → (∀ e, low e → prio (c, x) < prio e ∨
        (prio (c, x) = prio e ∧ (e.2.placedAt < x.placedAt ∨ e = (c, x)))) →
      s.starved n l = true → (∀ e ∈ s.clusters, e.2.saving = false) → Leaves s (.starvationPreempt n) stops) ∧
  (∀ (s : State) (c : Nat) (x : Cluster), tget s.clusters c = some x → x.saving = true → x.saved = false →
    (tget s.launches x.launch).isSome = true → x.blocks.Nodup → s.clusterResident c = true →
    let y := x.blocks.foldl State.leaveWatches s
    (∀ u ∈ x.blocks, (tget s.blocks u).isSome = true ∧ (s.block u).holding = false ∧
      (x.blocks.foldl State.stopCopies y).savable u = true) →
    Leaves s (.preempt c) fun s' => (tgetD s'.clusters c {}).saved = true ∧ (tgetD s'.clusters c {}).saving = false ∧
      (s'.launch x.launch).back = c :: (s.launch x.launch).back ∧ s'.mem = s.mem ∧
      ∀ u ∈ x.blocks, (s'.block u).run.preempted = true ∧ (s'.block u).scratch = (s.block u).scratch ∧
        (s'.block u).kregs = (s.block u).kregs ∧ ∀ t, (s'.thread u t).live = (y.thread u t).live ∧
          (s'.thread u t).preds = (y.thread u t).preds ∧ (s'.thread u t).base = (y.thread u t).base ∧
          (s'.thread u t).index = (y.thread u t).index ∧ (s'.thread u t).slice = (y.thread u t).slice) ∧
  ∀ (s : State) (c h : Nat) (x : Cluster) (cores : List (Nat × Fit)), tget s.clusters c = some x → x.saved = true →
    let l := s.launch x.launch
    l.back.head? = some c → s.canDeal l = true → s.mayPlace x.launch = true → s.onTurn x.launch = true →
    s.backSite l = some (c, h, cores) → x.cmds = [] → x.epis = [] → x.blocks.Nodup →
    (∀ u ∈ x.blocks, (tget s.blocks u).isSome = true ∧ s.entryNames (s.block u) = false) → Leaves s (.resumeBlock c) fun s' =>
      (tgetD s'.clusters c {}).saved = false ∧ (s'.launch x.launch).back = l.back.drop 1 ∧ s'.mem = s.mem ∧
      ∀ (j u : Nat), x.blocks[j]? = some u → let b := s'.block u
        b.core = (cores.getD j (0, ⟨0, 0, 0, 0⟩)).1 ∧ b.run.preempted = false ∧ b.run.stopped = false ∧
        b.scratch = (s.block u).scratch ∧ ∀ t, (s'.thread u t).live = (s.thread u t).live ∧
          (s'.thread u t).st = (s.thread u t).st ∧ (s'.thread u t).base = (s.thread u t).base ∧
          (s'.thread u t).index = (s.thread u t).index

/-- R327, R328, R341, R346: a block whose threads have exited is complete once its work is, its DONE event written; so is a launch
with nothing left, with its completion event; a discarded block starts again. -/
def Sys2Proof.Claims.Endings : Prop :=
  (∀ (s : State) (u : Nat),
    let b := s.block u
    let l := s.launch b.cfg.launch
    let d := dieOf b.core
    (tget s.blocks u).isSome = true → b.run.discarded = false → (∀ e ∈ b.threads, e.2.st = .exited) →
    b.run.completed = false → b.holding = false → b.run.confirming = false →
    (b.run.endMark = none → Leaves s (.blockComplete u) fun s' => (s'.block u).run.endMark = some s.seq ∧ s'.mem = s.mem) ∧
    ∀ mark, b.run.endMark = some mark → s.blockQuiet u = true → s.dieApplied d mark = true →
      s.blockSettled d u mark = true → (tgetD s.clusters b.cfg.cluster {}).blocks = [u] →
      (tget s.launches b.cfg.launch).isSome = true →
      let gone (s' : State) := tget s'.blocks u = none ∧ (s'.launch b.cfg.launch).done = l.done + 1
      (l.evAddr = 0 → Leaves s (.blockComplete u) fun s' => gone s' ∧ s'.mem = s.mem) ∧
      ∀ pa rd, l.evAddr ≠ 0 → b.run.evFault = none → b.run.evBad = false →
        s.translate d l.ctx .store (l.evAddr + 16 * (b.cfg.bid % l.evCount)) = (s, .ok pa rd) → pa % 16 = 0 →
        inHbm (pa / 128) = true → s.canTouch pa 16 = true → Leaves s (.blockComplete u) fun s' => gone s' ∧
          s'.view pa 8 = (s.tscAt d).toNat ∧ s'.view (pa + 8) 4 = b.cfg.bid % 2 ^ 32 ∧
          s'.view (pa + 12) 4 = b.run.endCode % 16 + 16 * (b.run.retries % 16) +
            (if b.engfault.val.getLsbD 31 then 256 else 0) + 65536 * (b.run.user.val.toNat % 256)) ∧
  (∀ (s : State) (n : Nat) (l : Launch), tget s.launches n = some l → l.isOver = true → l.fault = none → l.bad = false →
    (l.levAddr = 0 → Leaves s (.launchComplete n) fun s' => tget s'.launches n = none ∧ s'.mem = s.mem) ∧
    ∀ s2 pa rd, l.levAddr ≠ 0 → l.levAddr % 16 = 0 → s.translate 0 l.ctx .store l.levAddr = (s2, .ok pa rd) → pa % 16 = 0 →
      inHbm (pa / 128) = true → s.canTouch pa 16 = true → Leaves s (.launchComplete n) fun s' => tget s'.launches n = none ∧
        s'.view pa 8 = (s.tscAt 0).toNat ∧ s'.view (pa + 8) 4 = n % 2 ^ 32 ∧
        s'.view (pa + 12) 4 = (l.code + 16 * l.reason + (if l.evlost then 4096 else 0)) % 2 ^ 32) ∧
  ∀ (s : State) (u core : Nat) (f : Fit), (tget s.blocks u).isSome = true → (s.block u).run.discarded = true →
    s.mod.uids ≠ u →
    let b := s.block u
    s.mayPlace b.cfg.launch = true → s.retrySite b = some (core, f) →
    Leaves s (.blockRetry u) fun s' => tget s'.blocks u = none ∧ s'.mem = s.mem ∧
      let x := s'.block s.mod.uids
      x.cfg = b.cfg ∧ x.core = core ∧ x.run.retries = b.run.retries ∧ x.run.records = b.run.records ∧ core ≠ b.core ∧
      ∀ t < b.cfg.n, s'.thread s.mod.uids t =
        { base := b.cfg.entry, regBase := (s'.thread s.mod.uids t).regBase, since := s.now (dieOf core) + 1,
          limit := b.cfg.limit }

/-- Cards, launches, placement, pre-emption, launchers, retry and completion. -/
def Obligations.LaunchEvents : Prop :=
  Sys2Proof.Claims.MintSteps ∧ Sys2Proof.Claims.BundleForming ∧ Sys2Proof.Claims.CardsTaken ∧
  Sys2Proof.Claims.LaunchesStart ∧ Sys2Proof.Claims.GraphBlocks ∧ Sys2Proof.Claims.Preemption ∧
  Sys2Proof.Claims.Endings

/-- R319, R320, R376, R378: writes of the module block: queue tails and sizes, FEATSEL and ROUTE while no launch runs and no
card waits, else MERR; MERR and PLIM with their rules. -/
def Sys2Proof.Claims.ModuleWrites : Prop :=
  ∀ s : State,
    let queue (s : State) (q : Nat) : HostQueue := tgetD s.mod.queues q {}
    let quiet := (∀ e ∈ s.launches, e.2.st = .running → e.2.finished = true) ∧ ∀ e ∈ s.mod.queues, e.2.qhead = e.2.qtail
    (∀ q v, q < 16 → Leaves s (.qtailWrite q v) fun s' => queue s' q = { queue s q with qtail := v } ∧ s'.mem = s.mem ∧
      ∀ p, p ≠ q → queue s' p = queue s p) ∧
    (∀ q v, q < 16 → Leaves s (.qsizeWrite q v) fun s' => let k := queue s q
      queue s' q = (if k.qdis then { k with qsize := v, qhead := k.qtail, qdis := false, fault := none, bad := false }
        else if k.qhead = k.qtail then { k with qsize := v } else k) ∧ ∀ p, p ≠ q → queue s' p = queue s p) ∧
    (∀ v : DWord, Leaves s (.featselCommit 8 v) fun s' =>
      (quiet → s'.mod.merr = s.mod.merr ∧ s'.mod.featsel =
        (v ++ tgetD s.mod.feath 1 0 ++ tgetD s.mod.feath 0 0 : BitVec 128) &&& 0x1FFF) ∧
      (¬ quiet → s'.mod.merr = true ∧ s'.mod.featsel = s.mod.featsel)) ∧
    (∀ v : DWord, Leaves s (.featselCommit 4 v) fun s' =>
      (quiet → s'.mod.featsel = (v.setWidth 32 ++ tgetD s.mod.feath 2 0 ++ tgetD s.mod.feath 1 0 ++
        tgetD s.mod.feath 0 0 : BitVec 128) &&& 0x1FFF) ∧ (¬ quiet → s'.mod.merr = true ∧ s'.mod.featsel = s.mod.featsel)) ∧
    (∀ d v, d < 64 → Leaves s (.routeWrite d v) fun s' =>
      (quiet → tgetD s'.mod.route d 0 = v.setWidth 12 ∧ ∀ e, e ≠ d → tgetD s'.mod.route e 0 = tgetD s.mod.route e 0) ∧
      (¬ quiet → s'.mod.merr = true ∧ s'.mod.route = s.mod.route)) ∧
    (∀ v, exec (.merrClear v) s = .next { s with mod := { s.mod with merr := s.mod.merr && !v.getLsbD 0 } }) ∧
    ∀ v, Leaves s (.plimWrite v) fun s' => s'.mod.plim.toNat = min 6800 (max 1000 (v.toNat % 8192)) ∧
      s' = { s with mod := { s.mod with plim := s'.mod.plim } }

/-- R314-R316: writes of the HBM control blocks. QREQ 1 on an idle home brings every line of the stack home and sets QACK;
HMASK and HPLACE change only under QACK, of their stack and of all sixteen, and else set WERR. -/
def Sys2Proof.Claims.HbmWrites : Prop :=
  ∀ (s : State) (k : Nat),
    let only (s' : State) (f : Stack → Stack) := s'.stack k = f (s.stack k) ∧ (∀ j, j ≠ k → s'.stack j = s.stack j) ∧
      s'.mem = s.mem ∧ s'.dmem = s.dmem
    ((s.stack k).qack = false → s.stackIdle k = true → Leaves s (.qreqSet k) fun s' => (s'.stack k).qreq = true ∧
      (s'.stack k).qack = true ∧ ∀ e ∈ (s.stack k).homes, inHbm e.1 = true → s.stackOf e.1 = k → (s'.homeOf e.1).st = .I) ∧
    ((s.stack k).qack = true ∨ s.stackIdle k = false →
      Leaves s (.qreqSet k) fun s' => only s' fun x => { x with qreq := true }) ∧
    (Leaves s (.qreqClear k) fun s' => only s' fun x => { x with qreq := false }) ∧
    (∀ v, Leaves s (.hmaskWrite k v) fun s' => only s' fun x =>
      if x.qack then { x with hmask := v.setWidth 24 } else { x with werr := true }) ∧
    (∀ v, Leaves s (.werrClear k v) fun s' => only s' fun x => { x with werr := x.werr && !v.getLsbD 16 }) ∧
    ∀ v, ((∀ j < 16, (s.stack j).qack = true) → Leaves s (.hplaceWrite v) fun s' => s'.mod.hplace = v ∧ s'.mem = s.mem) ∧
      ((∃ j < 16, (s.stack j).qack = false) → Leaves s (.hplaceWrite v) fun s' => s'.mod = s.mod ∧ s'.mem = s.mem ∧
        s'.stack 0 = { s.stack 0 with werr := true })

/-- R308, R355, R371, R375, R377, R379: writes of a die's window: WDLOG, CMDERR, SDGO, PEGO, CXLROLE and the counters'
configuration; a command that breaks its rule sets CMDERR and does nothing else. That a CXLROLE write which changes the role
drops CXLUP is the model's choice (log 53). -/
def Sys2Proof.Claims.DieWrites : Prop :=
  ∀ (s : State) (d : Nat) (v : Word), d < 9 →
    let x := s.die d
    let bad (i : Instr) := exec i s = .next (s.setDie d fun y => { y with cmderr := true })
    exec (.cmderrClear d v) s = .next (s.setDie d fun y => { y with cmderr := y.cmderr && !v.getLsbD 8 }) ∧
    (Leaves s (.wdlogWrite d v) fun s' => (s'.die d).wdlog.toNat = min 40 (max 16 (v.toNat % 64)) ∧
      s' = s.setDie d fun y => { y with wdlog := (s'.die d).wdlog }) ∧
    (v.getLsbD 31 = true → x.sdcnt = 0 ∨ x.sdva.toNat % 4096 ≠ 0 ∨ x.sdgo = true → bad (.sdgoWrite d v)) ∧
    (v.getLsbD 31 = false → exec (.sdgoWrite d v) s = .next (s.setDie d fun y => { y with sdcid := v.setWidth 16 })) ∧
    (v.getLsbD 31 = true → x.sdcnt ≠ 0 → x.sdva.toNat % 4096 = 0 → x.sdgo = false → Leaves s (.sdgoWrite d v) fun s' =>
      (s'.die d).sdgo = true ∧ (s'.die d).sdcid = v.setWidth 16 ∧ s'.mem = s.mem ∧
      ∀ e ∈ s.dmem, ∀ t ∈ (s'.dm e.1).tlb, t ∈ (s.dm e.1).tlb ∧ ∀ va, x.sdva.toNat ≤ va →
        va < x.sdva.toNat + 4096 * x.sdcnt.toNat → t.covers va (v.toNat % 2 ^ 16) = false) ∧
    (v.getLsbD 0 = false → exec (.pegoWrite d v) s = .next s) ∧
    (v.getLsbD 0 = true → s.peTarget d = none → bad (.pegoWrite d v)) ∧
    (∀ c, v.getLsbD 0 = true → s.peTarget d = some c → s.mayPreempt c = false → bad (.pegoWrite d v)) ∧
    (∀ c, v.getLsbD 0 = true → s.peTarget d = some c → s.mayPreempt c = true → Leaves s (.pegoWrite d v) fun s' =>
      (s'.die d).pego = some c ∧ (tgetD s'.clusters c {}).saving = true ∧ s'.mem = s.mem) ∧
    (d % 2 = 0 → exec (.cxlroleWrite d v) s = .next s) ∧
    (d % 2 = 1 → (v.toNat % 4 = 3 ∨ (v.toNat % 4 = 1 ∧ ∃ e ∈ [1, 3, 5, 7], e ≠ d ∧ (s.link e).cxlrole = 1)) →
      bad (.cxlroleWrite d v)) ∧
    (d % 2 = 1 → (v.toNat % 4 = 0 ∨ v.toNat % 4 = 2 ∨ (v.toNat % 4 = 1 ∧ ∀ e ∈ [1, 3, 5, 7], e ≠ d →
      (s.link e).cxlrole ≠ 1)) → Leaves s (.cxlroleWrite d v) fun s' => (s'.link d).cxlrole = v.setWidth 2 ∧
        (s'.link d).cxlup = ((s.link d).cxlup && (s.link d).cxlrole == v.setWidth 2) ∧
        ∀ e, e ≠ d → s'.link e = s.link e) ∧
    ∀ n < 32, (cfgBad true v = true → bad (.counterCfgWrite d n v)) ∧
      (cfgBad true v = false → Leaves s (.counterCfgWrite d n v) fun s' =>
        let c := tgetD (s'.die d).ctrs n {}
        let o := tgetD x.ctrs n {}
        c.cfg = v &&& ~~~0x200 ∧ c.val = if v.getLsbD 9 then 0 else if o.stamp = s.now d + 1 then o.was else o.val)

/-- R375-R378: CONTROL_REGISTER_WRITE: an aligned 4-byte write is one word's; a misaligned one, or one outside control space,
does nothing; the registers' offsets. That an 8-byte write is two 4-byte writes, the low word first, is the model's reading
(log 50). -/
def Sys2Proof.Claims.ControlWords : Prop :=
  ∀ (s : State) (v : DWord),
    let base := 2 ^ 40
    let same (a size : Nat) (w : DWord) (i : Instr) := exec (.controlRegisterWrite a size w) s = exec i s
    (∀ a size, a < base ∨ 2 ^ 41 ≤ a ∨ a % size ≠ 0 → exec (.controlRegisterWrite a size v) s = .next s) ∧
    (∀ a, base ≤ a → a < 2 ^ 41 → a % 8 = 0 → ∃ s', exec (.controlRegisterWrite a 4 v) s = .next s' ∧
      exec (.controlRegisterWrite a 8 v) s = exec (.controlRegisterWrite (a + 4) 4 ((v >>> 32))) s') ∧
    same (base + 15 * 2 ^ 32 + 0x28) 4 v (.plimWrite (v.setWidth 32)) ∧
    same (base + 15 * 2 ^ 32 + 0x18) 8 v (.featselCommit 8 v) ∧
    (∀ q < 16, same (base + 15 * 2 ^ 32 + 0x1000 + 0x40 * q + 0xC) 4 v (.qtailWrite q (v.setWidth 32)) ∧
      same (base + 15 * 2 ^ 32 + 0x1000 + 0x40 * q + 8) 4 v (.qsizeWrite q (v.setWidth 32))) ∧
    (∀ d < 64, same (base + 15 * 2 ^ 32 + 0x2000 + 8 * d) 4 v (.routeWrite d v)) ∧
    ∀ d < 9, same (base + d * 2 ^ 32 + 0x400C) 4 v (.sdgoWrite d (v.setWidth 32)) ∧
      same (base + d * 2 ^ 32 + 0x4108) 4 v (.pegoWrite d (v.setWidth 32)) ∧
      same (base + d * 2 ^ 32 + 0x5000) 4 v (.cxlroleWrite d (v.setWidth 32)) ∧
      ∀ n < 32, same (base + d * 2 ^ 32 + 0x2000 + 16 * n) 4 v (.counterCfgWrite d n (v.setWidth 32))

/-- Writes of the host to control space. -/
def Obligations.ControlSpace : Prop :=
  Sys2Proof.Claims.ModuleWrites ∧ Sys2Proof.Claims.HbmWrites ∧ Sys2Proof.Claims.DieWrites ∧
  Sys2Proof.Claims.ControlWords

/-- R233, R275, R374: a host core's load, store, AMO, LR, SC and FENCE of the module's memory. A read finds the line with its
W and U copies merged; a store stands in its core's store buffer, whose own loads take their bytes from it, until the weak
ordering or a FENCE performs it, and a hart at a FENCE makes no access before its stores are performed; AMO, LR and SC are
performed at the home as one step. That each access is one step for every agent, and that .aq adds nothing to the order of the
events, is the model's choice (log 52). -/
def Sys2Proof.Claims.HostCores : Prop :=
  ∀ (s : State) (hart a size : Nat), s.mod.boot = .supervisor → hart < 72 → size ∈ [1, 2, 4, 8] → a % size = 0 →
    inHbm (a / 128) = true → s.canTouch a size = true →
    (hart ∈ s.mod.hostFence → ∀ op, op ≠ .fence → exec (.hostCoreAccess hart a size op) s = .next s) ∧
    (hart ∉ s.mod.hostFence →
    let z := s.settleLine none (a / 128) (halvesAt (a / 128) a size)
    let old := z.view a size
    let act := fun op P => Leaves s (.hostCoreAccess hart a size op) P
    let wrote (s' : State) (v : Nat) := s'.view a size = v % 2 ^ (8 * size)
    let told (s' : State) (v : Nat) := s'.out.getLast? = some (.host hart (BitVec.ofNat 64 v))
    let low (v : BitVec 64) := v.toNat % 2 ^ (8 * size)
    let signed (n : Nat) : Int := (BitVec.ofNat (8 * size) n).toInt
    let mine := s.mod.hostBuf.filter fun e => e.hart == hart
    let apart (e : HostStore) := e.pa + e.size ≤ a ∨ a + size ≤ e.pa
    ((∀ e ∈ mine, apart e) → act .load fun s' => told s' old ∧ s'.mem = z.mem) ∧
    (∀ l e r, mine = l ++ e :: r → (∀ f ∈ r, apart f) → ¬ apart e →
      (e.pa ≤ a ∧ a + size ≤ e.pa + e.size →
        act .load fun s' => told s' (e.val / 256 ^ (a - e.pa) % 2 ^ (8 * size)) ∧ s'.mem = s.mem) ∧
      (¬ (e.pa ≤ a ∧ a + size ≤ e.pa + e.size) → exec (.hostCoreAccess hart a size .load) s = .next s)) ∧
    (∀ v, exec (.hostCoreAccess hart a size (.store v)) s =
      .next { s with mod := { s.mod with hostBuf := s.mod.hostBuf ++ [{ hart, pa := a, size, val := low v }] } }) ∧
    (∀ aq rl, (if rl then mine = [] else ∀ e ∈ mine, e.pa / 128 ≠ a / 128) →
      (∀ v, ∀ e ∈ [(HostAmo.swap, low v), (.add, old + low v), (.and, old &&& low v), (.or, old ||| low v),
          (.xor, old ^^^ low v), (.min, if signed (low v) < signed old then low v else old),
          (.max, if signed old < signed (low v) then low v else old), (.minu, min old (low v)),
          (.maxu, max old (low v))],
        act (.amo e.1 v aq rl) fun s' => told s' old ∧ wrote s' e.2) ∧
      (act (.lr aq rl) fun s' => told s' old ∧ tget s'.mod.hostResv hart = some (a / 128) ∧ s'.mem = z.mem) ∧
      (∀ v, tget s.mod.hostResv hart = some (a / 128) → act (.sc v aq rl) fun s' =>
        told s' 0 ∧ wrote s' v.toNat ∧ tget s'.mod.hostResv hart = none) ∧
      ∀ v, tget s.mod.hostResv hart ≠ some (a / 128) → act (.sc v aq rl) fun s' => told s' 1 ∧ s'.mem = s.mem) ∧
    (mine = [] → exec (.hostCoreAccess hart a size .fence) s = .next s) ∧
    (∀ e ∈ mine.head?, s.canTouch e.pa e.size = false → exec (.hostCoreAccess hart a size .fence) s =
      .next { s with mod := { s.mod with hostFence := s.mod.hostFence ++ [hart] } }) ∧
    ∀ v, mine = [{ hart, pa := a, size, val := v }] → act .fence fun s' =>
      wrote s' v ∧ s'.mod.hostBuf = (s.mod.hostBuf.filter fun e => e.hart != hart) ∧ hart ∉ s'.mod.hostFence)

/-- R381-R383: the boot chain checks, measures and starts each image or stops; measurements and management packets are
answered; links train and drop; the power controller renews PNOW and moves one clock by one step. SHAKE256 and the
verification are those of their standards (log 99); the stages as the table's events take them (log 11), what an outstanding
access of a dropped link becomes (log 53), the watts and the choice of a clock (log 57), the layout of management replies and
how the boot flash is held (log 58) and the byte order of a measurement (log 59) are the model's. -/
def Sys2Proof.Claims.BootAndLinks : Prop :=
  ∀ s : State,
    (∀ key image sig ver, s.mod.boot = .rom ∨ s.mod.boot = .loader → Leaves s (.powerOnBoot key image sig ver) fun s' =>
      if s.mod.boot = .rom ∧ s.inFlash key image sig ver = false then s' = s else
      let k := if s.mod.boot = .rom then 0 else 1
      let good := key.length = 64 ∧ sig.length = 29792 ∧ leVal (shake256 key 32) = Config.fusedKeyHash ∧
        Config.fusedMinVersion ≤ ver.toNat ∧ slhVerifies key image sig = true
      (¬ good → s'.mod.boot = .stopped ∧ s'.mod.meas = s.mod.meas) ∧
      (good → s'.mod.boot = (if s.mod.boot = .rom then .loader else .supervisor) ∧ s'.mem = s.mem ∧
        tgetD s'.mod.meas k 0 = BitVec.ofNat 512 (leVal (shake256 (leBytes 64 (tgetD s.mod.meas k 0).toNat ++
          shake256 image 64) 64)) ∧ ∀ j, j ≠ k → tgetD s'.mod.meas j 0 = tgetD s.mod.meas j 0)) ∧
    (∀ key image sig ver, s.mod.boot = .supervisor ∨ s.mod.boot = .stopped → s.powerOn.mod.boot = .rom ∧
      s.powerOn.mod.flash = s.mod.flash ∧ exec (.powerOnBoot key image sig ver) s =
        if s.inFlash key image sig ver then exec (.powerOnBoot key image sig ver) s.powerOn else .next s) ∧
    (∀ port, s.mod.boot ≠ .stopped → (port = 4 ∨ (port < 4 ∧ (s.link (2 * port + 1)).cxlrole = 1)) →
      Leaves s (.spdmGetMeasurements port) fun s' => ∃ sig, s'.out = s.out ++ [.mctp (8 + port)
        (((List.range 8).flatMap fun k => leBytes 64 (tgetD s.mod.meas k 0).toNat) ++ sig)] ∧ s'.mod = s.mod) ∧
    (∀ kind body, kind ∈ [0, 5] ∨ (kind ∈ [2, 6] ∧ s.mod.boot ≠ .stopped) → Leaves s (.mctpPacket kind body) fun s' =>
      ∃ reply, s'.out = s.out ++ [.mctp kind reply] ∧ s'.mem = s.mem ∧
      s'.mod.flash = s.mod.flash ++ (if kind = 5 then [body] else []) ∧ (kind = 2 → ∃ rest, reply =
        ((List.range 9).flatMap fun d => leBytes 2 (s.die d).pnow.toNat ++ leBytes 2 (s.die d).pclk.toNat) ++ rest ∧
        50 ≤ rest.length)) ∧
    (∀ d ∈ [1, 3, 5, 7], (s.link d).cxlrole = 1 ∨ (s.link d).cxlrole = 2 →
      exec (.cxlLinkTrained d) s = .next (s.setLink d fun x => { x with cxlup := true })) ∧
    (∀ p < 12, let w := wofortPlace p
      tgetD (s.link w.1).wen w.2 false = true → Leaves s (.wofortPortTrained p) fun s' =>
        tgetD (s'.link w.1).wup w.2 false = true ∧ s'.mem = s.mem) ∧
    (∀ p < 4, (s.link (2 * p + 1)).cxlup = true →
      ((s.link (2 * p + 1)).cxlrole ≠ 2 →
        exec (.cxlLinkDown p) s = .next (s.setLink (2 * p + 1) fun x => { x with cxlup := false })) ∧
      ((s.link (2 * p + 1)).cxlrole = 2 → s.jobs = [] → Leaves s (.cxlLinkDown p) fun s' =>
        (s'.link (2 * p + 1)).cxlup = false ∧
        ∀ c l, l ∈ (s.core c).loads → s.loadOut p l = true → (s.block l.blk).core = c → s.handles l.blk 10 3 →
          s.has l.blk l.tid = true → (s.thread l.blk l.tid).inh = false → (s.thread l.blk l.tid).st ≠ .exited →
          l ∉ (s'.core c).loads ∧ (s'.thread l.blk l.tid).inh = true)) ∧
    (s.tscAcc < 1000 → s.tsc ≠ 0 → s.tsc.toNat % 1000 = 0 → Leaves s .powerControlTick fun s' =>
      let clock (s : State) (d : Nat) := (s.die d).pclk.toNat
      s'.mem = s.mem ∧ s'.blocks = s.blocks ∧ (∀ d < 9, (s'.die d).pnow.toNat ≤ 640) ∧ (∀ d, clock s' d = clock s d ∨
        (400 < clock s d ∧ clock s' d = max 400 (clock s d - 25)) ∨
        (clock s d < 1050 ∧ clock s' d = min 1050 (clock s d + 25))) ∧
      ∀ d e, clock s' d ≠ clock s d → clock s' e ≠ clock s e → d = e)

/-- R257-R259, R379, R380: snoops and answers of a CXL host on a trained port (log 32: only a modified half brings data), an
outside host's accesses to the module's memory, which leave its half S or M in HOST (log 31), and flits of linked devices:
that kind 1 is a write, kind 3 its answer, and that a flit bears its source's number, in an answer this device's, is the model's
choice (log 20). -/
def Sys2Proof.Claims.OutsideTraffic : Prop :=
  (∀ (s : State) (line k : Nat), inHbm line = false → s.portDown line = false → k < 2 →
    let h := s.hostHalf line k
    let sent := if h.st = .M then [Out.cxl (s.port? line) line k 6 (some (halfOf (s.newest line) k))] else []
    (Leaves s (.snpData line k) fun s' => s'.out = s.out ++ sent ∧ s'.mem = s.mem ∧
      (s'.hostHalf line k).st = (if h.st = .E ∨ h.st = .M then .S else h.st) ∧ (s'.hostHalf line k).dirty = none ∧
      (s'.hostHalf line k).dies = h.dies ∧ s'.hostHalf line (1 - k) = s.hostHalf line (1 - k)) ∧
    (Leaves s (.snpInv line k) fun s' => s'.out = s.out ++ sent ∧ s'.mem = s.mem ∧ (s'.hostHalf line k).st = .I ∧
      (s'.hostHalf line k).dies = [] ∧ s'.hostHalf line (1 - k) = s.hostHalf line (1 - k) ∧
      ∀ d ∈ h.dies, ∀ l, s'.l2 d line = some l → ∀ e ∈ l.data, e.1 / 64 ≠ k) ∧
    ∀ (port d : Nat) (own : Bool) (data : BitVec 512), h.asked = some (d, own) → s.region (line * 128) = .cxl port →
      h.dies = [] → (s.sliceLoad d line).1 < 49152 → (s.sliceLoad d line).2 + 2 ≤ 49152 → Leaves s (.cxlResponse port line k data) fun s' =>
        (s'.hostHalf line k).asked = none ∧ (s'.hostHalf line k).dies = [d] ∧
        (s'.hostHalf line k).st = (if own then .E else if h.st = .I then .S else h.st) ∧ s'.mem = s.mem ∧
        ∃ l, s'.l2 d line = some l ∧ ∀ j < 64, tgetD l.data (64 * k + j) 0 = BitVec.ofNat 8 (data.toNat / 2 ^ (8 * j))) ∧
  (∀ (s : State) (line k port : Nat), s.hostPort = some port → inHbm line = true → k < 2 →
    s.canTouch (line * 128) 128 = true →
    (Leaves s (.hostHdmAccess line k none) fun s' => ∃ v, s'.out.getLast? = some (.cxl port line k 6 (some v)) ∧
      fld (s'.homeOf line).host (2 * k) 2 ≠ 0 ∧
      ((s.homeOf line).st = .I → (∀ j < 2, (fld (s.homeOf line).host (2 * j) 2).toNat ≠ 2) →
        v = halfOf (s.viewLine line) k ∧ s'.mem = s.mem)) ∧
    ∀ v : BitVec 512, Leaves s (.hostHdmAccess line k (some v)) fun s' =>
      fld (s'.homeOf line).host (2 * k) 2 = 2 ∧
      ∀ j < 64, tgetD (s'.viewLine line) (64 * k + j) 0 = BitVec.ofNat 8 (v.toNat / 2 ^ (8 * j))) ∧
  ∀ (s : State) (port src dst address kind : Nat) (data : Option (BitVec 512)),
    let up := tgetD (s.link (wofortPlace port).1).wup (wofortPlace port).2 false
    (dst ≠ s.mod.devnum.toNat → tgetD s.mod.route dst 0 ≠ 0 →
      Leaves s (.wofortFlit port src dst address kind data) fun s' => s'.mem = s.mem ∧ ∃ b,
        s'.out = s.out ++ [.wofort (s.portOf dst address) src dst address kind b] ∧
        ∀ v, data = some v → b = halfBytes (address / 64 % 2) v) ∧
    (dst = s.mod.devnum.toNat → up = true → address < 2 ^ 40 → s.canTouch (address / 128 * 128) 128 = true →
      ∀ v, data = some v → Leaves s (.wofortFlit port src dst address 1 data) fun s' =>
        s'.out.getLast? = some (.wofort (s'.portOf src address) dst src address 3 []) ∧
        ∀ j < 64, tgetD (s'.viewLine (address / 128)) (64 * (address / 64 % 2) + j) 0 =
          BitVec.ofNat 8 (v.toNat / 2 ^ (8 * j)))

/-- Host cores, boot, management, links, power and outside traffic. -/
def Obligations.OutsideWorld : Prop :=
  Sys2Proof.Claims.HostCores ∧ Sys2Proof.Claims.BootAndLinks ∧ Sys2Proof.Claims.OutsideTraffic

/-! ## Numbers, words and steps -/

/-- R4: byte i of a multi-byte value, counted from the lowest address, holds bits [8i+7:8i], in memory, in a line and in a
code word; a byte outside a write keeps its value; a 64-bit value in a pair keeps bits [31:0] in the named register. -/
def Obligations.LittleEndian : Prop :=
  (∀ (m : Mem) (a n v : Nat), mread m a n < 256 ^ n ∧ (∀ i < n, mread m a n / 256 ^ i % 256 = (mget m (a + i)).toNat) ∧
    (Memory.wf m = true → ∀ k, mget (mwrite m a n v) k =
      if a ≤ k ∧ k < a + n then BitVec.ofNat 8 (v / 256 ^ (k - a)) else mget m k)) ∧
  (∀ (l : LineBytes) (o n v : Nat), lineVal l o n < 256 ^ n ∧
    (∀ i < n, lineVal l o n / 256 ^ i % 256 = (tgetD l (o + i) 0).toNat) ∧
    ∀ k, tget (lineOf o n v) k = if o ≤ k ∧ k < o + n then some (BitVec.ofNat 8 (v / 256 ^ (k - o))) else none) ∧
  (∀ (bs : List Byte) (i : Instr) (rest : List Byte), decodeBytes bs = some (i, rest) ↔
    ∃ w : DWord, bs = ((List.range 8).map fun k => fld w (8 * k) 8) ++ rest ∧ decode w = .ok i) ∧
  (∀ (t : Thread) (r : Nat), fld (t.rd64 r) 0 32 = t.rd r ∧ fld (t.rd64 r) 32 32 = t.rd (r + 1)) ∧
  ∀ (t : Thread) (r : Nat) (v : DWord), r < 254 →
    (t.wrs (pairW r v)).rd r = fld v 0 32 ∧ (t.wrs (pairW r v)).rd (r + 1) = fld v 32 32 ∧
    (t.wrs (pairW r v)).rd64 r = v

/-- R6, R303, R304, R314, R376, R377: after reset the memory is canonical and lists nothing, time is 0, no block, launch,
bundle or job exists, and every die, stack and module register reads its reset value. That unwritten memory reads 0 is the
model's choice (log 1), and so is that queues and caches begin empty (log 12). -/
def Obligations.ResetState : Prop :=
  let z := State.reset
  Memory.wf z.mem = true ∧ (∀ a, mget z.mem a = 0) ∧ z.tsc = 0 ∧ z.work = [] ∧ z.jobs = [] ∧ z.msgs = [] ∧ z.out = [] ∧
  (∀ k, tget z.blocks k = none ∧ tget z.bundles k = none ∧ tget z.launches k = none ∧ tget z.clusters k = none) ∧
  (∀ d, (z.die d).cycle = 0 ∧ (z.die d).pclk = 1050 ∧ (z.die d).sqsize = 0 ∧ (z.die d).sqtail = 0 ∧ (z.die d).sqhead = 0 ∧
    (z.die d).wdlog = 26 ∧ (z.die d).cmderr = false ∧ (z.die d).entries = [] ∧ (z.die d).sdgo = false ∧
    (z.dm d).lines = [] ∧ (z.dm d).wb = [] ∧ (z.dm d).tlb = [] ∧ (z.dm d).locks = [] ∧ (z.link d).cxlrole = 0 ∧
    (z.link d).cxlup = false) ∧
  (∀ c, (z.core c).fifo = [] ∧ (z.core c).loads = []) ∧
  (∀ k, (z.stack k).hmask = 0xFFFFC0 ∧ (z.stack k).werr = false ∧ (z.stack k).qreq = false ∧ (z.stack k).qack = false ∧
    (z.stack k).homes = []) ∧
  z.mod.featsel = 0x1FFF ∧ z.mod.merr = false ∧ z.mod.plim = 6800 ∧ z.mod.hplace = 0 ∧ z.mod.boot = .rom

/-- R31, R43, R46, R51, R351: a step runs the next item of the cycle's work. A bundle whose next word decodes to an instruction
runs exec of it, in the machine that the fetch leaves: the word is the one that the bundle has fetched at the cycle's start, or
what memory holds now; where the die holds the translation the fetch changes nothing but a die's counted events and the count of
free values drawn (log 85), and a fetch that failed at the cycle's start takes that failure. An event runs exec of the event; the
exits, arrivals and confirmations of the cycle, the launchers' turns and the cores' ends have steps of their own; with no work
left the next cycle begins. -/
def Sys2Proof.Claims.StepRuns : Prop :=
  (∀ (s : State) (bid : Nat) (early : Early) (rest : List Work) (b : Bundle),
    let t : State := { s with work := rest, cur := some bid }
    let d := dieOf (s.block b.blk).core
    let va := b.base.toNat + 8 * (b.index.toNat + 1)
    let after := (t.fetch b.blk va).1
    let now := (t.fetch b.blk va).2
    s.work = .issue bid early :: rest → tget s.bundles bid = some b → b.ended = false →
    (∀ w i, (early = .word w ∨ (early = .none ∧ now = .ok w)) → decodeLoose w = .ok i → step s = exec i after) ∧
    (∀ f, early = .failed f → step s = .next (after.wordFail bid b va f)) ∧
    ∀ t2 pa rd, t.translate d (t.ctxOf b.blk) .fetch va = (t2, .ok pa rd) → t2.stopped (pa / 128) = false → t2.portDown (pa / 128) = false →
      now = .ok (t2.codeWord b.blk pa) ∧ (t2.stale = [] → t2.codeWord b.blk pa = BitVec.ofNat 64 (t2.view pa 8)) ∧
      after.mem = t2.mem ∧ after.blocks = t2.blocks ∧ after.bundles = t2.bundles ∧ after.cores = t2.cores ∧
      after.dmem = t2.dmem ∧ after.hbm = t2.hbm ∧ after.mod = t2.mod ∧ after.jobs = t2.jobs ∧ after.msgs = t2.msgs ∧
      after.work = t2.work ∧ after.cur = t2.cur ∧ (∀ k, { after.die k with evs := [] } = { t2.die k with evs := [] }) ∧
      ((∃ x ∈ (t.dm d).tlb, x.slice = sliceOf va ∧ x.covers va (t.ctxOf b.blk).cid = true ∧
        leafFault .fetch x.entry = none) → t2 = t)) ∧
  (∀ (w : DWord) (i : Instr), decode w = .ok i ↔ decodeLoose w = .ok i ∧ i.wf = true) ∧
  (∀ (s : State) (w : Work) (rest : List Work), s.work = w :: rest →
    let t : State := { s with work := rest, cur := none }
    match w with
    | .issue bid _ => (tget s.bundles bid = none → step s = .next { t with cur := some bid })
    | .ev i => step s = exec i t
    | .order => step s = .next { t with work := s.sorted rest }
    | .exits c => step s = .next (t.applyExits c)
    | .arrive u a => step s = .next (t.tryArrival u a)
    | .confirms c => step s = .next (t.endConfirms c)
    | .clearing n => step s = .next { t with work := s.clearingWork n ++ rest }
    | .thieves => step s = .next { t with work := s.thefts ++ rest }
    | .drain h => step s = .next (t.drainHart h)
    | .settle c => step s = .next (t.settleCore c)) ∧
  ∀ s : State, s.work = [] → step s = .next s.newCycle

/-- Every step of the module and every instruction answers a next state, from every state. -/
def Sys2Proof.Claims.NothingStops : Prop :=
  (∀ s : State, ∃ t, step s = .next t) ∧ ∀ (i : Instr) (s : State), ∃ t, exec i s = .next t

/-- A step runs the decoded instruction or the event, and nothing stops. -/
def Obligations.StepRunsDecoded : Prop :=
  Sys2Proof.Claims.StepRuns ∧ Sys2Proof.Claims.NothingStops

/-- Words written out bit by bit from R53-R58 decode to their instructions. -/
def Obligations.DecodeWords : Prop :=
  let g : Guard := ⟨7, false⟩
  let u : Use := ⟨false, false, false, false, false, false⟩
  decodeTableWord 64 0x11E03FF000012340 = some (.moviB32 ⟨g, 3, 255, 0x1234, false, false⟩) ∧
  decodeTableWord 64 0x30E0405FFFF00040 = some (.popc ⟨g, 4, 5, 255, 255, u⟩) ∧
  decodeTableWord 64 0x35E0104050700200 = some (.icmp ⟨g, 1, 4, 5, 7, u⟩ .lt .s32) ∧
  decodeTableWord 64 0x90E0804FF0040400 = some (.lds ⟨g, 8, 4, 255, 64, .b32, .relaxed, .plain, 0, false, false⟩) ∧
  decodeTableWord 64 0xC0E0A04FF0008710 = some (.ldg ⟨g, 10, 4, 255, 8, .b64, .dev, .acq, 0, false, false⟩) ∧
  decodeTableWord 64 0xC6EFFFFFF0000130 = some (.fence ⟨g, 255, 255, 255, 0, .b8, .dev, .ar, 0, false, false⟩) ∧
  decodeTableWord 64 0xB0E05FFFFFF00000 = some (.barv ⟨g, 5, 255, 255, 255, 0, 0, 0, 0⟩) ∧
  decodeTableWord 64 0xD3EFFFF000000021 = some (.acpwait ⟨g, 255, 255, 2, false, false⟩ 1) ∧
  decodeTableWord 64 0xD8E0104FFFF02000 = some (.emit ⟨g, 1, 4, 255, 255, 2, 0, 0, 0⟩) ∧
  decodeTableWord 64 0xE0EFFFF000012340 = some (.trap ⟨g, 255, 255, 0x1234, false, false⟩) ∧
  decodeTableWord 64 0xE4EFF04060700000 = some (.invva ⟨g, 255, 4, 6, 7, u⟩)

/-- R53-R58, R68-R73: every well-formed instruction decodes from its own word, with every operand at every value. -/
def Sys2Proof.Claims.DecodeOfEncode : Prop :=
  ∀ (i : Instr) (w : DWord), i.wf = true → encode i = some w → decode w = .ok i

/-- R53-R58: every word that decodes is the word of its instruction, so no two words have one meaning. -/
def Sys2Proof.Claims.DecodeIsExact : Prop :=
  ∀ (i : Instr) (w : DWord), decode w = .ok i → i.wf = true ∧ encode i = some w

/-- Decode and encode agree on every well-formed instruction, both ways. -/
def Obligations.RoundTrip : Prop :=
  Sys2Proof.Claims.DecodeOfEncode ∧ Sys2Proof.Claims.DecodeIsExact

/-- R4, R348: a step from a state whose memory is in canonical form leaves it in canonical form; the form is the
model's (log 1). -/
def Obligations.MemoryStaysCanonical : Prop :=
  ∀ s s' : State, Memory.wf s.mem = true → step s = .next s' → Memory.wf s'.mem = true
end

