-- ==== Sys2Proof/Laws/Tables.lean ====
section
/-! SUPPORT. Reading a table, and memory, after a write. -/

namespace Sys2Proof.Machine

variable {α : Type}

@[simp] theorem tget_nil (k : Nat) : tget ([] : Tab α) k = none := rfl

@[simp] theorem tget_tset_same (t : Tab α) (k : Nat) (a : α) : tget (tset t k a) k = some a := by
  induction t with
  | nil => simp [tset, tget]
  | cons e r ih =>
    obtain ⟨j, b⟩ := e
    unfold tset
    split
    · simp [tget]
    · split
      · simp [tget]
      · next h _ => simp [tget, h, ih]

theorem tget_tset_other (t : Tab α) {k j : Nat} (a : α) (h : j ≠ k) : tget (tset t k a) j = tget t j := by
  induction t with
  | nil => simp [tset, tget, Ne.symm h]
  | cons e r ih =>
    obtain ⟨i, b⟩ := e
    unfold tset
    split
    · next hi => subst hi; simp [tget, Ne.symm h]
    · split
      · simp [tget, Ne.symm h]
      · simp [tget, ih]

theorem tget_tset (t : Tab α) (k j : Nat) (a : α) : tget (tset t k a) j = if j = k then some a else tget t j := by
  split
  · next h => subst h; simp
  · next h => exact tget_tset_other t a h

theorem tget_tmod (t : Tab α) (k j : Nat) (f : α → α) :
    tget (tmod t k f) j = if j = k then (tget t j).map f else tget t j := by
  unfold tmod
  split
  · next a h =>
    rw [tget_tset]
    split
    · next hj => subst hj; simp [h]
    · rfl
  · next h =>
    split
    · next hj => subst hj; simp [h]
    · rfl

@[simp] theorem tgetD_tset_same (t : Tab α) (k : Nat) (a d : α) : tgetD (tset t k a) k d = a := by simp [tgetD]

theorem tgetD_tset_other (t : Tab α) {k j : Nat} (a d : α) (h : j ≠ k) : tgetD (tset t k a) j d = tgetD t j d := by
  simp [tgetD, tget_tset_other t a h]

theorem tget_tdel (t : Tab α) (k j : Nat) : tget (tdel t k) j = if j = k then none else tget t j := by
  induction t with
  | nil => simp [tdel, tget]
  | cons e r ih =>
    obtain ⟨i, b⟩ := e
    simp only [tdel, List.filter_cons] at ih ⊢
    by_cases hi : i = k
    · subst hi
      simp only [bne_self_eq_false, Bool.false_eq_true, if_false, ih, tget]
      split
      · rfl
      · next h => simp [Ne.symm h]
    · simp only [bne_iff_ne, ne_eq, hi, not_false_eq_true, if_true, tget, ih]
      split
      · next h => subst h; simp [hi]
      · rfl

theorem mem_keys (t : Tab α) (k : Nat) (h : (tget t k).isSome = true) : k ∈ t.map (·.1) := by
  induction t with
  | nil => simp at h
  | cons e r ih =>
    obtain ⟨j, b⟩ := e
    simp only [tget] at h
    simp only [List.map_cons, List.mem_cons]
    split at h
    · next hj => left; exact hj.symm
    · right; exact ih h

theorem range_le_length (n : Nat) (l : List Nat) (h : ∀ k, k < n → k ∈ l) : n ≤ l.length := by
  induction n generalizing l with
  | zero => exact Nat.zero_le _
  | succ n ih =>
    have hn : n ∈ l := h n (Nat.lt_succ_self n)
    have hl : 0 < l.length := List.length_pos_of_mem hn
    have : n ≤ (l.erase n).length := ih _ fun k hk =>
      (List.mem_erase_of_ne (Nat.ne_of_lt hk)).2 (h k (Nat.lt_succ_of_lt hk))
    rw [List.length_erase_of_mem hn] at this
    omega

theorem tfreshFrom_free (t : Tab α) (f n : Nat) (hf : t.length + 1 ≤ f + n)
    (hk : ∀ k, k < n → (tget t k).isSome = true) : tget t (tfreshFrom t f n) = none := by
  induction f generalizing n with
  | zero =>
    have := range_le_length n (t.map (·.1)) fun k h => mem_keys t k (hk k h)
    simp at this
    omega
  | succ f ih =>
    unfold tfreshFrom
    split
    · next h =>
      apply ih
      · omega
      · intro k hkn
        rcases Nat.lt_succ_iff_lt_or_eq.1 hkn with h' | h'
        · exact hk k h'
        · subst h'; exact h
    · next h => simpa using h

/-- The number that `tfresh` gives is no key. -/
@[simp] theorem tget_tfresh (t : Tab α) : tget t (tfresh t) = none :=
  tfreshFrom_free t _ 0 (by omega) (by omega)

/-- A new entry leaves every entry that was there. -/
theorem tget_tset_tfresh (t : Tab α) (k : Nat) (a b : α) (h : tget t k = some b) :
    tget (tset t (tfresh t) a) k = some b := by
  rw [tget_tset_other, h]
  intro hk
  rw [hk, tget_tfresh] at h
  cases h

/-! ## Memory -/

@[simp] theorem mget_nil (k : Nat) : mget [] k = 0 := rfl

theorem mget_mdel (m : Mem) (k j : Nat) : mget (mdel m k) j = if j = k then 0 else mget m j := by
  induction m with
  | nil => simp [mdel, mget]
  | cons e r ih =>
    obtain ⟨i, b⟩ := e
    simp only [mdel]
    split
    · next h =>
      subst h
      rw [ih]
      simp only [mget]
      split
      · rfl
      · next h => simp [Ne.symm h]
    · next h =>
      simp only [mget, ih]
      split
      · next h2 => subst h2; simp [h]
      · rfl

theorem mget_tset (m : Mem) (k j : Nat) (b : Byte) : mget (tset m k b) j = if j = k then b else mget m j := by
  induction m with
  | nil => simp only [tset, mget, eq_comm]
  | cons e r ih =>
    obtain ⟨i, c⟩ := e
    unfold tset
    split
    · next h =>
      subst h
      simp only [mget]
      split
      · next h => simp [h]
      · next h => simp [Ne.symm h]
    · split
      · simp only [mget]
        split
        · next h => simp [h]
        · next h => simp [Ne.symm h]
      · next h1 h2 =>
        simp only [mget, ih]
        split
        · next h3 => subst h3; simp [h1]
        · rfl

theorem mget_mset (m : Mem) (k j : Nat) (b : Byte) : mget (mset m k b) j = if j = k then b else mget m j := by
  unfold mset
  split
  · next h => rw [mget_mdel, h]
  · exact mget_tset m k j b

theorem mget_mputs_outside (l : List Byte) (m : Mem) (a j : Nat) (h : j < a ∨ a + l.length ≤ j) :
    mget (mputs m a l) j = mget m j := by
  induction l generalizing m a with
  | nil => rfl
  | cons b r ih =>
    simp only [List.length_cons] at h
    rw [mputs, ih _ _ (by omega), mget_mset, if_neg (by omega)]

theorem mget_mputs_inside (l : List Byte) (m : Mem) (a i : Nat) (h : i < l.length) :
    mget (mputs m a l) (a + i) = l[i] := by
  induction l generalizing m a i with
  | nil => simp at h
  | cons b r ih =>
    cases i with
    | zero => rw [mputs, mget_mputs_outside _ _ _ _ (by omega), Nat.add_zero, mget_mset, if_pos rfl]; rfl
    | succ i =>
      have := ih (mset m a b) (a + 1) i (by simpa using h)
      rw [mputs, show a + (i + 1) = a + 1 + i by omega, this]
      rfl

/-! ## The canonical form of memory -/

theorem memWfFrom_mono {a b : Nat} {m : Mem} (h : b ≤ a) (w : memWfFrom a m = true) : memWfFrom b m = true := by
  cases m with
  | nil => rfl
  | cons e r =>
    obtain ⟨k, c⟩ := e
    simp only [memWfFrom, Bool.and_eq_true, decide_eq_true_eq] at w ⊢
    exact ⟨⟨by omega, w.1.2⟩, w.2⟩

theorem memWfFrom_mdel {lo : Nat} {m : Mem} (k : Nat) (w : memWfFrom lo m = true) : memWfFrom lo (mdel m k) = true := by
  induction m generalizing lo with
  | nil => rfl
  | cons e r ih =>
    obtain ⟨j, c⟩ := e
    simp only [memWfFrom, Bool.and_eq_true, decide_eq_true_eq] at w
    simp only [mdel]
    split
    · exact ih (memWfFrom_mono (by omega) w.2)
    · simp only [memWfFrom, Bool.and_eq_true, decide_eq_true_eq]
      exact ⟨w.1, ih w.2⟩

theorem memWfFrom_tset {lo k : Nat} {m : Mem} {b : Byte} (hb : b ≠ 0) (hk : lo ≤ k) (w : memWfFrom lo m = true) :
    memWfFrom lo (tset m k b) = true := by
  induction m generalizing lo with
  | nil => simpa [tset, memWfFrom, hk] using hb
  | cons e r ih =>
    obtain ⟨j, c⟩ := e
    simp only [memWfFrom, Bool.and_eq_true, decide_eq_true_eq] at w
    unfold tset
    split
    · next h =>
      subst h
      simp only [memWfFrom, Bool.and_eq_true, decide_eq_true_eq]
      exact ⟨⟨hk, hb⟩, w.2⟩
    · split
      · next h =>
        simp only [memWfFrom, Bool.and_eq_true, decide_eq_true_eq]
        exact ⟨⟨hk, hb⟩, ⟨⟨Nat.succ_le_of_lt h, w.1.2⟩, w.2⟩⟩
      · next h1 h2 =>
        simp only [memWfFrom, Bool.and_eq_true, decide_eq_true_eq]
        exact ⟨w.1, ih (by omega) w.2⟩

/-- A write of one byte keeps the canonical form. -/
theorem wf_mset {m : Mem} (k : Nat) (b : Byte) (w : Memory.wf m = true) : Memory.wf (mset m k b) = true := by
  unfold mset
  split
  · exact memWfFrom_mdel k w
  · next h => exact memWfFrom_tset h (Nat.zero_le k) w

/-- A write of bytes keeps the canonical form. -/
theorem wf_mputs {m : Mem} (a : Nat) (l : List Byte) (w : Memory.wf m = true) : Memory.wf (mputs m a l) = true := by
  induction l generalizing m a with
  | nil => exact w
  | cons b r ih => exact ih (a + 1) (wf_mset a b w)

theorem wf_mwrite {m : Mem} (a n v : Nat) (w : Memory.wf m = true) : Memory.wf (mwrite m a n v) = true :=
  wf_mputs a _ w

@[simp] theorem wf_nil : Memory.wf [] = true := rfl

end Sys2Proof.Machine
end

