-- ==== Sys2Proof/Laws/State.lean ====
section
/-! SUPPORT. What each update of State leaves: one lemma for each field and update, and reading after writing. -/

namespace Sys2Proof.Machine

variable (s : State)

@[simp] theorem setDie_cycle (d : Nat) (f : Die → Die) : (s.setDie d f).cycle = s.cycle := rfl
@[simp] theorem setDie_tsc (d : Nat) (f : Die → Die) : (s.setDie d f).tsc = s.tsc := rfl
@[simp] theorem setDie_tscAcc (d : Nat) (f : Die → Die) : (s.setDie d f).tscAcc = s.tscAcc := rfl
@[simp] theorem setDie_work (d : Nat) (f : Die → Die) : (s.setDie d f).work = s.work := rfl
@[simp] theorem setDie_cur (d : Nat) (f : Die → Die) : (s.setDie d f).cur = s.cur := rfl
@[simp] theorem setDie_jobs (d : Nat) (f : Die → Die) : (s.setDie d f).jobs = s.jobs := rfl
@[simp] theorem setDie_draws (d : Nat) (f : Die → Die) : (s.setDie d f).draws = s.draws := rfl
@[simp] theorem setDie_seq (d : Nat) (f : Die → Die) : (s.setDie d f).seq = s.seq := rfl
@[simp] theorem setDie_sched (d : Nat) (f : Die → Die) : (s.setDie d f).sched = s.sched := rfl
@[simp] theorem setDie_dmem (d : Nat) (f : Die → Die) : (s.setDie d f).dmem = s.dmem := rfl
@[simp] theorem setDie_links (d : Nat) (f : Die → Die) : (s.setDie d f).links = s.links := rfl
@[simp] theorem setDie_cores (d : Nat) (f : Die → Die) : (s.setDie d f).cores = s.cores := rfl
@[simp] theorem setDie_hbm (d : Nat) (f : Die → Die) : (s.setDie d f).hbm = s.hbm := rfl
@[simp] theorem setDie_mod (d : Nat) (f : Die → Die) : (s.setDie d f).mod = s.mod := rfl
@[simp] theorem setDie_launches (d : Nat) (f : Die → Die) : (s.setDie d f).launches = s.launches := rfl
@[simp] theorem setDie_clusters (d : Nat) (f : Die → Die) : (s.setDie d f).clusters = s.clusters := rfl
@[simp] theorem setDie_blocks (d : Nat) (f : Die → Die) : (s.setDie d f).blocks = s.blocks := rfl
@[simp] theorem setDie_bundles (d : Nat) (f : Die → Die) : (s.setDie d f).bundles = s.bundles := rfl
@[simp] theorem setDie_hostLines (d : Nat) (f : Die → Die) : (s.setDie d f).hostLines = s.hostLines := rfl
@[simp] theorem setDie_msgs (d : Nat) (f : Die → Die) : (s.setDie d f).msgs = s.msgs := rfl
@[simp] theorem setDie_away (d : Nat) (f : Die → Die) : (s.setDie d f).away = s.away := rfl
@[simp] theorem setDie_mem (d : Nat) (f : Die → Die) : (s.setDie d f).mem = s.mem := rfl
@[simp] theorem setDie_stale (d : Nat) (f : Die → Die) : (s.setDie d f).stale = s.stale := rfl
@[simp] theorem setDie_out (d : Nat) (f : Die → Die) : (s.setDie d f).out = s.out := rfl

@[simp] theorem setDm_cycle (d : Nat) (f : DieMem → DieMem) : (s.setDm d f).cycle = s.cycle := rfl
@[simp] theorem setDm_tsc (d : Nat) (f : DieMem → DieMem) : (s.setDm d f).tsc = s.tsc := rfl
@[simp] theorem setDm_tscAcc (d : Nat) (f : DieMem → DieMem) : (s.setDm d f).tscAcc = s.tscAcc := rfl
@[simp] theorem setDm_work (d : Nat) (f : DieMem → DieMem) : (s.setDm d f).work = s.work := rfl
@[simp] theorem setDm_cur (d : Nat) (f : DieMem → DieMem) : (s.setDm d f).cur = s.cur := rfl
@[simp] theorem setDm_jobs (d : Nat) (f : DieMem → DieMem) : (s.setDm d f).jobs = s.jobs := rfl
@[simp] theorem setDm_draws (d : Nat) (f : DieMem → DieMem) : (s.setDm d f).draws = s.draws := rfl
@[simp] theorem setDm_seq (d : Nat) (f : DieMem → DieMem) : (s.setDm d f).seq = s.seq := rfl
@[simp] theorem setDm_sched (d : Nat) (f : DieMem → DieMem) : (s.setDm d f).sched = s.sched := rfl
@[simp] theorem setDm_dies (d : Nat) (f : DieMem → DieMem) : (s.setDm d f).dies = s.dies := rfl
@[simp] theorem setDm_links (d : Nat) (f : DieMem → DieMem) : (s.setDm d f).links = s.links := rfl
@[simp] theorem setDm_cores (d : Nat) (f : DieMem → DieMem) : (s.setDm d f).cores = s.cores := rfl
@[simp] theorem setDm_hbm (d : Nat) (f : DieMem → DieMem) : (s.setDm d f).hbm = s.hbm := rfl
@[simp] theorem setDm_mod (d : Nat) (f : DieMem → DieMem) : (s.setDm d f).mod = s.mod := rfl
@[simp] theorem setDm_launches (d : Nat) (f : DieMem → DieMem) : (s.setDm d f).launches = s.launches := rfl
@[simp] theorem setDm_clusters (d : Nat) (f : DieMem → DieMem) : (s.setDm d f).clusters = s.clusters := rfl
@[simp] theorem setDm_blocks (d : Nat) (f : DieMem → DieMem) : (s.setDm d f).blocks = s.blocks := rfl
@[simp] theorem setDm_bundles (d : Nat) (f : DieMem → DieMem) : (s.setDm d f).bundles = s.bundles := rfl
@[simp] theorem setDm_hostLines (d : Nat) (f : DieMem → DieMem) : (s.setDm d f).hostLines = s.hostLines := rfl
@[simp] theorem setDm_msgs (d : Nat) (f : DieMem → DieMem) : (s.setDm d f).msgs = s.msgs := rfl
@[simp] theorem setDm_away (d : Nat) (f : DieMem → DieMem) : (s.setDm d f).away = s.away := rfl
@[simp] theorem setDm_mem (d : Nat) (f : DieMem → DieMem) : (s.setDm d f).mem = s.mem := rfl
@[simp] theorem setDm_stale (d : Nat) (f : DieMem → DieMem) : (s.setDm d f).stale = s.stale := rfl
@[simp] theorem setDm_out (d : Nat) (f : DieMem → DieMem) : (s.setDm d f).out = s.out := rfl

@[simp] theorem setLink_cycle (d : Nat) (f : DieLinks → DieLinks) : (s.setLink d f).cycle = s.cycle := rfl
@[simp] theorem setLink_tsc (d : Nat) (f : DieLinks → DieLinks) : (s.setLink d f).tsc = s.tsc := rfl
@[simp] theorem setLink_tscAcc (d : Nat) (f : DieLinks → DieLinks) : (s.setLink d f).tscAcc = s.tscAcc := rfl
@[simp] theorem setLink_work (d : Nat) (f : DieLinks → DieLinks) : (s.setLink d f).work = s.work := rfl
@[simp] theorem setLink_cur (d : Nat) (f : DieLinks → DieLinks) : (s.setLink d f).cur = s.cur := rfl
@[simp] theorem setLink_jobs (d : Nat) (f : DieLinks → DieLinks) : (s.setLink d f).jobs = s.jobs := rfl
@[simp] theorem setLink_draws (d : Nat) (f : DieLinks → DieLinks) : (s.setLink d f).draws = s.draws := rfl
@[simp] theorem setLink_seq (d : Nat) (f : DieLinks → DieLinks) : (s.setLink d f).seq = s.seq := rfl
@[simp] theorem setLink_sched (d : Nat) (f : DieLinks → DieLinks) : (s.setLink d f).sched = s.sched := rfl
@[simp] theorem setLink_dies (d : Nat) (f : DieLinks → DieLinks) : (s.setLink d f).dies = s.dies := rfl
@[simp] theorem setLink_dmem (d : Nat) (f : DieLinks → DieLinks) : (s.setLink d f).dmem = s.dmem := rfl
@[simp] theorem setLink_cores (d : Nat) (f : DieLinks → DieLinks) : (s.setLink d f).cores = s.cores := rfl
@[simp] theorem setLink_hbm (d : Nat) (f : DieLinks → DieLinks) : (s.setLink d f).hbm = s.hbm := rfl
@[simp] theorem setLink_mod (d : Nat) (f : DieLinks → DieLinks) : (s.setLink d f).mod = s.mod := rfl
@[simp] theorem setLink_launches (d : Nat) (f : DieLinks → DieLinks) : (s.setLink d f).launches = s.launches := rfl
@[simp] theorem setLink_clusters (d : Nat) (f : DieLinks → DieLinks) : (s.setLink d f).clusters = s.clusters := rfl
@[simp] theorem setLink_blocks (d : Nat) (f : DieLinks → DieLinks) : (s.setLink d f).blocks = s.blocks := rfl
@[simp] theorem setLink_bundles (d : Nat) (f : DieLinks → DieLinks) : (s.setLink d f).bundles = s.bundles := rfl
@[simp] theorem setLink_hostLines (d : Nat) (f : DieLinks → DieLinks) : (s.setLink d f).hostLines = s.hostLines := rfl
@[simp] theorem setLink_msgs (d : Nat) (f : DieLinks → DieLinks) : (s.setLink d f).msgs = s.msgs := rfl
@[simp] theorem setLink_away (d : Nat) (f : DieLinks → DieLinks) : (s.setLink d f).away = s.away := rfl
@[simp] theorem setLink_mem (d : Nat) (f : DieLinks → DieLinks) : (s.setLink d f).mem = s.mem := rfl
@[simp] theorem setLink_stale (d : Nat) (f : DieLinks → DieLinks) : (s.setLink d f).stale = s.stale := rfl
@[simp] theorem setLink_out (d : Nat) (f : DieLinks → DieLinks) : (s.setLink d f).out = s.out := rfl

@[simp] theorem setCore_cycle (c : Nat) (f : Core → Core) : (s.setCore c f).cycle = s.cycle := rfl
@[simp] theorem setCore_tsc (c : Nat) (f : Core → Core) : (s.setCore c f).tsc = s.tsc := rfl
@[simp] theorem setCore_tscAcc (c : Nat) (f : Core → Core) : (s.setCore c f).tscAcc = s.tscAcc := rfl
@[simp] theorem setCore_work (c : Nat) (f : Core → Core) : (s.setCore c f).work = s.work := rfl
@[simp] theorem setCore_cur (c : Nat) (f : Core → Core) : (s.setCore c f).cur = s.cur := rfl
@[simp] theorem setCore_jobs (c : Nat) (f : Core → Core) : (s.setCore c f).jobs = s.jobs := rfl
@[simp] theorem setCore_draws (c : Nat) (f : Core → Core) : (s.setCore c f).draws = s.draws := rfl
@[simp] theorem setCore_seq (c : Nat) (f : Core → Core) : (s.setCore c f).seq = s.seq := rfl
@[simp] theorem setCore_sched (c : Nat) (f : Core → Core) : (s.setCore c f).sched = s.sched := rfl
@[simp] theorem setCore_dies (c : Nat) (f : Core → Core) : (s.setCore c f).dies = s.dies := rfl
@[simp] theorem setCore_dmem (c : Nat) (f : Core → Core) : (s.setCore c f).dmem = s.dmem := rfl
@[simp] theorem setCore_links (c : Nat) (f : Core → Core) : (s.setCore c f).links = s.links := rfl
@[simp] theorem setCore_hbm (c : Nat) (f : Core → Core) : (s.setCore c f).hbm = s.hbm := rfl
@[simp] theorem setCore_mod (c : Nat) (f : Core → Core) : (s.setCore c f).mod = s.mod := rfl
@[simp] theorem setCore_launches (c : Nat) (f : Core → Core) : (s.setCore c f).launches = s.launches := rfl
@[simp] theorem setCore_clusters (c : Nat) (f : Core → Core) : (s.setCore c f).clusters = s.clusters := rfl
@[simp] theorem setCore_blocks (c : Nat) (f : Core → Core) : (s.setCore c f).blocks = s.blocks := rfl
@[simp] theorem setCore_bundles (c : Nat) (f : Core → Core) : (s.setCore c f).bundles = s.bundles := rfl
@[simp] theorem setCore_hostLines (c : Nat) (f : Core → Core) : (s.setCore c f).hostLines = s.hostLines := rfl
@[simp] theorem setCore_msgs (c : Nat) (f : Core → Core) : (s.setCore c f).msgs = s.msgs := rfl
@[simp] theorem setCore_away (c : Nat) (f : Core → Core) : (s.setCore c f).away = s.away := rfl
@[simp] theorem setCore_mem (c : Nat) (f : Core → Core) : (s.setCore c f).mem = s.mem := rfl
@[simp] theorem setCore_stale (c : Nat) (f : Core → Core) : (s.setCore c f).stale = s.stale := rfl
@[simp] theorem setCore_out (c : Nat) (f : Core → Core) : (s.setCore c f).out = s.out := rfl

@[simp] theorem setStack_cycle (k : Nat) (f : Stack → Stack) : (s.setStack k f).cycle = s.cycle := rfl
@[simp] theorem setStack_tsc (k : Nat) (f : Stack → Stack) : (s.setStack k f).tsc = s.tsc := rfl
@[simp] theorem setStack_tscAcc (k : Nat) (f : Stack → Stack) : (s.setStack k f).tscAcc = s.tscAcc := rfl
@[simp] theorem setStack_work (k : Nat) (f : Stack → Stack) : (s.setStack k f).work = s.work := rfl
@[simp] theorem setStack_cur (k : Nat) (f : Stack → Stack) : (s.setStack k f).cur = s.cur := rfl
@[simp] theorem setStack_jobs (k : Nat) (f : Stack → Stack) : (s.setStack k f).jobs = s.jobs := rfl
@[simp] theorem setStack_draws (k : Nat) (f : Stack → Stack) : (s.setStack k f).draws = s.draws := rfl
@[simp] theorem setStack_seq (k : Nat) (f : Stack → Stack) : (s.setStack k f).seq = s.seq := rfl
@[simp] theorem setStack_sched (k : Nat) (f : Stack → Stack) : (s.setStack k f).sched = s.sched := rfl
@[simp] theorem setStack_dies (k : Nat) (f : Stack → Stack) : (s.setStack k f).dies = s.dies := rfl
@[simp] theorem setStack_dmem (k : Nat) (f : Stack → Stack) : (s.setStack k f).dmem = s.dmem := rfl
@[simp] theorem setStack_links (k : Nat) (f : Stack → Stack) : (s.setStack k f).links = s.links := rfl
@[simp] theorem setStack_cores (k : Nat) (f : Stack → Stack) : (s.setStack k f).cores = s.cores := rfl
@[simp] theorem setStack_mod (k : Nat) (f : Stack → Stack) : (s.setStack k f).mod = s.mod := rfl
@[simp] theorem setStack_launches (k : Nat) (f : Stack → Stack) : (s.setStack k f).launches = s.launches := rfl
@[simp] theorem setStack_clusters (k : Nat) (f : Stack → Stack) : (s.setStack k f).clusters = s.clusters := rfl
@[simp] theorem setStack_blocks (k : Nat) (f : Stack → Stack) : (s.setStack k f).blocks = s.blocks := rfl
@[simp] theorem setStack_bundles (k : Nat) (f : Stack → Stack) : (s.setStack k f).bundles = s.bundles := rfl
@[simp] theorem setStack_hostLines (k : Nat) (f : Stack → Stack) : (s.setStack k f).hostLines = s.hostLines := rfl
@[simp] theorem setStack_msgs (k : Nat) (f : Stack → Stack) : (s.setStack k f).msgs = s.msgs := rfl
@[simp] theorem setStack_away (k : Nat) (f : Stack → Stack) : (s.setStack k f).away = s.away := rfl
@[simp] theorem setStack_mem (k : Nat) (f : Stack → Stack) : (s.setStack k f).mem = s.mem := rfl
@[simp] theorem setStack_stale (k : Nat) (f : Stack → Stack) : (s.setStack k f).stale = s.stale := rfl
@[simp] theorem setStack_out (k : Nat) (f : Stack → Stack) : (s.setStack k f).out = s.out := rfl

@[simp] theorem setBlock_cycle (u : Nat) (f : Block → Block) : (s.setBlock u f).cycle = s.cycle := rfl
@[simp] theorem setBlock_tsc (u : Nat) (f : Block → Block) : (s.setBlock u f).tsc = s.tsc := rfl
@[simp] theorem setBlock_tscAcc (u : Nat) (f : Block → Block) : (s.setBlock u f).tscAcc = s.tscAcc := rfl
@[simp] theorem setBlock_work (u : Nat) (f : Block → Block) : (s.setBlock u f).work = s.work := rfl
@[simp] theorem setBlock_cur (u : Nat) (f : Block → Block) : (s.setBlock u f).cur = s.cur := rfl
@[simp] theorem setBlock_jobs (u : Nat) (f : Block → Block) : (s.setBlock u f).jobs = s.jobs := rfl
@[simp] theorem setBlock_draws (u : Nat) (f : Block → Block) : (s.setBlock u f).draws = s.draws := rfl
@[simp] theorem setBlock_seq (u : Nat) (f : Block → Block) : (s.setBlock u f).seq = s.seq := rfl
@[simp] theorem setBlock_sched (u : Nat) (f : Block → Block) : (s.setBlock u f).sched = s.sched := rfl
@[simp] theorem setBlock_dies (u : Nat) (f : Block → Block) : (s.setBlock u f).dies = s.dies := rfl
@[simp] theorem setBlock_dmem (u : Nat) (f : Block → Block) : (s.setBlock u f).dmem = s.dmem := rfl
@[simp] theorem setBlock_links (u : Nat) (f : Block → Block) : (s.setBlock u f).links = s.links := rfl
@[simp] theorem setBlock_cores (u : Nat) (f : Block → Block) : (s.setBlock u f).cores = s.cores := rfl
@[simp] theorem setBlock_hbm (u : Nat) (f : Block → Block) : (s.setBlock u f).hbm = s.hbm := rfl
@[simp] theorem setBlock_mod (u : Nat) (f : Block → Block) : (s.setBlock u f).mod = s.mod := rfl
@[simp] theorem setBlock_launches (u : Nat) (f : Block → Block) : (s.setBlock u f).launches = s.launches := rfl
@[simp] theorem setBlock_clusters (u : Nat) (f : Block → Block) : (s.setBlock u f).clusters = s.clusters := rfl
@[simp] theorem setBlock_bundles (u : Nat) (f : Block → Block) : (s.setBlock u f).bundles = s.bundles := rfl
@[simp] theorem setBlock_hostLines (u : Nat) (f : Block → Block) : (s.setBlock u f).hostLines = s.hostLines := rfl
@[simp] theorem setBlock_msgs (u : Nat) (f : Block → Block) : (s.setBlock u f).msgs = s.msgs := rfl
@[simp] theorem setBlock_away (u : Nat) (f : Block → Block) : (s.setBlock u f).away = s.away := rfl
@[simp] theorem setBlock_mem (u : Nat) (f : Block → Block) : (s.setBlock u f).mem = s.mem := rfl
@[simp] theorem setBlock_stale (u : Nat) (f : Block → Block) : (s.setBlock u f).stale = s.stale := rfl
@[simp] theorem setBlock_out (u : Nat) (f : Block → Block) : (s.setBlock u f).out = s.out := rfl

@[simp] theorem setLaunch_cycle (l : Nat) (f : Launch → Launch) : (s.setLaunch l f).cycle = s.cycle := rfl
@[simp] theorem setLaunch_tsc (l : Nat) (f : Launch → Launch) : (s.setLaunch l f).tsc = s.tsc := rfl
@[simp] theorem setLaunch_tscAcc (l : Nat) (f : Launch → Launch) : (s.setLaunch l f).tscAcc = s.tscAcc := rfl
@[simp] theorem setLaunch_work (l : Nat) (f : Launch → Launch) : (s.setLaunch l f).work = s.work := rfl
@[simp] theorem setLaunch_cur (l : Nat) (f : Launch → Launch) : (s.setLaunch l f).cur = s.cur := rfl
@[simp] theorem setLaunch_jobs (l : Nat) (f : Launch → Launch) : (s.setLaunch l f).jobs = s.jobs := rfl
@[simp] theorem setLaunch_draws (l : Nat) (f : Launch → Launch) : (s.setLaunch l f).draws = s.draws := rfl
@[simp] theorem setLaunch_seq (l : Nat) (f : Launch → Launch) : (s.setLaunch l f).seq = s.seq := rfl
@[simp] theorem setLaunch_sched (l : Nat) (f : Launch → Launch) : (s.setLaunch l f).sched = s.sched := rfl
@[simp] theorem setLaunch_dies (l : Nat) (f : Launch → Launch) : (s.setLaunch l f).dies = s.dies := rfl
@[simp] theorem setLaunch_dmem (l : Nat) (f : Launch → Launch) : (s.setLaunch l f).dmem = s.dmem := rfl
@[simp] theorem setLaunch_links (l : Nat) (f : Launch → Launch) : (s.setLaunch l f).links = s.links := rfl
@[simp] theorem setLaunch_cores (l : Nat) (f : Launch → Launch) : (s.setLaunch l f).cores = s.cores := rfl
@[simp] theorem setLaunch_hbm (l : Nat) (f : Launch → Launch) : (s.setLaunch l f).hbm = s.hbm := rfl
@[simp] theorem setLaunch_mod (l : Nat) (f : Launch → Launch) : (s.setLaunch l f).mod = s.mod := rfl
@[simp] theorem setLaunch_clusters (l : Nat) (f : Launch → Launch) : (s.setLaunch l f).clusters = s.clusters := rfl
@[simp] theorem setLaunch_blocks (l : Nat) (f : Launch → Launch) : (s.setLaunch l f).blocks = s.blocks := rfl
@[simp] theorem setLaunch_bundles (l : Nat) (f : Launch → Launch) : (s.setLaunch l f).bundles = s.bundles := rfl
@[simp] theorem setLaunch_hostLines (l : Nat) (f : Launch → Launch) : (s.setLaunch l f).hostLines = s.hostLines := rfl
@[simp] theorem setLaunch_msgs (l : Nat) (f : Launch → Launch) : (s.setLaunch l f).msgs = s.msgs := rfl
@[simp] theorem setLaunch_away (l : Nat) (f : Launch → Launch) : (s.setLaunch l f).away = s.away := rfl
@[simp] theorem setLaunch_mem (l : Nat) (f : Launch → Launch) : (s.setLaunch l f).mem = s.mem := rfl
@[simp] theorem setLaunch_stale (l : Nat) (f : Launch → Launch) : (s.setLaunch l f).stale = s.stale := rfl
@[simp] theorem setLaunch_out (l : Nat) (f : Launch → Launch) : (s.setLaunch l f).out = s.out := rfl

@[simp] theorem setCluster_cycle (c : Nat) (f : Cluster → Cluster) : (s.setCluster c f).cycle = s.cycle := rfl
@[simp] theorem setCluster_tsc (c : Nat) (f : Cluster → Cluster) : (s.setCluster c f).tsc = s.tsc := rfl
@[simp] theorem setCluster_tscAcc (c : Nat) (f : Cluster → Cluster) : (s.setCluster c f).tscAcc = s.tscAcc := rfl
@[simp] theorem setCluster_work (c : Nat) (f : Cluster → Cluster) : (s.setCluster c f).work = s.work := rfl
@[simp] theorem setCluster_cur (c : Nat) (f : Cluster → Cluster) : (s.setCluster c f).cur = s.cur := rfl
@[simp] theorem setCluster_jobs (c : Nat) (f : Cluster → Cluster) : (s.setCluster c f).jobs = s.jobs := rfl
@[simp] theorem setCluster_draws (c : Nat) (f : Cluster → Cluster) : (s.setCluster c f).draws = s.draws := rfl
@[simp] theorem setCluster_seq (c : Nat) (f : Cluster → Cluster) : (s.setCluster c f).seq = s.seq := rfl
@[simp] theorem setCluster_sched (c : Nat) (f : Cluster → Cluster) : (s.setCluster c f).sched = s.sched := rfl
@[simp] theorem setCluster_dies (c : Nat) (f : Cluster → Cluster) : (s.setCluster c f).dies = s.dies := rfl
@[simp] theorem setCluster_dmem (c : Nat) (f : Cluster → Cluster) : (s.setCluster c f).dmem = s.dmem := rfl
@[simp] theorem setCluster_links (c : Nat) (f : Cluster → Cluster) : (s.setCluster c f).links = s.links := rfl
@[simp] theorem setCluster_cores (c : Nat) (f : Cluster → Cluster) : (s.setCluster c f).cores = s.cores := rfl
@[simp] theorem setCluster_hbm (c : Nat) (f : Cluster → Cluster) : (s.setCluster c f).hbm = s.hbm := rfl
@[simp] theorem setCluster_mod (c : Nat) (f : Cluster → Cluster) : (s.setCluster c f).mod = s.mod := rfl
@[simp] theorem setCluster_launches (c : Nat) (f : Cluster → Cluster) : (s.setCluster c f).launches = s.launches := rfl
@[simp] theorem setCluster_blocks (c : Nat) (f : Cluster → Cluster) : (s.setCluster c f).blocks = s.blocks := rfl
@[simp] theorem setCluster_bundles (c : Nat) (f : Cluster → Cluster) : (s.setCluster c f).bundles = s.bundles := rfl
@[simp] theorem setCluster_hostLines (c : Nat) (f : Cluster → Cluster) : (s.setCluster c f).hostLines = s.hostLines := rfl
@[simp] theorem setCluster_msgs (c : Nat) (f : Cluster → Cluster) : (s.setCluster c f).msgs = s.msgs := rfl
@[simp] theorem setCluster_away (c : Nat) (f : Cluster → Cluster) : (s.setCluster c f).away = s.away := rfl
@[simp] theorem setCluster_mem (c : Nat) (f : Cluster → Cluster) : (s.setCluster c f).mem = s.mem := rfl
@[simp] theorem setCluster_stale (c : Nat) (f : Cluster → Cluster) : (s.setCluster c f).stale = s.stale := rfl
@[simp] theorem setCluster_out (c : Nat) (f : Cluster → Cluster) : (s.setCluster c f).out = s.out := rfl

@[simp] theorem setRun_cycle (u : Nat) (f : BlockRun → BlockRun) : (s.setRun u f).cycle = s.cycle := rfl
@[simp] theorem setRun_tsc (u : Nat) (f : BlockRun → BlockRun) : (s.setRun u f).tsc = s.tsc := rfl
@[simp] theorem setRun_tscAcc (u : Nat) (f : BlockRun → BlockRun) : (s.setRun u f).tscAcc = s.tscAcc := rfl
@[simp] theorem setRun_work (u : Nat) (f : BlockRun → BlockRun) : (s.setRun u f).work = s.work := rfl
@[simp] theorem setRun_cur (u : Nat) (f : BlockRun → BlockRun) : (s.setRun u f).cur = s.cur := rfl
@[simp] theorem setRun_jobs (u : Nat) (f : BlockRun → BlockRun) : (s.setRun u f).jobs = s.jobs := rfl
@[simp] theorem setRun_draws (u : Nat) (f : BlockRun → BlockRun) : (s.setRun u f).draws = s.draws := rfl
@[simp] theorem setRun_seq (u : Nat) (f : BlockRun → BlockRun) : (s.setRun u f).seq = s.seq := rfl
@[simp] theorem setRun_sched (u : Nat) (f : BlockRun → BlockRun) : (s.setRun u f).sched = s.sched := rfl
@[simp] theorem setRun_dies (u : Nat) (f : BlockRun → BlockRun) : (s.setRun u f).dies = s.dies := rfl
@[simp] theorem setRun_dmem (u : Nat) (f : BlockRun → BlockRun) : (s.setRun u f).dmem = s.dmem := rfl
@[simp] theorem setRun_links (u : Nat) (f : BlockRun → BlockRun) : (s.setRun u f).links = s.links := rfl
@[simp] theorem setRun_cores (u : Nat) (f : BlockRun → BlockRun) : (s.setRun u f).cores = s.cores := rfl
@[simp] theorem setRun_hbm (u : Nat) (f : BlockRun → BlockRun) : (s.setRun u f).hbm = s.hbm := rfl
@[simp] theorem setRun_mod (u : Nat) (f : BlockRun → BlockRun) : (s.setRun u f).mod = s.mod := rfl
@[simp] theorem setRun_launches (u : Nat) (f : BlockRun → BlockRun) : (s.setRun u f).launches = s.launches := rfl
@[simp] theorem setRun_clusters (u : Nat) (f : BlockRun → BlockRun) : (s.setRun u f).clusters = s.clusters := rfl
@[simp] theorem setRun_bundles (u : Nat) (f : BlockRun → BlockRun) : (s.setRun u f).bundles = s.bundles := rfl
@[simp] theorem setRun_hostLines (u : Nat) (f : BlockRun → BlockRun) : (s.setRun u f).hostLines = s.hostLines := rfl
@[simp] theorem setRun_msgs (u : Nat) (f : BlockRun → BlockRun) : (s.setRun u f).msgs = s.msgs := rfl
@[simp] theorem setRun_away (u : Nat) (f : BlockRun → BlockRun) : (s.setRun u f).away = s.away := rfl
@[simp] theorem setRun_mem (u : Nat) (f : BlockRun → BlockRun) : (s.setRun u f).mem = s.mem := rfl
@[simp] theorem setRun_stale (u : Nat) (f : BlockRun → BlockRun) : (s.setRun u f).stale = s.stale := rfl
@[simp] theorem setRun_out (u : Nat) (f : BlockRun → BlockRun) : (s.setRun u f).out = s.out := rfl

@[simp] theorem setThread_cycle (u t : Nat) (f : Thread → Thread) : (s.setThread u t f).cycle = s.cycle := rfl
@[simp] theorem setThread_tsc (u t : Nat) (f : Thread → Thread) : (s.setThread u t f).tsc = s.tsc := rfl
@[simp] theorem setThread_tscAcc (u t : Nat) (f : Thread → Thread) : (s.setThread u t f).tscAcc = s.tscAcc := rfl
@[simp] theorem setThread_work (u t : Nat) (f : Thread → Thread) : (s.setThread u t f).work = s.work := rfl
@[simp] theorem setThread_cur (u t : Nat) (f : Thread → Thread) : (s.setThread u t f).cur = s.cur := rfl
@[simp] theorem setThread_jobs (u t : Nat) (f : Thread → Thread) : (s.setThread u t f).jobs = s.jobs := rfl
@[simp] theorem setThread_draws (u t : Nat) (f : Thread → Thread) : (s.setThread u t f).draws = s.draws := rfl
@[simp] theorem setThread_seq (u t : Nat) (f : Thread → Thread) : (s.setThread u t f).seq = s.seq := rfl
@[simp] theorem setThread_sched (u t : Nat) (f : Thread → Thread) : (s.setThread u t f).sched = s.sched := rfl
@[simp] theorem setThread_dies (u t : Nat) (f : Thread → Thread) : (s.setThread u t f).dies = s.dies := rfl
@[simp] theorem setThread_dmem (u t : Nat) (f : Thread → Thread) : (s.setThread u t f).dmem = s.dmem := rfl
@[simp] theorem setThread_links (u t : Nat) (f : Thread → Thread) : (s.setThread u t f).links = s.links := rfl
@[simp] theorem setThread_cores (u t : Nat) (f : Thread → Thread) : (s.setThread u t f).cores = s.cores := rfl
@[simp] theorem setThread_hbm (u t : Nat) (f : Thread → Thread) : (s.setThread u t f).hbm = s.hbm := rfl
@[simp] theorem setThread_mod (u t : Nat) (f : Thread → Thread) : (s.setThread u t f).mod = s.mod := rfl
@[simp] theorem setThread_launches (u t : Nat) (f : Thread → Thread) : (s.setThread u t f).launches = s.launches := rfl
@[simp] theorem setThread_clusters (u t : Nat) (f : Thread → Thread) : (s.setThread u t f).clusters = s.clusters := rfl
@[simp] theorem setThread_bundles (u t : Nat) (f : Thread → Thread) : (s.setThread u t f).bundles = s.bundles := rfl
@[simp] theorem setThread_hostLines (u t : Nat) (f : Thread → Thread) : (s.setThread u t f).hostLines = s.hostLines := rfl
@[simp] theorem setThread_msgs (u t : Nat) (f : Thread → Thread) : (s.setThread u t f).msgs = s.msgs := rfl
@[simp] theorem setThread_away (u t : Nat) (f : Thread → Thread) : (s.setThread u t f).away = s.away := rfl
@[simp] theorem setThread_mem (u t : Nat) (f : Thread → Thread) : (s.setThread u t f).mem = s.mem := rfl
@[simp] theorem setThread_stale (u t : Nat) (f : Thread → Thread) : (s.setThread u t f).stale = s.stale := rfl
@[simp] theorem setThread_out (u t : Nat) (f : Thread → Thread) : (s.setThread u t f).out = s.out := rfl

@[simp] theorem setBundle_cycle (b : Nat) (f : Bundle → Bundle) : (s.setBundle b f).cycle = s.cycle := rfl
@[simp] theorem setBundle_tsc (b : Nat) (f : Bundle → Bundle) : (s.setBundle b f).tsc = s.tsc := rfl
@[simp] theorem setBundle_tscAcc (b : Nat) (f : Bundle → Bundle) : (s.setBundle b f).tscAcc = s.tscAcc := rfl
@[simp] theorem setBundle_work (b : Nat) (f : Bundle → Bundle) : (s.setBundle b f).work = s.work := rfl
@[simp] theorem setBundle_cur (b : Nat) (f : Bundle → Bundle) : (s.setBundle b f).cur = s.cur := rfl
@[simp] theorem setBundle_jobs (b : Nat) (f : Bundle → Bundle) : (s.setBundle b f).jobs = s.jobs := rfl
@[simp] theorem setBundle_draws (b : Nat) (f : Bundle → Bundle) : (s.setBundle b f).draws = s.draws := rfl
@[simp] theorem setBundle_seq (b : Nat) (f : Bundle → Bundle) : (s.setBundle b f).seq = s.seq := rfl
@[simp] theorem setBundle_sched (b : Nat) (f : Bundle → Bundle) : (s.setBundle b f).sched = s.sched := rfl
@[simp] theorem setBundle_dies (b : Nat) (f : Bundle → Bundle) : (s.setBundle b f).dies = s.dies := rfl
@[simp] theorem setBundle_dmem (b : Nat) (f : Bundle → Bundle) : (s.setBundle b f).dmem = s.dmem := rfl
@[simp] theorem setBundle_links (b : Nat) (f : Bundle → Bundle) : (s.setBundle b f).links = s.links := rfl
@[simp] theorem setBundle_cores (b : Nat) (f : Bundle → Bundle) : (s.setBundle b f).cores = s.cores := rfl
@[simp] theorem setBundle_hbm (b : Nat) (f : Bundle → Bundle) : (s.setBundle b f).hbm = s.hbm := rfl
@[simp] theorem setBundle_mod (b : Nat) (f : Bundle → Bundle) : (s.setBundle b f).mod = s.mod := rfl
@[simp] theorem setBundle_launches (b : Nat) (f : Bundle → Bundle) : (s.setBundle b f).launches = s.launches := rfl
@[simp] theorem setBundle_clusters (b : Nat) (f : Bundle → Bundle) : (s.setBundle b f).clusters = s.clusters := rfl
@[simp] theorem setBundle_blocks (b : Nat) (f : Bundle → Bundle) : (s.setBundle b f).blocks = s.blocks := rfl
@[simp] theorem setBundle_hostLines (b : Nat) (f : Bundle → Bundle) : (s.setBundle b f).hostLines = s.hostLines := rfl
@[simp] theorem setBundle_msgs (b : Nat) (f : Bundle → Bundle) : (s.setBundle b f).msgs = s.msgs := rfl
@[simp] theorem setBundle_away (b : Nat) (f : Bundle → Bundle) : (s.setBundle b f).away = s.away := rfl
@[simp] theorem setBundle_mem (b : Nat) (f : Bundle → Bundle) : (s.setBundle b f).mem = s.mem := rfl
@[simp] theorem setBundle_stale (b : Nat) (f : Bundle → Bundle) : (s.setBundle b f).stale = s.stale := rfl
@[simp] theorem setBundle_out (b : Nat) (f : Bundle → Bundle) : (s.setBundle b f).out = s.out := rfl

@[simp] theorem drawn_cycle : (s.drawn).cycle = s.cycle := rfl
@[simp] theorem drawn_tsc : (s.drawn).tsc = s.tsc := rfl
@[simp] theorem drawn_tscAcc : (s.drawn).tscAcc = s.tscAcc := rfl
@[simp] theorem drawn_work : (s.drawn).work = s.work := rfl
@[simp] theorem drawn_cur : (s.drawn).cur = s.cur := rfl
@[simp] theorem drawn_jobs : (s.drawn).jobs = s.jobs := rfl
@[simp] theorem drawn_seq : (s.drawn).seq = s.seq := rfl
@[simp] theorem drawn_sched : (s.drawn).sched = s.sched := rfl
@[simp] theorem drawn_dies : (s.drawn).dies = s.dies := rfl
@[simp] theorem drawn_dmem : (s.drawn).dmem = s.dmem := rfl
@[simp] theorem drawn_links : (s.drawn).links = s.links := rfl
@[simp] theorem drawn_cores : (s.drawn).cores = s.cores := rfl
@[simp] theorem drawn_hbm : (s.drawn).hbm = s.hbm := rfl
@[simp] theorem drawn_mod : (s.drawn).mod = s.mod := rfl
@[simp] theorem drawn_launches : (s.drawn).launches = s.launches := rfl
@[simp] theorem drawn_clusters : (s.drawn).clusters = s.clusters := rfl
@[simp] theorem drawn_blocks : (s.drawn).blocks = s.blocks := rfl
@[simp] theorem drawn_bundles : (s.drawn).bundles = s.bundles := rfl
@[simp] theorem drawn_hostLines : (s.drawn).hostLines = s.hostLines := rfl
@[simp] theorem drawn_msgs : (s.drawn).msgs = s.msgs := rfl
@[simp] theorem drawn_away : (s.drawn).away = s.away := rfl
@[simp] theorem drawn_mem : (s.drawn).mem = s.mem := rfl
@[simp] theorem drawn_stale : (s.drawn).stale = s.stale := rfl
@[simp] theorem drawn_out : (s.drawn).out = s.out := rfl

@[simp] theorem addJob_cycle (d due : Nat) (k : JobKind) : (s.addJob d due k).cycle = s.cycle := rfl
@[simp] theorem addJob_tsc (d due : Nat) (k : JobKind) : (s.addJob d due k).tsc = s.tsc := rfl
@[simp] theorem addJob_tscAcc (d due : Nat) (k : JobKind) : (s.addJob d due k).tscAcc = s.tscAcc := rfl
@[simp] theorem addJob_work (d due : Nat) (k : JobKind) : (s.addJob d due k).work = s.work := rfl
@[simp] theorem addJob_cur (d due : Nat) (k : JobKind) : (s.addJob d due k).cur = s.cur := rfl
@[simp] theorem addJob_draws (d due : Nat) (k : JobKind) : (s.addJob d due k).draws = s.draws := rfl
@[simp] theorem addJob_seq (d due : Nat) (k : JobKind) : (s.addJob d due k).seq = s.seq := rfl
@[simp] theorem addJob_sched (d due : Nat) (k : JobKind) : (s.addJob d due k).sched = s.sched := rfl
@[simp] theorem addJob_dies (d due : Nat) (k : JobKind) : (s.addJob d due k).dies = s.dies := rfl
@[simp] theorem addJob_dmem (d due : Nat) (k : JobKind) : (s.addJob d due k).dmem = s.dmem := rfl
@[simp] theorem addJob_links (d due : Nat) (k : JobKind) : (s.addJob d due k).links = s.links := rfl
@[simp] theorem addJob_cores (d due : Nat) (k : JobKind) : (s.addJob d due k).cores = s.cores := rfl
@[simp] theorem addJob_hbm (d due : Nat) (k : JobKind) : (s.addJob d due k).hbm = s.hbm := rfl
@[simp] theorem addJob_mod (d due : Nat) (k : JobKind) : (s.addJob d due k).mod = s.mod := rfl
@[simp] theorem addJob_launches (d due : Nat) (k : JobKind) : (s.addJob d due k).launches = s.launches := rfl
@[simp] theorem addJob_clusters (d due : Nat) (k : JobKind) : (s.addJob d due k).clusters = s.clusters := rfl
@[simp] theorem addJob_blocks (d due : Nat) (k : JobKind) : (s.addJob d due k).blocks = s.blocks := rfl
@[simp] theorem addJob_bundles (d due : Nat) (k : JobKind) : (s.addJob d due k).bundles = s.bundles := rfl
@[simp] theorem addJob_hostLines (d due : Nat) (k : JobKind) : (s.addJob d due k).hostLines = s.hostLines := rfl
@[simp] theorem addJob_msgs (d due : Nat) (k : JobKind) : (s.addJob d due k).msgs = s.msgs := rfl
@[simp] theorem addJob_away (d due : Nat) (k : JobKind) : (s.addJob d due k).away = s.away := rfl
@[simp] theorem addJob_mem (d due : Nat) (k : JobKind) : (s.addJob d due k).mem = s.mem := rfl
@[simp] theorem addJob_stale (d due : Nat) (k : JobKind) : (s.addJob d due k).stale = s.stale := rfl
@[simp] theorem addJob_out (d due : Nat) (k : JobKind) : (s.addJob d due k).out = s.out := rfl
variable {s}

@[simp] theorem setDie_die (d : Nat) (f : Die → Die) : (s.setDie d f).die d = f (s.die d) := by
  simp [State.setDie, State.die]
theorem setDie_die_other {d e : Nat} (f : Die → Die) (h : e ≠ d) : (s.setDie d f).die e = s.die e := by
  simp only [State.setDie, State.die]; exact tgetD_tset_other _ _ _ h
@[simp] theorem setDm_dm (d : Nat) (f : DieMem → DieMem) : (s.setDm d f).dm d = f (s.dm d) := by
  simp [State.setDm, State.dm]
theorem setDm_dm_other {d e : Nat} (f : DieMem → DieMem) (h : e ≠ d) : (s.setDm d f).dm e = s.dm e := by
  simp only [State.setDm, State.dm]; exact tgetD_tset_other _ _ _ h
@[simp] theorem setCore_core (c : Nat) (f : Core → Core) : (s.setCore c f).core c = f (s.core c) := by
  simp [State.setCore, State.core]
theorem setCore_core_other {c e : Nat} (f : Core → Core) (h : e ≠ c) : (s.setCore c f).core e = s.core e := by
  simp only [State.setCore, State.core]; exact tgetD_tset_other _ _ _ h
@[simp] theorem setStack_stack (k : Nat) (f : Stack → Stack) : (s.setStack k f).stack k = f (s.stack k) := by
  simp [State.setStack, State.stack]

theorem setBlock_tget (u v : Nat) (f : Block → Block) :
    tget (s.setBlock u f).blocks v = if v = u then (tget s.blocks v).map f else tget s.blocks v :=
  tget_tmod _ _ _ _

theorem setBlock_block_other {u v : Nat} (f : Block → Block) (h : v ≠ u) : (s.setBlock u f).block v = s.block v := by
  simp only [State.block, tgetD, setBlock_tget, if_neg h]

theorem setBlock_block {u : Nat} (f : Block → Block) (h : (tget s.blocks u).isSome = true) :
    (s.setBlock u f).block u = f (s.block u) := by
  obtain ⟨b, hb⟩ := Option.isSome_iff_exists.1 h
  simp [State.block, tgetD, setBlock_tget, hb]

/-- A change of a block that keeps its table of threads keeps every thread. -/
theorem setBlock_thread (u : Nat) (f : Block → Block) (hf : ∀ b, (f b).threads = b.threads) (v t : Nat) :
    (s.setBlock u f).thread v t = s.thread v t := by
  simp only [State.thread, State.block, tgetD, setBlock_tget]
  split
  · next h => subst h; cases tget s.blocks v <;> simp [hf]
  · rfl

@[simp] theorem setRun_thread (u : Nat) (f : BlockRun → BlockRun) (v t : Nat) :
    (s.setRun u f).thread v t = s.thread v t :=
  setBlock_thread u (fun b => { b with run := f b.run }) (fun _ => rfl) v t

/-- What one thread is after a change of another or of itself. -/
theorem setThread_thread (u t : Nat) (f : Thread → Thread) (v w : Nat) :
    (s.setThread u t f).thread v w =
      if v = u ∧ w = t ∧ (∃ b, tget s.blocks u = some b ∧ (tget b.threads t).isSome = true) then f (s.thread v w)
      else s.thread v w := by
  simp only [State.thread, State.block, tgetD, State.setThread, setBlock_tget]
  by_cases hv : v = u
  · subst hv
    cases hb : tget s.blocks v with
    | none => simp
    | some b =>
      simp only [if_true, Option.map_some, Option.getD_some, Block.setThread, tget_tmod, true_and,
        Option.some.injEq, exists_eq_left']
      by_cases hw : w = t
      · subst hw
        cases tget b.threads w <;> simp
      · simp [hw]
  · simp [hv]

end Sys2Proof.Machine
end

