-- ==== Sys2Proof/Laws/Issue.lean ====
section
/-! SUPPORT. Issuing: what the meaning of an instruction finds, and what the thread-by-thread forms leave. -/

namespace Sys2Proof.Machine

/-! ## Lists without repeats -/

theorem dedupFold_nodup (l r : List Nat) (h : r.Nodup) :
    (l.foldl (fun r x => if r.contains x then r else r ++ [x]) r).Nodup := by
  induction l generalizing r with
  | nil => exact h
  | cons x l ih =>
    apply ih
    dsimp only
    split
    · exact h
    · next hx =>
      simp only [List.contains_eq_mem, decide_eq_true_eq] at hx
      exact List.nodup_append.2 ⟨h, by simp, by simpa using fun a ha => by rintro rfl; exact hx ha⟩

theorem tids_nodup (b : Bundle) : b.tids.Nodup := dedupFold_nodup _ _ List.nodup_nil

theorem executing_nodup (s : State) (i : Instr) (b : Bundle) : (s.executing i b).Nodup :=
  (tids_nodup b).filter _

/-! ## Threads -/

theorem has_iff (s : State) (u t : Nat) :
    s.has u t = true ↔ ∃ b, tget s.blocks u = some b ∧ (tget b.threads t).isSome = true := by
  unfold State.has
  cases tget s.blocks u <;> simp

@[simp] theorem has_setThread (s : State) (u t v w : Nat) (f : Thread → Thread) :
    (s.setThread u t f).has v w = s.has v w := by
  simp only [State.has, State.setThread, setBlock_tget]
  by_cases hv : v = u
  · subst hv
    cases hb : tget s.blocks v with
    | none => simp
    | some b =>
      simp only [if_true, Option.map_some, Block.setThread, tget_tmod]
      split <;> simp
  · simp [hv]

theorem setThread_of_has {s : State} {u t : Nat} (f : Thread → Thread) (h : s.has u t = true) :
    (s.setThread u t f).thread u t = f (s.thread u t) := by
  rw [setThread_thread, if_pos ⟨rfl, rfl, (has_iff s u t).1 h⟩]

theorem setThread_other {s : State} {u t v w : Nat} (f : Thread → Thread) (h : ¬(v = u ∧ w = t)) :
    (s.setThread u t f).thread v w = s.thread v w := by
  rw [setThread_thread, if_neg fun hh => h ⟨hh.1, hh.2.1⟩]

/-- A change of one thread of a block after another, each once. -/
theorem foldl_setThread (s : State) (u : Nat) (l : List Nat) (hl : l.Nodup) (f : Nat → Thread → Thread) (t : Nat)
    (h : s.has u t = true) :
    (l.foldl (fun s t => s.setThread u t (f t)) s).thread u t =
      if t ∈ l then f t (s.thread u t) else s.thread u t := by
  induction l generalizing s with
  | nil => simp
  | cons a l ih =>
    rw [List.foldl_cons, ih _ (List.nodup_cons.1 hl).2 (by simpa using h)]
    have ha := (List.nodup_cons.1 hl).1
    by_cases ht : t = a
    · subst ht
      rw [if_neg ha, setThread_of_has _ h]
      simp
    · rw [setThread_other _ fun hh => ht hh.2]
      simp [ht]

@[simp] theorem foldl_setThread_has (s : State) (u : Nat) (l : List Nat) (f : Nat → Thread → Thread) (v t : Nat) :
    (l.foldl (fun s t => s.setThread u t (f t)) s).has v t = s.has v t := by
  induction l generalizing s with
  | nil => rfl
  | cons a l ih => rw [List.foldl_cons, ih, has_setThread]

/-! ## States that differ in little -/

theorem SameBut.refl (s : State) (u : Nat) : SameBut s s u :=
  ⟨rfl, ⟨rfl, rfl⟩, ⟨rfl, rfl, rfl⟩, rfl, ⟨rfl, rfl, rfl⟩, fun _ => rfl, ⟨rfl, rfl⟩, ⟨rfl, rfl⟩, fun _ _ => rfl, rfl,
    ⟨rfl, rfl, rfl, rfl⟩, ⟨rfl, rfl⟩⟩

theorem SameBut.trans {s t r : State} {u : Nat} (h : SameBut s t u) (k : SameBut t r u) : SameBut s r u where
  cycle := k.cycle.trans h.cycle
  tsc := ⟨k.tsc.1.trans h.tsc.1, k.tsc.2.trans h.tsc.2⟩
  work := ⟨k.work.1.trans h.work.1, k.work.2.1.trans h.work.2.1, k.work.2.2.trans h.work.2.2⟩
  seq := k.seq.trans h.seq
  dies := ⟨k.dies.1.trans h.dies.1, k.dies.2.1.trans h.dies.2.1, k.dies.2.2.trans h.dies.2.2⟩
  cores := fun c => (k.cores c).trans (h.cores c)
  hbm := ⟨k.hbm.1.trans h.hbm.1, k.hbm.2.trans h.hbm.2⟩
  launches := ⟨k.launches.1.trans h.launches.1, k.launches.2.trans h.launches.2⟩
  others := fun v hv => (k.others v hv).trans (h.others v hv)
  own := k.own.trans h.own
  links := ⟨k.links.1.trans h.links.1, k.links.2.1.trans h.links.2.1, k.links.2.2.1.trans h.links.2.2.1,
    k.links.2.2.2.trans h.links.2.2.2⟩
  mem := ⟨k.mem.1.trans h.mem.1, k.mem.2.trans h.mem.2⟩

/-- A change of a block that touches only its threads and its watchdog count. -/
theorem sameBut_setBlock (s : State) (u : Nat) (f : Block → Block) (hf : ∀ b, (f b).unthreaded = b.unthreaded) :
    SameBut s (s.setBlock u f) u where
  cycle := rfl
  tsc := ⟨rfl, rfl⟩
  work := ⟨rfl, rfl, rfl⟩
  seq := rfl
  dies := ⟨rfl, rfl, rfl⟩
  cores := fun _ => rfl
  hbm := ⟨rfl, rfl⟩
  launches := ⟨rfl, rfl⟩
  others := fun v hv => by rw [setBlock_tget, if_neg hv]
  own := by
    simp only [State.block, tgetD, setBlock_tget, if_true]
    cases tget s.blocks u with
    | none => rfl
    | some b => exact hf b
  links := ⟨rfl, rfl, rfl, rfl⟩
  mem := ⟨rfl, rfl⟩

theorem sameBut_setThread (s : State) (u t : Nat) (f : Thread → Thread) : SameBut s (s.setThread u t f) u :=
  sameBut_setBlock s u _ fun _ => rfl

theorem sameBut_foldl (s : State) (u : Nat) (l : List Nat) (g : State → Nat → State)
    (hg : ∀ s t, SameBut s (g s t) u) : SameBut s (l.foldl g s) u := by
  induction l generalizing s with
  | nil => exact .refl s u
  | cons a l ih => exact (hg s a).trans (ih _)

theorem sameBut_setBundle (s : State) (bid : Nat) (f : Bundle → Bundle) (u : Nat) : SameBut s (s.setBundle bid f) u :=
  ⟨rfl, ⟨rfl, rfl⟩, ⟨rfl, rfl, rfl⟩, rfl, ⟨rfl, rfl, rfl⟩, fun _ => rfl, ⟨rfl, rfl⟩, ⟨rfl, rfl⟩, fun _ _ => rfl, rfl,
    ⟨rfl, rfl, rfl, rfl⟩, ⟨rfl, rfl⟩⟩

theorem sameBut_tick (s : State) (core ev : Nat) (inst blk : Option Nat) (n u : Nat) :
    SameBut s (s.tick core ev inst blk n) u := by
  unfold State.tick State.tickFor
  split
  · exact .refl s u
  · refine ⟨rfl, ⟨rfl, rfl⟩, ⟨rfl, rfl, rfl⟩, rfl, ⟨rfl, rfl, rfl⟩, ?_, ⟨rfl, rfl⟩, ⟨rfl, rfl⟩, fun _ _ => rfl, rfl,
      ⟨rfl, rfl, rfl, rfl⟩, ⟨rfl, rfl⟩⟩
    intro c
    by_cases hc : c = core
    · subst hc; simp [Core.uncounted]
    · rw [setCore_core_other _ hc]

@[simp] theorem tick_thread (s : State) (core ev : Nat) (inst blk : Option Nat) (n u t : Nat) :
    (s.tick core ev inst blk n).thread u t = s.thread u t := by
  unfold State.tick State.tickFor
  split <;> rfl
@[simp] theorem tick_jobs (s : State) (core ev : Nat) (inst blk : Option Nat) (n : Nat) :
    (s.tick core ev inst blk n).jobs = s.jobs := by
  unfold State.tick State.tickFor
  split <;> rfl
@[simp] theorem tick_draws (s : State) (core ev : Nat) (inst blk : Option Nat) (n : Nat) :
    (s.tick core ev inst blk n).draws = s.draws := by
  unfold State.tick State.tickFor
  split <;> rfl

theorem sameBut_afterIssue (s : State) (x : Iss) (cost : Nat) : SameBut s (s.afterIssue x cost) x.u := by
  unfold State.afterIssue
  exact ((((sameBut_setBundle s _ _ _).trans (sameBut_tick _ _ _ _ _ _ _)).trans (sameBut_tick _ _ _ _ _ _ _)).trans
    (sameBut_tick _ _ _ _ _ _ _)).trans (sameBut_setBlock _ _ _ fun _ => rfl)

@[simp] theorem afterIssue_thread (s : State) (x : Iss) (cost u t : Nat) :
    (s.afterIssue x cost).thread u t = s.thread u t := by
  unfold State.afterIssue
  simp only [setRun_thread, tick_thread]
  rfl
@[simp] theorem afterIssue_jobs (s : State) (x : Iss) (cost : Nat) : (s.afterIssue x cost).jobs = s.jobs := by
  simp [State.afterIssue]
@[simp] theorem afterIssue_draws (s : State) (x : Iss) (cost : Nat) : (s.afterIssue x cost).draws = s.draws := by
  simp [State.afterIssue]

/-! ## Issue -/

theorem foldl_const {α β : Type} (s : α) (l : List β) (g : α → β → α) (h : ∀ b ∈ l, g s b = s) : l.foldl g s = s := by
  induction l with
  | nil => rfl
  | cons a l ih =>
    rw [List.foldl_cons, h a (by simp)]
    exact ih fun b hb => h b (by simp [hb])

/-- A bundle that can issue an instruction does (R46-R48). -/
theorem admit_of_issues {s : State} {i : Instr} {bid : Nat} {b : Bundle} (h : Issues s i bid b) :
    s.admission i = .go (s.issued i bid b) := by
  have hd : ∀ x : Iss, x.members = b.tids → x.u = b.blk → x.hdr = b.hdr → x.index = b.index.toNat → x.i = i →
      s.decodeTraps x = s := by
    intro x hm hu hh hi hx
    unfold State.decodeTraps
    rw [hm]
    apply foldl_const
    intro t ht
    simp only [hu, hh, hi, hx, h.legal t ht, h.placed, ite_self]
  unfold State.admission
  simp only [h.current, h.held, Option.bind_some, Option.map_some, h.goesOn]
  rw [hd _ rfl rfl rfl rfl rfl]
  simp only [h.held, Option.map_some, Option.getD_some, h.someone, if_false, Bool.false_eq_true]
  have hb : (b.tids.any fun t => ((s.thread b.blk t).blocked i ((s.block b.blk).opCtx (s.nowB b.blk) i)
      (if i.varLat then hdrSetSb b.hdr else none)).isSome) = false := by
    rw [List.any_eq_false]
    intro t ht
    have := h.ready t ht
    unfold State.opCtxOf at this
    rw [this]
    simp
  rw [hb]
  rfl

/-- What `issue` answers for a bundle that can issue, where the instruction goes on. -/
theorem issue_go {s : State} {i : Instr} {bid : Nat} {b : Bundle} (h : Issues s i bid b) (eff : Iss → Eff) {t : State}
    {cost : Nat} (he : eff (s.issued i bid b) = .go t cost) :
    issue s i eff = .next (t.afterIssue (s.issued i bid b) cost) := by
  unfold issue
  rw [admit_of_issues h]
  simp only [he]

theorem sameBut_issued (s : State) (i : Instr) (bid : Nat) (b : Bundle) : SameBut s (s.issued i bid b).s b.blk :=
  sameBut_foldl s b.blk _ _ fun s t => sameBut_setThread s b.blk t _

@[simp] theorem issued_has (s : State) (i : Instr) (bid : Nat) (b : Bundle) (u t : Nat) :
    (s.issued i bid b).s.has u t = s.has u t :=
  foldl_setThread_has s b.blk _ (fun _ h => h.advance b.base b.index.toNat b.hdr) u t

theorem issued_thread (s : State) (i : Instr) (bid : Nat) (b : Bundle) (t : Nat) (h : s.has b.blk t = true) :
    (s.issued i bid b).s.thread b.blk t = if t ∈ b.tids then s.stood b t else s.thread b.blk t :=
  foldl_setThread s b.blk _ (tids_nodup b) (fun _ h => h.advance b.base b.index.toNat b.hdr) t h

theorem issued_jobs (s : State) (i : Instr) (bid : Nat) (b : Bundle) :
    (s.issued i bid b).s.jobs = s.jobs ∧ (s.issued i bid b).s.draws = s.draws := by
  have : ∀ (l : List Nat) (s : State) (f : Nat → Thread → Thread),
      (l.foldl (fun s t => s.setThread b.blk t (f t)) s).jobs = s.jobs ∧
      (l.foldl (fun s t => s.setThread b.blk t (f t)) s).draws = s.draws := by
    intro l
    induction l with
    | nil => intro s f; exact ⟨rfl, rfl⟩
    | cons a l ih => intro s f; exact ih _ f
  exact this b.tids s fun _ h => h.advance b.base b.index.toNat b.hdr

theorem executing_tids {s : State} {i : Instr} {b : Bundle} {t : Nat} (h : t ∈ s.executing i b) : t ∈ b.tids :=
  (List.mem_filter.1 h).1

/-- The thread-by-thread instructions of fixed latency. -/
theorem alu_writes {s : State} {i : Instr} {bid : Nat} {b : Bundle} (h : Issues s i bid b) {cost : Nat}
    {f : Iss → Nat → Thread → Res} (hx : exec i s = alu s i cost f) :
    Writes s i b fun t th => f (s.issued i bid b) t th := by
  have hj : ∀ (l : List Nat) (s : State) (g : Nat → Thread → Thread),
      (l.foldl (fun s t => s.setThread b.blk t (g t)) s).jobs = s.jobs ∧
      (l.foldl (fun s t => s.setThread b.blk t (g t)) s).draws = s.draws := by
    intro l
    induction l with
    | nil => intro s g; exact ⟨rfl, rfl⟩
    | cons a l ih => intro s g; exact ih _ g
  refine ⟨_, hx.trans (issue_go h _ rfl), ?_, ?_, ?_, ?_⟩
  · exact ((sameBut_issued s i bid b).trans
      (sameBut_foldl _ b.blk _ _ fun s t => sameBut_setThread s b.blk t _)).trans (sameBut_afterIssue _ _ _)
  · rw [afterIssue_jobs]
    exact (hj _ _ _).1.trans (issued_jobs s i bid b).1
  · rw [afterIssue_draws]
    exact (hj _ _ _).2.trans (issued_jobs s i bid b).2
  · intro t ht
    rw [afterIssue_thread]
    refine (foldl_setThread _ b.blk _ (executing_nodup s i b)
      (fun t hh => hh.put (i.kills (s.opCtxOf b i)) (f (s.issued i bid b) t ((s.issued i bid b).thr t))) t
      (by simpa using ht)).trans ?_
    simp only [Iss.thr, State.issued]
    have := issued_thread s i bid b t ht
    simp only [State.issued] at this
    rw [this]
    by_cases he : t ∈ s.executing i b
    · simp [he, executing_tids he]
    · simp [he]

/-! ## Variable latency -/

theorem sameBut_send (x : Iss) (s : State) (t : Nat) (k : List Nat) (r : List (Nat × Word)) (p : List (Nat × Bool))
    (n : Nat) : SameBut s (x.send s t k r p n) x.u :=
  (sameBut_setThread s x.u t _).trans
    ⟨rfl, ⟨rfl, rfl⟩, ⟨rfl, rfl, rfl⟩, rfl, ⟨rfl, rfl, rfl⟩, fun _ => rfl, ⟨rfl, rfl⟩, ⟨rfl, rfl⟩, fun _ _ => rfl, rfl,
      ⟨rfl, rfl, rfl, rfl⟩, ⟨rfl, rfl⟩⟩

theorem send_thread (x : Iss) (s : State) (t : Nat) (k : List Nat) (r : List (Nat × Word)) (p : List (Nat × Bool))
    (n v w : Nat) : (x.send s t k r p n).thread v w =
      (s.setThread x.u t fun h => h.sent k (r.map (·.1)) (p.map (·.1)) x.slot).thread v w := rfl

theorem send_jobs_keep (x : Iss) (s : State) (t : Nat) (k : List Nat) (r : List (Nat × Word)) (p : List (Nat × Bool))
    (n q : Nat) (j : Job) (h : tget s.jobs q = some j) : tget (x.send s t k r p n).jobs q = some j :=
  tget_tset_tfresh s.jobs q _ j h

theorem send_job_new (x : Iss) (s : State) (t : Nat) (k : List Nat) (r : List (Nat × Word)) (p : List (Nat × Bool))
    {n : Nat} (hn : 0 < n) : ∃ q j, tget (x.send s t k r p n).jobs q = some j ∧ j.die = x.die ∧ x.now + 1 ≤ j.due ∧
      j.due ≤ x.now + n ∧ j.kind = .result x.u t r p x.slot := by
  refine ⟨tfresh s.jobs, _, tget_tset_same _ _ _, rfl, Nat.le_add_right _ _, ?_, rfl⟩
  have := Nat.mod_lt (Config.latency (s.setThread x.u t fun h => h.sent k (r.map (·.1)) (p.map (·.1)) x.slot).draws) hn
  dsimp only
  omega

/-- The thread-by-thread instructions of variable latency. -/
theorem aluV_sends {s : State} {i : Instr} {bid : Nat} {b : Bundle} (h : Issues s i bid b) {cost : Nat}
    {f : Iss → Nat → Thread → Res} (hx : exec i s = aluV s i cost f) :
    Sends s i b 64 fun t th => f (s.issued i bid b) t th := by
  have keep : ∀ (l : List Nat) (s0 : State) (x : Iss) (q : Nat) (j : Job), tget s0.jobs q = some j →
      tget (l.foldl (fun r t => x.send r t (i.kills x.oc) (f x t (x.thr t)).regs (f x t (x.thr t)).preds 64) s0).jobs q =
        some j := by
    intro l
    induction l with
    | nil => intro s0 x q j hq; exact hq
    | cons a l ih => intro s0 x q j hq; exact ih _ x q j (send_jobs_keep x s0 a _ _ _ _ q j hq)
  have made : ∀ (l : List Nat) (s0 : State) (x : Iss) (t : Nat), t ∈ l →
      ∃ q j, tget (l.foldl (fun r t => x.send r t (i.kills x.oc) (f x t (x.thr t)).regs (f x t (x.thr t)).preds 64)
        s0).jobs q = some j ∧ j.die = x.die ∧ x.now + 1 ≤ j.due ∧ j.due ≤ x.now + 64 ∧
        j.kind = .result x.u t (f x t (x.thr t)).regs (f x t (x.thr t)).preds x.slot := by
    intro l
    induction l with
    | nil => intro s0 x t ht; simp at ht
    | cons a l ih =>
      intro s0 x t ht
      rcases List.mem_cons.1 ht with ha | hl
      · subst ha
        obtain ⟨q, j, hq, hr⟩ := send_job_new x s0 t (i.kills x.oc) (f x t (x.thr t)).regs (f x t (x.thr t)).preds
          (n := 64) (by decide)
        exact ⟨q, j, keep l _ x q j hq, hr⟩
      · exact ih _ x t hl
  have thr : ∀ (l : List Nat) (s0 : State) (x : Iss) (v w : Nat),
      (l.foldl (fun r t => x.send r t (i.kills x.oc) (f x t (x.thr t)).regs (f x t (x.thr t)).preds 64) s0).thread v w =
      (l.foldl (fun r t => r.setThread x.u t fun hh => hh.sent (i.kills x.oc) ((f x t (x.thr t)).regs.map (·.1))
        ((f x t (x.thr t)).preds.map (·.1)) x.slot) s0).thread v w := by
    intro l
    induction l with
    | nil => intros; rfl
    | cons a l ih =>
      intro s0 x v w
      simp only [List.foldl_cons]
      rw [ih]
      -- the jobs and draws play no part in the threads
      have : ∀ (l : List Nat) (a b : State), a.blocks = b.blocks →
          (l.foldl (fun r t => r.setThread x.u t fun hh => hh.sent (i.kills x.oc) ((f x t (x.thr t)).regs.map (·.1))
            ((f x t (x.thr t)).preds.map (·.1)) x.slot) a).blocks =
          (l.foldl (fun r t => r.setThread x.u t fun hh => hh.sent (i.kills x.oc) ((f x t (x.thr t)).regs.map (·.1))
            ((f x t (x.thr t)).preds.map (·.1)) x.slot) b).blocks := by
        intro l
        induction l with
        | nil => intro a b hab; exact hab
        | cons c l ih2 =>
          intro a b hab
          exact ih2 _ _ (by simp only [State.setThread, State.setBlock, hab])
      have hb := this l (x.send s0 a (i.kills x.oc) (f x a (x.thr a)).regs (f x a (x.thr a)).preds 64)
        (s0.setThread x.u a fun hh => hh.sent (i.kills x.oc) ((f x a (x.thr a)).regs.map (·.1))
          ((f x a (x.thr a)).preds.map (·.1)) x.slot) rfl
      simp only [State.thread, State.block, hb]
  refine ⟨_, hx.trans (issue_go h _ rfl), ?_, ?_, ?_⟩
  · exact ((sameBut_issued s i bid b).trans
      (sameBut_foldl _ b.blk _ _ fun s t => sameBut_send _ s t _ _ _ _)).trans (sameBut_afterIssue _ _ _)
  · intro t ht
    rw [afterIssue_thread, thr]
    refine (foldl_setThread _ b.blk _ (executing_nodup s i b) _ t (by simpa using ht)).trans ?_
    have := issued_thread s i bid b t ht
    simp only [Iss.thr]
    simp only [State.issued] at this ⊢
    rw [this]
    by_cases he : t ∈ s.executing i b
    · simp [he, executing_tids he, Iss.slot]
    · simp [he]
  · intro t ht hs
    obtain ⟨q, j, hq, hd, h1, h2, hk⟩ := made (s.executing i b) (s.issued i bid b).s (s.issued i bid b) t ht
    have ht2 : (s.issued i bid b).thr t = s.stood b t := by
      have := issued_thread s i bid b t hs
      rw [if_pos (executing_tids ht)] at this
      exact this
    rw [ht2] at hk
    exact ⟨q, j, by rw [afterIssue_jobs]; exact hq, hd, h1, h2, hk⟩

end Sys2Proof.Machine
end

