-- ==== Sys2Proof/Laws/PerInstr.lean ====
section
/-! SUPPORT. The encoding family, one lemma for each constructor: the guard field of an instruction's word, bits 55:52, is
the instruction's guard (R52). -/

namespace Sys2Proof
open Sys2Proof.Machine

/-! ## The guard field of each format -/

theorem getLsbD_above {m n : Nat} {x : BitVec m} {y : BitVec n} {i : Nat} (h : n ≤ i) :
    (x ++ y).getLsbD i = x.getLsbD (i - n) := by
  rw [BitVec.getLsbD_append, if_neg (by omega)]
theorem getLsbD_within {m n : Nat} {x : BitVec m} {y : BitVec n} {i : Nat} (h : i < n) :
    (x ++ y).getLsbD i = y.getLsbD i := by
  rw [BitVec.getLsbD_append, if_pos h]
theorem getLsbD_b2b (b : Bool) : (b2b b).getLsbD 0 = b := by cases b <;> rfl

theorem guardOf_of_bits {w : DWord} {g : Guard} (h0 : w.getLsbD 53 = g.pg.getLsbD 0)
    (h1 : w.getLsbD 54 = g.pg.getLsbD 1) (h2 : w.getLsbD 55 = g.pg.getLsbD 2) (h3 : w.getLsbD 52 = g.pn) :
    guardOf w = g := by
  obtain ⟨pg, pn⟩ := g
  simp only [guardOf, Guard.mk.injEq]
  refine ⟨BitVec.eq_of_getLsbD_eq fun i hi => ?_, h3⟩
  simp only [fld, BitVec.getLsbD_extractLsb', hi, decide_true, Bool.true_and]
  have : i = 0 ∨ i = 1 ∨ i = 2 := by omega
  rcases this with rfl | rfl | rfl
  · exact h0
  · exact h1
  · exact h2

theorem guardOf_encR (op : BitVec 8) (r : RR) (sub : BitVec 6) (mod : BitVec 8) : guardOf (encR op r sub mod) = r.g := by
  unfold encR
  apply guardOf_of_bits
  all_goals repeat (refine (getLsbD_above (by decide)).trans ?_)
  · exact getLsbD_within (by decide)
  · exact getLsbD_within (by decide)
  · exact getLsbD_within (by decide)
  · exact (getLsbD_within (by decide)).trans (getLsbD_b2b _)

theorem guardOf_encI (op : BitVec 8) (r : RI) (sub : BitVec 2) : guardOf (encI op r sub) = r.g := by
  unfold encI
  apply guardOf_of_bits
  all_goals repeat (refine (getLsbD_above (by decide)).trans ?_)
  · exact getLsbD_within (by decide)
  · exact getLsbD_within (by decide)
  · exact getLsbD_within (by decide)
  · exact (getLsbD_within (by decide)).trans (getLsbD_b2b _)

theorem guardOf_encM (op : BitVec 8) (r : RM) : guardOf (encM op r) = r.g := by
  unfold encM
  apply guardOf_of_bits
  all_goals repeat (refine (getLsbD_above (by decide)).trans ?_)
  · exact getLsbD_within (by decide)
  · exact getLsbD_within (by decide)
  · exact getLsbD_within (by decide)
  · exact (getLsbD_within (by decide)).trans (getLsbD_b2b _)

theorem guardOf_encO (op : BitVec 8) (r : RO) : guardOf (encO op r) = r.g := by
  unfold encO
  apply guardOf_of_bits
  all_goals repeat (refine (getLsbD_above (by decide)).trans ?_)
  · exact getLsbD_within (by decide)
  · exact getLsbD_within (by decide)
  · exact getLsbD_within (by decide)
  · exact (getLsbD_within (by decide)).trans (getLsbD_b2b _)

theorem guardOf_encB (op : BitVec 8) (r : RB) : guardOf (encB op r) = r.g := by
  unfold encB
  apply guardOf_of_bits
  all_goals repeat (refine (getLsbD_above (by decide)).trans ?_)
  · exact getLsbD_within (by decide)
  · exact getLsbD_within (by decide)
  · exact getLsbD_within (by decide)
  · exact (getLsbD_within (by decide)).trans (getLsbD_b2b _)

theorem guardOf_encX (op : BitVec 8) (r : RX) : guardOf (encX op r) = r.g := by
  unfold encX
  apply guardOf_of_bits
  all_goals repeat (refine (getLsbD_above (by decide)).trans ?_)
  · exact getLsbD_within (by decide)
  · exact getLsbD_within (by decide)
  · exact getLsbD_within (by decide)
  · exact (getLsbD_within (by decide)).trans (getLsbD_b2b _)

/-- The guard stands in bits 55:52 of the instruction's word (R52). -/
def Laws.Encoding.Statement (i : Instr) : Prop :=
  ∀ w g, encode i = some w → i.guard? = some g → guardOf w = g

theorem Laws.Encoding.bundleForm (x0) : Laws.Encoding.Statement (.bundleForm x0) := by intro w g h; cases h
theorem Laws.Encoding.groupAged (x0 x1) : Laws.Encoding.Statement (.groupAged x0 x1) := by intro w g h; cases h
theorem Laws.Encoding.resultWriteback (x0) : Laws.Encoding.Statement (.resultWriteback x0) := by intro w g h; cases h
theorem Laws.Encoding.blockRetry (x0) : Laws.Encoding.Statement (.blockRetry x0) := by intro w g h; cases h
theorem Laws.Encoding.bra (x0) : Laws.Encoding.Statement (.bra x0) := by
  intro w g h hg; cases h; cases hg; exact guardOf_encB _ _
theorem Laws.Encoding.brx (x0) : Laws.Encoding.Statement (.brx x0) := by
  intro w g h hg; cases h; cases hg; exact guardOf_encB _ _
theorem Laws.Encoding.call (x0) : Laws.Encoding.Statement (.call x0) := by
  intro w g h hg; cases h; cases hg; exact guardOf_encB _ _
theorem Laws.Encoding.callx (x0) : Laws.Encoding.Statement (.callx x0) := by
  intro w g h hg; cases h; cases hg; exact guardOf_encB _ _
theorem Laws.Encoding.ret (x0) : Laws.Encoding.Statement (.ret x0) := by
  intro w g h hg; cases h; cases hg; exact guardOf_encB _ _
theorem Laws.Encoding.exit (x0) : Laws.Encoding.Statement (.exit x0) := by
  intro w g h hg; cases h; cases hg; exact guardOf_encR _ _ _ _
theorem Laws.Encoding.yieldHint (x0) : Laws.Encoding.Statement (.yieldHint x0) := by
  intro w g h hg; cases h; cases hg; exact guardOf_encR _ _ _ _
theorem Laws.Encoding.nop (x0) : Laws.Encoding.Statement (.nop x0) := by
  intro w g h hg; cases h; cases hg; exact guardOf_encR _ _ _ _
theorem Laws.Encoding.jarm (x0) : Laws.Encoding.Statement (.jarm x0) := by
  intro w g h hg; cases h; cases hg; exact guardOf_encR _ _ _ _
theorem Laws.Encoding.jwait (x0) : Laws.Encoding.Statement (.jwait x0) := by
  intro w g h hg; cases h; cases hg; exact guardOf_encR _ _ _ _
theorem Laws.Encoding.jdrop (x0) : Laws.Encoding.Statement (.jdrop x0) := by
  intro w g h hg; cases h; cases hg; exact guardOf_encR _ _ _ _
theorem Laws.Encoding.jget (x0) : Laws.Encoding.Statement (.jget x0) := by
  intro w g h hg; cases h; cases hg; exact guardOf_encR _ _ _ _
theorem Laws.Encoding.jset (x0) : Laws.Encoding.Statement (.jset x0) := by
  intro w g h hg; cases h; cases hg; exact guardOf_encR _ _ _ _
theorem Laws.Encoding.mov (x0 x1) : Laws.Encoding.Statement (.mov x0 x1) := by
  intro w g h hg; cases h; cases hg; exact guardOf_encR _ _ _ _
theorem Laws.Encoding.moviB32 (x0) : Laws.Encoding.Statement (.moviB32 x0) := by
  intro w g h hg; cases h; cases hg; exact guardOf_encI _ _ _
theorem Laws.Encoding.moviS64 (x0) : Laws.Encoding.Statement (.moviS64 x0) := by
  intro w g h hg; cases h; cases hg; exact guardOf_encI _ _ _
theorem Laws.Encoding.moviN64 (x0) : Laws.Encoding.Statement (.moviN64 x0) := by
  intro w g h hg; cases h; cases hg; exact guardOf_encI _ _ _
theorem Laws.Encoding.kmovToK (x0) : Laws.Encoding.Statement (.kmovToK x0) := by
  intro w g h hg; cases h; cases hg; exact guardOf_encR _ _ _ _
theorem Laws.Encoding.kmovFromK (x0) : Laws.Encoding.Statement (.kmovFromK x0) := by
  intro w g h hg; cases h; cases hg; exact guardOf_encR _ _ _ _
theorem Laws.Encoding.srd (x0) : Laws.Encoding.Statement (.srd x0) := by
  intro w g h hg; cases h; cases hg; exact guardOf_encI _ _ _
theorem Laws.Encoding.swr (x0) : Laws.Encoding.Statement (.swr x0) := by
  intro w g h hg; cases h; cases hg; exact guardOf_encI _ _ _
theorem Laws.Encoding.vget (x0) : Laws.Encoding.Statement (.vget x0) := by
  intro w g h hg; cases h; cases hg; exact guardOf_encR _ _ _ _
theorem Laws.Encoding.vset (x0) : Laws.Encoding.Statement (.vset x0) := by
  intro w g h hg; cases h; cases hg; exact guardOf_encR _ _ _ _
theorem Laws.Encoding.givereg (x0) : Laws.Encoding.Statement (.givereg x0) := by
  intro w g h hg; cases h; cases hg; exact guardOf_encR _ _ _ _
theorem Laws.Encoding.claimreg (x0) : Laws.Encoding.Statement (.claimreg x0) := by
  intro w g h hg; cases h; cases hg; exact guardOf_encR _ _ _ _
theorem Laws.Encoding.sel (x0 x1) : Laws.Encoding.Statement (.sel x0 x1) := by
  intro w g h hg; cases h; cases hg; exact guardOf_encR _ _ _ _
theorem Laws.Encoding.plop (x0 x1) : Laws.Encoding.Statement (.plop x0 x1) := by
  intro w g h hg; cases h; cases hg; exact guardOf_encR _ _ _ _
theorem Laws.Encoding.iadd (x0 x1 x2) : Laws.Encoding.Statement (.iadd x0 x1 x2) := by
  intro w g h hg; cases h; cases hg; exact guardOf_encR _ _ _ _
theorem Laws.Encoding.isub (x0 x1 x2) : Laws.Encoding.Statement (.isub x0 x1 x2) := by
  intro w g h hg; cases h; cases hg; exact guardOf_encR _ _ _ _
theorem Laws.Encoding.imul (x0 x1 x2) : Laws.Encoding.Statement (.imul x0 x1 x2) := by
  intro w g h hg; cases h; cases hg; exact guardOf_encR _ _ _ _
theorem Laws.Encoding.imulh (x0 x1) : Laws.Encoding.Statement (.imulh x0 x1) := by
  intro w g h hg; cases h; cases hg; exact guardOf_encR _ _ _ _
theorem Laws.Encoding.imad (x0 x1 x2) : Laws.Encoding.Statement (.imad x0 x1 x2) := by
  intro w g h hg; cases h; cases hg; exact guardOf_encR _ _ _ _
theorem Laws.Encoding.imin (x0 x1) : Laws.Encoding.Statement (.imin x0 x1) := by
  intro w g h hg; cases h; cases hg; exact guardOf_encR _ _ _ _
theorem Laws.Encoding.imax (x0 x1) : Laws.Encoding.Statement (.imax x0 x1) := by
  intro w g h hg; cases h; cases hg; exact guardOf_encR _ _ _ _
theorem Laws.Encoding.iabs (x0 x1 x2) : Laws.Encoding.Statement (.iabs x0 x1 x2) := by
  intro w g h hg; cases h; cases hg; exact guardOf_encR _ _ _ _
theorem Laws.Encoding.shl (x0 x1) : Laws.Encoding.Statement (.shl x0 x1) := by
  intro w g h hg; cases h; cases hg; exact guardOf_encR _ _ _ _
theorem Laws.Encoding.shr (x0 x1) : Laws.Encoding.Statement (.shr x0 x1) := by
  intro w g h hg; cases h; cases hg; exact guardOf_encR _ _ _ _
theorem Laws.Encoding.sar (x0 x1) : Laws.Encoding.Statement (.sar x0 x1) := by
  intro w g h hg; cases h; cases hg; exact guardOf_encR _ _ _ _
theorem Laws.Encoding.and (x0) : Laws.Encoding.Statement (.and x0) := by
  intro w g h hg; cases h; cases hg; exact guardOf_encR _ _ _ _
theorem Laws.Encoding.or (x0) : Laws.Encoding.Statement (.or x0) := by
  intro w g h hg; cases h; cases hg; exact guardOf_encR _ _ _ _
theorem Laws.Encoding.xor (x0) : Laws.Encoding.Statement (.xor x0) := by
  intro w g h hg; cases h; cases hg; exact guardOf_encR _ _ _ _
theorem Laws.Encoding.lut3 (x0 x1) : Laws.Encoding.Statement (.lut3 x0 x1) := by
  intro w g h hg; cases h; cases hg; exact guardOf_encR _ _ _ _
theorem Laws.Encoding.popc (x0) : Laws.Encoding.Statement (.popc x0) := by
  intro w g h hg; cases h; cases hg; exact guardOf_encR _ _ _ _
theorem Laws.Encoding.clz (x0) : Laws.Encoding.Statement (.clz x0) := by
  intro w g h hg; cases h; cases hg; exact guardOf_encR _ _ _ _
theorem Laws.Encoding.brev (x0) : Laws.Encoding.Statement (.brev x0) := by
  intro w g h hg; cases h; cases hg; exact guardOf_encR _ _ _ _
theorem Laws.Encoding.bfx (x0 x1) : Laws.Encoding.Statement (.bfx x0 x1) := by
  intro w g h hg; cases h; cases hg; exact guardOf_encR _ _ _ _
theorem Laws.Encoding.bfi (x0) : Laws.Encoding.Statement (.bfi x0) := by
  intro w g h hg; cases h; cases hg; exact guardOf_encR _ _ _ _
theorem Laws.Encoding.icmp (x0 x1 x2) : Laws.Encoding.Statement (.icmp x0 x1 x2) := by
  intro w g h hg; cases h; cases hg; exact guardOf_encR _ _ _ _
theorem Laws.Encoding.lea (x0 x1) : Laws.Encoding.Statement (.lea x0 x1) := by
  intro w g h hg; cases h; cases hg; exact guardOf_encR _ _ _ _
theorem Laws.Encoding.iaddImm (x0) : Laws.Encoding.Statement (.iaddImm x0) := by
  intro w g h hg; cases h; cases hg; exact guardOf_encI _ _ _
theorem Laws.Encoding.andImm (x0) : Laws.Encoding.Statement (.andImm x0) := by
  intro w g h hg; cases h; cases hg; exact guardOf_encI _ _ _
theorem Laws.Encoding.orImm (x0) : Laws.Encoding.Statement (.orImm x0) := by
  intro w g h hg; cases h; cases hg; exact guardOf_encI _ _ _
theorem Laws.Encoding.xorImm (x0) : Laws.Encoding.Statement (.xorImm x0) := by
  intro w g h hg; cases h; cases hg; exact guardOf_encI _ _ _
theorem Laws.Encoding.shlImm (x0) : Laws.Encoding.Statement (.shlImm x0) := by
  intro w g h hg; cases h; cases hg; exact guardOf_encI _ _ _
theorem Laws.Encoding.shrImm (x0) : Laws.Encoding.Statement (.shrImm x0) := by
  intro w g h hg; cases h; cases hg; exact guardOf_encI _ _ _
theorem Laws.Encoding.sarImm (x0) : Laws.Encoding.Statement (.sarImm x0) := by
  intro w g h hg; cases h; cases hg; exact guardOf_encI _ _ _
theorem Laws.Encoding.fadd (x0 x1) : Laws.Encoding.Statement (.fadd x0 x1) := by
  intro w g h hg; cases h; cases hg; exact guardOf_encR _ _ _ _
theorem Laws.Encoding.fmul (x0 x1) : Laws.Encoding.Statement (.fmul x0 x1) := by
  intro w g h hg; cases h; cases hg; exact guardOf_encR _ _ _ _
theorem Laws.Encoding.ffma (x0 x1) : Laws.Encoding.Statement (.ffma x0 x1) := by
  intro w g h hg; cases h; cases hg; exact guardOf_encR _ _ _ _
theorem Laws.Encoding.fmin (x0) : Laws.Encoding.Statement (.fmin x0) := by
  intro w g h hg; cases h; cases hg; exact guardOf_encR _ _ _ _
theorem Laws.Encoding.fmax (x0) : Laws.Encoding.Statement (.fmax x0) := by
  intro w g h hg; cases h; cases hg; exact guardOf_encR _ _ _ _
theorem Laws.Encoding.fcmp (x0 x1) : Laws.Encoding.Statement (.fcmp x0 x1) := by
  intro w g h hg; cases h; cases hg; exact guardOf_encR _ _ _ _
theorem Laws.Encoding.fclass (x0) : Laws.Encoding.Statement (.fclass x0) := by
  intro w g h hg; cases h; cases hg; exact guardOf_encR _ _ _ _
theorem Laws.Encoding.frnd (x0 x1) : Laws.Encoding.Statement (.frnd x0 x1) := by
  intro w g h hg; cases h; cases hg; exact guardOf_encR _ _ _ _
theorem Laws.Encoding.fsqrt (x0 x1) : Laws.Encoding.Statement (.fsqrt x0 x1) := by
  intro w g h hg; cases h; cases hg; exact guardOf_encR _ _ _ _
theorem Laws.Encoding.hadd2 (x0 x1 x2) : Laws.Encoding.Statement (.hadd2 x0 x1 x2) := by
  intro w g h hg; cases h; cases hg; exact guardOf_encR _ _ _ _
theorem Laws.Encoding.hmul2 (x0 x1 x2) : Laws.Encoding.Statement (.hmul2 x0 x1 x2) := by
  intro w g h hg; cases h; cases hg; exact guardOf_encR _ _ _ _
theorem Laws.Encoding.hfma2 (x0 x1 x2) : Laws.Encoding.Statement (.hfma2 x0 x1 x2) := by
  intro w g h hg; cases h; cases hg; exact guardOf_encR _ _ _ _
theorem Laws.Encoding.hmin2 (x0 x1) : Laws.Encoding.Statement (.hmin2 x0 x1) := by
  intro w g h hg; cases h; cases hg; exact guardOf_encR _ _ _ _
theorem Laws.Encoding.hmax2 (x0 x1) : Laws.Encoding.Statement (.hmax2 x0 x1) := by
  intro w g h hg; cases h; cases hg; exact guardOf_encR _ _ _ _
theorem Laws.Encoding.dadd (x0 x1) : Laws.Encoding.Statement (.dadd x0 x1) := by
  intro w g h hg; cases h; cases hg; exact guardOf_encR _ _ _ _
theorem Laws.Encoding.dmul (x0 x1) : Laws.Encoding.Statement (.dmul x0 x1) := by
  intro w g h hg; cases h; cases hg; exact guardOf_encR _ _ _ _
theorem Laws.Encoding.dfma (x0 x1) : Laws.Encoding.Statement (.dfma x0 x1) := by
  intro w g h hg; cases h; cases hg; exact guardOf_encR _ _ _ _
theorem Laws.Encoding.dcmp (x0 x1) : Laws.Encoding.Statement (.dcmp x0 x1) := by
  intro w g h hg; cases h; cases hg; exact guardOf_encR _ _ _ _
theorem Laws.Encoding.frcp (x0) : Laws.Encoding.Statement (.frcp x0) := by
  intro w g h hg; cases h; cases hg; exact guardOf_encR _ _ _ _
theorem Laws.Encoding.frsq (x0) : Laws.Encoding.Statement (.frsq x0) := by
  intro w g h hg; cases h; cases hg; exact guardOf_encR _ _ _ _
theorem Laws.Encoding.fexp2 (x0) : Laws.Encoding.Statement (.fexp2 x0) := by
  intro w g h hg; cases h; cases hg; exact guardOf_encR _ _ _ _
theorem Laws.Encoding.flog2 (x0) : Laws.Encoding.Statement (.flog2 x0) := by
  intro w g h hg; cases h; cases hg; exact guardOf_encR _ _ _ _
theorem Laws.Encoding.fsin (x0) : Laws.Encoding.Statement (.fsin x0) := by
  intro w g h hg; cases h; cases hg; exact guardOf_encR _ _ _ _
theorem Laws.Encoding.fcos (x0) : Laws.Encoding.Statement (.fcos x0) := by
  intro w g h hg; cases h; cases hg; exact guardOf_encR _ _ _ _
theorem Laws.Encoding.ftanh (x0) : Laws.Encoding.Statement (.ftanh x0) := by
  intro w g h hg; cases h; cases hg; exact guardOf_encR _ _ _ _
theorem Laws.Encoding.cvt (x0 x1 x2 x3 x4) : Laws.Encoding.Statement (.cvt x0 x1 x2 x3 x4) := by
  intro w g h hg; cases h; cases hg; exact guardOf_encR _ _ _ _
theorem Laws.Encoding.cvtfEnc (x0) : Laws.Encoding.Statement (.cvtfEnc x0) := by
  intro w g h hg; cases h; cases hg; exact guardOf_encX _ _
theorem Laws.Encoding.cvtfDec (x0) : Laws.Encoding.Statement (.cvtfDec x0) := by
  intro w g h hg; cases h; cases hg; exact guardOf_encX _ _
theorem Laws.Encoding.keyord (x0 x1 x2) : Laws.Encoding.Statement (.keyord x0 x1 x2) := by
  intro w g h hg; cases h; cases hg; exact guardOf_encR _ _ _ _
theorem Laws.Encoding.idiv (x0) : Laws.Encoding.Statement (.idiv x0) := by intro w g h hg; cases hg
theorem Laws.Encoding.shfl (x0 x1) : Laws.Encoding.Statement (.shfl x0 x1) := by
  intro w g h hg; cases h; cases hg; exact guardOf_encR _ _ _ _
theorem Laws.Encoding.voteAll (x0) : Laws.Encoding.Statement (.voteAll x0) := by
  intro w g h hg; cases h; cases hg; exact guardOf_encR _ _ _ _
theorem Laws.Encoding.voteAny (x0) : Laws.Encoding.Statement (.voteAny x0) := by
  intro w g h hg; cases h; cases hg; exact guardOf_encR _ _ _ _
theorem Laws.Encoding.voteBallot (x0) : Laws.Encoding.Statement (.voteBallot x0) := by
  intro w g h hg; cases h; cases hg; exact guardOf_encR _ _ _ _
theorem Laws.Encoding.voteEq (x0) : Laws.Encoding.Statement (.voteEq x0) := by
  intro w g h hg; cases h; cases hg; exact guardOf_encR _ _ _ _
theorem Laws.Encoding.matchBits (x0 x1) : Laws.Encoding.Statement (.matchBits x0 x1) := by
  intro w g h hg; cases h; cases hg; exact guardOf_encR _ _ _ _
theorem Laws.Encoding.cred (x0 x1 x2) : Laws.Encoding.Statement (.cred x0 x1 x2) := by
  intro w g h hg; cases h; cases hg; exact guardOf_encR _ _ _ _
theorem Laws.Encoding.cscan (x0 x1 x2 x3) : Laws.Encoding.Statement (.cscan x0 x1 x2 x3) := by
  intro w g h hg; cases h; cases hg; exact guardOf_encR _ _ _ _
theorem Laws.Encoding.segred (x0 x1 x2) : Laws.Encoding.Statement (.segred x0 x1 x2) := by
  intro w g h hg; cases h; cases hg; exact guardOf_encR _ _ _ _
theorem Laws.Encoding.segscan (x0 x1 x2 x3) : Laws.Encoding.Statement (.segscan x0 x1 x2 x3) := by
  intro w g h hg; cases h; cases hg; exact guardOf_encR _ _ _ _
theorem Laws.Encoding.bqnt (x0) : Laws.Encoding.Statement (.bqnt x0) := by
  intro w g h hg; cases h; cases hg; exact guardOf_encX _ _
theorem Laws.Encoding.selhist (x0) : Laws.Encoding.Statement (.selhist x0) := by
  intro w g h hg; cases h; cases hg; exact guardOf_encR _ _ _ _
theorem Laws.Encoding.selcut (x0) : Laws.Encoding.Statement (.selcut x0) := by
  intro w g h hg; cases h; cases hg; exact guardOf_encR _ _ _ _
theorem Laws.Encoding.selpack (x0) : Laws.Encoding.Statement (.selpack x0) := by
  intro w g h hg; cases h; cases hg; exact guardOf_encR _ _ _ _
theorem Laws.Encoding.selmerge (x0) : Laws.Encoding.Statement (.selmerge x0) := by
  intro w g h hg; cases h; cases hg; exact guardOf_encR _ _ _ _
theorem Laws.Encoding.lds (x0) : Laws.Encoding.Statement (.lds x0) := by
  intro w g h hg; cases h; cases hg; exact guardOf_encM _ _
theorem Laws.Encoding.sts (x0) : Laws.Encoding.Statement (.sts x0) := by
  intro w g h hg; cases h; cases hg; exact guardOf_encM _ _
theorem Laws.Encoding.windowStoreAck (x0) : Laws.Encoding.Statement (.windowStoreAck x0) := by intro w g h; cases h
theorem Laws.Encoding.ldl (x0) : Laws.Encoding.Statement (.ldl x0) := by
  intro w g h hg; cases h; cases hg; exact guardOf_encM _ _
theorem Laws.Encoding.stl (x0) : Laws.Encoding.Statement (.stl x0) := by
  intro w g h hg; cases h; cases hg; exact guardOf_encM _ _
theorem Laws.Encoding.atoms (x0) : Laws.Encoding.Statement (.atoms x0) := by
  intro w g h hg; cases h; cases hg; exact guardOf_encO _ _
theorem Laws.Encoding.tdecl (x0) : Laws.Encoding.Statement (.tdecl x0) := by
  intro w g h hg; cases h; cases hg; exact guardOf_encX _ _
theorem Laws.Encoding.tfill (x0) : Laws.Encoding.Statement (.tfill x0) := by
  intro w g h hg; cases h; cases hg; exact guardOf_encX _ _
theorem Laws.Encoding.tfillIdent (x0) : Laws.Encoding.Statement (.tfillIdent x0) := by
  intro w g h hg; cases h; cases hg; exact guardOf_encX _ _
theorem Laws.Encoding.tfillEnd (x0) : Laws.Encoding.Statement (.tfillEnd x0) := by intro w g h; cases h
theorem Laws.Encoding.tscan (x0) : Laws.Encoding.Statement (.tscan x0) := by
  intro w g h hg; cases h; cases hg; exact guardOf_encX _ _
theorem Laws.Encoding.tscanEnd (x0) : Laws.Encoding.Statement (.tscanEnd x0) := by intro w g h; cases h
theorem Laws.Encoding.tqry (x0) : Laws.Encoding.Statement (.tqry x0) := by
  intro w g h hg; cases h; cases hg; exact guardOf_encX _ _
theorem Laws.Encoding.tfree (x0) : Laws.Encoding.Statement (.tfree x0) := by
  intro w g h hg; cases h; cases hg; exact guardOf_encX _ _
theorem Laws.Encoding.tmarkDemote (x0) : Laws.Encoding.Statement (.tmarkDemote x0) := by
  intro w g h hg; cases h; cases hg; exact guardOf_encX _ _
theorem Laws.Encoding.tmarkRetype (x0) : Laws.Encoding.Statement (.tmarkRetype x0) := by
  intro w g h hg; cases h; cases hg; exact guardOf_encX _ _
theorem Laws.Encoding.mma (x0) : Laws.Encoding.Statement (.mma x0) := by
  intro w g h hg; cases h; cases hg; exact guardOf_encX _ _
theorem Laws.Encoding.mmax (x0) : Laws.Encoding.Statement (.mmax x0) := by
  intro w g h hg; cases h; cases hg; exact guardOf_encX _ _
theorem Laws.Encoding.matrixPass (x0) : Laws.Encoding.Statement (.matrixPass x0) := by intro w g h; cases h
theorem Laws.Encoding.octetOperationComplete (x0) : Laws.Encoding.Statement (.octetOperationComplete x0) := by intro w g h; cases h
theorem Laws.Encoding.slotz (x0) : Laws.Encoding.Statement (.slotz x0) := by
  intro w g h hg; cases h; cases hg; exact guardOf_encX _ _
theorem Laws.Encoding.slotrd (x0) : Laws.Encoding.Statement (.slotrd x0) := by
  intro w g h hg; cases h; cases hg; exact guardOf_encX _ _
theorem Laws.Encoding.slotwr (x0) : Laws.Encoding.Statement (.slotwr x0) := by
  intro w g h hg; cases h; cases hg; exact guardOf_encX _ _
theorem Laws.Encoding.epi (x0) : Laws.Encoding.Statement (.epi x0) := by
  intro w g h hg; cases h; cases hg; exact guardOf_encX _ _
theorem Laws.Encoding.epiq (x0) : Laws.Encoding.Statement (.epiq x0) := by
  intro w g h hg; cases h; cases hg; exact guardOf_encX _ _
theorem Laws.Encoding.epilogueDrain (x0) : Laws.Encoding.Statement (.epilogueDrain x0) := by intro w g h; cases h
theorem Laws.Encoding.epilogueComplete (x0) : Laws.Encoding.Statement (.epilogueComplete x0) := by intro w g h; cases h
theorem Laws.Encoding.ringDeadlock (x0) : Laws.Encoding.Statement (.ringDeadlock x0) := by intro w g h; cases h
theorem Laws.Encoding.barv (x0) : Laws.Encoding.Statement (.barv x0) := by
  intro w g h hg; cases h; cases hg; exact guardOf_encX _ _
theorem Laws.Encoding.barw (x0) : Laws.Encoding.Statement (.barw x0) := by
  intro w g h hg; cases h; cases hg; exact guardOf_encX _ _
theorem Laws.Encoding.barx (x0) : Laws.Encoding.Statement (.barx x0) := by
  intro w g h hg; cases h; cases hg; exact guardOf_encX _ _
theorem Laws.Encoding.bart (x0) : Laws.Encoding.Statement (.bart x0) := by
  intro w g h hg; cases h; cases hg; exact guardOf_encX _ _
theorem Laws.Encoding.bartOvf (x0) : Laws.Encoding.Statement (.bartOvf x0) := by
  intro w g h hg; cases h; cases hg; exact guardOf_encX _ _
theorem Laws.Encoding.bars (x0) : Laws.Encoding.Statement (.bars x0) := by
  intro w g h hg; cases h; cases hg; exact guardOf_encX _ _
theorem Laws.Encoding.ldg (x0) : Laws.Encoding.Statement (.ldg x0) := by
  intro w g h hg; cases h; cases hg; exact guardOf_encM _ _
theorem Laws.Encoding.stg (x0) : Laws.Encoding.Statement (.stg x0) := by
  intro w g h hg; cases h; cases hg; exact guardOf_encM _ _
theorem Laws.Encoding.stgw (x0) : Laws.Encoding.Statement (.stgw x0) := by
  intro w g h hg; cases h; cases hg; exact guardOf_encM _ _
theorem Laws.Encoding.pref (x0) : Laws.Encoding.Statement (.pref x0) := by
  intro w g h hg; cases h; cases hg; exact guardOf_encM _ _
theorem Laws.Encoding.atom (x0) : Laws.Encoding.Statement (.atom x0) := by
  intro w g h hg; cases h; cases hg; exact guardOf_encO _ _
theorem Laws.Encoding.red (x0) : Laws.Encoding.Statement (.red x0) := by
  intro w g h hg; cases h; cases hg; exact guardOf_encO _ _
theorem Laws.Encoding.fence (x0) : Laws.Encoding.Statement (.fence x0) := by
  intro w g h hg; cases h; cases hg; exact guardOf_encM _ _
theorem Laws.Encoding.fenceSc (x0) : Laws.Encoding.Statement (.fenceSc x0) := by
  intro w g h hg; cases h; cases hg; exact guardOf_encM _ _
theorem Laws.Encoding.mwatch (x0) : Laws.Encoding.Statement (.mwatch x0) := by
  intro w g h hg; cases h; cases hg; exact guardOf_encM _ _
theorem Laws.Encoding.mwait (x0) : Laws.Encoding.Statement (.mwait x0) := by
  intro w g h hg; cases h; cases hg; exact guardOf_encM _ _
theorem Laws.Encoding.cctlL1inv (x0) : Laws.Encoding.Statement (.cctlL1inv x0) := by
  intro w g h hg; cases h; cases hg; exact guardOf_encM _ _
theorem Laws.Encoding.cctlL1all (x0) : Laws.Encoding.Statement (.cctlL1all x0) := by
  intro w g h hg; cases h; cases hg; exact guardOf_encM _ _
theorem Laws.Encoding.cctlPub (x0) : Laws.Encoding.Statement (.cctlPub x0) := by
  intro w g h hg; cases h; cases hg; exact guardOf_encM _ _
theorem Laws.Encoding.wrq (x0) : Laws.Encoding.Statement (.wrq x0) := by
  intro w g h hg; cases h; cases hg; exact guardOf_encX _ _
theorem Laws.Encoding.wrqComplete (x0) : Laws.Encoding.Statement (.wrqComplete x0) := by intro w g h; cases h
theorem Laws.Encoding.sliceStore (x0 x1) : Laws.Encoding.Statement (.sliceStore x0 x1) := by intro w g h; cases h
theorem Laws.Encoding.writeUpdate (x0) : Laws.Encoding.Statement (.writeUpdate x0) := by intro w g h; cases h
theorem Laws.Encoding.l1Invalidate (x0 x1) : Laws.Encoding.Statement (.l1Invalidate x0 x1) := by intro w g h; cases h
theorem Laws.Encoding.gets (x0) : Laws.Encoding.Statement (.gets x0) := by intro w g h; cases h
theorem Laws.Encoding.getm (x0) : Laws.Encoding.Statement (.getm x0) := by intro w g h; cases h
theorem Laws.Encoding.getw (x0) : Laws.Encoding.Statement (.getw x0) := by intro w g h; cases h
theorem Laws.Encoding.getu (x0) : Laws.Encoding.Statement (.getu x0) := by intro w g h; cases h
theorem Laws.Encoding.writeBackData (x0 x1) : Laws.Encoding.Statement (.writeBackData x0 x1) := by intro w g h; cases h
theorem Laws.Encoding.writeBackPartial (x0 x1) : Laws.Encoding.Statement (.writeBackPartial x0 x1) := by intro w g h; cases h
theorem Laws.Encoding.cleanEviction (x0 x1) : Laws.Encoding.Statement (.cleanEviction x0 x1) := by intro w g h; cases h
theorem Laws.Encoding.writeBackAck (x0 x1) : Laws.Encoding.Statement (.writeBackAck x0 x1) := by intro w g h; cases h
theorem Laws.Encoding.grant (x0 x1) : Laws.Encoding.Statement (.grant x0 x1) := by intro w g h; cases h
theorem Laws.Encoding.forwardShare (x0 x1) : Laws.Encoding.Statement (.forwardShare x0 x1) := by intro w g h; cases h
theorem Laws.Encoding.forwardOwn (x0 x1) : Laws.Encoding.Statement (.forwardOwn x0 x1) := by intro w g h; cases h
theorem Laws.Encoding.invalidate (x0 x1) : Laws.Encoding.Statement (.invalidate x0 x1) := by intro w g h; cases h
theorem Laws.Encoding.recall (x0 x1) : Laws.Encoding.Statement (.recall x0 x1) := by intro w g h; cases h
theorem Laws.Encoding.releaseNote (x0 x1) : Laws.Encoding.Statement (.releaseNote x0 x1) := by intro w g h; cases h
theorem Laws.Encoding.publishNow (x0 x1) : Laws.Encoding.Statement (.publishNow x0 x1) := by intro w g h; cases h
theorem Laws.Encoding.publishRequest (x0) : Laws.Encoding.Statement (.publishRequest x0) := by intro w g h; cases h
theorem Laws.Encoding.publishReply (x0 x1) : Laws.Encoding.Statement (.publishReply x0 x1) := by intro w g h; cases h
theorem Laws.Encoding.snpData (x0 x1) : Laws.Encoding.Statement (.snpData x0 x1) := by intro w g h; cases h
theorem Laws.Encoding.snpInv (x0 x1) : Laws.Encoding.Statement (.snpInv x0 x1) := by intro w g h; cases h
theorem Laws.Encoding.hostHdmAccess (x0 x1 x2) : Laws.Encoding.Statement (.hostHdmAccess x0 x1 x2) := by intro w g h; cases h
theorem Laws.Encoding.translationRequest (x0 x1) : Laws.Encoding.Statement (.translationRequest x0 x1) := by intro w g h; cases h
theorem Laws.Encoding.tcopy (x0) : Laws.Encoding.Statement (.tcopy x0) := by
  intro w g h hg; cases h; cases hg; exact guardOf_encX _ _
theorem Laws.Encoding.bcopy (x0) : Laws.Encoding.Statement (.bcopy x0) := by
  intro w g h hg; cases h; cases hg; exact guardOf_encX _ _
theorem Laws.Encoding.gath (x0) : Laws.Encoding.Statement (.gath x0) := by
  intro w g h hg; cases h; cases hg; exact guardOf_encX _ _
theorem Laws.Encoding.gathTile (x0) : Laws.Encoding.Statement (.gathTile x0) := by
  intro w g h hg; cases h; cases hg; exact guardOf_encX _ _
theorem Laws.Encoding.scat (x0) : Laws.Encoding.Statement (.scat x0) := by
  intro w g h hg; cases h; cases hg; exact guardOf_encX _ _
theorem Laws.Encoding.engineCommandStart (x0 x1) : Laws.Encoding.Statement (.engineCommandStart x0 x1) := by intro w g h; cases h
theorem Laws.Encoding.gatherGroup (x0 x1 x2) : Laws.Encoding.Statement (.gatherGroup x0 x1 x2) := by intro w g h; cases h
theorem Laws.Encoding.copyEngineDelivery (x0 x1) : Laws.Encoding.Statement (.copyEngineDelivery x0 x1) := by intro w g h; cases h
theorem Laws.Encoding.engineCommandComplete (x0 x1 x2) : Laws.Encoding.Statement (.engineCommandComplete x0 x1 x2) := by intro w g h; cases h
theorem Laws.Encoding.acp (x0) : Laws.Encoding.Statement (.acp x0) := by
  intro w g h hg; cases h; cases hg; exact guardOf_encX _ _
theorem Laws.Encoding.acpComplete (x0) : Laws.Encoding.Statement (.acpComplete x0) := by intro w g h; cases h
theorem Laws.Encoding.acpwait (x0 x1) : Laws.Encoding.Statement (.acpwait x0 x1) := by
  intro w g h hg; cases h; cases hg; exact guardOf_encI _ _ _
theorem Laws.Encoding.engqFree (x0) : Laws.Encoding.Statement (.engqFree x0) := by
  intro w g h hg; cases h; cases hg; exact guardOf_encX _ _
theorem Laws.Encoding.engqLast (x0) : Laws.Encoding.Statement (.engqLast x0) := by
  intro w g h hg; cases h; cases hg; exact guardOf_encX _ _
theorem Laws.Encoding.engqMark (x0) : Laws.Encoding.Statement (.engqMark x0) := by
  intro w g h hg; cases h; cases hg; exact guardOf_encX _ _
theorem Laws.Encoding.emit (x0) : Laws.Encoding.Statement (.emit x0) := by
  intro w g h hg; cases h; cases hg; exact guardOf_encX _ _
theorem Laws.Encoding.emita (x0) : Laws.Encoding.Statement (.emita x0) := by
  intro w g h hg; cases h; cases hg; exact guardOf_encX _ _
theorem Laws.Encoding.emitc (x0) : Laws.Encoding.Statement (.emitc x0) := by
  intro w g h hg; cases h; cases hg; exact guardOf_encX _ _
theorem Laws.Encoding.emitcCancel (x0) : Laws.Encoding.Statement (.emitcCancel x0) := by
  intro w g h hg; cases h; cases hg; exact guardOf_encX _ _
theorem Laws.Encoding.launch (x0) : Laws.Encoding.Statement (.launch x0) := by
  intro w g h hg; cases h; cases hg; exact guardOf_encX _ _
theorem Laws.Encoding.done (x0) : Laws.Encoding.Statement (.done x0) := by
  intro w g h hg; cases h; cases hg; exact guardOf_encX _ _
theorem Laws.Encoding.confirm (x0) : Laws.Encoding.Statement (.confirm x0) := by
  intro w g h hg; cases h; cases hg; exact guardOf_encX _ _
theorem Laws.Encoding.qstatPool (x0) : Laws.Encoding.Statement (.qstatPool x0) := by
  intro w g h hg; cases h; cases hg; exact guardOf_encX _ _
theorem Laws.Encoding.qstatNode (x0) : Laws.Encoding.Statement (.qstatNode x0) := by
  intro w g h hg; cases h; cases hg; exact guardOf_encX _ _
theorem Laws.Encoding.qstatFail (x0) : Laws.Encoding.Statement (.qstatFail x0) := by
  intro w g h hg; cases h; cases hg; exact guardOf_encX _ _
theorem Laws.Encoding.qstatLive (x0) : Laws.Encoding.Statement (.qstatLive x0) := by
  intro w g h hg; cases h; cases hg; exact guardOf_encX _ _
theorem Laws.Encoding.trap (x0) : Laws.Encoding.Statement (.trap x0) := by
  intro w g h hg; cases h; cases hg; exact guardOf_encI _ _ _
theorem Laws.Encoding.eret (x0) : Laws.Encoding.Statement (.eret x0) := by
  intro w g h hg; cases h; cases hg; exact guardOf_encR _ _ _ _
theorem Laws.Encoding.frld (x0 x1) : Laws.Encoding.Statement (.frld x0 x1) := by
  intro w g h hg; cases h; cases hg; exact guardOf_encR _ _ _ _
theorem Laws.Encoding.frst (x0 x1) : Laws.Encoding.Statement (.frst x0 x1) := by
  intro w g h hg; cases h; cases hg; exact guardOf_encR _ _ _ _
theorem Laws.Encoding.invva (x0) : Laws.Encoding.Statement (.invva x0) := by
  intro w g h hg; cases h; cases hg; exact guardOf_encR _ _ _ _
theorem Laws.Encoding.cntcfg (x0) : Laws.Encoding.Statement (.cntcfg x0) := by
  intro w g h hg; cases h; cases hg; exact guardOf_encX _ _
theorem Laws.Encoding.cntrd (x0) : Laws.Encoding.Statement (.cntrd x0) := by
  intro w g h hg; cases h; cases hg; exact guardOf_encX _ _
theorem Laws.Encoding.cntrdCfg (x0) : Laws.Encoding.Statement (.cntrdCfg x0) := by
  intro w g h hg; cases h; cases hg; exact guardOf_encX _ _
theorem Laws.Encoding.halt (x0) : Laws.Encoding.Statement (.halt x0) := by
  intro w g h hg; cases h; cases hg; exact guardOf_encR _ _ _ _
theorem Laws.Encoding.supervisorPostRetry (x0) : Laws.Encoding.Statement (.supervisorPostRetry x0) := by intro w g h; cases h
theorem Laws.Encoding.resolved (x0 x1) : Laws.Encoding.Statement (.resolved x0 x1) := by intro w g h; cases h
theorem Laws.Encoding.unresolved (x0 x1) : Laws.Encoding.Statement (.unresolved x0 x1) := by intro w g h; cases h
theorem Laws.Encoding.retry (x0 x1) : Laws.Encoding.Statement (.retry x0 x1) := by intro w g h; cases h
theorem Laws.Encoding.next (x0 x1) : Laws.Encoding.Statement (.next x0 x1) := by intro w g h; cases h
theorem Laws.Encoding.setreg (x0 x1 x2 x3) : Laws.Encoding.Statement (.setreg x0 x1 x2 x3) := by intro w g h; cases h
theorem Laws.Encoding.setpred (x0 x1 x2 x3) : Laws.Encoding.Statement (.setpred x0 x1 x2 x3) := by intro w g h; cases h
theorem Laws.Encoding.endBlock (x0 x1) : Laws.Encoding.Statement (.endBlock x0 x1) := by intro w g h; cases h
theorem Laws.Encoding.grow (x0 x1 x2) : Laws.Encoding.Statement (.grow x0 x1 x2) := by intro w g h; cases h
theorem Laws.Encoding.abort (x0 x1) : Laws.Encoding.Statement (.abort x0 x1) := by intro w g h; cases h
theorem Laws.Encoding.resume (x0 x1) : Laws.Encoding.Statement (.resume x0 x1) := by intro w g h; cases h
theorem Laws.Encoding.ack (x0 x1) : Laws.Encoding.Statement (.ack x0 x1) := by intro w g h; cases h
theorem Laws.Encoding.watchdog (x0) : Laws.Encoding.Statement (.watchdog x0) := by intro w g h; cases h
theorem Laws.Encoding.tileEntryExhaustion (x0) : Laws.Encoding.Statement (.tileEntryExhaustion x0) := by intro w g h; cases h
theorem Laws.Encoding.queuePoolExhausted (x0) : Laws.Encoding.Statement (.queuePoolExhausted x0) := by intro w g h; cases h
theorem Laws.Encoding.cardTake (x0) : Laws.Encoding.Statement (.cardTake x0) := by intro w g h; cases h
theorem Laws.Encoding.launchStart (x0) : Laws.Encoding.Statement (.launchStart x0) := by intro w g h; cases h
theorem Laws.Encoding.clusterPlace (x0) : Laws.Encoding.Statement (.clusterPlace x0) := by intro w g h; cases h
theorem Laws.Encoding.starvationPreempt (x0) : Laws.Encoding.Statement (.starvationPreempt x0) := by intro w g h; cases h
theorem Laws.Encoding.preempt (x0) : Laws.Encoding.Statement (.preempt x0) := by intro w g h; cases h
theorem Laws.Encoding.resumeBlock (x0) : Laws.Encoding.Statement (.resumeBlock x0) := by intro w g h; cases h
theorem Laws.Encoding.blockComplete (x0) : Laws.Encoding.Statement (.blockComplete x0) := by intro w g h; cases h
theorem Laws.Encoding.launchComplete (x0) : Laws.Encoding.Statement (.launchComplete x0) := by intro w g h; cases h
theorem Laws.Encoding.seedChunk (x0) : Laws.Encoding.Statement (.seedChunk x0) := by intro w g h; cases h
theorem Laws.Encoding.launcherTimer (x0 x1 x2) : Laws.Encoding.Statement (.launcherTimer x0 x1 x2) := by intro w g h; cases h
theorem Laws.Encoding.batchLaunch (x0 x1 x2) : Laws.Encoding.Statement (.batchLaunch x0 x1 x2) := by intro w g h; cases h
theorem Laws.Encoding.steal (x0 x1) : Laws.Encoding.Statement (.steal x0 x1) := by intro w g h; cases h
theorem Laws.Encoding.qreqSet (x0) : Laws.Encoding.Statement (.qreqSet x0) := by intro w g h; cases h
theorem Laws.Encoding.qtailWrite (x0 x1) : Laws.Encoding.Statement (.qtailWrite x0 x1) := by intro w g h; cases h
theorem Laws.Encoding.qsizeWrite (x0 x1) : Laws.Encoding.Statement (.qsizeWrite x0 x1) := by intro w g h; cases h
theorem Laws.Encoding.featselCommit (x0 x1) : Laws.Encoding.Statement (.featselCommit x0 x1) := by intro w g h; cases h
theorem Laws.Encoding.routeWrite (x0 x1) : Laws.Encoding.Statement (.routeWrite x0 x1) := by intro w g h; cases h
theorem Laws.Encoding.merrClear (x0) : Laws.Encoding.Statement (.merrClear x0) := by intro w g h; cases h
theorem Laws.Encoding.plimWrite (x0) : Laws.Encoding.Statement (.plimWrite x0) := by intro w g h; cases h
theorem Laws.Encoding.qreqClear (x0) : Laws.Encoding.Statement (.qreqClear x0) := by intro w g h; cases h
theorem Laws.Encoding.hmaskWrite (x0 x1) : Laws.Encoding.Statement (.hmaskWrite x0 x1) := by intro w g h; cases h
theorem Laws.Encoding.hplaceWrite (x0) : Laws.Encoding.Statement (.hplaceWrite x0) := by intro w g h; cases h
theorem Laws.Encoding.werrClear (x0 x1) : Laws.Encoding.Statement (.werrClear x0 x1) := by intro w g h; cases h
theorem Laws.Encoding.wdlogWrite (x0 x1) : Laws.Encoding.Statement (.wdlogWrite x0 x1) := by intro w g h; cases h
theorem Laws.Encoding.cmderrClear (x0 x1) : Laws.Encoding.Statement (.cmderrClear x0 x1) := by intro w g h; cases h
theorem Laws.Encoding.sdgoWrite (x0 x1) : Laws.Encoding.Statement (.sdgoWrite x0 x1) := by intro w g h; cases h
theorem Laws.Encoding.pegoWrite (x0 x1) : Laws.Encoding.Statement (.pegoWrite x0 x1) := by intro w g h; cases h
theorem Laws.Encoding.cxlroleWrite (x0 x1) : Laws.Encoding.Statement (.cxlroleWrite x0 x1) := by intro w g h; cases h
theorem Laws.Encoding.counterCfgWrite (x0 x1 x2) : Laws.Encoding.Statement (.counterCfgWrite x0 x1 x2) := by intro w g h; cases h
theorem Laws.Encoding.controlRegisterWrite (x0 x1 x2) : Laws.Encoding.Statement (.controlRegisterWrite x0 x1 x2) := by intro w g h; cases h
theorem Laws.Encoding.powerOnBoot (x0 x1 x2 x3) : Laws.Encoding.Statement (.powerOnBoot x0 x1 x2 x3) := by intro w g h; cases h
theorem Laws.Encoding.spdmGetMeasurements (x0) : Laws.Encoding.Statement (.spdmGetMeasurements x0) := by intro w g h; cases h
theorem Laws.Encoding.mctpPacket (x0 x1) : Laws.Encoding.Statement (.mctpPacket x0 x1) := by intro w g h; cases h
theorem Laws.Encoding.cxlLinkDown (x0) : Laws.Encoding.Statement (.cxlLinkDown x0) := by intro w g h; cases h
theorem Laws.Encoding.wofortFlit (x0 x1 x2 x3 x4 x5) : Laws.Encoding.Statement (.wofortFlit x0 x1 x2 x3 x4 x5) := by intro w g h; cases h
theorem Laws.Encoding.powerControlTick : Laws.Encoding.Statement (.powerControlTick) := by intro w g h; cases h
theorem Laws.Encoding.hostCoreAccess (x0 x1 x2 x3) : Laws.Encoding.Statement (.hostCoreAccess x0 x1 x2 x3) := by intro w g h; cases h
theorem Laws.Encoding.cxlResponse (x0 x1 x2 x3) : Laws.Encoding.Statement (.cxlResponse x0 x1 x2 x3) := by intro w g h; cases h
theorem Laws.Encoding.cxlLinkTrained (x0) : Laws.Encoding.Statement (.cxlLinkTrained x0) := by intro w g h; cases h
theorem Laws.Encoding.wofortPortTrained (x0) : Laws.Encoding.Statement (.wofortPortTrained x0) := by intro w g h; cases h

end Sys2Proof
end

