-- ==== Sys2Proof/Tests/Slice0.lean ====
section
/-! SUPPORT. Tests: words written out in the manual decode to their instructions, ill-formed terms are refused, and small
runs of one step. -/

namespace Sys2Proof.Tests
open Sys2Proof Sys2Proof.Machine
set_option Elab.async false

/-! ## Operand records -/

def always : Guard := ⟨7, false⟩
def plainUse : Use := ⟨false, false, false, false, false, false⟩
def rr (d a b c : BitVec 8) : RR := ⟨always, d, a, b, c, plainUse⟩
def rx (d a b c e : BitVec 8) (fa fb flags : BitVec 4) : RX := ⟨always, d, a, b, c, e, fa, fb, flags⟩
def ri (d a : BitVec 8) (imm : BitVec 32) : RI := ⟨always, d, a, imm, false, false⟩
def rm (d a b : BitVec 8) (off : BitVec 16) (z : Size) (s : Scope) (o : Order) : RM :=
  ⟨always, d, a, b, off, z, s, o, 0, false, false⟩
def ro (d a b : BitVec 8) (op : Oper) (z : Size) (s : Scope) : RO :=
  ⟨always, d, a, b, op, 0, z, s, .plain, 0, false, false⟩

/-! ## Words from the manual -/

theorem test_decode_iadd : decodeTableWord 64 0x20E040506FF00002 = some (.iadd (rr 4 5 6 255) .s32 true) := by decide
theorem test_decode_ffma : decodeTableWord 64 0x42E0905060988074 =
    some (.ffma ⟨always, 9, 5, 6, 9, ⟨true, false, false, false, true, false⟩⟩ .rz) := by decide
theorem test_decode_lut3 : decodeTableWord 64 0x2FE0102030402841 = some (.lut3 (rr 1 2 3 4) 0xE8) := by decide
theorem test_decode_ballot : decodeTableWord 64 0x81E0A03FFFF00240 = some (.voteBallot (rr 10 3 255 255)) := by decide
theorem test_decode_shfl_xor : decodeTableWord 64 0x80E050406FF00340 = some (.shfl (rr 5 4 6 255) .xor) := by decide
theorem test_decode_cred : decodeTableWord 64 0x83E0807FFFF00070 = some (.cred (rr 8 7 255 255) .add .f32) := by decide
theorem test_decode_bqnt : decodeTableWord 64 0x87E1408FFFF00201 = some (.bqnt (rx 20 8 255 255 0 2 0 1)) := by decide
theorem test_decode_bra : decodeTableWord 64 0x012FFFF000000000 =
    some (.bra ⟨⟨1, false⟩, 255, 255, 0⟩) := by decide
theorem test_decode_call : decodeTableWord 64 0x03E0AFF000002000 = some (.call ⟨always, 10, 255, 0x200⟩) := by decide
theorem test_decode_acpwait : decodeTableWord 64 0xD3EFFFF000000001 = some (.acpwait (ri 255 255 0) 1) := by decide
theorem test_decode_trap : decodeTableWord 64 0xE0EFFFF000012340 = some (.trap (ri 255 255 0x1234)) := by decide
theorem test_decode_tdecl : decodeTableWord 64 0x98EFF0102FF03200 = some (.tdecl (rx 255 1 2 255 3 2 0 0)) := by decide
theorem test_decode_tfill : decodeTableWord 64 0x99E0703FFFF03000 = some (.tfill (rx 7 3 255 255 3 0 0 0)) := by decide
theorem test_decode_tscan : decodeTableWord 64 0x9BE09FFFFFF03000 = some (.tscan (rx 9 255 255 255 3 0 0 0)) := by decide
theorem test_decode_slotrd : decodeTableWord 64 0xA3E2803FFFF00000 = some (.slotrd (rx 40 3 255 255 0 0 0 0)) := by decide
theorem test_decode_barv : decodeTableWord 64 0xB0E05FFFFFF00000 = some (.barv (rx 5 255 255 255 0 0 0 0)) := by decide
theorem test_decode_tcopy : decodeTableWord 64 0xD0E0508FFFF03000 = some (.tcopy (rx 5 8 255 255 3 0 0 0)) := by decide
theorem test_decode_bcopy : decodeTableWord 64 0xD1E0508FFFF00000 = some (.bcopy (rx 5 8 255 255 0 0 0 0)) := by decide
theorem test_decode_gath_tile : decodeTableWord 64 0xD4E0508FFFF02001 = some (.gathTile (rx 5 8 255 255 2 0 0 1)) := by decide
theorem test_decode_scat : decodeTableWord 64 0xD5E050AFFFF00000 = some (.scat (rx 5 10 255 255 0 0 0 0)) := by decide
theorem test_decode_acp : decodeTableWord 64 0xD2E0C0406FF02000 = some (.acp (rx 12 4 6 255 2 0 0 0)) := by decide
theorem test_decode_fence : decodeTableWord 64 0xC6EFFFFFF0000130 =
    some (.fence (rm 255 255 255 0 .b8 .dev .ar)) := by decide
theorem test_decode_fence_sc : decodeTableWord 64 0xC7EFFFFFF0000170 =
    some (.fenceSc (rm 255 255 255 0 .b8 .sys .ar)) := by decide
theorem test_decode_ldg : decodeTableWord 64 0xC0E0A04FF0008710 =
    some (.ldg (rm 10 4 255 8 .b64 .dev .acq)) := by decide
theorem test_decode_cntcfg : decodeTableWord 64 0xE5E0706FFFF03000 = some (.cntcfg (rx 7 6 255 255 3 0 0 0)) := by decide
theorem test_decode_frst : decodeTableWord 64 0xE3EFF10FFFF00800 = some (.frst (rr 255 16 255 255) 8) := by decide
theorem test_decode_halt : decodeTableWord 64 0xE7EFFFFFFFF00000 = some (.halt (rr 255 255 255 255)) := by decide

/-! ## Encodings that are refused (R73) -/

theorem test_refuse_zero : decode 0 = .error 1 := by decide
theorem test_refuse_ones : decode 0xFFFFFFFFFFFFFFFF = .error 2 := by decide
theorem test_refuse_unassigned : decode 0x0EEFFFFFFFF00000 = .error 3 := by decide
theorem test_refuse_emulation : decode 0xF0EFFFFFFFF00000 = .error 4 := by decide
theorem test_refuse_sub : decode 0x06EFFFFFFFF00100 = .error 6 := by decide
theorem test_refuse_mod : decode 0x06EFFFFFFFF00001 = .error 7 := by decide

/-! ## Ill-formed terms (R59, R70, R127, R151) -/

theorem test_wf_ok : (Instr.iadd (rr 4 5 6 255) .s32 true).wf = true := by decide
theorem test_wf_type_pair : (Instr.cvt (rr 4 5 255 255) .f32 .f32 .rne false).wf = false := by decide
theorem test_wf_float_sat : (Instr.cvt (rr 4 5 255 255) .f32 .s32 .rne true).wf = false := by decide
theorem test_wf_compare : (Instr.icmp (rr 1 2 3 7) .unord .s32).wf = false := by decide
theorem test_wf_reduction : (Instr.cred (rr 4 5 255 255) .and .f32).wf = false := by decide
theorem test_wf_memory_field : (Instr.fence (rm 255 255 255 0 .b8 .dev .plain)).wf = false := by decide
theorem test_wf_matrix_field : (Instr.slotz (rx 255 3 255 255 0 0 0 1)).wf = false := by decide
theorem test_wf_odd_pair : (Instr.iadd (rr 5 6 8 255) .s64 false).wf = false := by decide
theorem test_wf_pair_254 : (Instr.iadd (rr 4 254 8 255) .s64 false).wf = false := by decide
theorem test_wf_unused_operand : (Instr.iadd (rr 4 5 6 7) .s32 false).wf = false := by decide
theorem test_wf_predicate_seven : (Instr.icmp (rr 7 2 3 7) .lt .s32).wf = false := by decide

/-! ## Statements about instructions are not empty: every instruction can issue -/

/-- The state in which an instruction of a fresh block is about to run. -/
def ready (i : Instr) : State := { State.reset.placeWord ((encode i).getD 0).toNat with cur := some 0, work := [] }
def bundleOf (i : Instr) : Bundle := tgetD (ready i).bundles 0 (placedBundle 0 0)

/-- The same with scratchpad, ring, tiles and barriers for the block, and a launch with members and nodes. -/
def furnished (i : Instr) : State :=
  let s := ready i
  { s with
    blocks := s.blocks.map fun e => (e.1, { e.2 with
      cfg := { e.2.cfg with w := 32, allot := 65536, nring := 64, ntile := 8, nblk := 8, nclu := 4, ngrd := 2 } })
    launches := s.launches.map fun e => (e.1, { e.2 with
      card := List.replicate 128 255, nodes := List.replicate 4 (List.replicate 32 255) }) }

/-- What `Issues` says, as a check. -/
def canIssue (s : State) (i : Instr) (bid : Nat) (b : Bundle) : Bool :=
  s.cur == some bid && tget s.bundles bid == some b && !b.ended && b.tids != [] &&
    (b.tids.all fun t => s.illegal b.blk t i == none) && clauseFault b.hdr b.index.toNat i == none &&
    b.tids.all fun t =>
      (s.thread b.blk t).blocked i (s.opCtxOf b i) (if i.varLat then hdrSetSb b.hdr else none) == none

theorem issues_of_check {s : State} {i : Instr} {bid : Nat} {b : Bundle} (h : canIssue s i bid b = true) :
    Issues s i bid b := by
  simp only [canIssue, Bool.and_eq_true, beq_iff_eq, bne_iff_ne, ne_eq, List.all_eq_true, Bool.not_eq_true'] at h
  obtain ⟨⟨⟨⟨⟨⟨h1, h2⟩, h3⟩, h4⟩, h5⟩, h6⟩, h7⟩ := h
  exact ⟨h1, h2, h3, h4, h5, h6, h7⟩

theorem all_issue {l : List Instr} (h : (l.all fun i => canIssue (furnished i) i 0 (bundleOf i)) = true) :
    ∀ i ∈ l, Issues (furnished i) i 0 (bundleOf i) :=
  fun i hi => issues_of_check (List.all_eq_true.mp h i hi)

def forms1 : List Instr :=
  [.bra ⟨always, 255, 255, 0⟩, .brx ⟨always, 255, 0, 0⟩, .call ⟨always, 0, 255, 0⟩, .callx ⟨always, 0, 0, 0⟩,
  .ret ⟨always, 255, 0, 0⟩, .exit (rr 255 255 255 255), .yieldHint (rr 255 255 255 255),
  .nop (rr 255 255 255 255), .jarm (rr 0 255 255 255), .jwait (rr 0 255 255 255), .jdrop (rr 0 255 255 255),
  .jget (rr 0 0 255 255), .jset (rr 0 0 255 255), .mov (rr 0 0 255 255) false, .moviB32 (ri 0 255 0),
  .moviS64 (ri 0 255 0), .moviN64 (ri 0 255 0)]
theorem witness_issues_1 : ∀ i ∈ forms1, Issues (furnished i) i 0 (bundleOf i) := all_issue (by decide +kernel)

def forms2 : List Instr :=
  [.kmovToK (rr 0 0 255 255), .kmovFromK (rr 0 0 255 255), .srd (ri 0 255 0), .swr (ri 255 0 32),
  .vget (rr 0 0 255 255), .vset (rr 255 0 6 255), .givereg (rr 0 0 255 255), .claimreg (rr 0 0 255 255),
  .sel (rr 0 0 6 2) false, .plop (rr 0 0 6 2) 0, .iadd (rr 0 0 6 255) .s32 false,
  .isub (rr 0 0 6 255) .s32 false, .imul (rr 0 0 6 255) .s32 false, .imulh (rr 0 0 6 255) .s32,
  .imad (rr 0 0 6 255) .s32 false, .imin (rr 0 0 6 255) .s32, .imax (rr 0 0 6 255) .s32]
theorem witness_issues_2 : ∀ i ∈ forms2, Issues (furnished i) i 0 (bundleOf i) := all_issue (by decide +kernel)

def forms3 : List Instr :=
  [.iabs (rr 0 0 255 255) false false, .shl (rr 0 0 6 255) false, .shr (rr 0 0 6 255) false,
  .sar (rr 0 0 6 255) false, .and (rr 0 0 6 255), .or (rr 0 0 6 255), .xor (rr 0 0 6 255), .lut3 (rr 0 0 6 255) 0,
  .popc (rr 0 0 255 255), .clz (rr 0 0 255 255), .brev (rr 0 0 255 255), .bfx (rr 0 0 6 255) false,
  .bfi (rr 0 0 6 255), .icmp (rr 0 0 6 2) .eq .s32, .lea (rr 0 0 6 255) 0, .iaddImm (ri 0 0 0),
  .andImm (ri 0 0 0)]
theorem witness_issues_3 : ∀ i ∈ forms3, Issues (furnished i) i 0 (bundleOf i) := all_issue (by decide +kernel)

def forms4 : List Instr :=
  [.orImm (ri 0 0 0), .xorImm (ri 0 0 0), .shlImm (ri 0 0 0), .shrImm (ri 0 0 0), .sarImm (ri 0 0 0),
  .fadd (rr 0 0 6 255) .rne, .fmul (rr 0 0 6 255) .rne, .ffma (rr 0 0 6 255) .rne, .fmin (rr 0 0 6 255),
  .fmax (rr 0 0 6 255), .fcmp (rr 0 0 6 2) .eq, .fclass (rr 0 0 255 255), .frnd (rr 0 0 255 255) .rne,
  .fsqrt (rr 0 0 255 255) .rne, .hadd2 (rr 0 0 6 255) false .rne, .hmul2 (rr 0 0 6 255) false .rne,
  .hfma2 (rr 0 0 6 255) false .rne]
theorem witness_issues_4 : ∀ i ∈ forms4, Issues (furnished i) i 0 (bundleOf i) := all_issue (by decide +kernel)

def forms5 : List Instr :=
  [.hmin2 (rr 0 0 6 255) false, .hmax2 (rr 0 0 6 255) false, .dadd (rr 0 0 6 255) .rne, .dmul (rr 0 0 6 255) .rne,
  .dfma (rr 0 0 6 2) .rne, .dcmp (rr 0 0 6 2) .eq, .frcp (rr 0 0 255 255), .frsq (rr 0 0 255 255),
  .fexp2 (rr 0 0 255 255), .flog2 (rr 0 0 255 255), .fsin (rr 0 0 255 255), .fcos (rr 0 0 255 255),
  .ftanh (rr 0 0 255 255), .cvt (rr 0 0 255 255) .s32 .n32 .rne false, .cvtfEnc (rx 4 8 255 255 0 0 0 0),
  .cvtfDec (rx 4 8 255 255 0 0 0 8), .keyord (rr 0 0 255 255) false false]
theorem witness_issues_5 : ∀ i ∈ forms5, Issues (furnished i) i 0 (bundleOf i) := all_issue (by decide +kernel)

def forms6 : List Instr :=
  [.shfl (rr 0 0 6 255) .idx, .voteAll (rr 0 0 255 255), .voteAny (rr 0 0 255 255), .voteBallot (rr 0 0 255 255),
  .voteEq (rr 0 0 255 255), .matchBits (rr 0 0 255 255) false, .cred (rr 0 0 255 255) .add (.int .s32),
  .cscan (rr 0 0 255 255) .add (.int .s32) false, .segred (rr 0 0 255 2) .add (.int .s32),
  .segscan (rr 0 0 255 2) .add (.int .s32) false, .bqnt (rx 4 8 255 255 0 2 0 0), .selhist (rr 0 0 6 255),
  .selcut (rr 0 0 6 255), .selpack (rr 0 0 6 255), .selmerge (rr 0 0 6 255),
  .lds (rm 4 8 255 0 .b8 .relaxed .plain), .sts (rm 4 8 255 0 .b8 .relaxed .plain)]
theorem witness_issues_6 : ∀ i ∈ forms6, Issues (furnished i) i 0 (bundleOf i) := all_issue (by decide +kernel)

def forms7 : List Instr :=
  [.ldl (rm 4 8 255 0 .b8 .relaxed .plain), .stl (rm 4 8 255 0 .b8 .relaxed .plain),
  .atoms (ro 4 8 255 .add .b32 .relaxed), .tdecl (rx 255 8 255 255 0 0 0 0), .tfill (rx 4 8 255 255 0 0 0 0),
  .tfillIdent (rx 4 255 255 255 0 0 0 1), .tscan (rx 4 255 255 255 0 0 0 0), .tqry (rx 4 255 255 255 0 0 0 0),
  .tfree (rx 255 255 255 255 0 0 0 0), .tmarkDemote (rx 255 255 255 255 0 0 0 0),
  .tmarkRetype (rx 255 255 255 255 0 0 0 1), .mma (rx 4 8 255 255 0 0 0 0), .mmax (rx 4 8 4 255 0 2 2 0),
  .slotz (rx 255 8 255 255 0 0 0 0), .slotrd (rx 4 8 255 255 0 0 0 0), .slotwr (rx 255 8 4 255 0 0 0 0),
  .epi (rx 4 8 255 255 0 0 0 0)]
theorem witness_issues_7 : ∀ i ∈ forms7, Issues (furnished i) i 0 (bundleOf i) := all_issue (by decide +kernel)

def forms8 : List Instr :=
  [.epiq (rx 4 8 255 255 0 0 0 0), .barv (rx 4 255 255 255 0 0 0 0), .barw (rx 255 8 255 255 0 0 0 0),
  .barx (rx 4 8 255 255 0 0 0 0), .bart (rx 4 8 255 255 0 0 0 0), .bartOvf (rx 4 255 255 255 0 0 0 4),
  .bars (rx 255 255 255 255 0 0 0 0), .ldg (rm 4 8 255 0 .b8 .relaxed .plain),
  .stg (rm 4 8 255 0 .b8 .relaxed .plain), .stgw (rm 4 8 255 0 .b8 .relaxed .plain),
  .pref (rm 255 8 255 0 .b8 .relaxed .plain), .atom (ro 4 8 255 .add .b32 .relaxed),
  .red (ro 255 8 255 .add .b32 .relaxed), .fence (rm 255 255 255 0 .b8 .blk .acq),
  .fenceSc (rm 255 255 255 0 .b8 .blk .ar), .mwatch (rm 4 8 255 0 .b8 .relaxed .plain),
  .mwait (rm 4 255 255 0 .b8 .relaxed .plain)]
theorem witness_issues_8 : ∀ i ∈ forms8, Issues (furnished i) i 0 (bundleOf i) := all_issue (by decide +kernel)

def forms9 : List Instr :=
  [.cctlL1inv (rm 255 8 0 0 .b8 .relaxed .plain), .cctlL1all (rm 255 255 1 0 .b8 .relaxed .plain),
  .cctlPub (rm 255 8 2 0 .b8 .relaxed .plain), .wrq (rx 4 8 255 6 3 0 0 0), .tcopy (rx 4 8 255 255 0 0 0 0),
  .bcopy (rx 4 8 255 255 0 0 0 0), .gath (rx 4 8 255 255 0 0 0 0), .gathTile (rx 4 8 255 255 0 0 0 1),
  .scat (rx 4 8 255 255 0 0 0 0), .acp (rx 4 8 255 255 0 0 0 0), .acpwait (ri 255 255 0) 0,
  .engqFree (rx 4 255 255 255 0 0 0 0), .engqLast (rx 4 255 255 255 0 0 0 1),
  .engqMark (rx 4 255 255 255 0 0 0 2), .emit (rx 4 8 255 255 0 0 0 0), .emita (rx 4 255 255 255 0 0 0 0),
  .emitc (rx 4 8 255 255 0 0 0 0)]
theorem witness_issues_9 : ∀ i ∈ forms9, Issues (furnished i) i 0 (bundleOf i) := all_issue (by decide +kernel)

def forms10 : List Instr :=
  [.emitcCancel (rx 4 8 255 255 0 0 0 1), .launch (rx 4 8 255 255 0 0 0 0), .done (rx 255 8 255 255 0 0 0 0),
  .confirm (rx 255 255 255 255 0 0 0 0), .qstatPool (rx 4 255 255 255 0 0 0 0),
  .qstatNode (rx 4 8 255 255 0 0 0 1), .qstatFail (rx 4 255 255 255 0 0 0 2),
  .qstatLive (rx 4 255 255 255 0 0 0 3), .trap (ri 255 255 0), .eret (rr 255 255 255 255),
  .frld (rr 0 255 255 255) 0, .frst (rr 255 0 255 255) 0, .invva (rr 255 0 6 255),
  .cntcfg (rx 4 8 255 255 0 0 0 0), .cntrd (rx 4 255 255 255 0 0 0 0), .cntrdCfg (rx 4 255 255 255 0 0 0 1),
  .halt (rr 255 255 255 255)]
theorem witness_issues_10 : ∀ i ∈ forms10, Issues (furnished i) i 0 (bundleOf i) := all_issue (by decide +kernel)

/-! ## The further hypotheses of the statements can hold -/

/-- The same with registers 0 to 31 live and 0, a handler for the block's traps and a cluster that houses it. -/
def housed (i : Instr) : State :=
  let s := furnished i
  { s with
    blocks := s.blocks.map fun e => (e.1, { e.2 with
      cfg := { e.2.cfg with tbase := 4096, slice := 256 }
      threads := e.2.threads.map fun t => (t.1, { t.2 with live := (List.range 32).map fun k => (k, 0) }) })
    clusters := tset s.clusters 0 { launch := 0, blocks := [0], hw := 2 }
    launches := s.launches.map fun e => (e.1, { e.2 with poolSize := 2 ^ 20 }) }

theorem witness_handler : let i : Instr := .trap (ri 255 255 7)
    Issues (housed i) i 0 (bundleOf i) ∧ (housed i).handles 0 9 0 ∧ (housed i).rooted 0 ∧
      (housed i).executing i (bundleOf i) = List.range 16 ∧
      ∀ t ∈ List.range 16, (housed i).has 0 t = true ∧ ((housed i).stood (bundleOf i) t).inh = false :=
  ⟨issues_of_check (by decide +kernel), by unfold State.handles State.rooted; decide +kernel⟩

theorem witness_exit : let i : Instr := .exit (rr 255 255 255 255)
    ∀ t ∈ (housed i).executing i (bundleOf i), (housed i).has 0 t = true ∧ ((housed i).stood (bundleOf i) t).pend = [] ∧
      ((housed i).stood (bundleOf i) t).ppend = [] ∧ ((housed i).thread 0 t).st ≠ .exited := by decide +kernel

theorem witness_arrival : let i : Instr := .barv (rx 4 255 255 255 0 0 0 0)
    Issues (housed i) i 0 (bundleOf i) ∧ (housed i).virtualBar 0 0 0 = false ∧ ((housed i).block 0).arrivals = [] ∧
      ∀ t ∈ List.range 16, ((housed i).thread 0 t).arrived 0 0 = false ∧
        (housed i).fenceOver 0 0 t true (levelScope 0) (housed i).seq = true :=
  ⟨issues_of_check (by decide +kernel), by decide +kernel⟩

theorem witness_virtual : ∀ i ∈ [Instr.barw (rx 255 8 255 255 3 0 0 1), .barv (rx 4 255 255 255 3 0 0 1)],
    Issues (housed i) i 0 (bundleOf i) ∧ (housed i).virtualBar 0 1 3 = true ∧
      ∀ t ∈ (housed i).executing i (bundleOf i), (housed i).drained (bundleOf i) (levelScope 1) t := by
  have h : ∀ i ∈ [Instr.barw (rx 255 8 255 255 3 0 0 1), .barv (rx 4 255 255 255 3 0 0 1)],
    canIssue (housed i) i 0 (bundleOf i) = true ∧ (housed i).virtualBar 0 1 3 = true ∧
      ∀ t ∈ (housed i).executing i (bundleOf i), (housed i).drained (bundleOf i) (levelScope 1) t := by
    unfold State.drained; decide +kernel
  exact fun i hi => ⟨issues_of_check (h i hi).1, (h i hi).2⟩

theorem witness_own_access : let i : Instr := .lds (rm 4 8 255 64 .b32 .relaxed .plain)
    Issues (housed i) i 0 (bundleOf i) ∧ ∀ t ∈ (housed i).executing i (bundleOf i),
      (housed i).spadCheck 0 (localAddr (rm 4 8 255 64 .b32 .relaxed .plain) ((housed i).stood (bundleOf i) t)) 4 false =
        .ok (.own 64) :=
  ⟨issues_of_check (by decide +kernel), by decide +kernel⟩

theorem witness_own_store : let i : Instr := .sts (rm 4 8 255 0 .b32 .blk .rel)
    Issues (housed i) i 0 (bundleOf i) ∧ ∀ t ∈ (housed i).executing i (bundleOf i),
      (housed i).drained (bundleOf i) 1 t ∧ (housed i).spadCheck 0 0 4 true = .ok (.own 0) ∧
        ((housed i).pinnedAt 0 (.own 0) 4).2 = [] ∧ ((housed i).core 0).barred 0 t (housed i).seq true = false ∧
        (housed i).spadCheck 0 0x1000000 4 true = .ok (.own 0) ∧ (housed i).spadCheck 0 0xFFFC 4 true = .ok (.own 0xFFFC) :=
  ⟨issues_of_check (by decide +kernel), by unfold State.drained; decide +kernel⟩

theorem witness_own_atomic : let i : Instr := .atoms (ro 4 8 255 .add .b32 .relaxed)
    Issues (housed i) i 0 (bundleOf i) ∧ (housed i).spadCheck 0 0 4 true = .ok (.own 0) :=
  ⟨issues_of_check (by decide +kernel), by decide +kernel⟩

theorem witness_local_trap : let i : Instr := .ldl (rm 4 8 255 1 .b32 .relaxed .plain)
    Issues (housed i) i 0 (bundleOf i) ∧ (housed i).handles 0 3 1 ∧ ∀ t ∈ (housed i).executing i (bundleOf i),
      localAddr (rm 4 8 255 1 .b32 .relaxed .plain) ((housed i).stood (bundleOf i) t) % 4 ≠ 0 :=
  ⟨issues_of_check (by decide +kernel), by unfold State.handles; decide +kernel⟩

theorem witness_tile_free : let i : Instr := .tdecl (rx 255 8 255 255 0 0 0 0)
    let old := ((housed i).block 0).tile 0
    Issues (housed i) i 0 (bundleOf i) ∧ ((housed i).executing i (bundleOf i)).head? = some 0 ∧ old.st ≠ .filling ∧
      old.st ≠ .draining ∧ old.pins = 0 :=
  ⟨issues_of_check (by decide +kernel), by decide +kernel⟩

/-- `housed` with a READY tile 0 of 16 rows by 16 bytes at address 0. -/
def tiled (i : Instr) (t : Tile) : State := (housed i).setBlock 0 fun x => { x with tiles := tset x.tiles 0 t }

theorem witness_fill : let i : Instr := .tfill (rx 4 8 255 255 0 0 0 0)
    let s := tiled i { base := 0, st := .ready, rows := 15, cols := 31, fval := presetFmt 0 }
    Issues s i 0 (bundleOf i) ∧ (s.block 0).tiles.length = 1 ∧ ((s.block 0).tile 0).st = .ready ∧
      ((s.block 0).tile 0).pins = 0 ∧ ((s.block 0).tile 0).size = 1024 ∧
      ∀ t ∈ s.executing i (bundleOf i), (s.core 0).barred 0 t s.seq true = false :=
  ⟨issues_of_check (by decide +kernel), by decide +kernel⟩

theorem witness_slot : let i : Instr := .slotwr (rx 255 8 4 255 0 0 0 0)
    let x := ((housed i).block 0).slot 0
    Issues (housed i) i 0 (bundleOf i) ∧ ((housed i).block 0).cfg.nring = 64 ∧ x.queued = 0 ∧ x.st ≠ .sealed ∧
      x.st ≠ .draining ∧ x.stamp ≠ (housed i).now 0 + 1 :=
  ⟨issues_of_check (by decide +kernel), by decide +kernel⟩

/-- An LDG and an MWATCH whose members all pass the checks; the block is confirmed. -/
def loading : List Instr :=
  [.ldg (rm 4 8 255 0 .b32 .relaxed .plain), .mwatch (rm 4 8 255 0 .b32 .dev .acq)]
theorem witness_global_load : ∀ i ∈ loading,
    let r := (housed i).issued i 0 (bundleOf i)
    Issues (housed i) i 0 (bundleOf i) ∧ ((housed i).block 0).unconfirmed = false ∧
      ((r.accesses .load 4 fun t => ((housed i).stood (bundleOf i) t).ea 8 0).2.map (·.1)) =
        (housed i).executing i (bundleOf i) ∧
      ∀ t ∈ (housed i).executing i (bundleOf i),
        (r.accesses .load 4 fun t => ((housed i).stood (bundleOf i) t).ea 8 0).1.has 0 t = true := by
  have h : ∀ i ∈ loading,
    let r := (housed i).issued i 0 (bundleOf i)
    canIssue (housed i) i 0 (bundleOf i) = true ∧ ((housed i).block 0).unconfirmed = false ∧
      ((r.accesses .load 4 fun t => ((housed i).stood (bundleOf i) t).ea 8 0).2.map (·.1)) =
        (housed i).executing i (bundleOf i) ∧
      ∀ t ∈ (housed i).executing i (bundleOf i),
        (r.accesses .load 4 fun t => ((housed i).stood (bundleOf i) t).ea 8 0).1.has 0 t = true := by decide +kernel
  exact fun i hi => ⟨issues_of_check (h i hi).1, (h i hi).2⟩

theorem witness_global_store : let i : Instr := .stg (rm 4 8 255 0 .b32 .relaxed .plain)
    let r := (housed i).issued i 0 (bundleOf i)
    let p := r.accesses .store 4 fun t => ((housed i).stood (bundleOf i) t).ea 8 0
    Issues (housed i) i 0 (bundleOf i) ∧ p.2.map (·.1) = (housed i).executing i (bundleOf i) ∧
      ((housed i).block 0).unconfirmed = false ∧ (p.1.core 0).fifoUsed + (lineSet p.2).length ≤ 64 :=
  ⟨issues_of_check (by decide +kernel), by decide +kernel⟩

theorem witness_copy : let i : Instr := .acp (rx 12 4 6 255 0 0 0 0)
    Issues (housed i) i 0 (bundleOf i) ∧ (housed i).spadFault 0 (.own 0) 32 true = none ∧
      ∀ t ∈ (housed i).executing i (bundleOf i), tgetD ((housed i).thread 0 t).acp 0 0 < 63 :=
  ⟨issues_of_check (by decide +kernel), by decide +kernel⟩

theorem witness_emit : let i : Instr := .emit (rx 4 8 255 255 0 0 0 0)
    let l := (housed i).launch 0
    Issues (housed i) i 0 (bundleOf i) ∧ ((housed i).block 0).cfg.depth + 1 ≤ (l.node 0).limit ∧
      ((housed i).block 0).holding = false ∧ l.poolWait = [] ∧ l.charge + 16 * (l.node 0).recBytes ≤ l.poolSize ∧
      ∀ t ∈ (housed i).executing i (bundleOf i), (housed i).drained (bundleOf i) 4 t :=
  ⟨issues_of_check (by decide +kernel), by unfold State.drained; decide +kernel⟩

theorem witness_launch : let i : Instr := .launch (rx 4 8 255 255 0 0 0 0)
    Issues (housed i) i 0 (bundleOf i) ∧ (housed i).translate 0 ((housed i).ctxOf 0) .load 0 = (housed i, .ok 0 true) ∧
      (housed i).canTouch 0 256 = true ∧ ((housed i).homeOf 0).st = .I ∧
      ∀ t ∈ (housed i).executing i (bundleOf i), ((housed i).thread 0 t).card = none :=
  ⟨issues_of_check (by decide +kernel), by decide +kernel⟩
theorem witness_launch_again : let i : Instr := .launch (rx 4 8 255 255 0 0 0 0)
    let s := { housed i with blocks := (housed i).blocks.map fun e => (e.1, { e.2 with
      threads := e.2.threads.map fun t => (t.1, { t.2 with card := some (List.replicate 256 0) }) }) }
    Issues s i 0 (bundleOf i) ∧ ∀ t ∈ s.executing i (bundleOf i), (s.thread 0 t).card = some (List.replicate 256 0) :=
  ⟨issues_of_check (by decide +kernel), by decide +kernel⟩

theorem witness_counted : let i : Instr := .iadd (rr 4 5 6 255) .s32 false
    let s := (housed i).setCore 0 fun x => { x with ctrs := [(2, { cfg := 0x101 })] }
    Issues s i 0 (bundleOf i) ∧ (tget s.cores 0).isSome = true ∧ (s.cores.map (·.1)).Nodup ∧ dieOf 0 ∈ [0] :=
  ⟨issues_of_check (by decide +kernel), by decide +kernel⟩
theorem witness_straight : let i : Instr := .bra ⟨always, 255, 255, 8⟩
    Issues (housed i) i 0 (bundleOf i) ∧ fld ((bundleOf i).base + (8 : BitVec 32).signExtend 64 * 8) 0 3 = 0 :=
  ⟨issues_of_check (by decide +kernel), by decide +kernel⟩

theorem witness_preempt : let s := { ready (.nop (rr 255 255 255 255)) with clusters := [(0, { launch := 0, blocks := [0] })] }
    s.mayPreempt 0 = true ∧ s.rooted 0 ∧ (tgetD s.clusters 0 {}).saving = false := by
  unfold State.rooted; decide +kernel

theorem witness_matrix : let i : Instr := .mma (rx 4 8 255 255 0 2 2 0)
    let s := tiled i { base := 0, st := .ready, layout := 2, fmt := 2, rows := 31, cols := 31, fval := presetFmt 2 }
    Issues s i 0 (bundleOf i) ∧ s.executing i (bundleOf i) = List.range 16 ∧ ((s.block 0).tile 0).isB 2 8 = true ∧
      2 ≤ s.queueRoom 0 3 ∧ hdrGather (bundleOf i).hdr ≠ 0 ∧
      (∀ m ∈ s.executing i (bundleOf i), (s.core 0).barred 0 m s.seq false = false) ∧
      ∀ o < 2, (∀ m ∈ (s.block 0).liveOctet o, m ∈ (bundleOf i).tids) ∧ ((s.block 0).slot 0).st = .free :=
  ⟨issues_of_check (by decide +kernel), by decide +kernel⟩

def octetOp : OctetOp := { blk := 0, tid := 3, q := 0, rows := [], tile := 0, form := .general, bytes := [], fa := presetFmt 2,
                           fb := presetFmt 2, zeroC := false, sealing := false, entered := 0 }
theorem witness_pass : octetOp.mx = false ∧ fmtValid octetOp.fa = true ∧
    let s := (ready (.nop (rr 255 255 255 255))).setCore 0 fun x => { x with mq := [octetOp], pass := some ⟨1, 1, 0, 0⟩ }
    (s.core 0).mq = [octetOp] ∧ s.has 0 3 = true ∧ octetOp.form ≠ .zero := by decide +kernel

theorem witness_epilogue : let i : Instr := .epi (rx 4 8 255 255 0 0 0 0)
    let s := (housed i).setBlock 0 fun x => { x with scratch := mset [] 12 0x10 }
    let c : EpiCmd := { blk := 0, q := 0, params := mbytes (s.block 0).scratch 0 64, tid := 0, claim := s.seq,
                        fval := presetFmt 0 }
    Issues s i 0 (bundleOf i) ∧ s.drained (bundleOf i) 3 0 ∧ s.queueRoom 0 4 ≠ 0 ∧ s.claimRoom 0 (s.block 0) ≠ 0 ∧
      hdrGather (bundleOf i).hdr = 2 ∧ (match s.tryRegister 0 (s.epiLocks c) with
        | .room => true
        | _ => false) = true ∧
      ({ s.issued i 0 (bundleOf i) with s := (s.issued i 0 (bundleOf i)).drainEnd s [0] } : Iss).epiTrap c = none :=
  ⟨issues_of_check (by decide +kernel), by unfold State.drained; decide +kernel⟩

def epiCmd : EpiCmd := { blk := 0, q := 0, params := [], tid := 3, draining := true, drainEnd := 0 }
theorem witness_drain : let s := (housed (.nop (rr 255 255 255 255))).setCore 0 fun x => { x with epiq := [epiCmd] }
    epiCmd ∈ (s.core 0).epiq ∧ epiCmd.out = none ∧ epiCmd.drainEnd ≤ s.now 0 ∧ (s.block 0).tail < (s.block 0).cfg.nring ∧
      ((s.core 0).epiq.map (·.claim)).Nodup := by decide +kernel

theorem witness_ring_stop : let s := ((housed (.nop (rr 255 255 255 255))).setBlock 0 fun x =>
      { x with slots := [(0, { st := .sealed })], run := { x.run with ringFull := 65536 } }).setThread 0 3 fun h =>
        { h with st := .waiting (.slot 0 true false), atSlot := some (0, 5) }
    ((s.block 0).slot 0).st = .sealed ∧ 65536 ≤ (s.block 0).run.ringFull ∧ s.handles 0 8 0 ∧ s.has 0 3 = true ∧
      (s.thread 0 3).atSlot = some (0, 5) ∧ (s.thread 0 4).atSlot = none ∧ ((s.block 0).threads.map (·.1)).Nodup := by unfold State.handles; decide +kernel

theorem witness_window_store : let s : State := { housed (.nop (rr 255 255 255 255)) with
      jobs := [(0, ⟨0, 0, .windowAck 0 3 (.win 0 64) [1, 2] 64 0 0 0 []⟩)] }
    0 ≤ s.now 0 ∧ (s.pinnedAt 0 (.win 0 64) 2).2 = [] ∧ s.arriveFault 0 (.win 0 64) 2 = none ∧
      (tget s.blocks 0).isSome = true := by decide +kernel
theorem witness_window_fault : let s : State :=
    { tiled (.nop (rr 255 255 255 255)) { base := 64, st := .filling, fmt := 2, fval := presetFmt 2 } with
      jobs := [(0, ⟨0, 0, .windowAck 0 3 (.win 0 64) [1, 2] 64 0 0 0 []⟩)] }
    (s.pinnedAt 0 (.win 0 64) 2).2 = [] ∧ s.arriveFault 0 (.win 0 64) 2 = some (5, 1) ∧ s.handles 0 5 1 := by
  unfold State.handles; decide +kernel

/-- Core 0 of die 0 holds one store of byte 0 of line 7, whose line the die owns. -/
def storing (st : LState) : State :=
  ((ready (.nop (rr 255 255 255 255))).setCore 0 fun x =>
    { x with fifo := [{ seq := 0, blk := 0, tids := [3], line := 7, kind := .store [(3, [(0, 5)])] false }] }).setL2 0 7
      { st := some st }
theorem witness_slice_store : ∀ st ∈ [LState.E, .M], ∃ e, ((storing st).core 0).entry? 0 = some e ∧
    (storing st).entryReady 0 e = true ∧ ((storing st).sliceLoad 0 7).1 < 49152 ∧
      ((storing st).sliceLoad 0 7).2 + 2 ≤ 49152 ∧ tget ((storing st).core 0).l1 7 = none := by
  intro st h; exact ⟨_, rfl, by revert st; decide +kernel⟩

theorem witness_load :
    let l : Load := { seq := 0, blk := 0, tid := 3, va := 0, cid := 0, line := 7, off := 0, size := .b32, dest := 4 }
    let s := (storing .E).setCore 0 fun x => { x with fifo := [], loads := [l] }
    (s.core 0).loads[0]? = some l ∧ (s.core 0).loadWaits l = false ∧ (s.core 0).hit l = none ∧
      (s.core 0).ahead 7 = false ∧ (s.block 0).run.held = [] := by decide +kernel

theorem witness_grant_due : let s : State := { State.reset with msgs := [⟨2, 7, .grant .S 0 none []⟩] }
    s.msgs.find? (fun m => m.die == 2 && m.line == 7 && m.kind != .publish) = some ⟨2, 7, .grant .S 0 none []⟩ ∧
      (s.sliceLoad 2 7).1 < 49152 ∧ (s.sliceLoad 2 7).2 + 2 ≤ 49152 := by decide +kernel

theorem witness_copy_end : let s : State := { housed (.nop (rr 255 255 255 255)) with
      jobs := [(0, ⟨0, 0, .acp 0 3 0 0 0 0 0 none false⟩)] }
    s.acpFirst 0 3 0 0 = true ∧ (s.pinnedAt 0 (.own 0) 32).2 = [] ∧ s.has 0 3 = true ∧
      (s.core 0).acquiring 0 3 0 = false ∧ s.translate 0 (s.ctxOf 0) .load 0 = (s, .ok 0 true) ∧ s.canTouch 0 32 = true ∧
      (s.core 0).entriesOf 0 3 0 = [] ∧ (s.core 0).loadsOf 0 3 0 = [] ∧ (s.core 0).ahead 0 = false ∧
      s.wrqBars 0 3 0 0 = false := by decide +kernel

theorem witness_engine : let i : Instr := .gath (rx 4 8 255 255 0 0 0 0)
    let y := ((housed i).issued i 0 (bundleOf i)).drainEnd ((housed i).issued i 0 (bundleOf i)).s (List.range 16)
    Issues (housed i) i 0 (bundleOf i) ∧ y.translate 0 (y.ctxOf 0) .load 0 = (y, .ok 0 true) ∧ y.canTouch 0 64 = true ∧
      ∀ m ∈ ((housed i).block 0).liveCohort 0, m ∈ (housed i).executing i (bundleOf i) :=
  ⟨issues_of_check (by decide +kernel), by decide +kernel⟩

theorem witness_reservation : let i : Instr := .emitc (rx 4 8 255 255 0 0 0 0)
    let s := { housed i with blocks := (housed i).blocks.map fun e => (e.1, { e.2 with
      threads := e.2.threads.map fun t => (t.1, { t.2 with resv := [(0, ⟨true, 0, t.1⟩)] }) }) }
    Issues s i 0 (bundleOf i) ∧ ∀ t ∈ s.executing i (bundleOf i),
      (s.stood (bundleOf i) t).reservation ((s.stood (bundleOf i) t).rd 8) = some (0, ⟨true, 0, t⟩) :=
  ⟨issues_of_check (by decide +kernel), by decide +kernel⟩

theorem witness_halt : let i : Instr := .halt (rr 255 255 255 255)
    Issues (housed i) i 0 (bundleOf i) ∧ ((housed i).block 0).core = (bundleOf i).core ∧
      ∀ t ∈ (bundleOf i).tids, (housed i).has 0 t = true ∧ ((housed i).thread 0 t).atWatch = false :=
  ⟨issues_of_check (by decide +kernel), by decide +kernel⟩

theorem witness_resume : let i : Instr := .eret (rr 255 255 255 255)
    Issues (housed i) i 0 (bundleOf i) ∧ (housed i).stale = [] ∧ (housed i).translate 0 ((housed i).ctxOf 0) .fetch 0 =
      (housed i, .ok 0 true) ∧ (housed i).stopped 0 = false ∧ (housed i).portDown 0 = false :=
  ⟨issues_of_check (by decide +kernel), by decide +kernel⟩

theorem witness_host_core : let s := ready (.nop (rr 255 255 255 255))
    let mine (s : State) := s.mod.hostBuf.filter fun e => e.hart == 5
    let kept (pa : Nat) : State := { s with mod := { s.mod with hostBuf := [⟨5, pa, 8, 7⟩] } }
    s.mod.boot = .supervisor ∧ inHbm (128 / 128) = true ∧ s.canTouch 128 8 = true ∧ mine s = [] ∧
      mine (kept 128) = [] ++ ⟨5, 128, 8, 7⟩ :: [] ∧ (∀ e ∈ mine (kept 136), e.pa + e.size ≤ 128 ∨ 128 + 8 ≤ e.pa) ∧
      (∀ e ∈ mine (kept 256), e.pa / 128 ≠ 128 / 128) ∧ (kept 128).canTouch 128 8 = true ∧ s.mod.hostFence = [] ∧
      ((kept 128).setHome 1 fun h => { h with txn := some { die := 1, req := .getM, wait := [2] } }).canTouch 128 8 = false := by
  decide +kernel

theorem witness_block_over : let s := (housed (.nop (rr 255 255 255 255))).setBlock 0 fun x =>
      { x with threads := x.threads.map fun t => (t.1, { t.2 with st := .exited }), run := { x.run with endMark := some 0 } }
    (∀ e ∈ (s.block 0).threads, e.2.st = .exited) ∧ (s.block 0).run.completed = false ∧ s.dieApplied 0 0 = true ∧
      s.blockSettled 0 0 0 = true := by decide +kernel

theorem witness_stacks_quiet : (∀ j < 16, (State.reset.stack j).qack = false) ∧ State.reset.stackIdle 0 = true := by
  decide +kernel

/-- One running launch: one block or seed of 16 threads, 8 registers and 256 bytes of slice, and one record at house 0. -/
def launchCard (graph : Byte) : List Byte :=
  List.replicate 0x10 0 ++ [graph] ++ List.replicate 0x37 0 ++ leBytes 4 1 ++ leBytes 4 16 ++ leBytes 4 8 ++ leBytes 4 0 ++
    leBytes 4 256 ++ List.replicate 0xA4 0
def launchNode : List Byte :=
  leBytes 8 0 ++ leBytes 4 (16 + 4 * 2 ^ 13 + 2 ^ 17) ++ leBytes 4 (2 ^ 16) ++ leBytes 4 (2 ^ 23 + 1) ++ List.replicate 12 0
def dealing (graph : Byte) : State :=
  { State.reset with launches := [(1, { st := .running, card := launchCard graph, nodes := [launchNode], poolSize := 4096,
                                        records := [(0, { node := 0, st := .committed })], deques := [(0, [0])] })] }
theorem witness_site : let s := dealing 0
    (s.nextSite (s.launch 1)).isSome = true ∧ s.canDeal (s.launch 1) = true ∧ (s.launch 1).isGraph = false ∧
      s.mayPlace 1 = true ∧ s.onTurn 1 = true := by decide +kernel
theorem witness_seed : let s := dealing 8
    (s.seedSite (s.launch 1)).isSome = true ∧ s.canDeal (s.launch 1) = true ∧ (s.launch 1).isGraph = true ∧
      s.mayPlace 1 = true ∧ s.onTurn 1 = true ∧ s.chunkSize (s.launch 1) = 1 := by decide +kernel
theorem witness_launchers : let s := dealing 8
    s.readiness 1 0 0 = some (0, .full) ∧
      (s.setLaunch 1 fun l => { l with ready := [(0, (0, .timer))] }).readiness 1 0 0 = some (0, .timer) ∧ (s.nodeCore (s.launch 1) 0 0).isSome = true ∧ s.thief 1 1 = true ∧
      (thiefOrder (dieOfHouse 1)).findSome? (fun d => s.victimOn 1 1 d) = some (0, 0) := by decide +kernel
theorem witness_retry : let s := (ready (.nop (rr 255 255 255 255))).setRun 0 fun x => { x with discarded := true }
    (s.block 0).run.discarded = true ∧ s.mod.uids ≠ 0 ∧ s.mayPlace (s.block 0).cfg.launch = true ∧
      (s.retrySite (s.block 0)).isSome = true := by decide +kernel

theorem witness_confirm : let i : Instr := .confirm (rx 255 255 255 255 0 0 0 0)
    let s := (housed i).setBlock 0 fun x => { x with cfg := { x.cfg with retryable := true } }
    Issues s i 0 (bundleOf i) ∧ (s.block 0).holding = true ∧ s.executing i (bundleOf i) ≠ [] :=
  ⟨issues_of_check (by decide +kernel), by decide +kernel⟩

theorem witness_host_answer : let line := 2 ^ 41
    let s := State.reset.setHalf line 0 fun h => { h with asked := some (2, true) }
    (s.hostHalf line 0).asked = some (2, true) ∧ s.region (line * 128) = .cxl 0 ∧ (s.hostHalf line 0).dies = [] ∧
      inHbm line = false := by decide +kernel

theorem witness_window_writes : (State.reset.die 2).sdgo = false ∧ State.reset.peTarget 2 = none ∧
    (let s := ({ ready (.nop (rr 255 255 255 255)) with clusters := [(0, { launch := 0, blocks := [0] })] })
     s.peTarget 2 = some 0 ∧ s.mayPreempt 0 = true) := by decide +kernel

theorem witness_purge : let i : Instr := .invva (rr 255 0 6 2)
    let s := { housed i with blocks := (housed i).blocks.map fun e => (e.1, { e.2 with
      threads := e.2.threads.map fun t => (t.1, { t.2 with live := (List.range 32).map fun k => (k, if k = 6 then 1 else 0) }) }) }
    Issues s i 0 (bundleOf i) ∧ ∀ t ∈ s.executing i (bundleOf i), s.has 0 t = true ∧ (s.stood (bundleOf i) t).rd 6 = 1 ∧
      ((s.stood (bundleOf i) t).rd 2).toNat = (s.ctxOf 0).cid :=
  ⟨issues_of_check (by decide +kernel), by decide +kernel⟩

theorem witness_queue_write : let i : Instr := .wrq (rx 4 8 10 6 3 0 0 0)
    Issues (housed i) i 0 (bundleOf i) ∧ ∀ t ∈ (housed i).executing i (bundleOf i),
      (((housed i).stood (bundleOf i) t).rd64 8).toNat % 16 = 0 ∧ (((housed i).stood (bundleOf i) t).rd64 6).toNat % 32 = 0 ∧
      ((housed i).core 0).barred 0 t (housed i).seq false = false :=
  ⟨issues_of_check (by decide +kernel), by decide +kernel⟩
theorem witness_queue_pages : let s := housed (.nop (rr 255 255 255 255))
    (match (s.wrqPages 0 0 0 16 64).2 with
      | .ok w => w.desc == none && w.first == 0 && w.header == 64
      | _ => false) = true ∧ s.canTouch 0 16 = true ∧ s.canTouch 64 32 = true := by decide +kernel
/-- A queue of one descriptor at address 0, whose header stands at 64. -/
theorem witness_queue_room : let s : State := { housed (.nop (rr 255 255 255 255)) with mem := mset [] 72 1 }
    let at_ (a : Nat) (l : List Byte) : List (Nat × Byte) := l.mapIdx fun i x => (a + i, x)
    let written := at_ 256 (List.replicate 16 0) ++ at_ 0 (leBytes 8 256 ++ leBytes 8 0) ++ at_ 76 (leBytes 4 1)
    (match (s.wrqPages 0 0 256 16 64).2 with
      | .ok w => w.desc == some 0 && w.first == 256 && w.header == 64 && decide ((w.tail + 2 ^ 32 - w.head) % 2 ^ 32 < w.qsize)
      | _ => false) = true ∧ (written.map (·.1)).Nodup ∧ (∀ e ∈ written, e.1 < 2 ^ 40) ∧
      ((dedupN (written.map fun e => e.1 / 128)).map fun l => s.cell (128 * l)).Nodup ∧ s.canTouch 256 16 = true := by
  decide +kernel

theorem witness_note : let e : Entry := { seq := 0, blk := 0, tids := [3], line := 7, kind := .store [(3, [(0, 5)])] false,
                                            release := true, scope := 1, rel := some 0 }
    let s := ((ready (.nop (rr 255 255 255 255))).setCore 0 fun x => { x with fifo := [e] }).setL2 0 9
      { loc := [(0, 1)], locBy := [(0, 3)], firstAt := 0 }
    (s.core 0).entry? 0 = some e ∧ e.st = .queued ∧ (s.core 0).entryFree e = true ∧ s.needsNote 0 e = true ∧
      (s.stack (s.stackOf 7)).log.length < 256 := by
  decide +kernel
theorem witness_publish : let s := State.reset.setStack (State.reset.stackOf 7) fun x => { x with log := [⟨7, 2, 5, 0⟩] }
    let t : State := { s with msgs := [⟨2, 7, .publish⟩] }
    (s.stack (s.stackOf 7)).log.find? (fun n => n.line == 7 && n.ahead == 0) = some ⟨7, 2, 5, 0⟩ ∧ s.msgs = [] ∧
      s.stopped 7 = false ∧ t.published 2 7 5 = true := by decide +kernel

theorem witness_fault_entry : let s := (housed (.nop (rr 255 255 255 255))).setThread 0 3 fun h =>
      { h with st := .waiting (.fault 0 1 64 0) }
    s.has 0 3 = true ∧ (s.thread 0 3).st = .waiting (.fault 0 1 64 0) ∧ s.handles 0 10 3 ∧ (s.thread 0 3).inh = false ∧
      s.jobs = [] := by unfold State.handles; decide +kernel

/-! ## Statements about events are not empty -/

/-- A machine whose die 0 has one open entry about thread 3 of the block of `ready`. -/
def asked (kind : Nat) : State :=
  let s := (furnished (.nop (rr 255 255 255 255))).setDie 0 fun x =>
    { x with entries := [{ token := 1, kind := kind, blk := some 0, tids := [3] }] }
  s.setThread 0 3 fun h => h.await (.entry 0 1)
theorem witness_supervisor_entry : ∀ kind ∈ [2, 3, 4, 5, 6, 7, 8, 9, 10], ∃ e,
    ((asked kind).die 0).entries.find? (fun e => e.token == 1) = some e ∧ e.kind = kind ∧ e.tids.Nodup ∧ e.blk = some 0 ∧
      (tget (asked kind).blocks 0).isSome = true ∧ (tget (asked kind).launches e.launch).isSome = true ∧
      ((asked kind).thread 0 3).st = .waiting (.entry 0 1) := by
  intro kind _; exact ⟨_, rfl, rfl, List.nodup_singleton _, rfl, rfl, rfl, rfl⟩
theorem witness_supervisor_refuses : ∀ e, (State.reset.die 0).entries.find? (fun e => e.token == 1) = some e →
    e.kind ∉ [2] := fun e h => nomatch (show none = some e from h)

theorem witness_result_due : ∃ s : State, tget s.jobs 0 = some ⟨0, 0, .result 0 3 [(4, 7)] [] none⟩ ∧ 0 ≤ s.now 0 ∧
    s.has 0 3 = true :=
  ⟨{ ready (.nop (rr 255 255 255 255)) with jobs := [(0, ⟨0, 0, .result 0 3 [(4, 7)] [] none⟩)] }, by decide +kernel⟩

/-- A line of stack 0 or another whose home holds one request. -/
def requested (r : Req) (st : HState) : State :=
  State.reset.setHome 7 fun h => { h with st := st, queue := [(2, r)] }
theorem witness_home_request : ∀ st ∈ [HState.I, .S, .E, .O, .W, .U], ∀ r ∈ [Req.getS, .getM, .getW],
    let s := requested r st
    (s.homeOf 7).queue = [(2, r)] ∧ (s.homeOf 7).txn = none ∧ (s.homeOf 7).st = st ∧
      (s.stack (s.stackOf 7)).qack = false ∧ (s.stack (s.stackOf 7)).qreq = false ∧ s.noteFor 7 2 = false := by
  decide +kernel
theorem witness_eviction_at_home : let s := requested (.wbData 0 []) .E
    (s.homeOf 7).queue = [(2, .wbData 0 [])] ∧ (s.homeOf 7).txn = none ∧ inHbm 7 = true := by decide +kernel
theorem witness_line_held : ∀ st ∈ [LState.S, .E, .M, .O, .W, .U],
    let s := State.reset.setL2 2 7 { st := some st }
    s.l2 2 7 = some { st := some st } ∧ (s.homeOf 7).queue = [] := by decide +kernel
theorem witness_answer_due : ∀ m ∈ [MsgKind.fwdShare, .fwdOwn, .inval, .recall],
    let s : State := { State.reset.setHome 7 fun h => { h with txn := some { die := 1, req := .getM, wait := [2] } } with
      msgs := [⟨2, 7, m⟩] }
    (⟨2, 7, m⟩ : Msg) ∈ s.msgs ∧ ((s.homeOf 7).txn.map (·.wait)) = some [2] := by decide +kernel

theorem witness_post_waits : let s := State.reset.setDie 0 fun x =>
      { x with posts := [(0, List.replicate 64 0)], sqsize := 16 }
    (s.die 0).postDue (s.now 0) = [postSource (List.replicate 64 0)] ∧ (s.die 0).ringRoom = true ∧ s.inPostOrder 0 (postSource (List.replicate 64 0)) = true ∧
      s.canTouch 0 64 = true :=
  ⟨by decide +kernel, by decide +kernel, (Bool.or_eq_true _ _).mpr (.inr (by decide +kernel)), by decide +kernel⟩
theorem witness_watchdog : let s := (ready (.nop (rr 255 255 255 255))).setRun 0 fun r => { r with wdog := 2 ^ 26 }
    (tget s.blocks 0).isSome = true ∧ (s.block 0).run.stopped = false ∧
      2 ^ (s.die 0).wdlog.toNat ≤ (s.block 0).run.wdog ∧ s.discards 0 0 0 = false := by decide +kernel
theorem witness_host_half : inHbm (2 ^ 33) = false ∧ inHbm 0 = true ∧ State.reset.canTouch 0 128 = true := by
  decide +kernel
theorem witness_card_ready : let s : State := { State.reset with mod := { State.reset.mod with
      queues := [(3, { qsize := 4, qtail := 1, xen := true })] } }
    let k := tgetD s.mod.queues 3 {}
    k.qdis = false ∧ (k.qtail - k.qhead).toNat = 1 ∧ isPow2 16 k.qsize.toNat = true ∧ k.xen = true ∧ k.fault = none := by
  decide +kernel
theorem witness_age : let s := (ready (.nop (rr 255 255 255 255))).setThread 0 3 fun h => { h with st := .ready }
    let t := s.setDie 0 fun x => { x with cycle := 4096 }
    t.has 0 3 = true ∧ (t.thread 0 3).st = .ready ∧ 2048 ≤ t.nowB 0 - (t.thread 0 3).since := by decide +kernel
theorem witness_command_start : let s := State.reset.setCore 0 fun x => { x with engq := [{ op := .bcopy, blk := 0, seq := 1 }] }
    ((s.cmds false 0).filter (·.active)).length < 4 ∧ (s.cmds false 0).length = 1 ∧
      ∀ k ∈ s.cmds false 0, k.fault = none := by decide +kernel
theorem witness_launch_over : let l : Launch := { st := .running }
    l.fault = none ∧ l.bad = false ∧ l.levAddr = 0 := by decide +kernel

/-! ## Hypotheses of the statements of several effects -/

/-- `ready` for a block of one cohort of 16. -/
def cohort (i : Instr) : State :=
  (ready i).setBlock 0 fun x => { x with cfg := { x.cfg with w := 16, allot := 65536 } }
theorem witness_whole_cohort : ∀ i ∈ [Instr.selhist (rr 0 16 32 255), .selpack (rr 0 16 32 36)],
    hdrGather (bundleOf i).hdr = 2 ∧ Issues (cohort i) i 0 (bundleOf i) ∧ (cohort i).whole i (bundleOf i) := by
  have h : ∀ i ∈ [Instr.selhist (rr 0 16 32 255), .selpack (rr 0 16 32 36)], hdrGather (bundleOf i).hdr = 2 ∧
    canIssue (cohort i) i 0 (bundleOf i) = true ∧ (cohort i).whole i (bundleOf i) := by unfold State.whole; decide +kernel
  exact fun i hi => ⟨(h i hi).1, issues_of_check (h i hi).2.1, (h i hi).2.2⟩

/-- A tile of 16 rows by 32 s8 elements of zeros, whose form is ZERO. -/
def zeroTile : Tile := { base := 0, st := .ready, rows := 15, cols := 31, fval := presetFmt 0, form := .zero }
theorem witness_sound_form : zeroTile.count * zeroTile.cont % 8 = 0 ∧ zeroTile.st ≠ .empty ∧ fmtValid zeroTile.fval = true ∧
    (oneCode (fmtOf zeroTile.fval)).isSome = true ∧ ((fmtOf zeroTile.fval).value 0).isZero = true := by decide +kernel
theorem witness_sound_tile : zeroTile.sound [] := by
  unfold Tile.sound; decide +kernel

theorem witness_numbers : f32.value 0x3F800000 = .fin false (2 ^ 23) (-23) ∧ f32.value 0x80000000 = .fin true 0 (-149) ∧
    f32.value 0x7FC00000 = .nan ∧ f32.value 0xFF800000 = .inf true ∧ ieee = [f16, bf16, f32, f64] := by decide +kernel
theorem witness_formats : fmtValid (presetFmt 2) = true ∧ (fmtOf (presetFmt 2)).intm = false ∧
    fmtValid (presetFmt 7) = true ∧ (fmtOf (presetFmt 7)).intm = true ∧ f32.intm = false := by decide +kernel
theorem witness_positive : (f32.value 0x3F800000).finite = true ∧ 0 < (f32.value 0x3F800000).real := by
  rw [witness_numbers.1]; norm_num [FVal.finite, FVal.real]

/-- A command's parameter block: ADDR0, ADDR1, LEN and the control word. -/
def engParams (addr0 addr1 len ctl : Nat) : List Byte :=
  leBytes 8 addr0 ++ leBytes 8 addr1 ++ leBytes 4 0 ++ leBytes 4 len ++ leBytes 4 0 ++ leBytes 4 ctl ++ List.replicate 32 0
/-- A copy of 64 bytes inside the scratchpad, and one from HBM to it. -/
def copyCmd (dir : Nat) : EngCmd :=
  { op := .bcopy, blk := 0, seq := 1, active := true, params := engParams 0 1024 64 (4 * dir) }
def copying (dir : Nat) : State := (housed (.nop (rr 255 255 255 255))).setCore 0 fun x => { x with engq := [copyCmd dir] }
theorem witness_copy_move : ∀ dir ∈ [1, 3], let s := copying dir
    let c := copyCmd dir
    (s.core 0).engq[0]? = some c ∧ (∀ k ∈ (s.core 0).engq, k.fault = none) ∧ s.halted c = false ∧ c.due = 0 ∧
      c.dir = dir ∧ 8 * s.copyTotal c = 512 ∧ s.nextStop c = 512 ∧ (s.copyMove 0 c 512).2.2.isNone = true ∧
      s.spad 0 c.addr1 c.len = some (.own 1024) ∧ (s.pinnedAt 0 (.own 1024) 64).2 = [] := by decide +kernel
/-- The same with GRAN 0 in a long copy whose first 2,048 bytes stop short of the end. -/
theorem witness_copy_part : let c : EngCmd := { copyCmd 3 with params := engParams 0 8192 4096 12 }
    let s := (copying 3).setCore 0 fun x => { x with engq := [c] }
    s.nextStop c = 16384 ∧ s.nextStop c < 8 * s.copyTotal c ∧ s.spad 0 c.addr0 c.len = some (.own 0) ∧
      ({ c with done := 16384 } : EngCmd).due = 2048 := by decide +kernel

/-- A gather of one element of 4 bytes into the scratchpad. -/
def gatherCmd : EngCmd :=
  { op := .gath, blk := 0, seq := 1, active := true, params := engParams 0 1024 1 (3 * 64), indices := [0] }
theorem witness_gather_group : let s := (housed (.nop (rr 255 255 255 255))).setDm 0 fun x => { x with gathq := [gatherCmd] }
    (s.dm 0).gathq[0]? = some gatherCmd ∧ gatherCmd.gathers = true ∧ gatherCmd.esz = 4 ∧
      (gatherCmd.left.filter fun k => match (s.engX 0 gatherCmd k .load (gatherCmd.elemVa k)).2 with
        | .ok pa => s.homeNo pa == 0
        | _ => false) = [0] ∧ (s.serveElems 0 gatherCmd [0]).2.2.isNone = true ∧ s.storesBefore 0 0 gatherCmd.mark = false ∧
      s.canTouch 0 1 = true := by decide +kernel

theorem witness_launch_start : let s : State :=
      { dealing 0 with launches := [(1, { card := launchCard 0, st := .waiting })] }
    let l := s.launch 1
    s.firstWaiting 1 = true ∧ l.isGraph = false ∧ l.ngb = 0 ∧ (s.chipFit l.chipSize).isSome = true ∧
      (match (s.dispRead l.ctx l.kAddr (8 * l.kCount)).2 with
        | .bytes kb => kb.length == 8 * l.kCount
        | _ => false) = true := by decide +kernel

theorem witness_end_block : ∃ e, ((asked 8).die 0).entries.find? (fun e => e.token == 1) = some e ∧ e.kind ∈ [6, 7, 8, 9] ∧
    e.blk = some 0 ∧ (tget (asked 8).blocks 0).isSome = true ∧ (asked 8).has 0 3 = true :=
  ⟨_, rfl, by decide, rfl, rfl, rfl⟩

/-- A load of host memory behind port 0, whose half is asked for, over a trained link in role 2. -/
def hostLoad : Load :=
  { seq := 0, blk := 0, tid := 3, va := 2 ^ 48, cid := 0, line := 2 ^ 41, off := 0, size := .b32, dest := 4 }
def linked : State :=
  let s := (housed (.nop (rr 255 255 255 255))).setCore 0 fun x => { x with loads := [hostLoad] }
  (s.setHalf (2 ^ 41) 0 fun h => { h with asked := some (0, false) }).setLink 1 fun x =>
    { x with cxlrole := 2, cxlup := true }
theorem witness_link_down : (linked.link 1).cxlup = true ∧ (linked.link 1).cxlrole = 2 ∧ linked.jobs = [] ∧
    hostLoad ∈ (linked.core 0).loads ∧ linked.loadOut 0 hostLoad = true ∧ (linked.block 0).core = 0 ∧
    linked.handles 0 10 3 ∧ linked.has 0 3 = true ∧ (linked.thread 0 3).inh = false ∧ (linked.thread 0 3).st ≠ .exited := by
  unfold State.handles; decide +kernel
theorem witness_link_up : let s := State.reset.setLink 3 fun x => { x with cxlrole := 1 }
    (s.link 3).cxlrole = 1 ∧ (s.link 3).cxlup = false ∧
      ((s.setLink 3 fun x => { x with cxlup := true }).link 3).cxlup = true := by decide +kernel
theorem witness_flits : let s : State := { State.reset with mod := { State.reset.mod with devnum := 2, route := [(5, 1)] } }
    let t := s.setLink (wofortPlace 0).1 fun x => { x with wup := [((wofortPlace 0).2, true)] }
    5 ≠ s.mod.devnum.toNat ∧ tgetD s.mod.route 5 0 ≠ 0 ∧ tgetD (t.link (wofortPlace 0).1).wup (wofortPlace 0).2 false = true ∧
      t.canTouch 0 128 = true := by decide +kernel
theorem witness_boot : State.reset.inFlash [] [] [] 0 = true := by decide +kernel
theorem witness_management : (∀ boot ∈ [Boot.rom, .loader, .supervisor], boot ≠ .stopped) ∧ State.reset.mod.boot = .rom := by
  decide

theorem witness_bundle_forming : let s := (housed (.nop (rr 255 255 255 255))).setThread 0 3 fun h =>
      { h with st := .ready, hdr := some 0 }
    let s : State := { s with bundles := [] }
    let y := (((s.dissolves 0).pollWaits 0).headers 0).gathers 0
    (s.blocks.map (·.1)) = [0] ∧ ((s.block 0).threads.map (·.1)) = List.range 16 ∧
      ((y.groups 0).map fun g => (g.tids, g.w, g.aged || !g.held)) = [([3], 32, true)] ∧ (y.core 0).resv = none ∧
      0 < unitCount 32 ∧ ∀ q ∈ unitQuads 32 0, q ∈ y.freeQuads 0 := by decide +kernel

/-- Core 0 of die 0 holds one ATOM of word 0 of line 7, whose line the die owns. -/
def atomic (st : LState) : State :=
  (storing st).setCore 0 fun x => { x with fifo := x.fifo.map fun e =>
    { e with kind := .atoms [{ tid := 3, off := 0, op := .add, size := 4, opnd := 5, dest := some 4 }] } }
theorem witness_atoms : ∀ st ∈ [LState.E, .M], ∃ e l, ((atomic st).core 0).entry? 0 = some e ∧
    (atomic st).entryReady 0 e = true ∧ (atomic st).l2 0 7 = some l ∧ l.st = some st ∧ l.loc = [] ∧
      ((atomic st).sliceLoad 0 7).1 < 49152 ∧ tget ((atomic st).core 0).l1 7 = none := by
  intro st h; exact ⟨_, _, rfl, by revert st; decide +kernel, rfl, rfl, rfl, by revert st; decide +kernel⟩
theorem witness_red : let e : Entry := { seq := 0, blk := 0, tids := [3], line := 7, kind := .red ⟨.add, false, 0⟩ [(3, 0, 5)] }
    let s := ((storing .U).setCore 0 fun x => { x with fifo := [e] }).setL2 0 7 { st := some .U, tag := some ⟨.add, false, 0⟩ }
    (s.core 0).entry? 0 = some e ∧ s.entryReady 0 e = true ∧ tget (s.core 0).l1 7 = none := by decide +kernel

/-- A command of the epilogue engine whose slot has been read out, and the tile of 16 rows by 32 s8 elements that it fills. -/
def drained (ctl : Nat) : EpiCmd :=
  { blk := 0, q := 0, params := List.replicate 12 0 ++ leBytes 4 ctl ++ List.replicate 48 0, tid := 3, draining := true,
    out := some [], fval := presetFmt 0 }
theorem witness_epilogue_tile : let c := drained 0x800
    let x : Tile := { base := 1024, st := .filling, rows := 15, cols := 31, fval := presetFmt 0 }
    let s := (tiled (.nop (rr 255 255 255 255)) x).setCore 0 fun k => { k with epiq := [c] }
    (s.core 0).epiq.find? (·.out.isSome) = some c ∧ c.toTile = true ∧ c.of32 = false ∧ x.layout = 0 ∧
      x.cont = (fmtOf c.fval).cont ∧ c.ro + 16 ≤ x.r ∧ c.co + 32 ≤ x.c ∧ x.pins = 0 ∧ s.has 0 3 = true ∧ s.rooted 0 := by
  unfold State.rooted; decide +kernel
theorem witness_epilogue_global : let c := drained 0
    let s := (housed (.nop (rr 255 255 255 255))).setCore 0 fun k => { k with epiq := [c] }
    let e : EngCmd := { op := .bcopy, blk := 0, seq := 0 }
    let p := s.engWrite 0 e ((List.range 4).map fun n => (n, n, 0))
    c.toTile = false ∧ c.rowBytes ≠ 0 ∧ p.stop = none ∧ p.faults = [] ∧ p.s.away = s.away ∧
      (p.s.core 0).epiq = (s.core 0).epiq ∧ (p.s.dm 0).locks = (s.dm 0).locks := by decide +kernel

/-- Die 1 holds a dirty line 7 and is asked for it by the home, for die 2. -/
def answering (h : HState) (l : LState) (m : MsgKind) (r : Req) : State :=
  let s := State.reset.setHome 7 fun x =>
    { x with st := h, owner := 1, dies := 2, tag := some ⟨.add, false, 0⟩, txn := some { die := 2, req := r, wait := [1] } }
  { s.setL2 1 7 { st := some l, data := [(0, 5)], tag := some ⟨.add, false, 0⟩ } with msgs := [⟨1, 7, m⟩] }
theorem witness_answers : ∀ e ∈ [(HState.E, LState.M, MsgKind.fwdShare, Req.getS), (.O, .O, .fwdOwn, .getM),
      (.W, .W, .recall, .getS), (.U, .U, .recall, .getS)],
    let s := answering e.1 e.2.1 e.2.2.1 e.2.2.2
    s.msgs.find? (fun x => x.die == 1 && x.line == 7 && x.kind != .publish) = some ⟨1, 7, e.2.2.1⟩ ∧
      ((s.homeOf 7).txn.map (·.wait)) = some [1] ∧ (s.l2 1 7).bind (·.st) = some e.2.1 ∧ (s.homeOf 7).host = 0 ∧
      (s.homeOf 7).devs = 0 ∧ ∀ c ∈ coresOf 1, tget (s.core c).l1 7 = none := by decide +kernel

/-! ## Boot -/

/-- SHAKE256 of no bytes, to 256 bits, as published with its standard. -/
theorem test_shake256 : beVal (shake256 [] 32) = 0x46B9DD2B0BA88D13233B3FEB743EEB243FCD52EA62B81B82B50C27646ED5762F := by
  decide +kernel
theorem test_shake_padding : (shakePadded (List.replicate 135 0)).length = 136 ∧
    (shakePadded (List.replicate 136 0)).length = 272 := by decide +kernel
theorem test_slh_lengths : slhVerifies [] [] [] = false := by decide +kernel

/-! ## A step runs the word it fetches -/

theorem test_step_fetches : ((State.reset.withFetchWord 64 0x30E0405FFFF00040).work.head?.map fun w => match w with
    | .issue b v => ((State.reset.withFetchWord 64 0x30E0405FFFF00040).nextInstr b v).2
    | _ => none) = some (some (.popc (rr 4 5 255 255))) := by decide +kernel
theorem test_reset_memory : Memory.wf State.reset.mem = true := by decide

end Sys2Proof.Tests
end

section
/-! PROOFS. Byte order: the bytes of a number, in a list, in memory, in a line, in a code word and in a register pair (R4). -/

namespace Sys2Proof.Machine

/-! ## The bytes of a number -/

@[simp] theorem length_leBytes (n v : Nat) : (leBytes n v).length = n := by
  induction n generalizing v with
  | zero => rfl
  | succ n ih => simp [leBytes, ih]

@[simp] theorem getElem_leBytes (n v i : Nat) (h : i < (leBytes n v).length) :
    (leBytes n v)[i] = BitVec.ofNat 8 (v / 256 ^ i) := by
  induction n generalizing v i with
  | zero => simp at h
  | succ n ih =>
    cases i with
    | zero => simp [leBytes]
    | succ i => simp [leBytes, ih, Nat.div_div_eq_div_mul, Nat.pow_succ']

theorem leVal_lt (l : List Byte) : leVal l < 256 ^ l.length := by
  induction l with
  | nil => simp [leVal]
  | cons b r ih =>
    have hb : b.toNat < 256 := b.isLt
    simp only [leVal, List.length_cons, Nat.pow_succ']
    omega

theorem leVal_div_mod (l : List Byte) (i : Nat) (h : i < l.length) : leVal l / 256 ^ i % 256 = l[i].toNat := by
  induction l generalizing i with
  | nil => simp at h
  | cons b r ih =>
    have hb : b.toNat < 256 := b.isLt
    cases i with
    | zero => simp only [leVal, Nat.pow_zero, List.getElem_cons_zero]; omega
    | succ i =>
      have tail : (b.toNat + 256 * leVal r) / 256 = leVal r := by omega
      rw [leVal, Nat.pow_succ', ← Nat.div_div_eq_div_mul, tail]
      exact ih i (by simpa using h)

theorem leBytes_leVal (l : List Byte) : leBytes l.length (leVal l) = l := by
  refine List.ext_getElem (by simp) fun i _ h => BitVec.eq_of_toNat_eq ?_
  rw [getElem_leBytes, BitVec.toNat_ofNat]
  exact leVal_div_mod l i h

theorem leVal_leBytes (n v : Nat) : leVal (leBytes n v) = v % 256 ^ n := by
  induction n generalizing v with
  | zero => simp [leBytes, leVal, Nat.mod_one]
  | succ n ih => simp [leBytes, leVal, ih, Nat.pow_succ', Nat.mod_mul]

/-! ## Memory -/

@[simp] theorem length_mbytes (m : Mem) (a n : Nat) : (mbytes m a n).length = n := by
  induction n generalizing a with
  | zero => rfl
  | succ n ih => simp [mbytes, ih]

@[simp] theorem getElem_mbytes (m : Mem) (a n i : Nat) (h : i < (mbytes m a n).length) :
    (mbytes m a n)[i] = mget m (a + i) := by
  induction n generalizing a i with
  | zero => simp at h
  | succ n ih =>
    cases i with
    | zero => rfl
    | succ i => simp [mbytes, ih, Nat.add_assoc, Nat.add_comm 1]

theorem mread_lt (m : Mem) (a n : Nat) : mread m a n < 256 ^ n := by
  simpa [mread] using leVal_lt (mbytes m a n)

theorem mread_div_mod (m : Mem) (a n : Nat) {i : Nat} (h : i < n) :
    mread m a n / 256 ^ i % 256 = (mget m (a + i)).toNat := by
  rw [mread, leVal_div_mod _ i (by simpa using h), getElem_mbytes]

theorem mget_mwrite (m : Mem) (a n v k : Nat) :
    mget (mwrite m a n v) k = if a ≤ k ∧ k < a + n then BitVec.ofNat 8 (v / 256 ^ (k - a)) else mget m k := by
  unfold mwrite
  split
  · next h =>
    have inside := mget_mputs_inside (leBytes n v) m a (k - a) (by rw [length_leBytes]; omega)
    rwa [Nat.add_sub_cancel' h.1, getElem_leBytes] at inside
  · next h => exact mget_mputs_outside _ m a k (by rw [length_leBytes]; omega)

/-! ## A line -/

theorem lineVal_lt (l : LineBytes) (o n : Nat) : lineVal l o n < 256 ^ n := by
  simpa [lineVal] using leVal_lt ((List.range n).map fun i => tgetD l (o + i) 0)

theorem lineVal_div_mod (l : LineBytes) (o n : Nat) {i : Nat} (h : i < n) :
    lineVal l o n / 256 ^ i % 256 = (tgetD l (o + i) 0).toNat := by
  rw [lineVal, leVal_div_mod _ i (by simpa using h), List.getElem_map, List.getElem_range]

theorem tget_lineOfBytes (l : List Byte) (o k : Nat) :
    tget (lineOfBytes o l) k = if o ≤ k then l[k - o]? else none := by
  induction l generalizing o with
  | nil => simp [lineOfBytes]
  | cons b r ih =>
    have tail : lineOfBytes o (b :: r) = (o, b) :: lineOfBytes (o + 1) r := by
      simp [lineOfBytes, List.mapIdx_cons, Nat.add_assoc, Nat.add_comm 1]
    rw [tail, tget, ih]
    rcases Nat.lt_trichotomy o k with h | h | h
    · rw [if_neg (by omega), if_pos (by omega), if_pos (by omega), show k - o = k - (o + 1) + 1 by omega,
        List.getElem?_cons_succ]
    · simp [h]
    · rw [if_neg (by omega), if_neg (by omega), if_neg (by omega)]

theorem lineOf_eq_lineOfBytes (o n v : Nat) : lineOf o n v = lineOfBytes o (leBytes n v) := rfl

theorem tget_lineOf (o n v k : Nat) :
    tget (lineOf o n v) k = if o ≤ k ∧ k < o + n then some (BitVec.ofNat 8 (v / 256 ^ (k - o))) else none := by
  rw [lineOf_eq_lineOfBytes, tget_lineOfBytes]
  by_cases ho : o ≤ k
  · by_cases hk : k < o + n
    · rw [if_pos ho, if_pos ⟨ho, hk⟩, List.getElem?_eq_getElem (by rw [length_leBytes]; omega), getElem_leBytes]
    · rw [if_pos ho, if_neg (by omega), List.getElem?_eq_none (by rw [length_leBytes]; omega)]
  · rw [if_neg ho, if_neg (by omega)]

/-! ## A code word -/

@[simp] theorem length_wordBytes (w : DWord) : (wordBytes w).length = 8 := length_leBytes 8 _

theorem wordBytes_eq_fld (w : DWord) : wordBytes w = (List.range 8).map fun k => fld w (8 * k) 8 := by
  refine List.ext_getElem (by simp) fun i _ _ => ?_
  simp only [wordBytes, getElem_leBytes, List.getElem_map, List.getElem_range, fld]
  apply BitVec.eq_of_toNat_eq
  simp [Nat.shiftRight_eq_div_pow, Nat.pow_mul]

theorem ofNat_leVal_wordBytes (w : DWord) : BitVec.ofNat 64 (leVal (wordBytes w)) = w := by
  have hw : w.toNat < 256 ^ 8 := w.isLt
  rw [wordBytes, leVal_leBytes, Nat.mod_eq_of_lt hw, BitVec.ofNat_toNat, BitVec.setWidth_eq]

theorem wordBytes_ofNat_leVal {l : List Byte} (h : l.length = 8) : wordBytes (BitVec.ofNat 64 (leVal l)) = l := by
  have hl : leVal l < 2 ^ 64 := by simpa [h] using leVal_lt l
  rw [wordBytes, BitVec.toNat_ofNat, Nat.mod_eq_of_lt hl, ← h, leBytes_leVal]

/-- The decoder of bytes on a word that stands in front of other bytes. -/
theorem decodeBytes_wordBytes_append (w : DWord) (r : List Byte) :
    decodeBytes (wordBytes w ++ r) = (decode w).toOption.map fun i => (i, r) := by
  have first : (wordBytes w ++ r).take 8 = wordBytes w := List.take_left' (length_wordBytes w)
  have others : (wordBytes w ++ r).drop 8 = r := List.drop_left' (length_wordBytes w)
  rw [decodeBytes, if_neg (by simp), first, others, ofNat_leVal_wordBytes]
  cases decode w <;> rfl

theorem decodeBytes_of_short {bs : List Byte} (h : bs.length < 8) : decodeBytes bs = none := if_pos h

theorem eq_wordBytes_append {bs : List Byte} (h : 8 ≤ bs.length) : ∃ w r, bs = wordBytes w ++ r :=
  ⟨_, bs.drop 8, by rw [wordBytes_ofNat_leVal (List.length_take_of_le h), List.take_append_drop]⟩

theorem decodeBytes_eq_some_iff (bs : List Byte) (i : Instr) (rest : List Byte) :
    decodeBytes bs = some (i, rest) ↔ ∃ w, bs = wordBytes w ++ rest ∧ decode w = .ok i := by
  constructor
  · intro h
    rcases Nat.lt_or_ge bs.length 8 with short | long
    · simp [decodeBytes_of_short short] at h
    · obtain ⟨w, r, rfl⟩ := eq_wordBytes_append long
      rw [decodeBytes_wordBytes_append] at h
      cases hd : decode w with
      | error n => simp [hd, Except.toOption] at h
      | ok j =>
        obtain ⟨rfl, rfl⟩ : j = i ∧ r = rest := by simpa [hd, Except.toOption] using h
        exact ⟨w, rfl, hd⟩
  · rintro ⟨w, rfl, hd⟩
    rw [decodeBytes_wordBytes_append, hd]
    rfl

/-! ## A register pair -/

@[simp] theorem loHalf_pairVal (lo hi : Word) : loHalf (pairVal lo hi) = lo :=
  BitVec.extractLsb'_append_eq_right

@[simp] theorem hiHalf_pairVal (lo hi : Word) : hiHalf (pairVal lo hi) = hi :=
  BitVec.extractLsb'_append_eq_left

@[simp] theorem pairVal_halves (v : DWord) : pairVal (loHalf v) (hiHalf v) = v :=
  (BitVec.extractLsb'_append_extractLsb'_eq_extractLsb' rfl).trans BitVec.extractLsb'_eq_self

theorem rd_wr_same (t : Thread) {r : Nat} (v : Word) (h : r ≠ 255) : (t.wr r v).rd r = v := by
  simp [Thread.wr, Thread.rd, h]

theorem rd_wr_other (t : Thread) {r k : Nat} (v : Word) (h : k ≠ r) : (t.wr r v).rd k = t.rd k := by
  unfold Thread.wr
  split
  · rfl
  · simp [Thread.rd, tget_tset_other _ _ h]

theorem wrs_pairW (t : Thread) (r : Nat) (v : DWord) :
    t.wrs (pairW r v) = (t.wr r (loHalf v)).wr (r + 1) (hiHalf v) := rfl

theorem rd_wrs_pairW (t : Thread) {r : Nat} (v : DWord) (h : r < 254) :
    (t.wrs (pairW r v)).rd r = loHalf v ∧ (t.wrs (pairW r v)).rd (r + 1) = hiHalf v := by
  rw [wrs_pairW]
  exact ⟨by rw [rd_wr_other _ _ (by omega), rd_wr_same _ _ (by omega)], rd_wr_same _ _ (by omega)⟩

theorem rd64_wrs_pairW (t : Thread) {r : Nat} (v : DWord) (h : r < 254) : (t.wrs (pairW r v)).rd64 r = v := by
  obtain ⟨lo, hi⟩ := rd_wrs_pairW t v h
  rw [Thread.rd64, lo, hi, pairVal_halves]

/-! ## R4 -/

/-- Settles O55: each holder of a value is reduced to the byte list that the model turns into a number. -/
theorem littleEndian : Obligations.LittleEndian := by
  unfold Obligations.LittleEndian
  refine ⟨fun m a n v => ?memory, fun l o n v => ?line, fun bs i rest => ?codeWord, fun t r => ?readPair,
    fun t r v h => ?writePair⟩
  case memory => exact ⟨mread_lt m a n, fun i h => mread_div_mod m a n h, fun _ k => mget_mwrite m a n v k⟩
  case line => exact ⟨lineVal_lt l o n, fun i h => lineVal_div_mod l o n h, fun k => tget_lineOf o n v k⟩
  case codeWord => simpa only [wordBytes_eq_fld] using decodeBytes_eq_some_iff bs i rest
  case readPair => exact ⟨loHalf_pairVal _ _, hiHalf_pairVal _ _⟩
  case writePair =>
    obtain ⟨lo, hi⟩ := rd_wrs_pairW t v h
    exact ⟨lo, hi, rd64_wrs_pairW t v h⟩

end Sys2Proof.Machine
end

section
/-! PROOFS. The words of the F-R format: what each field of an encoded instruction holds, and that the decoder reads back
the fields that the encoder wrote (R54). -/

namespace Sys2Proof
open Sys2Proof.Machine

theorem fld_append_above {m n lo len : Nat} {x : BitVec m} {y : BitVec n} (h : n ≤ lo) :
    fld (x ++ y) lo len = fld x (lo - n) len :=
  BitVec.extractLsb'_append_eq_of_le h

theorem fld_append_right {m n : Nat} {x : BitVec m} {y : BitVec n} : fld (x ++ y) 0 n = y :=
  BitVec.extractLsb'_append_eq_right

theorem fld_fld {n lo lo' len len' : Nat} (w : BitVec n) (h : lo' + len' ≤ len) :
    fld (fld w lo len) lo' len' = fld w (lo + lo') len' := by
  refine BitVec.eq_of_getLsbD_eq fun i hi => ?_
  simp [fld, hi, show lo' + i < len by omega, Nat.add_assoc]

section Format
variable (op : BitVec 8) (r : RR) (sub : BitVec 6) (mod : BitVec 8)

theorem encR_fields :
    fld (encR op r sub mod) 56 8 = op ∧ fld (encR op r sub mod) 44 8 = r.d ∧ fld (encR op r sub mod) 36 8 = r.a ∧
      fld (encR op r sub mod) 28 8 = r.b ∧ fld (encR op r sub mod) 20 8 = r.c ∧ fld (encR op r sub mod) 8 6 = sub ∧
      fld (encR op r sub mod) 0 8 = mod := by
  unfold encR
  refine ⟨?op, ?d, ?a, ?b, ?c, ?sub, ?mod⟩
  all_goals repeat (refine (fld_append_above (by decide)).trans ?_)
  case op => exact BitVec.extractLsb'_eq_self
  all_goals exact fld_append_right

theorem encR_use :
    (encR op r sub mod).getLsbD 19 = r.u.la ∧ (encR op r sub mod).getLsbD 18 = r.u.lb ∧
      (encR op r sub mod).getLsbD 17 = r.u.lc ∧ (encR op r sub mod).getLsbD 16 = r.u.ka ∧
      (encR op r sub mod).getLsbD 15 = r.u.kb ∧ (encR op r sub mod).getLsbD 14 = r.u.kc := by
  unfold encR
  refine ⟨?_, ?_, ?_, ?_, ?_, ?_⟩
  all_goals
    repeat (refine (getLsbD_above (by decide)).trans ?_)
    exact (getLsbD_within (by decide)).trans (getLsbD_b2b _)

theorem rrOf_encR : rrOf (encR op r sub mod) = r := by
  obtain ⟨-, hd, ha, hb, hc, -, -⟩ := encR_fields op r sub mod
  obtain ⟨hla, hlb, hlc, hka, hkb, hkc⟩ := encR_use op r sub mod
  simp only [rrOf, guardOf_encR, hd, ha, hb, hc, hla, hlb, hlc, hka, hkb, hkc]

theorem subOf_encR : subOf (encR op r sub mod) = sub.toNat := by
  obtain ⟨-, -, -, -, -, hsub, -⟩ := encR_fields op r sub mod
  rw [subOf, hsub]

/-- A field of the MOD bits. -/
theorem fld_encR_mod {lo len : Nat} (h : lo + len ≤ 8) : fld (encR op r sub mod) lo len = fld mod lo len := by
  obtain ⟨-, -, -, -, -, -, hmod⟩ := encR_fields op r sub mod
  have inner := fld_fld (lo := 0) (encR op r sub mod) h
  rw [hmod, Nat.zero_add] at inner
  exact inner.symm

/-- The decoder of the forms with SUB 0 and a TYPE alone. -/
theorem dR1_encR (t : Nat) (f : RR → Instr) (htype : (fld mod 4 4).toNat = t) (hrest : fld mod 0 4 = 0) :
    dR1 (encR op r 0 mod) t f = .ok (f r) := by
  simp [dR1, need, subOf_encR, tyOf, fld_encR_mod, htype, hrest, rrOf_encR]

end Format

theorem decode_of_decodeLoose {w : DWord} {i : Instr} (h : decodeLoose w = .ok i) (hi : i.wf = true) :
    decode w = .ok i := by
  simp [decode, h, hi]

theorem Instr.fields_ok {i : Instr} (hi : i.wf = true) : ∀ o ∈ i.fields {}, o.ok = true := by
  simp only [Instr.wf, Instr.operandsOk, Bool.and_eq_true, List.all_eq_true] at hi
  obtain ⟨-, -, hfields⟩ := hi
  exact hfields

/-- R59: an unused field of a well-formed instruction holds 0xFF. -/
theorem Instr.reg_of_unused {i : Instr} (hi : i.wf = true) {o : Opnd} (ho : o ∈ i.fields {}) (hu : o.role = .unused) :
    o.reg = 255 := by
  have hok := Instr.fields_ok hi o ho
  simp only [Opnd.ok, hu, Bool.and_eq_true, beq_iff_eq] at hok
  exact hok.1

/-! ## One source register, SUB 0 and TYPE 4: POPC, CLZ and BREV -/

section OneSource
variable {f : RR → Instr} {op : BitVec 8} {r : RR}

theorem unused_of_oneSource (hf : (f r).fields {} = rr r (.dst 1) (.src 1) .unused .unused) (hi : (f r).wf = true) :
    r.b = 0xFF ∧ r.c = 0xFF := by
  have unused {reg : BitVec 8} {la ka : Bool} (ho : ⟨reg.toNat, .unused, la, ka⟩ ∈ (f r).fields {}) : reg = 0xFF :=
    BitVec.eq_of_toNat_eq (Instr.reg_of_unused hi ho rfl)
  exact ⟨unused (la := r.u.lb) (ka := r.u.kb) (by simp [hf, rr]), unused (la := r.u.lc) (ka := r.u.kc) (by simp [hf, rr])⟩

theorem encode_oneSource (hf : (f r).fields {} = rr r (.dst 1) (.src 1) .unused .unused)
    (henc : encode (f r) = some (encR op r 0 0x40)) (hdec : ∀ w, fld w 56 8 = op → decodeLoose w = dR1 w 4 f)
    (hi : (f r).wf = true) :
    ∃ w, encode (f r) = some w ∧ fld w 56 8 = op ∧ fld w 28 8 = 0xFF ∧ fld w 20 8 = 0xFF ∧ fld w 8 6 = 0 ∧
      fld w 0 8 = 0x40 ∧ fld w 44 8 = r.d ∧ fld w 36 8 = r.a ∧ decode w = .ok (f r) := by
  obtain ⟨hop, hd, ha, hb, hc, hsub, hmod⟩ := encR_fields op r 0 0x40
  obtain ⟨rb, rc⟩ := unused_of_oneSource hf hi
  have loose : decodeLoose (encR op r 0 0x40) = .ok (f r) := (hdec _ hop).trans (dR1_encR op r 0x40 4 f rfl rfl)
  exact ⟨_, henc, hop, hb.trans rb, hc.trans rc, hsub, hmod, hd, ha, decode_of_decodeLoose loose hi⟩

end OneSource

theorem decodeLoose_popc {w : DWord} (h : fld w 56 8 = 0x30) : decodeLoose w = dR1 w 4 .popc := by
  unfold decodeLoose; rw [h]; rfl
theorem decodeLoose_clz {w : DWord} (h : fld w 56 8 = 0x31) : decodeLoose w = dR1 w 4 .clz := by
  unfold decodeLoose; rw [h]; rfl
theorem decodeLoose_brev {w : DWord} (h : fld w 56 8 = 0x32) : decodeLoose w = dR1 w 4 .brev := by
  unfold decodeLoose; rw [h]; rfl

end Sys2Proof
end

section
/-! PROOFS. POPC, CLZ and BREV: what each value says of the bits of its operand, and what the instructions write (R117). -/

namespace Sys2Proof.Machine

/-! ## The count of one bits -/

theorem popN_eq_countP (n x : Nat) : popN n x = (List.range n).countP (bitN x) := by
  induction n with
  | zero => rfl
  | succ n ih => rw [popN, ih, b2n, List.range_succ, List.countP_append, List.countP_singleton, Nat.add_comm]

theorem popN_toNat (x : Word) : popN 32 x.toNat = (List.range 32).countP fun k => x.getLsbD k :=
  popN_eq_countP 32 x.toNat

/-! ## The count of leading zero bits -/

theorem clzN_le (n x : Nat) : clzN n x ≤ n := by
  induction n with
  | zero => exact Nat.le_refl 0
  | succ n ih => rw [clzN]; split <;> omega

theorem bitN_above_clzN {n x k : Nat} (low : n - clzN n x ≤ k) (high : k < n) : bitN x k = false := by
  induction n with
  | zero => omega
  | succ n ih =>
    rw [clzN] at low
    split at low
    · omega
    · next clear =>
      rcases Nat.lt_succ_iff_lt_or_eq.1 high with below | rfl
      · exact ih (by omega) below
      · simpa using clear

theorem bitN_at_clzN {n x : Nat} (h : clzN n x < n) : bitN x (n - 1 - clzN n x) = true := by
  induction n with
  | zero => omega
  | succ n ih =>
    rw [clzN] at h ⊢
    split
    · next one => exact one
    · next clear =>
      rw [if_neg clear] at h
      rw [show n + 1 - 1 - (1 + clzN n x) = n - 1 - clzN n x by omega]
      exact ih (by omega)

/-- The value of CLZ on a word. -/
def leadingZeros (x : Word) : Nat := clzN 32 x.toNat

theorem leadingZeros_zero : leadingZeros 0 = 32 := by decide

theorem getLsbD_above_leadingZeros (x : Word) {k : Nat} (h : 32 - leadingZeros x ≤ k) : x.getLsbD k = false := by
  rcases Nat.lt_or_ge k 32 with inside | outside
  · exact bitN_above_clzN h inside
  · exact BitVec.getLsbD_of_ge x k outside

theorem leadingZeros_lt {x : Word} (hx : x ≠ 0) : leadingZeros x < 32 := by
  refine Nat.lt_of_le_of_ne (clzN_le 32 _) fun all => hx ?_
  exact BitVec.eq_of_getLsbD_eq fun k _ => by simp [getLsbD_above_leadingZeros x (k := k) (by omega)]

theorem getLsbD_at_leadingZeros {x : Word} (hx : x ≠ 0) : x.getLsbD (31 - leadingZeros x) = true :=
  bitN_at_clzN (leadingZeros_lt hx)

/-! ## The reversal of the bits -/

/-- One more place to reverse into moves every placed bit up by one. -/
theorem foldl_reversed_succ (n x a : Nat) (l : List Nat) (hl : ∀ i ∈ l, i < n) :
    l.foldl (fun r i => if bitN x i then r + 2 ^ (n + 1 - 1 - i) else r) (2 * a) =
      2 * l.foldl (fun r i => if bitN x i then r + 2 ^ (n - 1 - i) else r) a := by
  induction l generalizing a with
  | nil => rfl
  | cons i l ih =>
    obtain ⟨hi, hl⟩ := List.forall_mem_cons.1 hl
    have place : 2 ^ (n + 1 - 1 - i) = 2 * 2 ^ (n - 1 - i) := by
      rw [← Nat.pow_succ', show n + 1 - 1 - i = n - 1 - i + 1 by omega]
    rw [List.foldl_cons, List.foldl_cons, ← ih _ hl, place]
    congr 1
    split
    · rw [Nat.mul_add]
    · rfl

/-- The reversal of one more bit puts that bit lowest. -/
theorem revN_succ (n x : Nat) : revN (n + 1) x = Nat.bit (bitN x n) (revN n x) := by
  have shifted := foldl_reversed_succ n x 0 (List.range n) fun i hi => List.mem_range.1 hi
  rw [revN, List.range_succ, List.foldl_append, shifted, ← revN]
  cases h : bitN x n <;> simp [h, Nat.bit_val]

theorem testBit_revN {n k : Nat} (x : Nat) (h : k < n) : (revN n x).testBit k = bitN x (n - 1 - k) := by
  induction n generalizing k with
  | zero => omega
  | succ n ih =>
    rw [revN_succ]
    cases k with
    | zero => exact Nat.testBit_bit_zero _ _
    | succ k =>
      rw [Nat.testBit_bit_succ, ih (by omega), show n - 1 - k = n + 1 - 1 - (k + 1) by omega]

/-- The value of BREV on a word. -/
def reversed (x : Word) : Word := BitVec.ofNat 32 (revN 32 x.toNat)

theorem getLsbD_reversed (x : Word) {k : Nat} (h : k < 32) : (reversed x).getLsbD (31 - k) = x.getLsbD k := by
  have inside : 31 - k < 32 := by omega
  rw [reversed, BitVec.getLsbD_ofNat, testBit_revN _ inside, show 32 - 1 - (31 - k) = k by omega]
  simp [inside, bitN, BitVec.testBit_toNat]

/-! ## The instructions -/

theorem word1_writes {s : State} {i : Instr} {bid : Nat} {b : Bundle} (h : Issues s i bid b) {r : RR} {f : Word → Word}
    (hx : exec i s = word1 s i r f) : Writes s i b fun _ th => { regs := [(r.d.toNat, f (th.rd r.a.toNat))] } :=
  alu_writes h hx

theorem exec_popc (r : RR) (s : State) :
    exec (.popc r) s = word1 s (.popc r) r fun x => BitVec.ofNat 32 (popN 32 x.toNat) := rfl
theorem exec_clz (r : RR) (s : State) :
    exec (.clz r) s = word1 s (.clz r) r fun x => BitVec.ofNat 32 (leadingZeros x) := rfl
theorem exec_brev (r : RR) (s : State) : exec (.brev r) s = word1 s (.brev r) r reversed := rfl

/-- Settles O46: the three values are read bit by bit, by induction on the width. -/
theorem bitCounts : Obligations.BitCounts := by
  unfold Obligations.BitCounts
  refine ⟨fun r e he hw => ?encoding, fun s bid b r => ⟨fun h => ?popc,
    ⟨leadingZeros, leadingZeros_zero, fun x => ?clzValue, fun h => ?clz⟩,
    ⟨reversed, fun x k hk => getLsbD_reversed x hk, fun h => ?brev⟩⟩⟩
  case encoding =>
    simp only [List.mem_cons, List.not_mem_nil, or_false] at he
    obtain rfl | rfl | rfl := he
    · exact encode_oneSource rfl rfl (fun _ => decodeLoose_popc) hw
    · exact encode_oneSource rfl rfl (fun _ => decodeLoose_clz) hw
    · exact encode_oneSource rfl rfl (fun _ => decodeLoose_brev) hw
  case popc => simpa only [popN_toNat] using word1_writes h (exec_popc r s)
  case clzValue =>
    exact ⟨fun k hk => getLsbD_above_leadingZeros x hk, fun hx => ⟨leadingZeros_lt hx, getLsbD_at_leadingZeros hx⟩⟩
  case clz => exact word1_writes h (exec_clz r s)
  case brev => exact word1_writes h (exec_brev r s)

end Sys2Proof.Machine
end
